-- ==== Sys2Proof/Word.lean ====
section
/-! DEFINITION. The word types of the hardware: bytes, 16-bit words, 20-bit physical addresses, and the two operand widths
(00_scope R8, R9). -/

namespace Sys2Proof

/-- A byte of memory, a byte half of a register, an 8-bit operand. -/
abbrev Byte := BitVec 8

/-- A register, a segment number, an offset, a 16-bit operand. -/
abbrev Word := BitVec 16

/-- A physical address: 20 bits, so all arithmetic on it wraps modulo 2^20 (20_memory R82). -/
abbrev Addr := BitVec 20

/-- The operand width `w` of 00_scope R9: 8 or 16 bits. -/
inductive Width where
  | byte
  | word
  deriving DecidableEq, Repr, Inhabited

/-- The number of bits of a width. -/
abbrev Width.bits : Width → Nat
  | .byte => 8
  | .word => 16

/-- The number of bytes of a width. -/
abbrev Width.bytes : Width → Nat
  | .byte => 1
  | .word => 2

end Sys2Proof
end

