-- ==== Sys2Proof/Config.lean ====
section
/-! DEFINITION. What one machine of this hardware fixes and the rules leave open: the parameter EXT186 and the free values.
The free values have no body, so no proof can see one (10_state R56; log 2, log 7). -/

namespace Sys2Proof

/-- The parameter EXT186 of 30_encoding R160. Its value for one machine is a field of State (log 3). -/
inductive Ext186 where
  /-- the default: the encodings of the class have no meaning -/
  | refuse
  /-- the encodings have the semantics of 47_post8086_ext R490-R495 -/
  | present
  /-- the encodings are unknown opcodes (30_encoding R155, R157) -/
  | absent
  deriving DecidableEq, Repr, Inhabited

/-- The bit the `n`-th draw yields: the `any` of 10_state R56, "a fresh free input of the step". -/
opaque Config.freeBit : Nat → Bool

/-- The byte a registered port's `read` returns at the `n`-th draw (46_io_processor_control R431: "it may return a different
value on every call"). -/
opaque Config.portByte : Nat → Word → Byte

/-- The byte a read of an unregistered port yields: "Unhandled reads yield 0xFF" (46_io_processor_control R431). -/
def Config.unhandledPort : Byte := 0xFF#8

/-- How many prefix bytes one step may fetch without reaching an opcode before it is stuck (70_reset_and_hazards R682). -/
def Config.prefixLimit : Nat := 65536

/-- The FAT12 geometry (48_fat12_translator R530): bytes per sector. -/
def Config.sectorSize : Nat := 512

/-- Total sectors of the volume (48_fat12_translator R530). -/
def Config.totalSectors : Nat := 2880

/-- Sectors of one FAT (48_fat12_translator R530). -/
def Config.fatSectors : Nat := 9

/-- First sector of FAT1 (48_fat12_translator R531). -/
def Config.fat1Start : Nat := 1

/-- First sector of FAT2 (48_fat12_translator R531). -/
def Config.fat2Start : Nat := 10

/-- First sector of the root directory (48_fat12_translator R531). -/
def Config.rootStart : Nat := 19

/-- Sectors of the root directory: 224 entries of 32 bytes (48_fat12_translator R531). -/
def Config.rootSectors : Nat := 14

/-- First sector of the data area (48_fat12_translator R531). -/
def Config.dataStart : Nat := 33

/-- `maxCluster` of 48_fat12_translator R533: the valid data clusters are 2 to 2848. -/
def Config.maxCluster : Nat := 2849

end Sys2Proof
end

