-- ==== Sys2Proof/Syntax.lean ====
section
/-! DEFINITION. The instructions as plain data. A row of spec/opcode_table.json is one constructor of `Instr` together with one
form of its operands (the forms `AluForm`, `TestForm`, `ShiftForm`, `CondDisp`, a width, a register number). The names are the
mnemonics of 30_encoding R150-R152; the operand letters in the docstrings are those of R150. -/

namespace Sys2Proof

/-- The 3-bit register number of an encoding. It selects `R16[i]` or `R8[i]` by the width of the operand (10_state R32, R33). -/
inductive RegNum where
  | n0 | n1 | n2 | n3 | n4 | n5 | n6 | n7
  deriving DecidableEq, Repr, Inhabited

/-- The eight 16-bit general registers (10_state R31). -/
inductive Reg16 where
  | ax | cx | dx | bx | sp | bp | si | di
  deriving DecidableEq, Repr, Inhabited

/-- The eight byte halves (10_state R33). -/
inductive Reg8 where
  | al | cl | dl | bl | ah | ch | dh | bh
  deriving DecidableEq, Repr, Inhabited

/-- The six segment registers (10_state R40). -/
inductive SReg where
  | es | cs | ss | ds | fs | gs
  deriving DecidableEq, Repr, Inhabited

/-- The repeat tag a prefix sets (10_state R61). -/
inductive Rep where
  /-- `F3`: repeat while equal -/
  | repe
  /-- `F2`: repeat while not equal -/
  | repne
  deriving DecidableEq, Repr, Inhabited

/-- The base of a memory operand, by `rm` (30_encoding R132). -/
inductive Base where
  | bxsi | bxdi | bpsi | bpdi | si | di | bp | bx
  deriving DecidableEq, Repr, Inhabited

/-- The displacement of a memory operand, by `mod` (30_encoding R133). -/
inductive Disp where
  /-- `mod = 0` -/
  | none
  /-- `mod = 1`: one byte, sign-extended -/
  | d8 (d : Byte)
  /-- `mod = 2`: two bytes -/
  | d16 (d : Word)
  deriving DecidableEq, Repr, Inhabited

/-- A memory operand of a ModR/M byte (30_encoding R130-R133). -/
inductive MemOp where
  /-- `mod = 0`, `rm = 6`: the 16-bit displacement is the whole offset -/
  | direct (off : Word)
  /-- a base and a displacement; the base `bp` without a displacement is no encoding (that byte is `direct`) -/
  | based (b : Base) (d : Disp)
  deriving DecidableEq, Repr, Inhabited

/-- The operand `E` of a ModR/M byte: a register number (`mod = 3`, 30_encoding R131) or a memory operand. -/
inductive Rm where
  | reg (r : RegNum)
  | mem (m : MemOp)
  deriving DecidableEq, Repr, Inhabited

/-- The forms of ADD, OR, ADC, SBB, AND, SUB, XOR, CMP (41_arithmetic, table at its head). -/
inductive AluForm where
  /-- `b+0`, `b+1`: op E, G -/
  | rmReg (w : Width) (e : Rm) (r : RegNum)
  /-- `b+2`, `b+3`: op G, E -/
  | regRm (w : Width) (r : RegNum) (e : Rm)
  /-- `b+4`: op AL, imm8 -/
  | alImm (imm : Byte)
  /-- `b+5`: op AX, imm16 -/
  | axImm (imm : Word)
  /-- `80 /n` (`alt = false`) and its second encoding `82 /n` (`alt = true`): op Eb, imm8 -/
  | rm8Imm (alt : Bool) (e : Rm) (imm : Byte)
  /-- `81 /n`: op Ev, imm16 -/
  | rm16Imm (e : Rm) (imm : Word)
  /-- `83 /n`: op Ev, imm8 sign-extended -/
  | rm16Simm (e : Rm) (imm : Byte)
  deriving DecidableEq, Repr, Inhabited

/-- The forms of TEST (42_logic R304). -/
inductive TestForm where
  /-- `84`, `85` -/
  | rmReg (w : Width) (e : Rm) (r : RegNum)
  /-- `A8` -/
  | alImm (imm : Byte)
  /-- `A9` -/
  | axImm (imm : Word)
  /-- `F6 /0` -/
  | rm8Imm (e : Rm) (imm : Byte)
  /-- `F7 /0` -/
  | rm16Imm (e : Rm) (imm : Word)
  deriving DecidableEq, Repr, Inhabited

/-- The forms of the group 2 shifts and rotates (43_shift_rotate R320). -/
inductive ShiftForm where
  /-- `D0`, `D1`: count 1 -/
  | one (w : Width) (e : Rm)
  /-- `D2`, `D3`: count CL -/
  | cl (w : Width) (e : Rm)
  /-- `C0`, `C1`: count imm8, class x186 (47_post8086_ext R492) -/
  | imm (w : Width) (e : Rm) (count : Byte)
  deriving DecidableEq, Repr, Inhabited

/-- The displacement of a conditional jump: `70+cc cb` (45_control_transfer R390) or `0F 80+cc cw` (47_post8086_ext R476). -/
inductive CondDisp where
  | rel8 (d : Byte)
  | rel16 (d : Word)
  deriving DecidableEq, Repr, Inhabited

/-- The instructions. -/
inductive Instr where
  -- two-operand arithmetic and logic (41_arithmetic R250-R254, 42_logic R300-R302)
  | add (f : AluForm)
  | or (f : AluForm)
  | adc (f : AluForm)
  | sbb (f : AluForm)
  | and (f : AluForm)
  | sub (f : AluForm)
  | xor (f : AluForm)
  | cmp (f : AluForm)
  -- one-operand arithmetic (41_arithmetic R255-R261, 42_logic R303)
  /-- `40+r` INC r16 -/
  | incReg (r : RegNum)
  /-- `FE /0`, `FF /0` -/
  | incRm (w : Width) (e : Rm)
  /-- `48+r` DEC r16 -/
  | decReg (r : RegNum)
  /-- `FE /1`, `FF /1` -/
  | decRm (w : Width) (e : Rm)
  /-- `F6 /2`, `F7 /2` -/
  | not (w : Width) (e : Rm)
  /-- `F6 /3`, `F7 /3` -/
  | neg (w : Width) (e : Rm)
  /-- `F6 /4`, `F7 /4` -/
  | mul (w : Width) (e : Rm)
  /-- `F6 /5`, `F7 /5` -/
  | imul (w : Width) (e : Rm)
  /-- `F6 /6`, `F7 /6` -/
  | div (w : Width) (e : Rm)
  /-- `F6 /7`, `F7 /7` -/
  | idiv (w : Width) (e : Rm)
  /-- `69 /r iw` IMUL Gv, Ev, imm16, class x186 -/
  | imulImm16 (r : RegNum) (e : Rm) (imm : Word)
  /-- `6B /r ib` IMUL Gv, Ev, simm8, class x186 -/
  | imulSimm8 (r : RegNum) (e : Rm) (imm : Byte)
  /-- `98` -/
  | cbw
  /-- `99` -/
  | cwd
  -- BCD adjust (41_arithmetic R270-R275)
  | daa
  | das
  | aaa
  | aas
  /-- `D4 ib` -/
  | aam (base : Byte)
  /-- `D5 ib` -/
  | aad (base : Byte)
  -- TEST (42_logic R304)
  | test (f : TestForm)
  -- shifts and rotates (43_shift_rotate R320-R327)
  | rol (f : ShiftForm)
  | ror (f : ShiftForm)
  | rcl (f : ShiftForm)
  | rcr (f : ShiftForm)
  | shl (f : ShiftForm)
  | shr (f : ShiftForm)
  | sal (f : ShiftForm)
  | sar (f : ShiftForm)
  -- MOV (40_data_transfer R200-R206)
  /-- `88`, `89` MOV E, G -/
  | movRmReg (w : Width) (e : Rm) (r : RegNum)
  /-- `8A`, `8B` MOV G, E -/
  | movRegRm (w : Width) (r : RegNum) (e : Rm)
  /-- `B0+r ib` -/
  | movRegImm8 (r : RegNum) (imm : Byte)
  /-- `B8+r iw` -/
  | movRegImm16 (r : RegNum) (imm : Word)
  /-- `C6 /0 ib` -/
  | movRmImm8 (e : Rm) (imm : Byte)
  /-- `C7 /0 iw` -/
  | movRmImm16 (e : Rm) (imm : Word)
  /-- `A0`, `A1` MOV AL/AX, moffs -/
  | movAccMoffs (w : Width) (off : Word)
  /-- `A2`, `A3` MOV moffs, AL/AX -/
  | movMoffsAcc (w : Width) (off : Word)
  /-- `8C /r` MOV Ev, Sreg -/
  | movRmSeg (e : Rm) (sr : SReg)
  /-- `8E /r` MOV Sreg, Ev -/
  | movSegRm (sr : SReg) (e : Rm)
  -- PUSH and POP (40_data_transfer R208-R212, 47_post8086_ext R473, R490, R495)
  /-- `50+r` -/
  | pushReg (r : RegNum)
  /-- `FF /6` -/
  | pushRm (e : Rm)
  /-- `06`, `0E`, `16`, `1E`: PUSH ES, CS, SS, DS -/
  | pushSeg (sr : SReg)
  /-- `68 iw` -/
  | pushImm16 (imm : Word)
  /-- `6A ib`, class x186 -/
  | pushSimm8 (imm : Byte)
  /-- `0F A0`, class x186 -/
  | pushFs
  /-- `0F A8`, class x186 -/
  | pushGs
  /-- `58+r` -/
  | popReg (r : RegNum)
  /-- `8F /0` -/
  | popRm (e : Rm)
  /-- `07`, `17`, `1F`: POP ES, SS, DS -/
  | popSeg (sr : SReg)
  /-- `0F A1`, class x186 -/
  | popFs
  /-- `0F A9`, class x186 -/
  | popGs
  -- exchange, table look-up, address loads, flag transfers (40_data_transfer R213-R226)
  /-- `86`, `87` XCHG E, G -/
  | xchgRm (w : Width) (e : Rm) (r : RegNum)
  /-- `91`-`97` XCHG AX, r16 -/
  | xchgAx (r : RegNum)
  | xlat
  /-- `8D /r` LEA Gv, M -/
  | lea (r : RegNum) (m : MemOp)
  /-- `C5 /r` LDS Gv, M -/
  | lds (r : RegNum) (m : MemOp)
  /-- `C4 /r` LES Gv, M -/
  | les (r : RegNum) (m : MemOp)
  | lahf
  | sahf
  | pushf
  | popf
  -- string instructions (44_string R350-R360, 47_post8086_ext R493, R494)
  | movsb
  | movsw
  | cmpsb
  | cmpsw
  | stosb
  | stosw
  | lodsb
  | lodsw
  | scasb
  | scasw
  /-- `6C`, class x186 -/
  | insb
  /-- `6D`, class x186 -/
  | insw
  /-- `6E`, class x186 -/
  | outsb
  /-- `6F`, class x186 -/
  | outsw
  -- jumps, calls, returns (45_control_transfer R380-R388)
  /-- `EB cb` -/
  | jmpShort (d : Byte)
  /-- `E9 cw` -/
  | jmpNear (d : Word)
  /-- `FF /4` -/
  | jmpRm (e : Rm)
  /-- `EA cd` -/
  | jmpFar (off seg : Word)
  /-- `FF /5` -/
  | jmpFarMem (m : MemOp)
  /-- `E8 cw` -/
  | callNear (d : Word)
  /-- `FF /2` -/
  | callRm (e : Rm)
  /-- `9A cd` -/
  | callFar (off seg : Word)
  /-- `FF /3` -/
  | callFarMem (m : MemOp)
  /-- `C3` -/
  | ret
  /-- `C2 iw` -/
  | retImm (n : Word)
  /-- `CB` -/
  | retf
  /-- `CA iw` -/
  | retfImm (n : Word)
  -- conditional jumps, cc = 0 to F (45_control_transfer R390, 47_post8086_ext R476)
  | jo (d : CondDisp)
  | jno (d : CondDisp)
  | jb (d : CondDisp)
  | jae (d : CondDisp)
  | je (d : CondDisp)
  | jne (d : CondDisp)
  | jbe (d : CondDisp)
  | ja (d : CondDisp)
  | js (d : CondDisp)
  | jns (d : CondDisp)
  | jp (d : CondDisp)
  | jnp (d : CondDisp)
  | jl (d : CondDisp)
  | jge (d : CondDisp)
  | jle (d : CondDisp)
  | jg (d : CondDisp)
  -- loops (45_control_transfer R391-R394)
  | loopne (d : Byte)
  | loope (d : Byte)
  | loop (d : Byte)
  | jcxz (d : Byte)
  -- software interrupts and return (45_control_transfer R400-R403)
  | int (n : Byte)
  | int3
  | into
  | iret
  -- port I/O (46_io_processor_control R434, R435)
  /-- `E4`, `E5` -/
  | inImm (w : Width) (port : Byte)
  /-- `EC`, `ED` -/
  | inDx (w : Width)
  /-- `E6`, `E7` -/
  | outImm (w : Width) (port : Byte)
  /-- `EE`, `EF` -/
  | outDx (w : Width)
  -- flag instructions and processor control (46_io_processor_control R436-R447)
  | clc
  | stc
  | cmc
  | cld
  | std
  | cli
  | sti
  | hlt
  | nop
  | wait
  /-- `D8`-`DF`: the low three opcode bits, the `reg` field and the operand, all ignored -/
  | esc (op : RegNum) (reg : RegNum) (e : Rm)
  -- post-8086 opcodes (47_post8086_ext R470-R478)
  | pusha
  | popa
  /-- `62 /r` BOUND Gv, M -/
  | bound (r : RegNum) (m : MemOp)
  /-- `C8 iw ib` -/
  | enter (size : Word) (level : Byte)
  | leave
  /-- `0F B6`, `0F B7`; the width is that of the source -/
  | movzx (w : Width) (r : RegNum) (e : Rm)
  /-- `0F BE`, `0F BF`; the width is that of the source -/
  | movsx (w : Width) (r : RegNum) (e : Rm)
  -- prefixes (30_encoding R123): each is one byte, and the step goes on fetching after it
  | segES
  | segCS
  | segSS
  | segDS
  | segFS
  | segGS
  | lock
  | repne
  | rep
  -- encodings without an instruction
  /-- an unknown primary opcode (30_encoding R155, R156) -/
  | unknown (op : Byte)
  /-- `0F` and an unlisted second byte (30_encoding R157) -/
  | unknown0F (op : Byte)
  /-- a reserved encoding (30_encoding R139, R159), kept as its opcode byte and its ModR/M byte -/
  | reserved (op modrm : Byte)
  deriving DecidableEq, Repr, Inhabited

/-- The prefix instructions: after one of them a step goes on fetching (30_encoding R121, R123). -/
def Instr.isPrefix : Instr → Bool
  | .segES | .segCS | .segSS | .segDS | .segFS | .segGS | .lock | .repne | .rep => true
  | _ => false

end Sys2Proof
end

