-- ==== Sys2Proof/WellFormed.lean ====
section
/-! DEFINITION. Which terms of `Instr` are instructions of the machine: those that some byte sequence encodes
(30_encoding R132, R133, R139, R150-R152, R156-R160). The parameter EXT186 decides which of the x186 rows exist. -/

namespace Sys2Proof

/-- `mod = 0`, `rm = 6` is the direct form, so the base BP always has a displacement (30_encoding R132). -/
def MemOp.wf : MemOp → Bool
  | .based .bp .none => false
  | _ => true

def Rm.wf : Rm → Bool
  | .reg _ => true
  | .mem m => m.wf

def AluForm.wf : AluForm → Bool
  | .rmReg _ e _ | .regRm _ _ e | .rm8Imm _ e _ | .rm16Imm e _ | .rm16Simm e _ => e.wf
  | .alImm _ | .axImm _ => true

def TestForm.wf : TestForm → Bool
  | .rmReg _ e _ | .rm8Imm e _ | .rm16Imm e _ => e.wf
  | .alImm _ | .axImm _ => true

/-- The immediate-count forms are rows of class x186: with EXT186 = absent their bytes are unknown opcodes. -/
def ShiftForm.wf (x : Ext186) : ShiftForm → Bool
  | .one _ e | .cl _ e => e.wf
  | .imm _ e _ => x != .absent && e.wf

/-- The x186 primary opcodes (30_encoding R160). -/
def x186Primary (op : Byte) : Bool :=
  op ∈ [0x69#8, 0x6A#8, 0x6B#8, 0x6C#8, 0x6D#8, 0x6E#8, 0x6F#8, 0xC0#8, 0xC1#8]

/-- The x186 opcodes behind `0F` (30_encoding R160). -/
def x186Second (op : Byte) : Bool :=
  op ∈ [0xA0#8, 0xA1#8, 0xA8#8, 0xA9#8]

/-- The unknown primary opcodes (30_encoding R156). -/
def unknownPrimary (x : Ext186) (op : Byte) : Bool :=
  op ∈ [0x63#8, 0x66#8, 0x67#8, 0xD6#8, 0xF1#8] || (x == .absent && x186Primary op)

/-- The second bytes that 30_encoding R151 does not list (R157). -/
def unknownSecond (x : Ext186) (op : Byte) : Bool :=
  !(op.toNat / 16 == 8 || op ∈ [0xB6#8, 0xB7#8, 0xBE#8, 0xBF#8] || (x != .absent && x186Second op))

/-- The reserved encodings of 30_encoding R139 and R159, by opcode byte and ModR/M byte. -/
def reservedEncoding (op modrm : Byte) : Bool :=
  let reg := (modrm.extractLsb' 3 3).toNat
  let registerForm := (modrm.extractLsb' 6 2).toNat == 3
  match op.toNat with
  | 0x8F | 0xC6 | 0xC7 => reg != 0
  | 0xF6 | 0xF7 => reg == 1
  | 0xFE => decide (2 ≤ reg)
  | 0xFF => reg == 7 || (registerForm && (reg == 3 || reg == 5))
  | 0x8D | 0xC4 | 0xC5 | 0x62 => registerForm
  | 0x8C | 0x8E => decide (6 ≤ reg)
  | _ => false

/-- Well-formed for a machine whose EXT186 is `x`. -/
def Instr.wf (x : Ext186) : Instr → Bool
  | .add f | .or f | .adc f | .sbb f | .and f | .sub f | .xor f | .cmp f => f.wf
  | .incReg _ | .decReg _ => true
  | .incRm _ e | .decRm _ e | .not _ e | .neg _ e | .mul _ e | .imul _ e | .div _ e | .idiv _ e => e.wf
  | .imulImm16 _ e _ | .imulSimm8 _ e _ => x != .absent && e.wf
  | .cbw | .cwd | .daa | .das | .aaa | .aas | .aam _ | .aad _ => true
  | .test f => f.wf
  | .rol f | .ror f | .rcl f | .rcr f | .shl f | .shr f | .sal f | .sar f => f.wf x
  | .movRmReg _ e _ | .movRegRm _ _ e | .movRmImm8 e _ | .movRmImm16 e _ | .movRmSeg e _ | .movSegRm _ e => e.wf
  | .movRegImm8 _ _ | .movRegImm16 _ _ | .movAccMoffs _ _ | .movMoffsAcc _ _ => true
  | .pushReg _ | .pushImm16 _ | .popReg _ => true
  | .pushRm e | .popRm e => e.wf
  -- FS and GS have encodings of their own, and there is no POP CS (40_data_transfer R211, R212)
  | .pushSeg sr => sr != .fs && sr != .gs
  | .popSeg sr => sr != .fs && sr != .gs && sr != .cs
  | .pushSimm8 _ | .pushFs | .pushGs | .popFs | .popGs => x != .absent
  | .xchgRm _ e _ => e.wf
  -- `90` is NOP (40_data_transfer R214)
  | .xchgAx r => r != .n0
  | .lea _ m | .lds _ m | .les _ m => m.wf
  | .xlat | .lahf | .sahf | .pushf | .popf => true
  | .movsb | .movsw | .cmpsb | .cmpsw | .stosb | .stosw | .lodsb | .lodsw | .scasb | .scasw => true
  | .insb | .insw | .outsb | .outsw => x != .absent
  | .jmpShort _ | .jmpNear _ | .jmpFar _ _ | .callNear _ | .callFar _ _ | .ret | .retImm _ | .retf | .retfImm _ => true
  | .jmpRm e | .callRm e => e.wf
  | .jmpFarMem m | .callFarMem m => m.wf
  | .jo _ | .jno _ | .jb _ | .jae _ | .je _ | .jne _ | .jbe _ | .ja _ => true
  | .js _ | .jns _ | .jp _ | .jnp _ | .jl _ | .jge _ | .jle _ | .jg _ => true
  | .loopne _ | .loope _ | .loop _ | .jcxz _ => true
  | .int _ | .int3 | .into | .iret => true
  | .inImm _ _ | .inDx _ | .outImm _ _ | .outDx _ => true
  | .clc | .stc | .cmc | .cld | .std | .cli | .sti | .hlt | .nop | .wait => true
  | .esc _ _ e => e.wf
  | .pusha | .popa | .enter _ _ | .leave => true
  | .bound _ m => m.wf
  | .movzx _ _ e | .movsx _ _ e => e.wf
  | .segES | .segCS | .segSS | .segDS | .segFS | .segGS | .lock | .repne | .rep => true
  | .unknown op => unknownPrimary x op
  | .unknown0F op => unknownSecond x op
  | .reserved op modrm => reservedEncoding op modrm

end Sys2Proof
end

