-- ==== Sys2Proof/Decode.lean ====
section
/-! DEFINITION. From bytes to an instruction, and back. `decode` reads one prefix byte or one instruction without its prefixes
from the front of a byte list and answers it with the rest of the list; it is total and its one rejection is `truncated`.
`encode` is written from the same tables of the spec (30_encoding R130-R133, R138, R140, R141, R150-R152). -/

namespace Sys2Proof

/-- Why `decode` answers no instruction. -/
inductive DecodeError where
  /-- the byte list ends inside the instruction; a step never meets it, since it fetches as many bytes as the longest
  instruction has (safe) -/
  | truncated
  deriving DecidableEq, Repr, Inhabited

/-- An instruction and the bytes after it, or why there is none. -/
abbrev DecodeResult := Except DecodeError (Instr × List Byte)

/-! ## Fields -/

/-- The register number of three bits. -/
def RegNum.ofBits (b : BitVec 3) : RegNum :=
  match b.toNat with
  | 0 => .n0 | 1 => .n1 | 2 => .n2 | 3 => .n3 | 4 => .n4 | 5 => .n5 | 6 => .n6 | _ => .n7

/-- The three bits of a register number. -/
def RegNum.bits : RegNum → BitVec 3
  | .n0 => 0#3 | .n1 => 1#3 | .n2 => 2#3 | .n3 => 3#3 | .n4 => 4#3 | .n5 => 5#3 | .n6 => 6#3 | .n7 => 7#3

/-- The base of a memory operand by `rm` (30_encoding R132). -/
def Base.ofNum : RegNum → Base
  | .n0 => .bxsi | .n1 => .bxdi | .n2 => .bpsi | .n3 => .bpdi | .n4 => .si | .n5 => .di | .n6 => .bp | .n7 => .bx

/-- The `rm` of a base (30_encoding R132). -/
def Base.num : Base → RegNum
  | .bxsi => .n0 | .bxdi => .n1 | .bpsi => .n2 | .bpdi => .n3 | .si => .n4 | .di => .n5 | .bp => .n6 | .bx => .n7

/-- `Sreg[reg]`: numbers 6 and 7 select nothing (10_state R40, 30_encoding R139). -/
def SReg.ofNum : RegNum → Option SReg
  | .n0 => some .es | .n1 => some .cs | .n2 => some .ss | .n3 => some .ds | .n4 => some .fs | .n5 => some .gs
  | .n6 | .n7 => none

/-- The number of a segment register (10_state R40). -/
def SReg.num : SReg → RegNum
  | .es => .n0 | .cs => .n1 | .ss => .n2 | .ds => .n3 | .fs => .n4 | .gs => .n5

/-! ## Reading bytes -/

/-- One byte of the instruction. -/
def imm8 (bs : List Byte) (k : Byte → List Byte → DecodeResult) : DecodeResult :=
  match bs with
  | [] => .error .truncated
  | b :: r => k b r

/-- Two bytes, low byte first (30_encoding R122, R140). -/
def imm16 (bs : List Byte) (k : Word → List Byte → DecodeResult) : DecodeResult :=
  imm8 bs fun lo r => imm8 r fun hi r => k (hi ++ lo) r

/-- The `mod` field of a ModR/M byte (30_encoding R130). -/
def modField (m : Byte) : Nat := (m.extractLsb' 6 2).toNat

/-- The `reg` field of a ModR/M byte. -/
def regField (m : Byte) : RegNum := RegNum.ofBits (m.extractLsb' 3 3)

/-- The `rm` field of a ModR/M byte. -/
def rmField (m : Byte) : RegNum := RegNum.ofBits (m.extractLsb' 0 3)

/-- `mod = 3` selects a register (30_encoding R131). -/
def isRegisterForm (m : Byte) : Bool := modField m == 3

/-- The memory operand of a ModR/M byte `m` that is no register form, with its displacement from `r` (30_encoding R130, R133). -/
def memOperand (m : Byte) (r : List Byte) (k : MemOp → List Byte → DecodeResult) : DecodeResult :=
  match modField m with
  | 0 =>
    match rmField m with
    | .n6 => imm16 r fun d r => k (.direct d) r
    | b => k (.based (Base.ofNum b) .none) r
  | 1 => imm8 r fun d r => k (.based (Base.ofNum (rmField m)) (.d8 d)) r
  | _ => imm16 r fun d r => k (.based (Base.ofNum (rmField m)) (.d16 d)) r

/-- The operand `E` of a ModR/M byte `m`, with its displacement from `r`. -/
def operand (m : Byte) (r : List Byte) (k : Rm → List Byte → DecodeResult) : DecodeResult :=
  if isRegisterForm m then k (.reg (rmField m)) r else memOperand m r fun a r => k (.mem a) r

/-- `modrm()` of 30_encoding R130: the ModR/M byte and its displacement give the `reg` field and the operand `E`. -/
def modrm (bs : List Byte) (k : RegNum → Rm → List Byte → DecodeResult) : DecodeResult :=
  imm8 bs fun m r => operand m r fun e r => k (regField m) e r

/-- The memory-only operand `M` of 30_encoding R150: its register form is reserved (R159). -/
def modrmMem (op : Byte) (bs : List Byte) (k : RegNum → MemOp → List Byte → DecodeResult) : DecodeResult :=
  imm8 bs fun m r =>
    if isRegisterForm m then .ok (.reserved op m, r) else memOperand m r fun a r => k (regField m) a r

/-- `E` and the segment register `Sw` of 30_encoding R150: numbers 6 and 7 are reserved (R139). -/
def modrmSeg (op : Byte) (bs : List Byte) (k : SReg → Rm → List Byte → DecodeResult) : DecodeResult :=
  imm8 bs fun m r =>
    match SReg.ofNum (regField m) with
    | some sr => operand m r fun e r => k sr e r
    | none => .ok (.reserved op m, r)

/-- An opcode of class x186: unknown when EXT186 is `absent` (30_encoding R160). -/
def x186 (x : Ext186) (op : Byte) (bs : List Byte) (k : DecodeResult) : DecodeResult :=
  match x with
  | .absent => .ok (.unknown op, bs)
  | .refuse | .present => k

/-- An opcode of class x186 behind `0F` (30_encoding R160). -/
def x186Escape (x : Ext186) (op : Byte) (bs : List Byte) (i : Instr) : DecodeResult :=
  match x with
  | .absent => .ok (.unknown0F op, bs)
  | .refuse | .present => .ok (i, bs)

/-! ## Groups (30_encoding R152) -/

/-- Group 1: the eight two-operand instructions by `reg`. -/
def aluOf (reg : RegNum) (f : AluForm) : Instr :=
  match reg with
  | .n0 => .add f | .n1 => .or f | .n2 => .adc f | .n3 => .sbb f | .n4 => .and f | .n5 => .sub f | .n6 => .xor f | .n7 => .cmp f

/-- Group 2: the eight shifts and rotates by `reg`. -/
def shiftOf (reg : RegNum) (f : ShiftForm) : Instr :=
  match reg with
  | .n0 => .rol f | .n1 => .ror f | .n2 => .rcl f | .n3 => .rcr f | .n4 => .shl f | .n5 => .shr f | .n6 => .sal f | .n7 => .sar f

/-- What one group opcode does with a ModR/M byte: read the rest of the instruction, or none for a reserved sub-opcode. -/
abbrev Group := Byte → Option (List Byte → DecodeResult)

/-- A group opcode: a sub-opcode without an instruction is reserved (30_encoding R159). -/
def group (op : Byte) (bs : List Byte) (g : Group) : DecodeResult :=
  imm8 bs fun m r =>
    match g m with
    | some k => k r
    | none => .ok (.reserved op m, r)

/-- `8F`, group 1A. -/
def decode8F : Group := fun m =>
  match regField m with
  | .n0 => some fun r => operand m r fun e r => .ok (.popRm e, r)
  | _ => none

/-- `C6`, group 11. -/
def decodeC6 : Group := fun m =>
  match regField m with
  | .n0 => some fun r => operand m r fun e r => imm8 r fun v r => .ok (.movRmImm8 e v, r)
  | _ => none

/-- `C7`, group 11. -/
def decodeC7 : Group := fun m =>
  match regField m with
  | .n0 => some fun r => operand m r fun e r => imm16 r fun v r => .ok (.movRmImm16 e v, r)
  | _ => none

/-- `F6`, group 3. -/
def decodeF6 : Group := fun m =>
  match regField m with
  | .n0 => some fun r => operand m r fun e r => imm8 r fun v r => .ok (.test (.rm8Imm e v), r)
  | .n1 => none
  | .n2 => some fun r => operand m r fun e r => .ok (.not .byte e, r)
  | .n3 => some fun r => operand m r fun e r => .ok (.neg .byte e, r)
  | .n4 => some fun r => operand m r fun e r => .ok (.mul .byte e, r)
  | .n5 => some fun r => operand m r fun e r => .ok (.imul .byte e, r)
  | .n6 => some fun r => operand m r fun e r => .ok (.div .byte e, r)
  | .n7 => some fun r => operand m r fun e r => .ok (.idiv .byte e, r)

/-- `F7`, group 3. -/
def decodeF7 : Group := fun m =>
  match regField m with
  | .n0 => some fun r => operand m r fun e r => imm16 r fun v r => .ok (.test (.rm16Imm e v), r)
  | .n1 => none
  | .n2 => some fun r => operand m r fun e r => .ok (.not .word e, r)
  | .n3 => some fun r => operand m r fun e r => .ok (.neg .word e, r)
  | .n4 => some fun r => operand m r fun e r => .ok (.mul .word e, r)
  | .n5 => some fun r => operand m r fun e r => .ok (.imul .word e, r)
  | .n6 => some fun r => operand m r fun e r => .ok (.div .word e, r)
  | .n7 => some fun r => operand m r fun e r => .ok (.idiv .word e, r)

/-- `FE`, group 4. -/
def decodeFE : Group := fun m =>
  match regField m with
  | .n0 => some fun r => operand m r fun e r => .ok (.incRm .byte e, r)
  | .n1 => some fun r => operand m r fun e r => .ok (.decRm .byte e, r)
  | _ => none

/-- `FF`, group 5; the far forms take a memory operand only. -/
def decodeFF : Group := fun m =>
  match regField m with
  | .n0 => some fun r => operand m r fun e r => .ok (.incRm .word e, r)
  | .n1 => some fun r => operand m r fun e r => .ok (.decRm .word e, r)
  | .n2 => some fun r => operand m r fun e r => .ok (.callRm e, r)
  | .n3 => if isRegisterForm m then none else some fun r => memOperand m r fun a r => .ok (.callFarMem a, r)
  | .n4 => some fun r => operand m r fun e r => .ok (.jmpRm e, r)
  | .n5 => if isRegisterForm m then none else some fun r => memOperand m r fun a r => .ok (.jmpFarMem a, r)
  | .n6 => some fun r => operand m r fun e r => .ok (.pushRm e, r)
  | .n7 => none

/-! ## The opcode map -/

/-- 30_encoding R151, the second byte after `0F`, and R157. -/
def decodeSecond (x : Ext186) (op : Byte) (bs : List Byte) : DecodeResult :=
  match op.toNat with
  | 0x80 => imm16 bs fun d r => .ok (.jo (.rel16 d), r)
  | 0x81 => imm16 bs fun d r => .ok (.jno (.rel16 d), r)
  | 0x82 => imm16 bs fun d r => .ok (.jb (.rel16 d), r)
  | 0x83 => imm16 bs fun d r => .ok (.jae (.rel16 d), r)
  | 0x84 => imm16 bs fun d r => .ok (.je (.rel16 d), r)
  | 0x85 => imm16 bs fun d r => .ok (.jne (.rel16 d), r)
  | 0x86 => imm16 bs fun d r => .ok (.jbe (.rel16 d), r)
  | 0x87 => imm16 bs fun d r => .ok (.ja (.rel16 d), r)
  | 0x88 => imm16 bs fun d r => .ok (.js (.rel16 d), r)
  | 0x89 => imm16 bs fun d r => .ok (.jns (.rel16 d), r)
  | 0x8A => imm16 bs fun d r => .ok (.jp (.rel16 d), r)
  | 0x8B => imm16 bs fun d r => .ok (.jnp (.rel16 d), r)
  | 0x8C => imm16 bs fun d r => .ok (.jl (.rel16 d), r)
  | 0x8D => imm16 bs fun d r => .ok (.jge (.rel16 d), r)
  | 0x8E => imm16 bs fun d r => .ok (.jle (.rel16 d), r)
  | 0x8F => imm16 bs fun d r => .ok (.jg (.rel16 d), r)
  | 0xA0 => x186Escape x op bs .pushFs
  | 0xA1 => x186Escape x op bs .popFs
  | 0xA8 => x186Escape x op bs .pushGs
  | 0xA9 => x186Escape x op bs .popGs
  | 0xB6 => modrm bs fun reg e r => .ok (.movzx .byte reg e, r)
  | 0xB7 => modrm bs fun reg e r => .ok (.movzx .word reg e, r)
  | 0xBE => modrm bs fun reg e r => .ok (.movsx .byte reg e, r)
  | 0xBF => modrm bs fun reg e r => .ok (.movsx .word reg e, r)
  | _ => .ok (.unknown0F op, bs)

/-- The `0F` escape. -/
def decode0F (x : Ext186) (bs : List Byte) : DecodeResult :=
  imm8 bs fun op r => decodeSecond x op r

/-- 30_encoding R150, primary opcodes 00 to 1F. -/
def decode00to1F (x : Ext186) (op : Byte) (bs : List Byte) : DecodeResult :=
  match op.toNat with
  | 0x00 => modrm bs fun reg e r => .ok (.add (.rmReg .byte e reg), r)
  | 0x01 => modrm bs fun reg e r => .ok (.add (.rmReg .word e reg), r)
  | 0x02 => modrm bs fun reg e r => .ok (.add (.regRm .byte reg e), r)
  | 0x03 => modrm bs fun reg e r => .ok (.add (.regRm .word reg e), r)
  | 0x04 => imm8 bs fun v r => .ok (.add (.alImm v), r)
  | 0x05 => imm16 bs fun v r => .ok (.add (.axImm v), r)
  | 0x06 => .ok (.pushSeg .es, bs)
  | 0x07 => .ok (.popSeg .es, bs)
  | 0x08 => modrm bs fun reg e r => .ok (.or (.rmReg .byte e reg), r)
  | 0x09 => modrm bs fun reg e r => .ok (.or (.rmReg .word e reg), r)
  | 0x0A => modrm bs fun reg e r => .ok (.or (.regRm .byte reg e), r)
  | 0x0B => modrm bs fun reg e r => .ok (.or (.regRm .word reg e), r)
  | 0x0C => imm8 bs fun v r => .ok (.or (.alImm v), r)
  | 0x0D => imm16 bs fun v r => .ok (.or (.axImm v), r)
  | 0x0E => .ok (.pushSeg .cs, bs)
  | 0x0F => decode0F x bs
  | 0x10 => modrm bs fun reg e r => .ok (.adc (.rmReg .byte e reg), r)
  | 0x11 => modrm bs fun reg e r => .ok (.adc (.rmReg .word e reg), r)
  | 0x12 => modrm bs fun reg e r => .ok (.adc (.regRm .byte reg e), r)
  | 0x13 => modrm bs fun reg e r => .ok (.adc (.regRm .word reg e), r)
  | 0x14 => imm8 bs fun v r => .ok (.adc (.alImm v), r)
  | 0x15 => imm16 bs fun v r => .ok (.adc (.axImm v), r)
  | 0x16 => .ok (.pushSeg .ss, bs)
  | 0x17 => .ok (.popSeg .ss, bs)
  | 0x18 => modrm bs fun reg e r => .ok (.sbb (.rmReg .byte e reg), r)
  | 0x19 => modrm bs fun reg e r => .ok (.sbb (.rmReg .word e reg), r)
  | 0x1A => modrm bs fun reg e r => .ok (.sbb (.regRm .byte reg e), r)
  | 0x1B => modrm bs fun reg e r => .ok (.sbb (.regRm .word reg e), r)
  | 0x1C => imm8 bs fun v r => .ok (.sbb (.alImm v), r)
  | 0x1D => imm16 bs fun v r => .ok (.sbb (.axImm v), r)
  | 0x1E => .ok (.pushSeg .ds, bs)
  | _ => .ok (.popSeg .ds, bs)

/-- 30_encoding R150, primary opcodes 20 to 3F. -/
def decode20to3F (op : Byte) (bs : List Byte) : DecodeResult :=
  match op.toNat with
  | 0x20 => modrm bs fun reg e r => .ok (.and (.rmReg .byte e reg), r)
  | 0x21 => modrm bs fun reg e r => .ok (.and (.rmReg .word e reg), r)
  | 0x22 => modrm bs fun reg e r => .ok (.and (.regRm .byte reg e), r)
  | 0x23 => modrm bs fun reg e r => .ok (.and (.regRm .word reg e), r)
  | 0x24 => imm8 bs fun v r => .ok (.and (.alImm v), r)
  | 0x25 => imm16 bs fun v r => .ok (.and (.axImm v), r)
  | 0x26 => .ok (.segES, bs)
  | 0x27 => .ok (.daa, bs)
  | 0x28 => modrm bs fun reg e r => .ok (.sub (.rmReg .byte e reg), r)
  | 0x29 => modrm bs fun reg e r => .ok (.sub (.rmReg .word e reg), r)
  | 0x2A => modrm bs fun reg e r => .ok (.sub (.regRm .byte reg e), r)
  | 0x2B => modrm bs fun reg e r => .ok (.sub (.regRm .word reg e), r)
  | 0x2C => imm8 bs fun v r => .ok (.sub (.alImm v), r)
  | 0x2D => imm16 bs fun v r => .ok (.sub (.axImm v), r)
  | 0x2E => .ok (.segCS, bs)
  | 0x2F => .ok (.das, bs)
  | 0x30 => modrm bs fun reg e r => .ok (.xor (.rmReg .byte e reg), r)
  | 0x31 => modrm bs fun reg e r => .ok (.xor (.rmReg .word e reg), r)
  | 0x32 => modrm bs fun reg e r => .ok (.xor (.regRm .byte reg e), r)
  | 0x33 => modrm bs fun reg e r => .ok (.xor (.regRm .word reg e), r)
  | 0x34 => imm8 bs fun v r => .ok (.xor (.alImm v), r)
  | 0x35 => imm16 bs fun v r => .ok (.xor (.axImm v), r)
  | 0x36 => .ok (.segSS, bs)
  | 0x37 => .ok (.aaa, bs)
  | 0x38 => modrm bs fun reg e r => .ok (.cmp (.rmReg .byte e reg), r)
  | 0x39 => modrm bs fun reg e r => .ok (.cmp (.rmReg .word e reg), r)
  | 0x3A => modrm bs fun reg e r => .ok (.cmp (.regRm .byte reg e), r)
  | 0x3B => modrm bs fun reg e r => .ok (.cmp (.regRm .word reg e), r)
  | 0x3C => imm8 bs fun v r => .ok (.cmp (.alImm v), r)
  | 0x3D => imm16 bs fun v r => .ok (.cmp (.axImm v), r)
  | 0x3E => .ok (.segDS, bs)
  | _ => .ok (.aas, bs)

/-- 30_encoding R150, primary opcodes 40 to 5F. -/
def decode40to5F (op : Byte) (bs : List Byte) : DecodeResult :=
  match op.toNat with
  | 0x40 => .ok (.incReg .n0, bs)
  | 0x41 => .ok (.incReg .n1, bs)
  | 0x42 => .ok (.incReg .n2, bs)
  | 0x43 => .ok (.incReg .n3, bs)
  | 0x44 => .ok (.incReg .n4, bs)
  | 0x45 => .ok (.incReg .n5, bs)
  | 0x46 => .ok (.incReg .n6, bs)
  | 0x47 => .ok (.incReg .n7, bs)
  | 0x48 => .ok (.decReg .n0, bs)
  | 0x49 => .ok (.decReg .n1, bs)
  | 0x4A => .ok (.decReg .n2, bs)
  | 0x4B => .ok (.decReg .n3, bs)
  | 0x4C => .ok (.decReg .n4, bs)
  | 0x4D => .ok (.decReg .n5, bs)
  | 0x4E => .ok (.decReg .n6, bs)
  | 0x4F => .ok (.decReg .n7, bs)
  | 0x50 => .ok (.pushReg .n0, bs)
  | 0x51 => .ok (.pushReg .n1, bs)
  | 0x52 => .ok (.pushReg .n2, bs)
  | 0x53 => .ok (.pushReg .n3, bs)
  | 0x54 => .ok (.pushReg .n4, bs)
  | 0x55 => .ok (.pushReg .n5, bs)
  | 0x56 => .ok (.pushReg .n6, bs)
  | 0x57 => .ok (.pushReg .n7, bs)
  | 0x58 => .ok (.popReg .n0, bs)
  | 0x59 => .ok (.popReg .n1, bs)
  | 0x5A => .ok (.popReg .n2, bs)
  | 0x5B => .ok (.popReg .n3, bs)
  | 0x5C => .ok (.popReg .n4, bs)
  | 0x5D => .ok (.popReg .n5, bs)
  | 0x5E => .ok (.popReg .n6, bs)
  | _ => .ok (.popReg .n7, bs)

/-- 30_encoding R150, primary opcodes 60 to 7F. -/
def decode60to7F (x : Ext186) (op : Byte) (bs : List Byte) : DecodeResult :=
  match op.toNat with
  | 0x60 => .ok (.pusha, bs)
  | 0x61 => .ok (.popa, bs)
  | 0x62 => modrmMem 0x62 bs fun reg a r => .ok (.bound reg a, r)
  | 0x63 => .ok (.unknown 0x63, bs)
  | 0x64 => .ok (.segFS, bs)
  | 0x65 => .ok (.segGS, bs)
  | 0x66 => .ok (.unknown 0x66, bs)
  | 0x67 => .ok (.unknown 0x67, bs)
  | 0x68 => imm16 bs fun v r => .ok (.pushImm16 v, r)
  | 0x69 => x186 x 0x69 bs (modrm bs fun reg e r => imm16 r fun v r => .ok (.imulImm16 reg e v, r))
  | 0x6A => x186 x 0x6A bs (imm8 bs fun v r => .ok (.pushSimm8 v, r))
  | 0x6B => x186 x 0x6B bs (modrm bs fun reg e r => imm8 r fun v r => .ok (.imulSimm8 reg e v, r))
  | 0x6C => x186 x 0x6C bs (.ok (.insb, bs))
  | 0x6D => x186 x 0x6D bs (.ok (.insw, bs))
  | 0x6E => x186 x 0x6E bs (.ok (.outsb, bs))
  | 0x6F => x186 x 0x6F bs (.ok (.outsw, bs))
  | 0x70 => imm8 bs fun d r => .ok (.jo (.rel8 d), r)
  | 0x71 => imm8 bs fun d r => .ok (.jno (.rel8 d), r)
  | 0x72 => imm8 bs fun d r => .ok (.jb (.rel8 d), r)
  | 0x73 => imm8 bs fun d r => .ok (.jae (.rel8 d), r)
  | 0x74 => imm8 bs fun d r => .ok (.je (.rel8 d), r)
  | 0x75 => imm8 bs fun d r => .ok (.jne (.rel8 d), r)
  | 0x76 => imm8 bs fun d r => .ok (.jbe (.rel8 d), r)
  | 0x77 => imm8 bs fun d r => .ok (.ja (.rel8 d), r)
  | 0x78 => imm8 bs fun d r => .ok (.js (.rel8 d), r)
  | 0x79 => imm8 bs fun d r => .ok (.jns (.rel8 d), r)
  | 0x7A => imm8 bs fun d r => .ok (.jp (.rel8 d), r)
  | 0x7B => imm8 bs fun d r => .ok (.jnp (.rel8 d), r)
  | 0x7C => imm8 bs fun d r => .ok (.jl (.rel8 d), r)
  | 0x7D => imm8 bs fun d r => .ok (.jge (.rel8 d), r)
  | 0x7E => imm8 bs fun d r => .ok (.jle (.rel8 d), r)
  | _ => imm8 bs fun d r => .ok (.jg (.rel8 d), r)

/-- 30_encoding R150, primary opcodes 80 to 9F. -/
def decode80to9F (op : Byte) (bs : List Byte) : DecodeResult :=
  match op.toNat with
  | 0x80 => modrm bs fun reg e r => imm8 r fun v r => .ok (aluOf reg (.rm8Imm false e v), r)
  | 0x81 => modrm bs fun reg e r => imm16 r fun v r => .ok (aluOf reg (.rm16Imm e v), r)
  | 0x82 => modrm bs fun reg e r => imm8 r fun v r => .ok (aluOf reg (.rm8Imm true e v), r)
  | 0x83 => modrm bs fun reg e r => imm8 r fun v r => .ok (aluOf reg (.rm16Simm e v), r)
  | 0x84 => modrm bs fun reg e r => .ok (.test (.rmReg .byte e reg), r)
  | 0x85 => modrm bs fun reg e r => .ok (.test (.rmReg .word e reg), r)
  | 0x86 => modrm bs fun reg e r => .ok (.xchgRm .byte e reg, r)
  | 0x87 => modrm bs fun reg e r => .ok (.xchgRm .word e reg, r)
  | 0x88 => modrm bs fun reg e r => .ok (.movRmReg .byte e reg, r)
  | 0x89 => modrm bs fun reg e r => .ok (.movRmReg .word e reg, r)
  | 0x8A => modrm bs fun reg e r => .ok (.movRegRm .byte reg e, r)
  | 0x8B => modrm bs fun reg e r => .ok (.movRegRm .word reg e, r)
  | 0x8C => modrmSeg 0x8C bs fun sr e r => .ok (.movRmSeg e sr, r)
  | 0x8D => modrmMem 0x8D bs fun reg a r => .ok (.lea reg a, r)
  | 0x8E => modrmSeg 0x8E bs fun sr e r => .ok (.movSegRm sr e, r)
  | 0x8F => group 0x8F bs decode8F
  | 0x90 => .ok (.nop, bs)
  | 0x91 => .ok (.xchgAx .n1, bs)
  | 0x92 => .ok (.xchgAx .n2, bs)
  | 0x93 => .ok (.xchgAx .n3, bs)
  | 0x94 => .ok (.xchgAx .n4, bs)
  | 0x95 => .ok (.xchgAx .n5, bs)
  | 0x96 => .ok (.xchgAx .n6, bs)
  | 0x97 => .ok (.xchgAx .n7, bs)
  | 0x98 => .ok (.cbw, bs)
  | 0x99 => .ok (.cwd, bs)
  | 0x9A => imm16 bs fun off r => imm16 r fun seg r => .ok (.callFar off seg, r)
  | 0x9B => .ok (.wait, bs)
  | 0x9C => .ok (.pushf, bs)
  | 0x9D => .ok (.popf, bs)
  | 0x9E => .ok (.sahf, bs)
  | _ => .ok (.lahf, bs)

/-- 30_encoding R150, primary opcodes A0 to BF. -/
def decodeA0toBF (op : Byte) (bs : List Byte) : DecodeResult :=
  match op.toNat with
  | 0xA0 => imm16 bs fun off r => .ok (.movAccMoffs .byte off, r)
  | 0xA1 => imm16 bs fun off r => .ok (.movAccMoffs .word off, r)
  | 0xA2 => imm16 bs fun off r => .ok (.movMoffsAcc .byte off, r)
  | 0xA3 => imm16 bs fun off r => .ok (.movMoffsAcc .word off, r)
  | 0xA4 => .ok (.movsb, bs)
  | 0xA5 => .ok (.movsw, bs)
  | 0xA6 => .ok (.cmpsb, bs)
  | 0xA7 => .ok (.cmpsw, bs)
  | 0xA8 => imm8 bs fun v r => .ok (.test (.alImm v), r)
  | 0xA9 => imm16 bs fun v r => .ok (.test (.axImm v), r)
  | 0xAA => .ok (.stosb, bs)
  | 0xAB => .ok (.stosw, bs)
  | 0xAC => .ok (.lodsb, bs)
  | 0xAD => .ok (.lodsw, bs)
  | 0xAE => .ok (.scasb, bs)
  | 0xAF => .ok (.scasw, bs)
  | 0xB0 => imm8 bs fun v r => .ok (.movRegImm8 .n0 v, r)
  | 0xB1 => imm8 bs fun v r => .ok (.movRegImm8 .n1 v, r)
  | 0xB2 => imm8 bs fun v r => .ok (.movRegImm8 .n2 v, r)
  | 0xB3 => imm8 bs fun v r => .ok (.movRegImm8 .n3 v, r)
  | 0xB4 => imm8 bs fun v r => .ok (.movRegImm8 .n4 v, r)
  | 0xB5 => imm8 bs fun v r => .ok (.movRegImm8 .n5 v, r)
  | 0xB6 => imm8 bs fun v r => .ok (.movRegImm8 .n6 v, r)
  | 0xB7 => imm8 bs fun v r => .ok (.movRegImm8 .n7 v, r)
  | 0xB8 => imm16 bs fun v r => .ok (.movRegImm16 .n0 v, r)
  | 0xB9 => imm16 bs fun v r => .ok (.movRegImm16 .n1 v, r)
  | 0xBA => imm16 bs fun v r => .ok (.movRegImm16 .n2 v, r)
  | 0xBB => imm16 bs fun v r => .ok (.movRegImm16 .n3 v, r)
  | 0xBC => imm16 bs fun v r => .ok (.movRegImm16 .n4 v, r)
  | 0xBD => imm16 bs fun v r => .ok (.movRegImm16 .n5 v, r)
  | 0xBE => imm16 bs fun v r => .ok (.movRegImm16 .n6 v, r)
  | _ => imm16 bs fun v r => .ok (.movRegImm16 .n7 v, r)

/-- 30_encoding R150, primary opcodes C0 to DF. -/
def decodeC0toDF (x : Ext186) (op : Byte) (bs : List Byte) : DecodeResult :=
  match op.toNat with
  | 0xC0 => x186 x 0xC0 bs (modrm bs fun reg e r => imm8 r fun v r => .ok (shiftOf reg (.imm .byte e v), r))
  | 0xC1 => x186 x 0xC1 bs (modrm bs fun reg e r => imm8 r fun v r => .ok (shiftOf reg (.imm .word e v), r))
  | 0xC2 => imm16 bs fun n r => .ok (.retImm n, r)
  | 0xC3 => .ok (.ret, bs)
  | 0xC4 => modrmMem 0xC4 bs fun reg a r => .ok (.les reg a, r)
  | 0xC5 => modrmMem 0xC5 bs fun reg a r => .ok (.lds reg a, r)
  | 0xC6 => group 0xC6 bs decodeC6
  | 0xC7 => group 0xC7 bs decodeC7
  | 0xC8 => imm16 bs fun size r => imm8 r fun level r => .ok (.enter size level, r)
  | 0xC9 => .ok (.leave, bs)
  | 0xCA => imm16 bs fun n r => .ok (.retfImm n, r)
  | 0xCB => .ok (.retf, bs)
  | 0xCC => .ok (.int3, bs)
  | 0xCD => imm8 bs fun n r => .ok (.int n, r)
  | 0xCE => .ok (.into, bs)
  | 0xCF => .ok (.iret, bs)
  | 0xD0 => modrm bs fun reg e r => .ok (shiftOf reg (.one .byte e), r)
  | 0xD1 => modrm bs fun reg e r => .ok (shiftOf reg (.one .word e), r)
  | 0xD2 => modrm bs fun reg e r => .ok (shiftOf reg (.cl .byte e), r)
  | 0xD3 => modrm bs fun reg e r => .ok (shiftOf reg (.cl .word e), r)
  | 0xD4 => imm8 bs fun v r => .ok (.aam v, r)
  | 0xD5 => imm8 bs fun v r => .ok (.aad v, r)
  | 0xD6 => .ok (.unknown 0xD6, bs)
  | 0xD7 => .ok (.xlat, bs)
  | 0xD8 => modrm bs fun reg e r => .ok (.esc .n0 reg e, r)
  | 0xD9 => modrm bs fun reg e r => .ok (.esc .n1 reg e, r)
  | 0xDA => modrm bs fun reg e r => .ok (.esc .n2 reg e, r)
  | 0xDB => modrm bs fun reg e r => .ok (.esc .n3 reg e, r)
  | 0xDC => modrm bs fun reg e r => .ok (.esc .n4 reg e, r)
  | 0xDD => modrm bs fun reg e r => .ok (.esc .n5 reg e, r)
  | 0xDE => modrm bs fun reg e r => .ok (.esc .n6 reg e, r)
  | _ => modrm bs fun reg e r => .ok (.esc .n7 reg e, r)

/-- 30_encoding R150, primary opcodes E0 to FF. -/
def decodeE0toFF (op : Byte) (bs : List Byte) : DecodeResult :=
  match op.toNat with
  | 0xE0 => imm8 bs fun d r => .ok (.loopne d, r)
  | 0xE1 => imm8 bs fun d r => .ok (.loope d, r)
  | 0xE2 => imm8 bs fun d r => .ok (.loop d, r)
  | 0xE3 => imm8 bs fun d r => .ok (.jcxz d, r)
  | 0xE4 => imm8 bs fun p r => .ok (.inImm .byte p, r)
  | 0xE5 => imm8 bs fun p r => .ok (.inImm .word p, r)
  | 0xE6 => imm8 bs fun p r => .ok (.outImm .byte p, r)
  | 0xE7 => imm8 bs fun p r => .ok (.outImm .word p, r)
  | 0xE8 => imm16 bs fun d r => .ok (.callNear d, r)
  | 0xE9 => imm16 bs fun d r => .ok (.jmpNear d, r)
  | 0xEA => imm16 bs fun off r => imm16 r fun seg r => .ok (.jmpFar off seg, r)
  | 0xEB => imm8 bs fun d r => .ok (.jmpShort d, r)
  | 0xEC => .ok (.inDx .byte, bs)
  | 0xED => .ok (.inDx .word, bs)
  | 0xEE => .ok (.outDx .byte, bs)
  | 0xEF => .ok (.outDx .word, bs)
  | 0xF0 => .ok (.lock, bs)
  | 0xF1 => .ok (.unknown 0xF1, bs)
  | 0xF2 => .ok (.repne, bs)
  | 0xF3 => .ok (.rep, bs)
  | 0xF4 => .ok (.hlt, bs)
  | 0xF5 => .ok (.cmc, bs)
  | 0xF6 => group 0xF6 bs decodeF6
  | 0xF7 => group 0xF7 bs decodeF7
  | 0xF8 => .ok (.clc, bs)
  | 0xF9 => .ok (.stc, bs)
  | 0xFA => .ok (.cli, bs)
  | 0xFB => .ok (.sti, bs)
  | 0xFC => .ok (.cld, bs)
  | 0xFD => .ok (.std, bs)
  | 0xFE => group 0xFE bs decodeFE
  | _ => group 0xFF bs decodeFF

/-- The instruction a primary opcode byte selects (30_encoding R150). -/
def decodeOpcode (x : Ext186) (op : Byte) (bs : List Byte) : DecodeResult :=
  match op.toNat / 32 with
  | 0 => decode00to1F x op bs
  | 1 => decode20to3F op bs
  | 2 => decode40to5F op bs
  | 3 => decode60to7F x op bs
  | 4 => decode80to9F op bs
  | 5 => decodeA0toBF op bs
  | 6 => decodeC0toDF x op bs
  | _ => decodeE0toFF op bs

/-- One prefix byte or one instruction without prefixes, for a machine whose EXT186 is `x`. -/
def decode (x : Ext186) (bs : List Byte) : DecodeResult :=
  imm8 bs fun op r => decodeOpcode x op r

/-- The length of the longest instruction without prefixes: `81 /r` or `C7 /0` with disp16 and imm16 (30_encoding R120). -/
def maxLength : Nat := 6

/-! ## The encoder -/

/-- A 16-bit field, low byte first. -/
def bytes16 (v : Word) : List Byte := [v.extractLsb' 0 8, v.extractLsb' 8 8]

/-- A ModR/M byte from its fields (30_encoding R130). -/
def modrmByte (mod : BitVec 2) (reg rm : RegNum) : Byte := mod ++ reg.bits ++ rm.bits

/-- The ModR/M byte and the displacement of a memory operand (30_encoding R132, R133). -/
def encodeMem (reg : RegNum) : MemOp → List Byte
  | .direct off => modrmByte 0#2 reg .n6 :: bytes16 off
  | .based b .none => [modrmByte 0#2 reg b.num]
  | .based b (.d8 d) => [modrmByte 1#2 reg b.num, d]
  | .based b (.d16 d) => modrmByte 2#2 reg b.num :: bytes16 d

/-- The ModR/M byte and the displacement of an operand. -/
def encodeRm (reg : RegNum) : Rm → List Byte
  | .reg r => [modrmByte 3#2 reg r]
  | .mem m => encodeMem reg m

/-- An opcode that comes in a byte form (even) and a word form (odd). -/
def opcodeW (base : Byte) : Width → Byte
  | .byte => base
  | .word => base + 1#8

/-- The two-operand forms: base opcode `b`, group 1 number `n` (41_arithmetic, table at its head). -/
def encodeAlu (b : Byte) (n : RegNum) : AluForm → List Byte
  | .rmReg w e r => opcodeW b w :: encodeRm r e
  | .regRm w r e => opcodeW (b + 2#8) w :: encodeRm r e
  | .alImm v => [b + 4#8, v]
  | .axImm v => (b + 5#8) :: bytes16 v
  | .rm8Imm false e v => 0x80#8 :: (encodeRm n e ++ [v])
  | .rm8Imm true e v => 0x82#8 :: (encodeRm n e ++ [v])
  | .rm16Imm e v => 0x81#8 :: (encodeRm n e ++ bytes16 v)
  | .rm16Simm e v => 0x83#8 :: (encodeRm n e ++ [v])

/-- The forms of TEST (42_logic R304). -/
def encodeTest : TestForm → List Byte
  | .rmReg w e r => opcodeW 0x84#8 w :: encodeRm r e
  | .alImm v => [0xA8#8, v]
  | .axImm v => 0xA9#8 :: bytes16 v
  | .rm8Imm e v => 0xF6#8 :: (encodeRm .n0 e ++ [v])
  | .rm16Imm e v => 0xF7#8 :: (encodeRm .n0 e ++ bytes16 v)

/-- The forms of group 2 number `n` (43_shift_rotate R320). -/
def encodeShift (n : RegNum) : ShiftForm → List Byte
  | .one w e => opcodeW 0xD0#8 w :: encodeRm n e
  | .cl w e => opcodeW 0xD2#8 w :: encodeRm n e
  | .imm w e v => opcodeW 0xC0#8 w :: (encodeRm n e ++ [v])

/-- A conditional jump with condition `cc` (45_control_transfer R390, 47_post8086_ext R476). -/
def encodeCond (cc : Byte) : CondDisp → List Byte
  | .rel8 d => [0x70#8 + cc, d]
  | .rel16 d => 0x0F#8 :: (0x80#8 + cc) :: bytes16 d

/-- An opcode whose low three bits are a register number (30_encoding R141, formats `OPR*`). -/
def opcodeR (base : Byte) (r : RegNum) : Byte := base + r.bits.setWidth 8

/-- The one-byte pushes of a segment register; FS and GS are behind `0F` (40_data_transfer R211, 47_post8086_ext R495). -/
def encodePushSeg : SReg → List Byte
  | .es => [0x06#8] | .cs => [0x0E#8] | .ss => [0x16#8] | .ds => [0x1E#8] | .fs => [0x0F#8, 0xA0#8] | .gs => [0x0F#8, 0xA8#8]

/-- The one-byte pops of a segment register; there is no POP CS (40_data_transfer R212, 47_post8086_ext R495). -/
def encodePopSeg : SReg → List Byte
  | .es => [0x07#8] | .cs => [] | .ss => [0x17#8] | .ds => [0x1F#8] | .fs => [0x0F#8, 0xA1#8] | .gs => [0x0F#8, 0xA9#8]

/-- The bytes of a well-formed instruction (30_encoding R150-R152, R138 for their order). -/
def encode : Instr → List Byte
  | .add f => encodeAlu 0x00#8 .n0 f
  | .or f => encodeAlu 0x08#8 .n1 f
  | .adc f => encodeAlu 0x10#8 .n2 f
  | .sbb f => encodeAlu 0x18#8 .n3 f
  | .and f => encodeAlu 0x20#8 .n4 f
  | .sub f => encodeAlu 0x28#8 .n5 f
  | .xor f => encodeAlu 0x30#8 .n6 f
  | .cmp f => encodeAlu 0x38#8 .n7 f
  | .incReg r => [opcodeR 0x40#8 r]
  | .incRm w e => opcodeW 0xFE#8 w :: encodeRm .n0 e
  | .decReg r => [opcodeR 0x48#8 r]
  | .decRm w e => opcodeW 0xFE#8 w :: encodeRm .n1 e
  | .not w e => opcodeW 0xF6#8 w :: encodeRm .n2 e
  | .neg w e => opcodeW 0xF6#8 w :: encodeRm .n3 e
  | .mul w e => opcodeW 0xF6#8 w :: encodeRm .n4 e
  | .imul w e => opcodeW 0xF6#8 w :: encodeRm .n5 e
  | .div w e => opcodeW 0xF6#8 w :: encodeRm .n6 e
  | .idiv w e => opcodeW 0xF6#8 w :: encodeRm .n7 e
  | .imulImm16 r e v => 0x69#8 :: (encodeRm r e ++ bytes16 v)
  | .imulSimm8 r e v => 0x6B#8 :: (encodeRm r e ++ [v])
  | .cbw => [0x98#8]
  | .cwd => [0x99#8]
  | .daa => [0x27#8]
  | .das => [0x2F#8]
  | .aaa => [0x37#8]
  | .aas => [0x3F#8]
  | .aam v => [0xD4#8, v]
  | .aad v => [0xD5#8, v]
  | .test f => encodeTest f
  | .rol f => encodeShift .n0 f
  | .ror f => encodeShift .n1 f
  | .rcl f => encodeShift .n2 f
  | .rcr f => encodeShift .n3 f
  | .shl f => encodeShift .n4 f
  | .shr f => encodeShift .n5 f
  | .sal f => encodeShift .n6 f
  | .sar f => encodeShift .n7 f
  | .movRmReg w e r => opcodeW 0x88#8 w :: encodeRm r e
  | .movRegRm w r e => opcodeW 0x8A#8 w :: encodeRm r e
  | .movRegImm8 r v => [opcodeR 0xB0#8 r, v]
  | .movRegImm16 r v => opcodeR 0xB8#8 r :: bytes16 v
  | .movRmImm8 e v => 0xC6#8 :: (encodeRm .n0 e ++ [v])
  | .movRmImm16 e v => 0xC7#8 :: (encodeRm .n0 e ++ bytes16 v)
  | .movAccMoffs w off => opcodeW 0xA0#8 w :: bytes16 off
  | .movMoffsAcc w off => opcodeW 0xA2#8 w :: bytes16 off
  | .movRmSeg e sr => 0x8C#8 :: encodeRm sr.num e
  | .movSegRm sr e => 0x8E#8 :: encodeRm sr.num e
  | .pushReg r => [opcodeR 0x50#8 r]
  | .pushRm e => 0xFF#8 :: encodeRm .n6 e
  | .pushSeg sr => encodePushSeg sr
  | .pushImm16 v => 0x68#8 :: bytes16 v
  | .pushSimm8 v => [0x6A#8, v]
  | .pushFs => [0x0F#8, 0xA0#8]
  | .pushGs => [0x0F#8, 0xA8#8]
  | .popReg r => [opcodeR 0x58#8 r]
  | .popRm e => 0x8F#8 :: encodeRm .n0 e
  | .popSeg sr => encodePopSeg sr
  | .popFs => [0x0F#8, 0xA1#8]
  | .popGs => [0x0F#8, 0xA9#8]
  | .xchgRm w e r => opcodeW 0x86#8 w :: encodeRm r e
  | .xchgAx r => [opcodeR 0x90#8 r]
  | .xlat => [0xD7#8]
  | .lea r m => 0x8D#8 :: encodeMem r m
  | .lds r m => 0xC5#8 :: encodeMem r m
  | .les r m => 0xC4#8 :: encodeMem r m
  | .lahf => [0x9F#8]
  | .sahf => [0x9E#8]
  | .pushf => [0x9C#8]
  | .popf => [0x9D#8]
  | .movsb => [0xA4#8]
  | .movsw => [0xA5#8]
  | .cmpsb => [0xA6#8]
  | .cmpsw => [0xA7#8]
  | .stosb => [0xAA#8]
  | .stosw => [0xAB#8]
  | .lodsb => [0xAC#8]
  | .lodsw => [0xAD#8]
  | .scasb => [0xAE#8]
  | .scasw => [0xAF#8]
  | .insb => [0x6C#8]
  | .insw => [0x6D#8]
  | .outsb => [0x6E#8]
  | .outsw => [0x6F#8]
  | .jmpShort d => [0xEB#8, d]
  | .jmpNear d => 0xE9#8 :: bytes16 d
  | .jmpRm e => 0xFF#8 :: encodeRm .n4 e
  | .jmpFar off seg => 0xEA#8 :: (bytes16 off ++ bytes16 seg)
  | .jmpFarMem m => 0xFF#8 :: encodeMem .n5 m
  | .callNear d => 0xE8#8 :: bytes16 d
  | .callRm e => 0xFF#8 :: encodeRm .n2 e
  | .callFar off seg => 0x9A#8 :: (bytes16 off ++ bytes16 seg)
  | .callFarMem m => 0xFF#8 :: encodeMem .n3 m
  | .ret => [0xC3#8]
  | .retImm n => 0xC2#8 :: bytes16 n
  | .retf => [0xCB#8]
  | .retfImm n => 0xCA#8 :: bytes16 n
  | .jo d => encodeCond 0#8 d
  | .jno d => encodeCond 1#8 d
  | .jb d => encodeCond 2#8 d
  | .jae d => encodeCond 3#8 d
  | .je d => encodeCond 4#8 d
  | .jne d => encodeCond 5#8 d
  | .jbe d => encodeCond 6#8 d
  | .ja d => encodeCond 7#8 d
  | .js d => encodeCond 8#8 d
  | .jns d => encodeCond 9#8 d
  | .jp d => encodeCond 10#8 d
  | .jnp d => encodeCond 11#8 d
  | .jl d => encodeCond 12#8 d
  | .jge d => encodeCond 13#8 d
  | .jle d => encodeCond 14#8 d
  | .jg d => encodeCond 15#8 d
  | .loopne d => [0xE0#8, d]
  | .loope d => [0xE1#8, d]
  | .loop d => [0xE2#8, d]
  | .jcxz d => [0xE3#8, d]
  | .int n => [0xCD#8, n]
  | .int3 => [0xCC#8]
  | .into => [0xCE#8]
  | .iret => [0xCF#8]
  | .inImm w p => [opcodeW 0xE4#8 w, p]
  | .inDx w => [opcodeW 0xEC#8 w]
  | .outImm w p => [opcodeW 0xE6#8 w, p]
  | .outDx w => [opcodeW 0xEE#8 w]
  | .clc => [0xF8#8]
  | .stc => [0xF9#8]
  | .cmc => [0xF5#8]
  | .cld => [0xFC#8]
  | .std => [0xFD#8]
  | .cli => [0xFA#8]
  | .sti => [0xFB#8]
  | .hlt => [0xF4#8]
  | .nop => [0x90#8]
  | .wait => [0x9B#8]
  | .esc op reg e => opcodeR 0xD8#8 op :: encodeRm reg e
  | .pusha => [0x60#8]
  | .popa => [0x61#8]
  | .bound r m => 0x62#8 :: encodeMem r m
  | .enter size level => 0xC8#8 :: (bytes16 size ++ [level])
  | .leave => [0xC9#8]
  | .movzx w r e => 0x0F#8 :: opcodeW 0xB6#8 w :: encodeRm r e
  | .movsx w r e => 0x0F#8 :: opcodeW 0xBE#8 w :: encodeRm r e
  | .segES => [0x26#8]
  | .segCS => [0x2E#8]
  | .segSS => [0x36#8]
  | .segDS => [0x3E#8]
  | .segFS => [0x64#8]
  | .segGS => [0x65#8]
  | .lock => [0xF0#8]
  | .repne => [0xF2#8]
  | .rep => [0xF3#8]
  | .unknown op => [op]
  | .unknown0F op => [0x0F#8, op]
  | .reserved op m => [op, m]

/-! ## The host's view of the decoder -/

/-- The bytes of an instruction whose bits are `w`, numbered as spec/opcode_table.json numbers them (bit 0 is the least
significant bit of the first byte), followed by zero bytes. -/
def tableBytes (nbits w : Nat) : List Byte :=
  [0, 1, 2, 3, 4, 5].map fun k => BitVec.ofNat 8 ((w % 2 ^ nbits) >>> (8 * k))

/-- The instruction `decode` reads from the bytes of a table row, on a machine whose EXT186 is that of reset (log 3). -/
def decodeTableWord (nbits w : Nat) : Option Instr :=
  match decode .present (tableBytes nbits w) with
  | .ok (i, _) => some i
  | .error _ => none

end Sys2Proof
end

