-- ==== Sys2Proof/Machine/State.lean ====
section
/-! DEFINITION. The state of the machine as plain data: everything the spec gives it (10_state R30, 48_fat12_translator R521),
the parameters that are fixed for one machine (R8: EXT186, HandlerTable, PortTable), and the model's own bookkeeping of free
values and outputs. Also why a step can stop, and the state after reset (10_state R70). -/

namespace Sys2Proof.Machine

/-! ## Registers -/

/-- The eight general registers (10_state R31). A byte half is no field of its own: it is a view of its register (R34). -/
structure Regs where
  ax : Word
  cx : Word
  dx : Word
  bx : Word
  sp : Word
  bp : Word
  si : Word
  di : Word
  deriving DecidableEq, Repr, Inhabited

/-- The six segment registers (10_state R40). -/
structure Segs where
  es : Word
  cs : Word
  ss : Word
  ds : Word
  fs : Word
  gs : Word
  deriving DecidableEq, Repr, Inhabited

/-- The tag `haltReason` (10_state R60). -/
inductive HaltReason where
  | none
  /-- set by HLT (46_io_processor_control R443) -/
  | hlt
  /-- set by a terminating service (60_exceptions R621) -/
  | programExit
  /-- set by the keyboard service on an empty buffer (60_exceptions R622) -/
  | keyWait
  deriving DecidableEq, Repr, Inhabited

/-! ## Memory -/

/-- The byte memory (20_memory R80): the listed addresses, strictly rising, none of them holding what an unlisted address
reads as (`Memory.wf`, Machine/Ops.lean). -/
abbrev Memory := List Host.Cell

/-! ## The platform's tables and outputs -/

/-- What a registered vector runs (10_state R63, 60_exceptions R610). The spec gives three bodies; every other body is a free
value inside the handler contract (log 5, log 6). -/
inductive Handler where
  /-- INT 20h, INT 27h: halt with reason program-exit (60_exceptions R621) -/
  | programExit
  /-- INT 21h: function 4Ch halts with reason program-exit (R621), the others are free -/
  | dos
  /-- INT 16h: functions 00h and 10h take a key or wait for one (R622), the others are free -/
  | keyboard
  /-- any other service -/
  | service
  deriving DecidableEq, Repr, Inhabited

/-- One access of the port space, in the order performed (46_io_processor_control R431: none is merged, repeated or dropped). -/
inductive PortEvent where
  | read (port : Word) (value : Byte)
  | write (port : Word) (value : Byte)
  deriving DecidableEq, Repr, Inhabited

/-- One record of the TRACE port: the opcode byte (two bytes after the `0F` escape) and the `CS:IP` it was fetched from
(30_encoding R158). -/
structure TraceRecord where
  opcode : List Byte
  cs : Word
  ip : Word
  deriving DecidableEq, Repr, Inhabited

/-! ## The FAT12 translator -/

/-- A sector: 512 bytes (48_fat12_translator R521; the length is an invariant, `FatState.wf`). -/
abbrev Sector := List Byte

/-- A partial map from sector indices to sectors, strictly rising by index. -/
abbrev SectorMap := List (Nat × Sector)

/-- The translator's state (48_fat12_translator R521), disjoint from the processor's (R520). -/
structure FatState where
  /-- the external store behind the port SECTOR -/
  store : SectorMap
  /-- sectors faulted in or written -/
  cache : SectorMap
  /-- indices written and not yet flushed, strictly rising -/
  dirty : List Nat
  /-- the sectors on which a `get` or a `put` of the store fails (93_implementation_defined U23, U24); none on a store as
  48_fat12_translator R522 describes it. No step changes them (log 30) -/
  failsGet : List Nat := []
  failsPut : List Nat := []
  deriving DecidableEq, Repr, Inhabited

/-! ## The whole state -/

/-- The state of the machine. There are no control registers and no pending state (10_state R64, R65), no cycle or
instruction counter, no time-stamp register and no timer (70_reset_and_hazards R684), no core-local device, second thread or
power state (70_reset_and_hazards R686): no field holds one. The last three fields are the model's own; no meaning reads
`portLog` or `trace`, and `draws` only picks free values. -/
structure State where
  /-- AX CX DX BX SP BP SI DI -/
  regs : Regs
  /-- ES CS SS DS FS GS -/
  segs : Segs
  /-- the instruction pointer (10_state R43) -/
  ip : Word
  /-- the flags word (10_state R45); its named bits are read and written in Machine/Flags.lean -/
  flags : Word
  /-- the stop flag and its tag (10_state R60) -/
  halted : Bool
  haltReason : HaltReason
  /-- the prefix state (10_state R61): cleared at the start of every step, so it carries nothing between steps (log 9) -/
  segov : Option SReg
  rep : Option Rep
  mem : Memory
  /-- the parameter EXT186 (30_encoding R160) -/
  ext186 : Ext186
  /-- the parameter HandlerTable: registered vectors and what they run -/
  handlers : List (Byte × Handler)
  /-- the parameter PortTable: the registered ports -/
  ports : List Word
  /-- the platform's key buffer, oldest key first (60_exceptions R622) -/
  keyBuffer : List Word
  fat : FatState
  /-- the model's own: how many free values have been drawn (log 2) -/
  draws : Nat
  /-- the port accesses performed, oldest first (log 8) -/
  portLog : List PortEvent
  /-- the TRACE output, oldest first (30_encoding R158, log 8) -/
  trace : List TraceRecord
  deriving DecidableEq, Repr, Inhabited

/-! ## Why a step stops -/

/-- The machine stops. -/
inductive Fault where
  /-- `stuck`: 65536 prefix bytes without an opcode (30_encoding R128, 70_reset_and_hazards R682). Raised by `step`; safe. -/
  | prefixRun
  deriving DecidableEq, Repr, Inhabited

/-- The spec gives no meaning (`refuse`, 00_scope R14). -/
inductive Refusal where
  /-- no meaning in this model yet. Raised by `exec`'s arms only; safe. -/
  | notModelled (mnemonic : String)
  /-- a reserved encoding (30_encoding R139, R159). Raised by the meaning of `reserved`; safe. -/
  | reservedEncoding
  /-- an encoding of class x186 on a machine whose EXT186 is not `present` (30_encoding R160). Raised by the meanings of that
  class; safe. -/
  | ext186NotPresent
  /-- no instruction could be decoded. Raised by `step` if the decoder rejects; it never does on a full fetch window; safe. -/
  | undecodable (e : DecodeError)
  /-- `Wake()` while `haltReason` is not key-wait (70_reset_and_hazards R671). Raised by `State.wake`; safe. -/
  | wakeNotAllowed
  /-- a sector index of 2880 or more (48_fat12_translator R521). Raised by `State.hostReadSector` and
  `State.hostWriteSector`; safe. -/
  | sectorOutOfRange
  deriving DecidableEq, Repr, Inhabited

/-- What a meaning answers. -/
abbrev Outcome := Host.Outcome State Fault Refusal

/-! ## Reset -/

/-- The state after reset (10_state R70, 70_reset_and_hazards R660-R662). Every register value and FLAGS is the spec's. The
memory lists nothing (log 1), no handler and no port is registered (log 4, log 7), the argument EXT186 is `present` (log 3), the
key buffer and the sector store are empty (log 6, log 13). -/
def State.reset : State where
  regs := ⟨0#16, 0#16, 0#16, 0#16, 0#16, 0#16, 0#16, 0#16⟩
  segs := ⟨0#16, 0#16, 0#16, 0#16, 0#16, 0#16⟩
  ip := 0#16
  flags := 0x0002#16
  halted := false
  haltReason := .none
  segov := none
  rep := none
  mem := []
  ext186 := .present
  handlers := []
  ports := []
  keyBuffer := []
  fat := { store := [], cache := [], dirty := [] }
  draws := 0
  portLog := []
  trace := []

end Sys2Proof.Machine
end

