-- ==== Sys2Proof/Machine/Fat.lean ====
section
/-! DEFINITION. The FAT12 cluster-chain translator, sections 1 to 4 of 48_fat12_translator: the sector port and cache, the FAT
entries, allocation, the chain walk and the translation of a logical block to a physical sector. Every function passes the
translator's state on, since a read faults a sector into the cache (R523). Time, labels and serials are arguments. -/

namespace Sys2Proof.Machine

/-- The engine errors (48_fat12_translator R570). They are return values, no processor events. A broken chain is reported as
`notFound` (R551). -/
inductive FatError where
  | diskFull
  | directoryFull
  | alreadyExists
  | notFound
  deriving DecidableEq, Repr, Inhabited

/-- The answer of an operation and the state after it. -/
abbrev FatResult (α : Type) := Except FatError α × FatState

/-! ## The sector port (R522) -/

/-- `get` of a partial map. -/
def SectorMap.get : SectorMap → Nat → Option Sector
  | [], _ => none
  | (k, b) :: t, s => if k = s then some b else SectorMap.get t s

/-- `put` of a partial map; the keys stay strictly rising. -/
def SectorMap.put : SectorMap → Nat → Sector → SectorMap
  | [], s, b => [(s, b)]
  | (k, c) :: t, s, b =>
    if s < k then (s, b) :: (k, c) :: t
    else if s = k then (s, b) :: t
    else (k, c) :: SectorMap.put t s b

/-- `delete` of a partial map. -/
def SectorMap.delete : SectorMap → Nat → SectorMap
  | [], _ => []
  | (k, b) :: t, s => if k = s then t else (k, b) :: SectorMap.delete t s

/-- Enumeration: the keys present. -/
def SectorMap.keys (m : SectorMap) : List Nat := m.map Prod.fst

/-- Add an index to a strictly rising list of indices. -/
def insertIndex (s : Nat) : List Nat → List Nat
  | [] => [s]
  | k :: t => if s < k then s :: k :: t else if s = k then k :: t else k :: insertIndex s t

/-- 512 zero bytes. -/
def zeroSector : Sector := List.replicate Config.sectorSize 0#8

/-! ## The cache (R523-R525) -/

/-- What the store yields for a sector: zeros where it has no value (R523), where the value is not of 512 bytes, and where the
`get` fails (93_implementation_defined U23; log 30). -/
def FatState.stored (f : FatState) (s : Nat) : Sector :=
  if f.failsGet.contains s then zeroSector
  else
    match f.store.get s with
    | some b => if b.length = Config.sectorSize then b else zeroSector
    | none => zeroSector

/-- `ReadSector` of R523: a sector absent from the cache is faulted in from the store. -/
def FatState.readSector (f : FatState) (s : Nat) : Sector × FatState :=
  match f.cache.get s with
  | some b => (b, f)
  | none => (f.stored s, { f with cache := f.cache.put s (f.stored s) })

/-- `WriteSector` of R524: the cached copy changes and is dirty; the store does not change. -/
def FatState.writeSector (f : FatState) (s : Nat) (b : Sector) : FatState :=
  { f with cache := f.cache.put s b, dirty := insertIndex s f.dirty }

/-- One `put` of a flush: a failed one is silently dropped, and the sector stays in the cache (93_implementation_defined U24;
log 30). -/
def FatState.putInto (f : FatState) (st : SectorMap) (s : Nat) : SectorMap :=
  if f.failsPut.contains s then st
  else
    match f.cache.get s with
    | some b => st.put s b
    | none => st

/-- `Flush` of R525: every dirty sector is put to the store and none is dirty after it. -/
def FatState.flush (f : FatState) : FatState :=
  { f with store := f.dirty.foldl f.putInto f.store, dirty := [] }

/-- What a sector reads as, without faulting it in. -/
def FatState.view (f : FatState) (s : Nat) : Sector := (f.readSector s).1

/-- The keys rise strictly and stay below `n`, every sector has 512 bytes. -/
def SectorMap.wfFrom : Nat → SectorMap → Bool
  | _, [] => true
  | lo, (k, b) :: t =>
    decide (lo ≤ k) && decide (k < Config.totalSectors) && b.length == Config.sectorSize && SectorMap.wfFrom (k + 1) t

/-- The indices rise strictly. -/
def indicesFrom : Nat → List Nat → Bool
  | _, [] => true
  | lo, k :: t => decide (lo ≤ k) && indicesFrom (k + 1) t

/-- The translator's state is well-formed: the keys of the store rise strictly and are sector indices (its values may be malformed,
93_implementation_defined U23), the cache is a map of whole sectors, and the dirty set lies in it (R521). -/
def FatState.wf (f : FatState) : Bool :=
  indicesFrom 0 f.store.keys && (f.store.keys.all fun s => decide (s < Config.totalSectors)) && SectorMap.wfFrom 0 f.cache
    && indicesFrom 0 f.dirty && f.dirty.all fun s => (f.cache.get s).isSome

/-! ## Layout (R533, R534) -/

/-- `ClusterToSector` of R533, for `2 ≤ c < maxCluster`. -/
def clusterToSector (c : Nat) : Nat := Config.dataStart + (c - 2)

/-- The data clusters (R533). -/
def validCluster (c : Nat) : Bool := decide (2 ≤ c) && decide (c < Config.maxCluster)

/-- Cylinder, head, sector to sector index (R534). DESIGN CHOICE (log 22): sector numbers begin at 1, and a sector of 0, of which
R534 says nothing, comes out as sector 1 does. -/
def chsToSector (cyl head sector : Nat) : Nat := (cyl * 2 + head) * 18 + (sector - 1)

/-! ## The FAT (R540-R545) -/

/-- Byte `o` of the FAT that begins at sector `start` (R540). -/
def FatState.fatByte (f : FatState) (start o : Nat) : Byte × FatState :=
  let (sec, f) := f.readSector (start + o / Config.sectorSize)
  (sec.getD (o % Config.sectorSize) 0#8, f)

/-- Change byte `o` of the FAT that begins at sector `start`: read-modify-write of the cached copy (R524). -/
def FatState.setFatByte (f : FatState) (start o : Nat) (b : Byte) : FatState :=
  let (sec, f) := f.readSector (start + o / Config.sectorSize)
  f.writeSector (start + o / Config.sectorSize) (sec.set (o % Config.sectorSize) b)

/-- The byte offset of entry `c` (R541). -/
def fatOffset (c : Nat) : Nat := c + c / 2

/-- The word at the offset of entry `c` of FAT1: reads use FAT1 only (R541). -/
def FatState.fatWord (f : FatState) (c : Nat) : Word × FatState :=
  let (lo, f) := f.fatByte Config.fat1Start (fatOffset c)
  let (hi, f) := f.fatByte Config.fat1Start (fatOffset c + 1)
  (hi ++ lo, f)

/-- The 12-bit entry in the word at its offset: the low bits for an even cluster, the high bits for an odd one (R541). -/
def entryOfWord (c : Nat) (wd : Word) : BitVec 12 :=
  if c % 2 = 0 then wd.extractLsb' 0 12 else wd.extractLsb' 4 12

/-- The word with its entry replaced: the neighbour's four bits are preserved (R542). -/
def wordWithEntry (c : Nat) (wd : Word) (v : BitVec 12) : Word :=
  if c % 2 = 0 then (wd &&& 0xF000#16) ||| v.setWidth 16 else (wd &&& 0x000F#16) ||| (v.setWidth 16 <<< 4)

/-- `FatGet` of R541. -/
def FatState.fatGet (f : FatState) (c : Nat) : BitVec 12 × FatState :=
  let (wd, f) := f.fatWord c
  (entryOfWord c wd, f)

/-- `FatSet` of R542: both FATs receive the same two bytes. -/
def FatState.fatSet (f : FatState) (c : Nat) (v : BitVec 12) : FatState :=
  let (wd, f) := f.fatWord c
  let wd := wordWithEntry c wd v
  let o := fatOffset c
  let f := f.setFatByte Config.fat1Start o (wd.extractLsb' 0 8)
  let f := f.setFatByte Config.fat1Start (o + 1) (wd.extractLsb' 8 8)
  let f := f.setFatByte Config.fat2Start o (wd.extractLsb' 0 8)
  f.setFatByte Config.fat2Start (o + 1) (wd.extractLsb' 8 8)

/-- The end-of-chain value this hardware writes (R543). -/
def endOfChain : BitVec 12 := 0xFFF#12

/-- `≥ 0xFF8` ends a chain (R543). -/
def isEndOfChain (v : BitVec 12) : Bool := decide (0xFF8 ≤ v.toNat)

/-- The scan of `Allocate` over `n` clusters from `c` upward. -/
def FatState.allocateFrom : Nat → Nat → FatState → Option Nat × FatState
  | 0, _, f => (none, f)
  | n + 1, c, f =>
    let (v, f) := f.fatGet c
    if v = 0#12 then (some c, f) else allocateFrom n (c + 1) f

/-- `Allocate` of R544: the lowest free cluster, or none when the disk is full. -/
def FatState.allocate (f : FatState) : Option Nat × FatState :=
  FatState.allocateFrom (Config.maxCluster - 2) 2 f

/-- The count of free entries among `n` clusters from `c` upward. -/
def FatState.countFree : Nat → Nat → FatState → Nat × FatState
  | 0, _, f => (0, f)
  | n + 1, c, f =>
    let (v, f) := f.fatGet c
    let (k, f) := countFree n (c + 1) f
    (if v = 0#12 then k + 1 else k, f)

/-- `freeClusters()` of R545. -/
def FatState.freeClusters (f : FatState) : Nat × FatState :=
  FatState.countFree (Config.maxCluster - 2) 2 f

/-! ## The chain walk (R550-R555) -/

/-- How a walk ends: the whole chain, or `ChainBroken` with the clusters collected before it (R550, R551, R554). -/
inductive Walk where
  | whole (cs : List Nat)
  | broken (cs : List Nat)
  deriving DecidableEq, Repr, Inhabited

/-- The clusters a walk collected. -/
def Walk.clusters : Walk → List Nat
  | .whole cs | .broken cs => cs

/-- The walk from cluster `c` after the clusters `cs`, with fuel. -/
def FatState.walkFrom : Nat → Nat → List Nat → FatState → Walk × FatState
  | 0, _, cs, f => (.broken cs, f)
  | n + 1, c, cs, f =>
    if !validCluster c || cs.contains c || decide (Config.maxCluster - 2 ≤ cs.length) then (.broken cs, f)
    else
      let (v, f) := f.fatGet c
      if isEndOfChain v then (.whole (cs ++ [c]), f) else walkFrom n v.toNat (cs ++ [c]) f

/-- `Chain(f)` of R550 for the first cluster `c`; the cycle guard bounds the walk. -/
def FatState.chain (f : FatState) (c : Nat) : Walk × FatState :=
  if c = 0 then (.whole [], f) else f.walkFrom Config.maxCluster c []

/-- `Phys(f, k)` of R552: the sector of logical block `k`, none past the end of the chain; a broken chain is reported as
`notFound` (R551). -/
def FatState.physSector (f : FatState) (first k : Nat) : FatResult (Option Nat) :=
  match f.chain first with
  | (.whole cs, f) => (.ok (cs[k]?.map clusterToSector), f)
  | (.broken _, f) => (.error .notFound, f)

/-- Free each of the clusters: the entry becomes 0 (R554). -/
def FatState.freeAll (f : FatState) (cs : List Nat) : FatState := cs.foldl (fun f c => f.fatSet c 0#12) f

/-- What a walk is reported as to the caller: a broken one is `notFound` (R551, R570). -/
def Walk.report : Walk → Except FatError Unit
  | .whole _ => .ok ()
  | .broken _ => .error .notFound

/-- `FreeChain` of R554: on a broken chain the clusters collected before the failure are freed, and the failure is reported
(R551). -/
def FatState.freeChain (f : FatState) (first : Nat) : FatResult Unit :=
  let (w, f) := f.chain first
  (w.report, f.freeAll w.clusters)

/-- The loop of `BuildChain`: `n` more clusters after `taken` (in order), the last of them `prev`. On a full disk the clusters
taken are released (R555). -/
def FatState.buildFrom : Nat → Option Nat → List Nat → FatState → Option (List Nat) × FatState
  | 0, _, taken, f => (some taken, f)
  | n + 1, prev, taken, f =>
    match f.allocate with
    | (none, f) => (none, f.freeAll taken)
    | (some c, f) =>
      let f := f.fatSet c endOfChain
      let f := match prev with
        | none => f
        | some p => f.fatSet p (BitVec.ofNat 12 c)
      buildFrom n (some c) (taken ++ [c]) f

/-- `BuildChain(n)` of R555: the clusters of the new chain in order, or none (disk-full). -/
def FatState.buildChain (f : FatState) (n : Nat) : Option (List Nat) × FatState :=
  FatState.buildFrom n none [] f

end Sys2Proof.Machine
end

