-- ==== Sys2Proof/Machine/FatFiles.lean ====
section
/-! DEFINITION. The directories and file-level operations of 48_fat12_translator section 5 (R560-R574), over the translator of
Machine/Fat.lean, and the requests made of it with their answers (R520). Names and paths are lists of ASCII bytes; `Now`,
`OemName` and `Serial` (R532, R565) are arguments. Every mutating operation ends with a flush, on success and on failure (R572).
An operation on whose path a directory is missing (the sentinel of R562) answers `notFound`, `deleteEntry` that it found no
entry: DESIGN CHOICE, log 20. A broken chain of a directory on the path is `notFound` for each of them (R551). -/

namespace Sys2Proof.Machine

/-- A time stamp as the directory entry holds it (48_fat12_translator R560): the parameter `Now` of R565. -/
structure Stamp where
  time : Word
  date : Word
  deriving DecidableEq, Repr, Inhabited

/-- The time field: hours, minutes, seconds / 2 (R560). DESIGN CHOICE (log 24): the fields are added modulo 2^16, so a value out
of its range carries into the field above it. -/
def packTime (hours minutes seconds : Nat) : Word :=
  BitVec.ofNat 16 (hours * 2048 + minutes * 32 + seconds / 2)

/-- The date field: year - 1980, month, day (R560). DESIGN CHOICE (log 24): a year before 1980 comes out as 1980, and a value out
of its range carries into the field above it. -/
def packDate (year month day : Nat) : Word :=
  BitVec.ofNat 16 ((year - 1980) * 512 + month * 32 + day)

/-- A directory entry (R560). The name is the eleven stored bytes: eight of the name, three of the extension. -/
structure DirEntry where
  name : List Byte
  attr : Byte
  stamp : Stamp
  cluster : Word
  size : BitVec 32
  deriving DecidableEq, Repr, Inhabited

/-- Attribute bits (R560). -/
def attrVolumeLabel : Nat := 3
def attrDirectory : Nat := 4

/-- A 16-bit field on disk, low byte first. -/
def diskWord (v : Word) : List Byte := [v.extractLsb' 0 8, v.extractLsb' 8 8]

/-- A 32-bit field on disk, low byte first. -/
def diskLong (v : BitVec 32) : List Byte :=
  [v.extractLsb' 0 8, v.extractLsb' 8 8, v.extractLsb' 16 8, v.extractLsb' 24 8]

/-- The 16-bit field at offset `o` of a list of bytes. -/
def wordAt (bs : List Byte) (o : Nat) : Word := bs.getD (o + 1) 0#8 ++ bs.getD o 0#8

/-- The 32 bytes of an entry; bytes 12 to 21 are written as 0 (R560). -/
def DirEntry.bytes (e : DirEntry) : List Byte :=
  e.name ++ [e.attr] ++ List.replicate 10 0#8 ++ diskWord e.stamp.time ++ diskWord e.stamp.date ++ diskWord e.cluster
    ++ diskLong e.size

/-- The entry in 32 bytes; bytes 12 to 21 are ignored (R560). -/
def DirEntry.ofBytes (bs : List Byte) : DirEntry where
  name := bs.take 11
  attr := bs.getD 11 0#8
  stamp := ⟨wordAt bs 22, wordAt bs 24⟩
  cluster := wordAt bs 26
  size := wordAt bs 30 ++ wordAt bs 28

/-! ## Names (R563) -/

/-- An ASCII letter in upper case. -/
def upper (b : Byte) : Byte := if 0x61 ≤ b.toNat ∧ b.toNat ≤ 0x7A then b - 0x20#8 else b

/-- Upper case, cut to `n` bytes, padded with spaces. -/
def padName (n : Nat) (bs : List Byte) : List Byte :=
  let cut := (bs.take n).map upper
  cut ++ List.replicate (n - cut.length) 0x20#8

/-- Split at the last `.`: what stands before it and after it. -/
def splitLastDot (bs : List Byte) : List Byte × List Byte :=
  let after := (bs.reverse.takeWhile (· != 0x2E#8)).reverse
  if after.length = bs.length then (bs, []) else (bs.take (bs.length - after.length - 1), after)

/-- The eleven stored bytes of a name (R563). DESIGN CHOICE (log 23): `.` and `..` are stored as they are written, without the
split, whether R566 writes them or a caller gives them as a name or a path component. -/
def packName (bs : List Byte) : List Byte :=
  if bs = [0x2E#8] ∨ bs = [0x2E#8, 0x2E#8] then padName 11 bs
  else
    let (n, e) := splitLastDot bs
    padName 8 n ++ padName 3 e

/-- Trailing spaces stripped. -/
def stripSpaces (bs : List Byte) : List Byte := (bs.reverse.dropWhile (· == 0x20#8)).reverse

/-- The name as it is read: "join with `.` only if an extension exists". -/
def readName (stored : List Byte) : List Byte :=
  let n := stripSpaces (stored.take 8)
  let e := stripSpaces (stored.drop 8)
  if e = [] then n else n ++ [0x2E#8] ++ e

/-! ## Directories (R562) -/

/-- Where a directory entry stands: a sector and a byte offset in it. -/
structure Slot where
  sector : Nat
  offset : Nat
  deriving DecidableEq, Repr, Inhabited

/-- The 16 slots of a sector. -/
def slotsOf (s : Nat) : List Slot := (List.range 16).map fun k => ⟨s, 32 * k⟩

/-- The 32 bytes in a slot. -/
def FatState.slotBytes (f : FatState) (p : Slot) : List Byte × FatState :=
  let (sec, f) := f.readSector p.sector
  ((sec.drop p.offset).take 32, f)

/-- A sector with the bytes from offset `o` on replaced. -/
def patch (sec : Sector) (o : Nat) (bs : List Byte) : Sector := sec.take o ++ bs ++ sec.drop (o + bs.length)

/-- Replace the bytes from a slot's offset `o` on. -/
def FatState.patchSlot (f : FatState) (p : Slot) (o : Nat) (bs : List Byte) : FatState :=
  let (sec, f) := f.readSector p.sector
  f.writeSector p.sector (patch sec (p.offset + o) bs)

/-- The entries in a list of slots: 0x00 ends the enumeration, 0xE5 is deleted, attribute 0x0F is a long-name fragment. -/
def FatState.entriesIn : List Slot → FatState → List (Slot × DirEntry) × FatState
  | [], f => ([], f)
  | p :: ps, f =>
    let (bs, f) := f.slotBytes p
    if bs.getD 0 0#8 = 0x00#8 then ([], f)
    else
      let (rest, f) := entriesIn ps f
      if bs.getD 0 0#8 = 0xE5#8 ∨ bs.getD 11 0#8 = 0x0F#8 then (rest, f)
      else ((p, DirEntry.ofBytes bs) :: rest, f)

/-- The first slot whose first byte is 0x00 or 0xE5 (R565). -/
def FatState.freeSlot : List Slot → FatState → Option Slot × FatState
  | [], f => (none, f)
  | p :: ps, f =>
    let (bs, f) := f.slotBytes p
    if bs.getD 0 0#8 = 0x00#8 ∨ bs.getD 0 0#8 = 0xE5#8 then (some p, f) else freeSlot ps f

/-- A directory: its first cluster (0 for the root) and its slots in order. -/
structure Dir where
  cluster : Word
  slots : List Slot
  deriving DecidableEq, Repr, Inhabited

/-- The root directory: sectors 19 to 32 (R531). -/
def rootDir : Dir :=
  ⟨0#16, (List.range Config.rootSectors).flatMap fun k => slotsOf (Config.rootStart + k)⟩

/-- The directory whose chain begins at a cluster; a broken chain is `notFound` (R551). DESIGN CHOICE (log 19): cluster 0 is the
root directory, whatever the entry's name, since `..` names the root by it (R566); R562 would give a chain without a sector. -/
def FatState.subdirectory (f : FatState) (c : Word) : FatResult Dir :=
  if c = 0#16 then (.ok rootDir, f)
  else
    match f.chain c.toNat with
    | (.whole cs, f) => (.ok ⟨c, cs.flatMap fun c => slotsOf (clusterToSector c)⟩, f)
    | (.broken _, f) => (.error .notFound, f)

/-- Whether an entry has a name: the eleven stored bytes are equal after upper-casing (R563). -/
def DirEntry.hasName (e : DirEntry) (name : List Byte) : Bool := decide (e.name.map upper = packName name)

/-- Whether an entry is a subdirectory (R560). -/
def DirEntry.isDirectory (e : DirEntry) : Bool := e.attr.getLsbD attrDirectory

/-- The first entry of a directory that a test accepts. -/
def FatState.findWhere (f : FatState) (d : Dir) (test : DirEntry → Bool) : Option (Slot × DirEntry) × FatState :=
  let (es, f) := FatState.entriesIn d.slots f
  (es.find? fun e => test e.2, f)

/-- The entry of a name in a directory, of any kind (R563). -/
def FatState.findEntry (f : FatState) (d : Dir) (name : List Byte) : Option (Slot × DirEntry) × FatState :=
  f.findWhere d fun e => e.hasName name

/-- The path walk from a directory (R562): each component is looked up as "an entry of that name with attribute bit 4 set", so
an entry of the name without that bit hides none. `none` is the missing-directory sentinel; a broken chain on the way is no
missing directory, but the engine error `notFound` (R551, R570). -/
def FatState.walkPath : List (List Byte) → Dir → FatState → FatResult (Option Dir)
  | [], d, f => (.ok (some d), f)
  | n :: ns, d, f =>
    match f.findWhere d fun e => e.isDirectory && e.hasName n with
    | (some (_, e), f) =>
      match f.subdirectory e.cluster with
      | (.ok d, f) => walkPath ns d f
      | (.error e, f) => (.error e, f)
    | (none, f) => (.ok none, f)

/-- The directory of a path, or the sentinel. -/
def FatState.resolve (f : FatState) (path : List (List Byte)) : FatResult (Option Dir) :=
  FatState.walkPath path rootDir f

/-- The directory of a path, for the operations that report the sentinel as `notFound` (DESIGN CHOICE, log 20). -/
def FatState.directory (f : FatState) (path : List (List Byte)) : FatResult Dir :=
  match f.resolve path with
  | (.ok (some d), f) => (.ok d, f)
  | (.ok none, f) => (.error .notFound, f)
  | (.error e, f) => (.error e, f)

/-- An entry as `listDir` returns it: the 8.3 name decoded (R562, R563). -/
structure Listed where
  name : List Byte
  attr : Byte
  stamp : Stamp
  cluster : Word
  size : BitVec 32
  deriving DecidableEq, Repr, Inhabited

/-- Decode a directory entry. -/
def DirEntry.listed (e : DirEntry) : Listed := ⟨readName e.name, e.attr, e.stamp, e.cluster, e.size⟩

/-- `listDir`: the entries but the volume labels, their names decoded; `.` and `..` are returned (R562). -/
def FatState.listDir (f : FatState) (path : List (List Byte)) : FatResult (List Listed) :=
  match f.directory path with
  | (.error e, f) => (.error e, f)
  | (.ok d, f) =>
    let (es, f) := FatState.entriesIn d.slots f
    (.ok (((es.map Prod.snd).filter fun e => !e.attr.getLsbD attrVolumeLabel).map DirEntry.listed), f)

/-! ## Files (R564-R568) -/

/-- `⌈n / 512⌉`. -/
def blocks (n : Nat) : Nat := (n + (Config.sectorSize - 1)) / Config.sectorSize

/-- The contents of a list of sectors. -/
def FatState.readSectors : List Nat → FatState → List Byte × FatState
  | [], f => ([], f)
  | s :: ss, f =>
    let (b, f) := f.readSector s
    let (rest, f) := readSectors ss f
    (b ++ rest, f)

/-- Exactly `size` bytes of the chain that begins at `first`; a broken or too short chain is `notFound` (R553). -/
def FatState.readChain (f : FatState) (first size : Nat) : FatResult (List Byte) :=
  match f.chain first with
  | (.broken _, f) => (.error .notFound, f)
  | (.whole cs, f) =>
    if cs.length < blocks size then (.error .notFound, f)
    else
      let (bs, f) := FatState.readSectors ((cs.take (blocks size)).map clusterToSector) f
      (.ok (bs.take size), f)

/-- `readFile` of R564. -/
def FatState.readFile (f : FatState) (path : List (List Byte)) (name : List Byte) : FatResult (List Byte) :=
  match f.directory path with
  | (.error e, f) => (.error e, f)
  | (.ok d, f) =>
    match f.findEntry d name with
    | (none, f) => (.error .notFound, f)
    | (some (_, e), f) => f.readChain e.cluster.toNat e.size.toNat

/-- The deletion of a found entry: 0xE5 over its first byte, its chain freed (R567). DESIGN CHOICE (log 18): on a broken chain
the entry is erased and the clusters collected are freed (R554) before the failure is reported as `notFound` (R551). -/
def FatState.eraseEntry (f : FatState) (p : Slot) (e : DirEntry) : FatResult Unit :=
  (f.patchSlot p 0 [0xE5#8]).freeChain e.cluster.toNat

/-- `deleteEntry` of R567: whether the entry was found; a broken chain of a directory on the path is `notFound` (R551). DESIGN
CHOICE: a missing directory is an entry not found (log 20), and a broken chain of the entry itself is reported as `notFound`
instead of the `true` of R567 (log 18). -/
def FatState.deleteEntry (f : FatState) (path : List (List Byte)) (name : List Byte) : FatResult Bool :=
  match f.resolve path with
  | (.error e, f) => (.error e, f.flush)
  | (.ok none, f) => (.ok false, f.flush)
  | (.ok (some d), f) =>
    match f.findEntry d name with
    | (none, f) => (.ok false, f.flush)
    | (some (p, e), f) =>
      let (r, f) := f.eraseEntry p e
      (r.map fun _ => true, f.flush)

/-- Write a file's data to its sectors, 512 bytes each, zero-padded (R565). -/
def FatState.writeData : List Nat → List Byte → FatState → FatState
  | [], _, f => f
  | s :: ss, bs, f =>
    let block := bs.take Config.sectorSize
    let f := f.writeSector s (block ++ List.replicate (Config.sectorSize - block.length) 0#8)
    writeData ss (bs.drop Config.sectorSize) f

/-- Step 2 of R565: delete any entry of the name. -/
def FatState.eraseOld (f : FatState) (d : Dir) (name : List Byte) : FatResult Unit :=
  match f.findEntry d name with
  | (some (p, e), f) => f.eraseEntry p e
  | (none, f) => (.ok (), f)

/-- Steps 3 to 7 of R565 in a directory. -/
def FatState.writeNew (f : FatState) (d : Dir) (name data : List Byte) (now : Stamp) : FatResult Unit :=
  match f.buildChain (blocks data.length) with
  | (none, f) => (.error .diskFull, f.flush)
  | (some cs, f) =>
    let f := FatState.writeData (cs.map clusterToSector) data f
    match FatState.freeSlot d.slots f with
    | (none, f) => (.error .directoryFull, (f.freeAll cs).flush)
    | (some p, f) =>
      let e : DirEntry := ⟨packName name, 0x20#8, now, BitVec.ofNat 16 (cs.headD 0), BitVec.ofNat 32 data.length⟩
      (.ok (), (f.patchSlot p 0 e.bytes).flush)

/-- `writeFile` of R565, its seven steps in order. DESIGN CHOICE (log 18): where the old entry's chain is broken, step 2 fails and
the steps after it are not taken. -/
def FatState.writeFile (f : FatState) (path : List (List Byte)) (name data : List Byte) (now : Stamp) : FatResult Unit :=
  match f.directory path with
  | (.error e, f) => (.error e, f.flush)
  | (.ok d, f) =>
    match f.eraseOld d name with
    | (.error e, f) => (.error e, f.flush)
    | (.ok _, f) => f.writeNew d name data now

/-- The first sector of a new subdirectory: `.` and `..` in slots 0 and 1, zeros after them (R566). -/
def dotSector (self parent : Word) (now : Stamp) : Sector :=
  let bs := (DirEntry.mk (packName [0x2E#8]) 0x10#8 now self 0#32).bytes
    ++ (DirEntry.mk (packName [0x2E#8, 0x2E#8]) 0x10#8 now parent 0#32).bytes
  bs ++ List.replicate (Config.sectorSize - bs.length) 0#8

/-- `mkdir` of R566. DESIGN CHOICE (log 21): a parent without a free slot frees the new cluster and fails with `directoryFull`, as
step 5 of R565 does; it is looked for after the cluster is taken, so a full disk is reported first. -/
def FatState.mkdir (f : FatState) (path : List (List Byte)) (name : List Byte) (now : Stamp) : FatResult Unit :=
  match f.directory path with
  | (.error e, f) => (.error e, f.flush)
  | (.ok d, f) =>
    match f.findEntry d name with
    | (some _, f) => (.error .alreadyExists, f.flush)
    | (none, f) =>
      match f.buildChain 1 with
      | (none, f) => (.error .diskFull, f.flush)
      | (some cs, f) =>
        let c := BitVec.ofNat 16 (cs.headD 0)
        let f := f.writeSector (clusterToSector (cs.headD 0)) (dotSector c d.cluster now)
        match FatState.freeSlot d.slots f with
        | (none, f) => (.error .directoryFull, (f.freeAll cs).flush)
        | (some p, f) => (.ok (), (f.patchSlot p 0 (DirEntry.mk (packName name) 0x10#8 now c 0#32).bytes).flush)

/-- `renameEntry` of R568: bytes 0 to 10 of the slot change, nothing else. DESIGN CHOICE (log 29): the old name is looked for
first, so where it is absent and the new one is present the answer is `notFound`. -/
def FatState.renameEntry (f : FatState) (path : List (List Byte)) (old new : List Byte) : FatResult Unit :=
  match f.directory path with
  | (.error e, f) => (.error e, f.flush)
  | (.ok d, f) =>
    match f.findEntry d old with
    | (none, f) => (.error .notFound, f.flush)
    | (some (p, _), f) =>
      match f.findEntry d new with
      | (some _, f) => (.error .alreadyExists, f.flush)
      | (none, f) => (.ok (), (f.patchSlot p 0 (packName new)).flush)

/-! ## The boot sector and format (R532, R561) -/

/-- ASCII bytes padded with spaces to `n` (R532). DESIGN CHOICE (log 24): longer ones are cut. -/
def padAscii (n : Nat) (bs : List Byte) : List Byte := bs.take n ++ List.replicate (n - bs.length) 0x20#8

/-- The boot sector of R532. -/
def bootSector (oem : List Byte) (serial : BitVec 32) (label : List Byte) : Sector :=
  [0xEB#8, 0x3C#8, 0x90#8] ++ padAscii 8 oem
    ++ diskWord 512#16 ++ [1#8] ++ diskWord 1#16 ++ [2#8] ++ diskWord 224#16 ++ diskWord 2880#16 ++ [0xF0#8]
    ++ diskWord 9#16 ++ diskWord 18#16 ++ diskWord 2#16 ++ diskLong 0#32 ++ diskLong 0#32
    ++ [0#8, 0#8, 0x29#8] ++ diskLong serial ++ padAscii 11 label
    ++ [0x46#8, 0x41#8, 0x54#8, 0x31#8, 0x32#8, 0x20#8, 0x20#8, 0x20#8]
    ++ List.replicate 448 0#8 ++ [0x55#8, 0xAA#8]

/-- The first sector of a fresh FAT: `F0 FF FF`, then zeros (R561). -/
def freshFatSector : Sector := [0xF0#8, 0xFF#8, 0xFF#8] ++ List.replicate 509 0#8

/-- The wipe of R561. DESIGN CHOICE (log 25): it removes every key of the store, whose sectors then read as zeros (R523), and
empties the cache and the dirty set. A key on which a `put` fails stays (93_implementation_defined U24; log 30), and its zeros stay
in the cache. -/
def FatState.wipe (f : FatState) : FatState :=
  let kept := f.store.filter fun p => f.failsPut.contains p.1
  (SectorMap.keys kept).foldl (fun g s => g.writeSector s zeroSector) { f with store := kept, cache := [], dirty := [] }

/-- `format` of R561. -/
def FatState.format (f : FatState) (oem : List Byte) (serial : BitVec 32) (label : List Byte) : FatState :=
  let f := f.wipe
  let f := f.writeSector 0 (bootSector oem serial label)
  let f := f.writeSector Config.fat1Start freshFatSector
  let f := f.writeSector Config.fat2Start freshFatSector
  f.flush

/-- `isFormatted()` of R561. -/
def FatState.isFormatted (f : FatState) : Bool × FatState :=
  let (b, f) := f.readSector 0
  (b.getD 0 0#8 == 0xEB#8, f)

/-! ## Requests -/

/-- A request a handler or the host makes of the translator (48_fat12_translator R520). A sector index out of range is no
request (R521). -/
inductive FatRequest where
  | readSector (s : Fin 2880)
  | writeSector (s : Fin 2880) (bytes : Vector Byte 512)
  | flush
  | format (oem : List Byte) (serial : BitVec 32) (label : List Byte)
  | readFile (path : List (List Byte)) (name : List Byte)
  | listDir (path : List (List Byte))
  | writeFile (path : List (List Byte)) (name data : List Byte) (now : Stamp)
  | mkdir (path : List (List Byte)) (name : List Byte) (now : Stamp)
  | deleteEntry (path : List (List Byte)) (name : List Byte)
  | renameEntry (path : List (List Byte)) (old new : List Byte)
  | freeClusters
  | isFormatted
  /-- a translation request: `Phys(first, k)` of R552 -/
  | translate (first k : Nat)
  /-- an allocation request: `BuildChain(n)` of R555 -/
  | build (n : Nat)
  /-- a free request: `FreeChain(first)` of R554 -/
  | free (first : Nat)
  deriving DecidableEq, Repr, Inhabited

/-- What the translator answers to a request. -/
inductive FatAnswer where
  /-- done, with nothing to tell -/
  | done
  /-- an engine error (R570) -/
  | failed (e : FatError)
  /-- the bytes of a sector or of a file -/
  | bytes (bs : List Byte)
  | listing (es : List Listed)
  /-- a truth value: found, formatted -/
  | truth (b : Bool)
  /-- a count of clusters (R545), or the first cluster of a new chain (R555) -/
  | number (n : Nat)
  /-- the sector of a block, none past the end of the chain (R552) -/
  | block (s : Option Nat)
  deriving DecidableEq, Repr, Inhabited

/-- The answer that tells a result. -/
def FatResult.tell {α : Type} (r : FatResult α) (say : α → FatAnswer) : FatAnswer × FatState :=
  match r with
  | (.ok a, f) => (say a, f)
  | (.error e, f) => (.failed e, f)

/-- Serve one request: the answer and the state after it. DESIGN CHOICE (log 17): the requests `writeSector`, `build` and `free`
are no public operations of R572 and end without a flush; the caller asks for one. -/
def FatState.request (f : FatState) : FatRequest → FatAnswer × FatState
  | .readSector s => let (b, f) := f.readSector s.val; (.bytes b, f)
  | .writeSector s b => (.done, f.writeSector s.val b.toList)
  | .flush => (.done, f.flush)
  | .format oem serial label => (.done, f.format oem serial label)
  | .readFile path name => (f.readFile path name).tell .bytes
  | .listDir path => (f.listDir path).tell .listing
  | .writeFile path name data now => (f.writeFile path name data now).tell fun _ => .done
  | .mkdir path name now => (f.mkdir path name now).tell fun _ => .done
  | .deleteEntry path name => (f.deleteEntry path name).tell .truth
  | .renameEntry path old new => (f.renameEntry path old new).tell fun _ => .done
  | .freeClusters => let (n, f) := f.freeClusters; (.number n, f)
  | .isFormatted => let (b, f) := f.isFormatted; (.truth b, f)
  | .translate first k => (f.physSector first k).tell .block
  | .build n =>
    match f.buildChain n with
    | (some cs, f) => (.number (cs.headD 0), f)
    | (none, f) => (.failed .diskFull, f)
  | .free first => (f.freeChain first).tell fun _ => .done

/-- The translator's state after a request. -/
def FatState.serve (f : FatState) (r : FatRequest) : FatState := (f.request r).2

end Sys2Proof.Machine
end

