-- ==== Sys2Proof/Machine/Flags.lean ====
section
/-! DEFINITION. The flags word (10_state R45, R46) and every flag computation of the spec: the helper functions R50-R56, the
condition table of 45_control_transfer R390, the one-bit shift steps of 43_shift_rotate R321-R327 with their OF rules, and the
BCD adjusts' arithmetic (41_arithmetic R270-R273). -/

namespace Sys2Proof.Machine

/-! ## The named bits -/

/-- The nine observable flags (10_state R45). -/
inductive Flag where
  | cf | pf | af | zf | sf | tf | if_ | df | of
  deriving DecidableEq, Repr, Inhabited

/-- The bit position of a flag (10_state R45). -/
def Flag.pos : Flag → Nat
  | .cf => 0 | .pf => 2 | .af => 4 | .zf => 6 | .sf => 7 | .tf => 8 | .if_ => 9 | .df => 10 | .of => 11

/-- The mask of a flag's bit. -/
def Flag.mask (f : Flag) : Word := 1#16 <<< f.pos

/-- A flag of a flags word. -/
def getFlag (f : Flag) (w : Word) : Bool := w.getLsbD f.pos

/-- A flags word with one flag changed. -/
def putFlag (f : Flag) (v : Bool) (w : Word) : Word :=
  if v then w ||| f.mask else w &&& ~~~f.mask

/-- A flag of the machine. -/
def State.flag (s : State) (f : Flag) : Bool := getFlag f s.flags

/-- Write one flag of the machine. -/
def State.setFlag (s : State) (f : Flag) (v : Bool) : State := { s with flags := putFlag f v s.flags }

/-- `norm(v)` of 10_state R46 and R55: bit 1 reads 1, the other reserved bits read 0. -/
def norm (v : Word) : Word := (v &&& 0x0FD5#16) ||| 0x0002#16

/-- The flags word is normalised: the invariant of 10_state R46. -/
def flagsNormal (w : Word) : Bool := w &&& 0xF02A#16 == 0x0002#16

/-- Write the whole flags word: every such write stores `norm` (10_state R46). -/
def State.setFlags (s : State) (v : Word) : State := { s with flags := norm v }

/-! ## Free flags -/

/-- Write `any` into a flag: a fresh free bit (10_state R56, log 2). -/
def State.freeFlag (s : State) (f : Flag) : State :=
  { s.setFlag f (Config.freeBit s.draws) with draws := s.draws + 1 }

/-- Write `any` into each of the flags. -/
def State.freeFlags (s : State) (fs : List Flag) : State := fs.foldl State.freeFlag s

/-! ## Results and their flags -/

/-- The result of an addition or subtraction, and the three flags that are not functions of the result alone. -/
structure Arith (w : Nat) where
  r : BitVec w
  cf : Bool
  af : Bool
  of : Bool
  deriving DecidableEq, Repr

/-- `parity8` of 10_state R50: the low 8 bits hold an even number of 1 bits. -/
def parity8 {w : Nat} (v : BitVec w) : Bool :=
  ((List.range 8).countP fun i => v.getLsbD i) % 2 == 0

/-- `SZP` of 10_state R51. -/
def State.setSZP {w : Nat} (s : State) (r : BitVec w) : State :=
  ((s.setFlag .sf r.msb).setFlag .zf (r == 0#w)).setFlag .pf (parity8 r)

/-- The arithmetic of `ADDFLAGS` (10_state R52). -/
def addArith {w : Nat} (a b : BitVec w) (c : Bool) : Arith w :=
  let r := BitVec.ofNat w (a.toNat + b.toNat + c.toNat)
  { r := r
    cf := decide (2 ^ w ≤ a.toNat + b.toNat + c.toNat)
    af := decide (15 < a.toNat % 16 + b.toNat % 16 + c.toNat)
    of := a.msb == b.msb && r.msb != a.msb }

/-- The arithmetic of `SUBFLAGS` (10_state R53). -/
def subArith {w : Nat} (a b : BitVec w) (c : Bool) : Arith w :=
  let r := BitVec.ofInt w (a.toNat - b.toNat - c.toNat)
  { r := r
    cf := decide (a.toNat < b.toNat + c.toNat)
    af := decide (a.toNat % 16 < b.toNat % 16 + c.toNat)
    of := a.msb != b.msb && r.msb != a.msb }

/-- All flags of an addition or subtraction but CF (INC and DEC: "INC/DEC preserve CF", 41_arithmetic R255, R256). -/
def State.setArithKeepCF {w : Nat} (s : State) (o : Arith w) : State :=
  ((s.setFlag .of o.of).setFlag .af o.af).setSZP o.r

/-- All six arithmetic flags (10_state R52, R53). -/
def State.setArith {w : Nat} (s : State) (o : Arith w) : State := (s.setArithKeepCF o).setFlag .cf o.cf

/-- `LOGICFLAGS` of 10_state R54. -/
def State.setLogic {w : Nat} (s : State) (r : BitVec w) : State :=
  (((s.setFlag .cf false).setFlag .of false).setSZP r).freeFlag .af

/-! ## Conditions (45_control_transfer R390) -/

/-- The sixteen conditions, in the order of their `cc` number. -/
inductive Cond where
  | o | no | b | ae | e | ne | be | a | s | ns | p | np | l | ge | le | g
  deriving DecidableEq, Repr, Inhabited

/-- `cond(cc)`. -/
def State.cond (s : State) : Cond → Bool
  | .o => s.flag .of
  | .no => !s.flag .of
  | .b => s.flag .cf
  | .ae => !s.flag .cf
  | .e => s.flag .zf
  | .ne => !s.flag .zf
  | .be => s.flag .cf || s.flag .zf
  | .a => !s.flag .cf && !s.flag .zf
  | .s => s.flag .sf
  | .ns => !s.flag .sf
  | .p => s.flag .pf
  | .np => !s.flag .pf
  | .l => s.flag .sf != s.flag .of
  | .ge => s.flag .sf == s.flag .of
  | .le => s.flag .zf || s.flag .sf != s.flag .of
  | .g => !s.flag .zf && s.flag .sf == s.flag .of

/-! ## Shifts and rotates (43_shift_rotate) -/

/-- The seven operations of group 2 (SAL is SHL). -/
inductive ShiftOp where
  | rol | ror | rcl | rcr | shl | shr | sar
  deriving DecidableEq, Repr, Inhabited

/-- A rotate leaves SF, ZF, PF and AF unchanged (43_shift_rotate R320). -/
def ShiftOp.isRotate : ShiftOp → Bool
  | .rol | .ror | .rcl | .rcr => true
  | .shl | .shr | .sar => false

/-- A bit in the lowest place. -/
def lowBit (w : Nat) (b : Bool) : BitVec w := BitVec.ofNat w b.toNat

/-- A bit in the highest place. -/
def highBit (w : Nat) (b : Bool) : BitVec w := lowBit w b <<< (w - 1)

/-- One single-bit step: the operand and CF after it (43_shift_rotate R321-R327). -/
def shiftStep {w : Nat} (op : ShiftOp) (a : BitVec w) (cf : Bool) : BitVec w × Bool :=
  match op with
  | .shl => (a <<< 1, a.msb)
  | .shr => (a >>> 1, a.getLsbD 0)
  | .sar => ((a >>> 1) ||| highBit w a.msb, a.getLsbD 0)
  | .rol => ((a <<< 1) ||| lowBit w a.msb, a.msb)
  | .ror => ((a >>> 1) ||| highBit w (a.getLsbD 0), a.getLsbD 0)
  | .rcl => ((a <<< 1) ||| lowBit w cf, a.msb)
  | .rcr => ((a >>> 1) ||| highBit w cf, a.getLsbD 0)

/-- `n` single-bit steps (43_shift_rotate R320). -/
def shiftSteps {w : Nat} (op : ShiftOp) : Nat → BitVec w → Bool → BitVec w × Bool
  | 0, a, cf => (a, cf)
  | n + 1, a, cf => let p := shiftStep op a cf; shiftSteps op n p.1 p.2

/-- OF after a count of 1, from the original operand, the result and CF after it (43_shift_rotate R321-R327): the XOR of the top
bit and CF for SHL and the rotates, 0 for SAR, the original top bit for SHR. -/
def shiftOF {w : Nat} (op : ShiftOp) (a r : BitVec w) (cf : Bool) : Bool :=
  match op with
  | .sar => false
  | .shr => a.msb
  | .shl | .rol | .ror | .rcl | .rcr => cf ^^ r.msb

/-- The flags of a shift or rotate by a masked count `n` that is not 0: `a` the original operand, `r` the result, `cf` the last
bit shifted out (43_shift_rotate R320). -/
def State.setShiftFlags {w : Nat} (s : State) (op : ShiftOp) (n : Nat) (a r : BitVec w) (cf : Bool) : State :=
  let s := s.setFlag .cf cf
  let s := if n = 1 then s.setFlag .of (shiftOF op a r cf) else s.freeFlag .of
  if op.isRotate then s else (s.setSZP r).freeFlag .af

/-! ## BCD adjusts (41_arithmetic R270-R273) -/

/-- AL, CF and AF after DAA (41_arithmetic R270). -/
def daaAdjust (al : Byte) (af cf : Bool) : Byte × Bool × Bool :=
  let low := decide (9 < al.toNat % 16) || af
  let high := decide (0x99 < al.toNat) || cf
  let al1 := if low then al + 0x06#8 else al
  (if high then al1 + 0x60#8 else al1, high, low)

/-- AL, CF and AF after DAS (41_arithmetic R271). -/
def dasAdjust (al : Byte) (af cf : Bool) : Byte × Bool × Bool :=
  let low := decide (9 < al.toNat % 16) || af
  let high := decide (0x99 < al.toNat) || cf
  let al1 := if low then al - 0x06#8 else al
  (if high then al1 - 0x60#8 else al1, high || (low && (cf || decide (al.toNat < 6))), low)

/-- Whether AAA and AAS adjust (41_arithmetic R272, R273). -/
def asciiAdjusts (al : Byte) (af : Bool) : Bool := decide (9 < al.toNat % 16) || af

end Sys2Proof.Machine
end

