-- ==== Sys2Proof/Machine/Ops.lean ====
section
/-! DEFINITION. The named operations over registers, memory, the stack, the ports and the prefix state, and the one operation
that takes an interrupt, with the synthesised handlers and the return (10_state, 20_memory, 46_io_processor_control,
60_exceptions). -/

namespace Sys2Proof

/-! ## Register numbers (10_state R32, R33) -/

/-- `R16[i]` (10_state R32). -/
def RegNum.r16 : RegNum → Reg16
  | .n0 => .ax | .n1 => .cx | .n2 => .dx | .n3 => .bx | .n4 => .sp | .n5 => .bp | .n6 => .si | .n7 => .di

/-- `R8[i]` (10_state R33). -/
def RegNum.r8 : RegNum → Reg8
  | .n0 => .al | .n1 => .cl | .n2 => .dl | .n3 => .bl | .n4 => .ah | .n5 => .ch | .n6 => .dh | .n7 => .bh

/-- The register a byte half is part of (10_state R33). -/
def Reg8.parent : Reg8 → Reg16
  | .al | .ah => .ax
  | .cl | .ch => .cx
  | .dl | .dh => .dx
  | .bl | .bh => .bx

/-- Whether the half is the upper 8 bits (10_state R33). -/
def Reg8.isHigh : Reg8 → Bool
  | .al | .cl | .dl | .bl => false
  | .ah | .ch | .dh | .bh => true

end Sys2Proof

namespace Sys2Proof.Machine

/-! ## General registers (10_state R31-R34) -/

def Regs.get (g : Regs) : Reg16 → Word
  | .ax => g.ax | .cx => g.cx | .dx => g.dx | .bx => g.bx | .sp => g.sp | .bp => g.bp | .si => g.si | .di => g.di

def Regs.set (g : Regs) (r : Reg16) (v : Word) : Regs :=
  match r with
  | .ax => { g with ax := v } | .cx => { g with cx := v } | .dx => { g with dx := v } | .bx => { g with bx := v }
  | .sp => { g with sp := v } | .bp => { g with bp := v } | .si => { g with si := v } | .di => { g with di := v }

def State.reg (s : State) (r : Reg16) : Word := s.regs.get r

def State.setReg (s : State) (r : Reg16) (v : Word) : State := { s with regs := s.regs.set r v }

/-- Read a byte half. -/
def State.half (s : State) (r : Reg8) : Byte :=
  if r.isHigh then (s.reg r.parent).extractLsb' 8 8 else (s.reg r.parent).extractLsb' 0 8

/-- A word with one half replaced (10_state R34). -/
def withHalf (high : Bool) (x : Word) (v : Byte) : Word :=
  if high then v ++ x.extractLsb' 0 8 else x.extractLsb' 8 8 ++ v

/-- Write a byte half: the other half of its register stays, and nothing else changes (10_state R34). -/
def State.setHalf (s : State) (r : Reg8) (v : Byte) : State :=
  s.setReg r.parent (withHalf r.isHigh (s.reg r.parent) v)

/-- `R8[i]` or `R16[i]` by width. -/
def State.regW (w : Width) (s : State) (i : RegNum) : BitVec w.bits :=
  match w with
  | .byte => s.half i.r8
  | .word => s.reg i.r16

/-- Write `R8[i]` or `R16[i]` by width. -/
def State.setRegW (w : Width) (s : State) (i : RegNum) (v : BitVec w.bits) : State :=
  match w with
  | .byte => s.setHalf i.r8 v
  | .word => s.setReg i.r16 v

/-- The accumulator: AL or AX. -/
abbrev State.acc (w : Width) (s : State) : BitVec w.bits := s.regW w .n0

/-- Write the accumulator: AL or AX. -/
abbrev State.setAcc (w : Width) (s : State) (v : BitVec w.bits) : State := s.setRegW w .n0 v

/-! ## Segment registers and IP (10_state R40-R44) -/

def Segs.get (g : Segs) : SReg → Word
  | .es => g.es | .cs => g.cs | .ss => g.ss | .ds => g.ds | .fs => g.fs | .gs => g.gs

def Segs.set (g : Segs) (r : SReg) (v : Word) : Segs :=
  match r with
  | .es => { g with es := v } | .cs => { g with cs := v } | .ss => { g with ss := v }
  | .ds => { g with ds := v } | .fs => { g with fs := v } | .gs => { g with gs := v }

def State.seg (s : State) (r : SReg) : Word := s.segs.get r

def State.setSeg (s : State) (r : SReg) (v : Word) : State := { s with segs := s.segs.set r v }

def State.setIp (s : State) (v : Word) : State := { s with ip := v }

/-- Near transfer by a displacement: IP already points after the instruction (10_state R43). -/
def State.jumpRel (s : State) (d : Word) : State := s.setIp (s.ip + d)

/-- Far transfer (00_scope R10). -/
def State.jumpFar (s : State) (seg off : Word) : State := (s.setSeg .cs seg).setIp off

/-! ## Memory (20_memory R80-R91) -/

/-- What an address nothing has written reads as (log 1). -/
def Memory.unlisted : Byte := 0x00#8

/-- The canonical form from address `lo` on: addresses strictly rising, inside the 2^20 bytes, no entry equal to what an
unlisted address reads as. -/
def Memory.wfFrom : Nat → Memory → Bool
  | _, [] => true
  | lo, (a, b) :: t => decide (lo ≤ a) && decide (a < 2 ^ 20) && b != Memory.unlisted && Memory.wfFrom (a + 1) t

/-- The canonical form. -/
def Memory.wf (m : Memory) : Bool := Memory.wfFrom 0 m

/-- The byte at an address. -/
def Memory.read : Memory → Nat → Byte
  | [], _ => Memory.unlisted
  | (k, c) :: t, a => if k = a then c else Memory.read t a

/-- The list without an address. -/
def Memory.erase : Memory → Nat → Memory
  | [], _ => []
  | (k, c) :: t, a => if k = a then Memory.erase t a else (k, c) :: Memory.erase t a

/-- The list with an entry added before the first higher address. -/
def Memory.insert : Memory → Nat → Byte → Memory
  | [], a, b => [(a, b)]
  | (k, c) :: t, a, b => if a < k then (a, b) :: (k, c) :: t else (k, c) :: Memory.insert t a b

/-- Store a byte; the canonical form is kept. Reading back holds on any list, canonical or not. -/
def Memory.write (m : Memory) (a : Nat) (b : Byte) : Memory :=
  if b = Memory.unlisted then m.erase a else (m.erase a).insert a b

/-- `phys(seg, off)` of 20_memory R82; the address has 20 bits, so the sum wraps. -/
def phys (seg off : Word) : Addr := (seg.setWidth 20 <<< 4) + off.setWidth 20

/-- `MemRead(addr, 1)` (20_memory R84). -/
def State.memRead8 (s : State) (a : Addr) : Byte := s.mem.read a.toNat

/-- `MemRead(addr, 2)`: two bytes, the low one first, each address masked (20_memory R85). -/
def State.memRead16 (s : State) (a : Addr) : Word := s.memRead8 (a + 1#20) ++ s.memRead8 a

/-- `MemWrite(addr, 1, v)` (20_memory R84). -/
def State.memWrite8 (s : State) (a : Addr) (v : Byte) : State := { s with mem := s.mem.write a.toNat v }

/-- `MemWrite(addr, 2, v)` (20_memory R85). -/
def State.memWrite16 (s : State) (a : Addr) (v : Word) : State :=
  (s.memWrite8 a (v.extractLsb' 0 8)).memWrite8 (a + 1#20) (v.extractLsb' 8 8)

/-- `Read8` and `Read16` by width (20_memory R86). -/
def State.readMem (w : Width) (s : State) (seg off : Word) : BitVec w.bits :=
  match w with
  | .byte => s.memRead8 (phys seg off)
  | .word => s.memRead16 (phys seg off)

/-- `Write8` and `Write16` by width (20_memory R86). -/
def State.writeMem (w : Width) (s : State) (seg off : Word) (v : BitVec w.bits) : State :=
  match w with
  | .byte => s.memWrite8 (phys seg off) v
  | .word => s.memWrite16 (phys seg off) v

/-- The offset and segment words of a far pointer at `(seg, off)`; the `+2` wraps inside the segment (20_memory R91). -/
def State.farPointer (s : State) (seg off : Word) : Word × Word :=
  (s.readMem .word seg off, s.readMem .word seg (off + 2#16))

/-! ## The stack (20_memory R92, R93) -/

/-- `push16(v)`: the decrement first, then the store at the new `SS:SP`. -/
def State.push16 (s : State) (v : Word) : State :=
  let s := s.setReg .sp (s.reg .sp - 2#16)
  s.writeMem .word (s.seg .ss) (s.reg .sp) v

/-- The word on top of the stack. -/
def State.top (s : State) : Word := s.readMem .word (s.seg .ss) (s.reg .sp)

/-- SP moved up by `n`. -/
def State.release (s : State) (n : Word) : State := s.setReg .sp (s.reg .sp + n)

/-- `pop16()`: the word on top, and SP two higher. -/
def State.pop16 (s : State) : Word × State := (s.top, s.release 2#16)

/-! ## Prefix state (10_state R61, 30_encoding R124) -/

def State.setSegov (s : State) (r : SReg) : State := { s with segov := some r }

def State.setRep (s : State) (r : Rep) : State := { s with rep := some r }

/-- Both fields are cleared at the start of a step (30_encoding R121). -/
def State.clearPrefixes (s : State) : State := { s with segov := none, rep := none }

/-- The segment of an overridable reference whose default is `d` (30_encoding R125). -/
def State.overrideSeg (s : State) (d : SReg) : Word := s.seg (s.segov.getD d)

/-! ## Ports (46_io_processor_control R430-R433) -/

/-- `PortRead(p)`: a registered port's byte is free and fresh, an unregistered one reads 0xFF. DESIGN CHOICE (log 7): R431 lets the
port's code have side effects on platform state, and here it changes neither the key buffer nor the translator. -/
def State.portRead8 (s : State) (p : Word) : Byte × State :=
  if s.ports.contains p then
    let b := Config.portByte s.draws p
    (b, { s with draws := s.draws + 1, portLog := s.portLog ++ [.read p b] })
  else (Config.unhandledPort, s)

/-- `PortWrite(p, b)`: an unregistered port discards the byte. A registered one takes it, and changes neither the key buffer nor
the translator (DESIGN CHOICE, log 7). -/
def State.portWrite8 (s : State) (p : Word) (b : Byte) : State :=
  if s.ports.contains p then { s with portLog := s.portLog ++ [.write p b] } else s

/-- `PortRead` or `PortRead16` by width: low byte at `p` first, then the high byte at `p + 1` modulo 2^16 (R433). -/
def State.portRead (w : Width) (s : State) (p : Word) : BitVec w.bits × State :=
  match w with
  | .byte => s.portRead8 p
  | .word =>
    let (lo, s) := s.portRead8 p
    let (hi, s) := s.portRead8 (p + 1#16)
    (hi ++ lo, s)

/-- `PortWrite` or `PortWrite16` by width (R433). -/
def State.portWrite (w : Width) (s : State) (p : Word) (v : BitVec w.bits) : State :=
  match w with
  | .byte => s.portWrite8 p v
  | .word => (s.portWrite8 p (BitVec.extractLsb' 0 8 v)).portWrite8 (p + 1#16) (BitVec.extractLsb' 8 8 v)

/-! ## Trace, halt, class x186 -/

/-- One TRACE record for the opcode `op` of the instruction of `len` bytes that ends at IP (30_encoding R158). -/
def State.traceOpcode (s : State) (op : List Byte) (len : Nat) : State :=
  { s with trace := s.trace ++ [⟨op, s.seg .cs, s.ip - BitVec.ofNat 16 len⟩] }

/-- Stop with a reason (10_state R60). -/
def State.halt (s : State) (r : HaltReason) : State := { s with halted := true, haltReason := r }

/-- An instruction of class x186 has its meaning only when EXT186 is `present` (30_encoding R160). -/
def State.ifExt186 (s : State) (o : Outcome) : Outcome :=
  match s.ext186 with
  | .present => o
  | .refuse | .absent => .refused .ext186NotPresent

/-! ## Synthesised handlers (60_exceptions R610-R622) -/

/-- How a service leaves the halt state: running, or one of the two reasons a handler may set (10_state R60). -/
inductive ServiceHalt where
  | running
  | programExit
  | keyWait
  deriving DecidableEq, Repr, Inhabited

/-- What a service leaves behind, inside the contract of 60_exceptions R612: any general register but SP (item b), any segment
register, IP, FLAGS (stored through `norm`, item c), any bytes of memory, the halt state, and the platform's side: requests to
the translator, port accesses, the key buffer. -/
structure ServiceResult where
  ax : Word
  cx : Word
  dx : Word
  bx : Word
  bp : Word
  si : Word
  di : Word
  segs : Segs
  ip : Word
  flags : Word
  writes : List (Addr × Byte)
  halt : ServiceHalt
  fat : List FatRequest
  ports : List PortEvent
  keys : List Word
  deriving DecidableEq, Repr, Inhabited

end Sys2Proof.Machine

/-- The effect of a synthesised handler whose body the spec leaves to the platform: "an arbitrary function State → State supplied
by the platform" within the contract (60_exceptions R612), fresh at every call (log 5). The arguments are the draw, the vector
and the state the handler sees (R611). -/
opaque Sys2Proof.Config.service : Nat → Sys2Proof.Byte → Sys2Proof.Machine.State → Sys2Proof.Machine.ServiceResult

namespace Sys2Proof.Machine

/-- The bytes a service stores, in order. -/
def State.writeBytes (s : State) (ws : List (Addr × Byte)) : State :=
  ws.foldl (fun s w => s.memWrite8 w.1 w.2) s

/-- The halt state a service leaves. -/
def State.setServiceHalt (s : State) : ServiceHalt → State
  | .running => { s with halted := false, haltReason := .none }
  | .programExit => s.halt .programExit
  | .keyWait => s.halt .keyWait

/-- The state after a service with the given result: SP is as at entry (R612, item b). -/
def State.afterService (s : State) (r : ServiceResult) : State :=
  let s := s.writeBytes r.writes
  let s : State :=
    { s with
      regs := ⟨r.ax, r.cx, r.dx, r.bx, s.regs.sp, r.bp, r.si, r.di⟩
      segs := r.segs
      ip := r.ip
      flags := norm r.flags
      fat := r.fat.foldl FatState.serve s.fat
      portLog := s.portLog ++ r.ports
      keyBuffer := r.keys }
  s.setServiceHalt r.halt

/-- What a handler sees (60_exceptions R611): the machine, and none of the model's own fields, so that no instruction sees a
count of anything (10_state R65, 70_reset_and_hazards R684). -/
def State.seenByHandler (s : State) : State := { s with draws := 0, portLog := [], trace := [] }

/-- A service whose body is the platform's. -/
def State.runService (s : State) (n : Byte) : State :=
  { s with draws := s.draws + 1 }.afterService (Config.service s.draws n s.seenByHandler)

/-- The body of the handler of vector `n` (R620-R622). -/
def State.runHandler (s : State) (h : Handler) (n : Byte) : State :=
  match h with
  | .programExit => s.halt .programExit
  | .dos => if s.half .ah = 0x4C#8 then s.halt .programExit else s.runService n
  | .keyboard =>
    if s.half .ah = 0x00#8 ∨ s.half .ah = 0x10#8 then
      match s.keyBuffer with
      | [] => (s.setIp (s.ip - 2#16)).halt .keyWait
      | k :: ks => { s.setReg .ax k with keyBuffer := ks }
    else s.runService n
  | .service => s.runService n

/-- The handler registered for a vector (10_state R63). -/
def lookupHandler : List (Byte × Handler) → Byte → Option Handler
  | [], _ => none
  | (v, h) :: t, n => if v = n then some h else lookupHandler t n

/-! ## Taking an interrupt and returning from one (60_exceptions R601-R606) -/

/-- The three pushes of the entry: FLAGS as it was, then CS, then IP, with IF and TF cleared after the first (R601). IP is the
offset after the whole interrupting instruction (R606). -/
def State.pushFrame (s : State) : State :=
  let s := s.push16 s.flags
  let s := (s.setFlag .if_ false).setFlag .tf false
  let s := s.push16 (s.seg .cs)
  s.push16 s.ip

/-- Enter through the vector table: IP from `4n`, CS from `4n + 2` (R604). -/
def State.enterVector (s : State) (n : Byte) : State :=
  let a : Addr := n.setWidth 20 <<< 2
  s.jumpFar (s.memRead16 (a + 2#20)) (s.memRead16 a)

/-- `Interrupt(n)`: the entry sequence, then the registered handler, after which the three frame words are discarded (R603,
R613), or the vector table (R604). -/
def State.interrupt (s : State) (n : Byte) : State :=
  let s := s.pushFrame
  match lookupHandler s.handlers n with
  | some h => (s.runHandler h n).release 6#16
  | none => s.enterVector n

/-- Return from an interrupt: pop IP, CS, FLAGS (45_control_transfer R403, 60_exceptions R605). -/
def State.returnFromInterrupt (s : State) : State :=
  let (ip, s) := s.pop16
  let (cs, s) := s.pop16
  let (fl, s) := s.pop16
  ((s.setSeg .cs cs).setIp ip).setFlags fl

end Sys2Proof.Machine
end

