-- ==== Sys2Proof/Machine/Operands.lean ====
section
/-! DEFINITION. Operands: the effective address of a ModR/M byte (30_encoding R130-R134), the place it names, reading and
writing it (R135), and the operand forms of the two-operand, TEST and shift instructions. A place is resolved once per
instruction, before the instruction changes anything: it is the cached effective address of 10_state R62. -/

namespace Sys2Proof

/-- The default segment of a base (30_encoding R132). -/
def Base.defaultSeg : Base → SReg
  | .bpsi | .bpdi | .bp => .ss
  | .bxsi | .bxdi | .si | .di | .bx => .ds

/-- The value of a displacement: one byte is sign-extended (30_encoding R130, R133). -/
def Disp.value : Disp → Word
  | .none => 0#16
  | .d8 d => d.signExtend 16
  | .d16 d => d

/-- The default segment of a memory operand: DS for the direct form (30_encoding R132). -/
def MemOp.defaultSeg : MemOp → SReg
  | .direct _ => .ds
  | .based b _ => b.defaultSeg

/-- The displacement of a conditional jump as a word (30_encoding R140). -/
def CondDisp.value : CondDisp → Word
  | .rel8 d => d.signExtend 16
  | .rel16 d => d

end Sys2Proof

namespace Sys2Proof.Machine

/-- The value of a base (30_encoding R132); the sum of two registers wraps (R134). -/
def State.baseValue (s : State) : Base → Word
  | .bxsi => s.reg .bx + s.reg .si
  | .bxdi => s.reg .bx + s.reg .di
  | .bpsi => s.reg .bp + s.reg .si
  | .bpdi => s.reg .bp + s.reg .di
  | .si => s.reg .si
  | .di => s.reg .di
  | .bp => s.reg .bp
  | .bx => s.reg .bx

/-- `EA`: the 16-bit offset of a memory operand (30_encoding R134). -/
def State.effAddr (s : State) : MemOp → Word
  | .direct off => off
  | .based b d => s.baseValue b + d.value

/-- `ESEG`: the segment value of a memory operand, the override's if there is one (30_encoding R130). -/
def State.effSeg (s : State) (m : MemOp) : Word := s.overrideSeg m.defaultSeg

/-- The place `E` that `modrm()` yields (00_scope R13): a register number, or a segment value and an offset. -/
inductive Place where
  | reg (i : RegNum)
  | mem (seg off : Word)
  deriving DecidableEq, Repr, Inhabited

/-- The place of an operand in the state before the instruction. -/
def State.resolve (s : State) : Rm → Place
  | .reg i => .reg i
  | .mem m => .mem (s.effSeg m) (s.effAddr m)

/-- `ReadE(w)` of 30_encoding R135. -/
def State.readPlace (w : Width) (s : State) : Place → BitVec w.bits
  | .reg i => s.regW w i
  | .mem seg off => s.readMem w seg off

/-- `WriteE(w, v)` of 30_encoding R135. -/
def State.writePlace (w : Width) (s : State) (p : Place) (v : BitVec w.bits) : State :=
  match p with
  | .reg i => s.setRegW w i v
  | .mem seg off => s.writeMem w seg off v

/-- Read an operand: `modrm()` and `ReadE(w)`. -/
def State.readRm (w : Width) (s : State) (e : Rm) : BitVec w.bits := s.readPlace w (s.resolve e)

/-- Write an operand whose place was resolved in this same state. -/
def State.writeRm (w : Width) (s : State) (e : Rm) (v : BitVec w.bits) : State := s.writePlace w (s.resolve e) v

/-- A two-operand form in a state: its width, the place of its destination, the value of its source. -/
structure Operands where
  w : Width
  dst : Place
  src : BitVec w.bits

/-- A shift form in a state: its width, the place of its operand, the count masked to five bits (43_shift_rotate R320). -/
structure ShiftArgs where
  w : Width
  dst : Place
  count : Nat

/-- "The count is masked to the low 5 bits." -/
def maskCount (raw : Byte) : Nat := (raw &&& 0x1F#8).toNat

/-- The segment of the string source, the moffs operand and the XLAT table: DS, or the override (30_encoding R125). -/
def State.dataSeg (s : State) : Word := s.overrideSeg .ds

end Sys2Proof.Machine

namespace Sys2Proof

open Sys2Proof.Machine

/-- The operands of a two-operand form (41_arithmetic, table at its head). -/
def AluForm.operands (f : AluForm) (s : State) : Operands :=
  match f with
  | .rmReg w e r => ⟨w, s.resolve e, s.regW w r⟩
  | .regRm w r e => ⟨w, .reg r, s.readRm w e⟩
  | .alImm v => ⟨.byte, .reg .n0, v⟩
  | .axImm v => ⟨.word, .reg .n0, v⟩
  | .rm8Imm _ e v => ⟨.byte, s.resolve e, v⟩
  | .rm16Imm e v => ⟨.word, s.resolve e, v⟩
  | .rm16Simm e v => ⟨.word, s.resolve e, v.signExtend 16⟩

/-- The operands of a TEST form (42_logic R304). -/
def TestForm.operands (f : TestForm) (s : State) : Operands :=
  match f with
  | .rmReg w e r => ⟨w, s.resolve e, s.regW w r⟩
  | .alImm v => ⟨.byte, .reg .n0, v⟩
  | .axImm v => ⟨.word, .reg .n0, v⟩
  | .rm8Imm e v => ⟨.byte, s.resolve e, v⟩
  | .rm16Imm e v => ⟨.word, s.resolve e, v⟩

/-- The operand and count of a shift form (43_shift_rotate R320, 47_post8086_ext R492). -/
def ShiftForm.args (f : ShiftForm) (s : State) : ShiftArgs :=
  match f with
  | .one w e => ⟨w, s.resolve e, 1⟩
  | .cl w e => ⟨w, s.resolve e, maskCount (s.half .cl)⟩
  | .imm w e v => ⟨w, s.resolve e, maskCount v⟩

end Sys2Proof
end

