-- ==== Sys2Proof/Machine/Arithmetic.lean ====
section
/-! DEFINITION. The arithmetic and BCD-adjust instructions (41_arithmetic R250-R275, 47_post8086_ext R491). -/

namespace Sys2Proof.Machine

/-! ## Addition and subtraction -/

/-- Write a result and all six flags. -/
def aluWrite (o : Operands) (x : Arith o.w.bits) (s : State) : Outcome :=
  .next ((s.writePlace o.w o.dst x.r).setArith x)

/-- ADD (R250). -/
def execAdd (f : AluForm) (s : State) : Outcome :=
  let o := f.operands s
  aluWrite o (addArith (s.readPlace o.w o.dst) o.src false) s

/-- ADC: the carry in is CF before the instruction (R251). -/
def execAdc (f : AluForm) (s : State) : Outcome :=
  let o := f.operands s
  aluWrite o (addArith (s.readPlace o.w o.dst) o.src (s.flag .cf)) s

/-- SUB (R252). -/
def execSub (f : AluForm) (s : State) : Outcome :=
  let o := f.operands s
  aluWrite o (subArith (s.readPlace o.w o.dst) o.src false) s

/-- SBB: the borrow in is CF before the instruction (R253). -/
def execSbb (f : AluForm) (s : State) : Outcome :=
  let o := f.operands s
  aluWrite o (subArith (s.readPlace o.w o.dst) o.src (s.flag .cf)) s

/-- CMP: nothing is written but the flags (R254). -/
def execCmp (f : AluForm) (s : State) : Outcome :=
  let o := f.operands s
  .next (s.setArith (subArith (s.readPlace o.w o.dst) o.src false))

/-- Add 1 to a place; CF is preserved (R255). -/
def incPlace (w : Width) (p : Place) (s : State) : Outcome :=
  let x := addArith (s.readPlace w p) 1 false
  .next ((s.writePlace w p x.r).setArithKeepCF x)

/-- Subtract 1 from a place; CF is preserved (R256). -/
def decPlace (w : Width) (p : Place) (s : State) : Outcome :=
  let x := subArith (s.readPlace w p) 1 false
  .next ((s.writePlace w p x.r).setArithKeepCF x)

/-- INC r16 (R255). -/
def execIncReg (r : RegNum) (s : State) : Outcome := incPlace .word (.reg r) s

/-- INC Eb, Ev (R255). -/
def execIncRm (w : Width) (e : Rm) (s : State) : Outcome := incPlace w (s.resolve e) s

/-- DEC r16 (R256). -/
def execDecReg (r : RegNum) (s : State) : Outcome := decPlace .word (.reg r) s

/-- DEC Eb, Ev (R256). -/
def execDecRm (w : Width) (e : Rm) (s : State) : Outcome := decPlace w (s.resolve e) s

/-- NEG (R257). -/
def execNeg (w : Width) (e : Rm) (s : State) : Outcome :=
  let x := subArith 0 (s.readRm w e) false
  .next ((s.writeRm w e x.r).setArith x)

/-! ## Multiplication and division -/

/-- A double-width product goes to AX, or to DX:AX (R258, R259). -/
def State.setProduct (w : Width) (s : State) (p : Int) : State :=
  match w with
  | .byte => s.setReg .ax (BitVec.ofInt 16 p)
  | .word =>
    let q := BitVec.ofInt 32 p
    (s.setReg .dx (q.extractLsb' 16 16)).setReg .ax (q.extractLsb' 0 16)

/-- CF and OF say whether the high half matters; SF, ZF, AF and PF are free (R258, R259). -/
def State.setMulFlags (s : State) (v : Bool) : State :=
  ((s.setFlag .cf v).setFlag .of v).freeFlags [.sf, .zf, .af, .pf]

/-- MUL: the high half is not 0 exactly when the product is 2^w or more (R258). -/
def execMul (w : Width) (e : Rm) (s : State) : Outcome :=
  let p := (s.acc w).toNat * (s.readRm w e).toNat
  .next ((s.setProduct w p).setMulFlags (decide (2 ^ w.bits ≤ p)))

/-- IMUL: the overflow test compares the product with its low half taken as signed (R259). -/
def execImul (w : Width) (e : Rm) (s : State) : Outcome :=
  let p := (s.acc w).toInt * (s.readRm w e).toInt
  .next ((s.setProduct w p).setMulFlags (decide (p ≠ (BitVec.ofInt w.bits p).toInt)))

/-- IMUL Gv, Ev, imm: the product modulo 2^16 (47_post8086_ext R491). -/
def imulInto (r : RegNum) (e : Rm) (b : Word) (s : State) : Outcome :=
  let p := (s.readRm .word e).toInt * b.toInt
  .next ((s.setReg r.r16 (BitVec.ofInt 16 p)).setMulFlags (decide (p < -32768) || decide (32767 < p)))

/-- IMUL Gv, Ev, imm16, class x186 (47_post8086_ext R491). -/
def execImulImm16 (r : RegNum) (e : Rm) (imm : Word) (s : State) : Outcome := s.ifExt186 (imulInto r e imm s)

/-- IMUL Gv, Ev, simm8, class x186 (47_post8086_ext R491). -/
def execImulSimm8 (r : RegNum) (e : Rm) (imm : Byte) (s : State) : Outcome :=
  s.ifExt186 (imulInto r e (imm.signExtend 16) s)

/-- The six flags a division leaves free (R260, R261). -/
def State.freeDivFlags (s : State) : State := s.freeFlags [.of, .sf, .zf, .af, .pf, .cf]

/-- Quotient and remainder go to AL and AH, or to AX and DX (R260, R261). -/
def State.setQuotRem (w : Width) (s : State) (q r : Int) : State :=
  match w with
  | .byte => (s.setHalf .al (BitVec.ofInt 8 q)).setHalf .ah (BitVec.ofInt 8 r)
  | .word => (s.setReg .ax (BitVec.ofInt 16 q)).setReg .dx (BitVec.ofInt 16 r)

/-- The unsigned dividend: AX, or DX:AX (R260). -/
def State.dividend (w : Width) (s : State) : Nat :=
  match w with
  | .byte => (s.reg .ax).toNat
  | .word => (s.reg .dx ++ s.reg .ax).toNat

/-- The signed dividend: AX, or DX:AX (R261). -/
def State.signedDividend (w : Width) (s : State) : Int :=
  match w with
  | .byte => (s.reg .ax).toInt
  | .word => (s.reg .dx ++ s.reg .ax).toInt

/-- DIV: interrupt 0 on a zero divisor or a quotient that does not fit (R260, 60_exceptions R607). -/
def execDiv (w : Width) (e : Rm) (s : State) : Outcome :=
  let d := (s.readRm w e).toNat
  let n := s.dividend w
  if d = 0 ∨ 2 ^ w.bits - 1 < n / d then .next (s.interrupt 0#8)
  else .next ((s.setQuotRem w (n / d : Nat) (n % d : Nat)).freeDivFlags)

/-- IDIV: truncation toward zero; interrupt 0 on a zero divisor or a quotient that does not fit (R261, R281). -/
def execIdiv (w : Width) (e : Rm) (s : State) : Outcome :=
  let d := (s.readRm w e).toInt
  let n := s.signedDividend w
  if d = 0 then .next (s.interrupt 0#8)
  else
    let q := Int.tdiv n d
    if q < -(2 ^ (w.bits - 1)) ∨ 2 ^ (w.bits - 1) - 1 < q then .next (s.interrupt 0#8)
    else .next ((s.setQuotRem w q (n - q * d)).freeDivFlags)

/-- CBW (R265). -/
def execCbw (s : State) : Outcome := .next (s.setReg .ax ((s.half .al).signExtend 16))

/-- CWD (R266). -/
def execCwd (s : State) : Outcome := .next (s.setReg .dx (if (s.reg .ax).msb then 0xFFFF#16 else 0x0000#16))

/-! ## BCD adjust -/

/-- Write AL, CF and AF of a decimal adjust, and SF, ZF, PF from the new AL; OF is free (R270, R271). -/
def State.setDecimal (s : State) (x : Byte × Bool × Bool) : State :=
  ((((s.setHalf .al x.1).setFlag .cf x.2.1).setFlag .af x.2.2).setSZP x.1).freeFlag .of

/-- DAA (R270). -/
def execDaa (s : State) : Outcome := .next (s.setDecimal (daaAdjust (s.half .al) (s.flag .af) (s.flag .cf)))

/-- DAS (R271). -/
def execDas (s : State) : Outcome := .next (s.setDecimal (dasAdjust (s.half .al) (s.flag .af) (s.flag .cf)))

/-- Write AL (its low digit), AH, AF and CF of an ASCII adjust; OF, SF, ZF, PF are free (R272, R273). -/
def State.setAscii (s : State) (al ah : Byte) (adjusted : Bool) : State :=
  ((((s.setHalf .al (al &&& 0x0F#8)).setHalf .ah ah).setFlag .af adjusted).setFlag .cf adjusted).freeFlags [.of, .sf, .zf, .pf]

/-- AAA (R272). -/
def execAaa (s : State) : Outcome :=
  if asciiAdjusts (s.half .al) (s.flag .af) then .next (s.setAscii (s.half .al + 6#8) (s.half .ah + 1#8) true)
  else .next (s.setAscii (s.half .al) (s.half .ah) false)

/-- AAS (R273). -/
def execAas (s : State) : Outcome :=
  if asciiAdjusts (s.half .al) (s.flag .af) then .next (s.setAscii (s.half .al - 6#8) (s.half .ah - 1#8) true)
  else .next (s.setAscii (s.half .al) (s.half .ah) false)

/-- AAM: interrupt 0 on base 0 (R274). -/
def execAam (base : Byte) (s : State) : Outcome :=
  if base = 0#8 then .next (s.interrupt 0#8)
  else
    let al := s.half .al % base
    .next ((((s.setHalf .ah (s.half .al / base)).setHalf .al al).setSZP al).freeFlags [.of, .af, .cf])

/-- AAD (R275). -/
def execAad (base : Byte) (s : State) : Outcome :=
  let al := s.half .al + s.half .ah * base
  .next ((((s.setHalf .al al).setHalf .ah 0#8).setSZP al).freeFlags [.of, .af, .cf])

end Sys2Proof.Machine
end

