-- ==== Sys2Proof/Machine/DataTransfer.lean ====
section
/-! DEFINITION. The data transfer instructions (40_data_transfer R200-R226, 47_post8086_ext R473, R477, R478, R490, R495). -/

namespace Sys2Proof.Machine

/-! ## MOV -/

/-- MOV E, G (R200). -/
def execMovRmReg (w : Width) (e : Rm) (r : RegNum) (s : State) : Outcome := .next (s.writeRm w e (s.regW w r))

/-- MOV G, E (R200). -/
def execMovRegRm (w : Width) (r : RegNum) (e : Rm) (s : State) : Outcome := .next (s.setRegW w r (s.readRm w e))

/-- MOV r8, imm8 (R201). -/
def execMovRegImm8 (r : RegNum) (imm : Byte) (s : State) : Outcome := .next (s.setRegW .byte r imm)

/-- MOV r16, imm16 (R201). -/
def execMovRegImm16 (r : RegNum) (imm : Word) (s : State) : Outcome := .next (s.setRegW .word r imm)

/-- MOV Eb, imm8 (R202). -/
def execMovRmImm8 (e : Rm) (imm : Byte) (s : State) : Outcome := .next (s.writeRm .byte e imm)

/-- MOV Ev, imm16 (R202). -/
def execMovRmImm16 (e : Rm) (imm : Word) (s : State) : Outcome := .next (s.writeRm .word e imm)

/-- MOV AL/AX, moffs (R203). -/
def execMovAccMoffs (w : Width) (off : Word) (s : State) : Outcome := .next (s.setAcc w (s.readMem w s.dataSeg off))

/-- MOV moffs, AL/AX (R204). -/
def execMovMoffsAcc (w : Width) (off : Word) (s : State) : Outcome := .next (s.writeMem w s.dataSeg off (s.acc w))

/-- MOV Ev, Sreg (R205). -/
def execMovRmSeg (e : Rm) (sr : SReg) (s : State) : Outcome := .next (s.writeRm .word e (s.seg sr))

/-- MOV Sreg, Ev (R206). CS is written like the others. -/
def execMovSegRm (sr : SReg) (e : Rm) (s : State) : Outcome := .next (s.setSeg sr (s.readRm .word e))

/-! ## PUSH and POP -/

/-- PUSH r16: the operand is read before SP moves, so PUSH SP stores the old SP (R208). -/
def execPushReg (r : RegNum) (s : State) : Outcome := .next (s.push16 (s.regW .word r))

/-- PUSH Ev (R208). -/
def execPushRm (e : Rm) (s : State) : Outcome := .next (s.push16 (s.readRm .word e))

/-- PUSH ES, CS, SS, DS (R211). -/
def execPushSeg (sr : SReg) (s : State) : Outcome := .next (s.push16 (s.seg sr))

/-- PUSH imm16 (47_post8086_ext R473). -/
def execPushImm16 (imm : Word) (s : State) : Outcome := .next (s.push16 imm)

/-- PUSH simm8, class x186 (47_post8086_ext R490). -/
def execPushSimm8 (imm : Byte) (s : State) : Outcome := s.ifExt186 (.next (s.push16 (imm.signExtend 16)))

/-- PUSH FS, class x186 (47_post8086_ext R495). -/
def execPushFs (s : State) : Outcome := s.ifExt186 (.next (s.push16 (s.seg .fs)))

/-- PUSH GS, class x186 (47_post8086_ext R495). -/
def execPushGs (s : State) : Outcome := s.ifExt186 (.next (s.push16 (s.seg .gs)))

/-- Pop into a general register: SP moves first, so POP SP ends with the popped word (R209). -/
def State.popInto (s : State) (r : Reg16) : State :=
  let (v, s) := s.pop16
  s.setReg r v

/-- Pop into a segment register: the word is read through the old SS (R212). -/
def State.popSegInto (s : State) (sr : SReg) : State :=
  let (v, s) := s.pop16
  s.setSeg sr v

/-- POP r16 (R209). -/
def execPopReg (r : RegNum) (s : State) : Outcome := .next (s.popInto r.r16)

/-- POP Ev: the address is computed before SP moves; the stack is read, then the operand is written (R210). -/
def execPopRm (e : Rm) (s : State) : Outcome :=
  let p := s.resolve e
  let (v, s) := s.pop16
  .next (s.writePlace .word p v)

/-- POP ES, SS, DS (R212). -/
def execPopSeg (sr : SReg) (s : State) : Outcome := .next (s.popSegInto sr)

/-- POP FS, class x186 (47_post8086_ext R495). -/
def execPopFs (s : State) : Outcome := s.ifExt186 (.next (s.popSegInto .fs))

/-- POP GS, class x186 (47_post8086_ext R495). -/
def execPopGs (s : State) : Outcome := s.ifExt186 (.next (s.popSegInto .gs))

/-! ## XCHG, XLAT -/

/-- XCHG E, G: both operands are read before either is written (R213). -/
def execXchgRm (w : Width) (e : Rm) (r : RegNum) (s : State) : Outcome :=
  .next ((s.writeRm w e (s.regW w r)).setRegW w r (s.readRm w e))

/-- XCHG AX, r16 (R214). -/
def execXchgAx (r : RegNum) (s : State) : Outcome :=
  .next ((s.setReg .ax (s.reg r.r16)).setReg r.r16 (s.reg .ax))

/-- XLAT (R215). -/
def execXlat (s : State) : Outcome :=
  .next (s.setHalf .al (s.readMem .byte s.dataSeg (s.reg .bx + (s.half .al).setWidth 16)))

/-! ## Address loads -/

/-- LEA: no memory is accessed and no segment plays a part (R220). -/
def execLea (r : RegNum) (m : MemOp) (s : State) : Outcome := .next (s.setReg r.r16 (s.effAddr m))

/-- The far pointer in a memory operand: offset, segment (20_memory R91). -/
def State.farOperand (s : State) (m : MemOp) : Word × Word := s.farPointer (s.effSeg m) (s.effAddr m)

/-- LDS (R221). -/
def execLds (r : RegNum) (m : MemOp) (s : State) : Outcome :=
  let (off, seg) := s.farOperand m
  .next ((s.setReg r.r16 off).setSeg .ds seg)

/-- LES (R222). -/
def execLes (r : RegNum) (m : MemOp) (s : State) : Outcome :=
  let (off, seg) := s.farOperand m
  .next ((s.setReg r.r16 off).setSeg .es seg)

/-! ## Flag transfers -/

/-- LAHF (R223). -/
def execLahf (s : State) : Outcome := .next (s.setHalf .ah (s.flags.extractLsb' 0 8))

/-- SAHF (R224). -/
def execSahf (s : State) : Outcome :=
  .next { s with flags := (s.flags &&& 0xFF00#16) ||| ((s.half .ah).setWidth 16 &&& 0x00D5#16) ||| 0x0002#16 }

/-- PUSHF (R225). -/
def execPushf (s : State) : Outcome := .next (s.push16 s.flags)

/-- POPF (R226). -/
def execPopf (s : State) : Outcome :=
  let (v, s) := s.pop16
  .next (s.setFlags v)

/-! ## Extending moves -/

/-- MOVZX (47_post8086_ext R477). -/
def execMovzx (w : Width) (r : RegNum) (e : Rm) (s : State) : Outcome :=
  .next (s.setReg r.r16 ((s.readRm w e).setWidth 16))

/-- MOVSX (47_post8086_ext R478). -/
def execMovsx (w : Width) (r : RegNum) (e : Rm) (s : State) : Outcome :=
  .next (s.setReg r.r16 ((s.readRm w e).signExtend 16))

end Sys2Proof.Machine
end

