-- ==== Sys2Proof/Machine/Control.lean ====
section
/-! DEFINITION. The control transfer instructions (45_control_transfer R380-R403, 47_post8086_ext R472, R476). IP already points
after the instruction (10_state R43). -/

namespace Sys2Proof.Machine

/-! ## Jumps -/

/-- JMP rel8 (R380). -/
def execJmpShort (d : Byte) (s : State) : Outcome := .next (s.jumpRel (d.signExtend 16))

/-- JMP rel16 (R380). -/
def execJmpNear (d : Word) (s : State) : Outcome := .next (s.jumpRel d)

/-- JMP Ev (R380). -/
def execJmpRm (e : Rm) (s : State) : Outcome := .next (s.setIp (s.readRm .word e))

/-- JMP ptr16:16 (R381). -/
def execJmpFar (off seg : Word) (s : State) : Outcome := .next (s.jumpFar seg off)

/-- JMP m16:16 (R381). -/
def execJmpFarMem (m : MemOp) (s : State) : Outcome :=
  let (off, seg) := s.farOperand m
  .next (s.jumpFar seg off)

/-! ## Calls and returns -/

/-- CALL rel16 (R382). -/
def execCallNear (d : Word) (s : State) : Outcome := .next ((s.push16 s.ip).jumpRel d)

/-- CALL Ev: the target is read before the push (R383). -/
def execCallRm (e : Rm) (s : State) : Outcome := .next ((s.push16 s.ip).setIp (s.readRm .word e))

/-- CS is pushed first, then IP (R384). -/
def State.callFar (s : State) (seg off : Word) : State := ((s.push16 (s.seg .cs)).push16 s.ip).jumpFar seg off

/-- CALL ptr16:16 (R384). -/
def execCallFar (off seg : Word) (s : State) : Outcome := .next (s.callFar seg off)

/-- CALL m16:16: both words are read before the pushes (R384). -/
def execCallFarMem (m : MemOp) (s : State) : Outcome :=
  let (off, seg) := s.farOperand m
  .next (s.callFar seg off)

/-- Pop IP (R385). -/
def State.retNear (s : State) : State :=
  let (ip, s) := s.pop16
  s.setIp ip

/-- Pop IP, then CS (R387). -/
def State.retFar (s : State) : State :=
  let (ip, s) := s.pop16
  let (cs, s) := s.pop16
  s.jumpFar cs ip

/-- RET (R385). -/
def execRet (s : State) : Outcome := .next s.retNear

/-- RET imm16 (R386). -/
def execRetImm (n : Word) (s : State) : Outcome := .next (s.retNear.release n)

/-- RETF (R387). -/
def execRetf (s : State) : Outcome := .next s.retFar

/-- RETF imm16 (R388). -/
def execRetfImm (n : Word) (s : State) : Outcome := .next (s.retFar.release n)

/-! ## Conditional jumps (R390, 47_post8086_ext R476) -/

/-- Jump when the condition holds. -/
def jumpIf (c : Cond) (d : CondDisp) (s : State) : Outcome :=
  if s.cond c then .next (s.jumpRel d.value) else .next s

/-- JO: OF = 1. -/
def execJo (d : CondDisp) (s : State) : Outcome := jumpIf .o d s

/-- JNO: OF = 0. -/
def execJno (d : CondDisp) (s : State) : Outcome := jumpIf .no d s

/-- JB: CF = 1. -/
def execJb (d : CondDisp) (s : State) : Outcome := jumpIf .b d s

/-- JAE: CF = 0. -/
def execJae (d : CondDisp) (s : State) : Outcome := jumpIf .ae d s

/-- JE: ZF = 1. -/
def execJe (d : CondDisp) (s : State) : Outcome := jumpIf .e d s

/-- JNE: ZF = 0. -/
def execJne (d : CondDisp) (s : State) : Outcome := jumpIf .ne d s

/-- JBE: CF = 1 or ZF = 1. -/
def execJbe (d : CondDisp) (s : State) : Outcome := jumpIf .be d s

/-- JA: CF = 0 and ZF = 0. -/
def execJa (d : CondDisp) (s : State) : Outcome := jumpIf .a d s

/-- JS: SF = 1. -/
def execJs (d : CondDisp) (s : State) : Outcome := jumpIf .s d s

/-- JNS: SF = 0. -/
def execJns (d : CondDisp) (s : State) : Outcome := jumpIf .ns d s

/-- JP: PF = 1. -/
def execJp (d : CondDisp) (s : State) : Outcome := jumpIf .p d s

/-- JNP: PF = 0. -/
def execJnp (d : CondDisp) (s : State) : Outcome := jumpIf .np d s

/-- JL: SF ≠ OF. -/
def execJl (d : CondDisp) (s : State) : Outcome := jumpIf .l d s

/-- JGE: SF = OF. -/
def execJge (d : CondDisp) (s : State) : Outcome := jumpIf .ge d s

/-- JLE: ZF = 1 or SF ≠ OF. -/
def execJle (d : CondDisp) (s : State) : Outcome := jumpIf .le d s

/-- JG: ZF = 0 and SF = OF. -/
def execJg (d : CondDisp) (s : State) : Outcome := jumpIf .g d s

/-! ## Loops (R391-R394) -/

/-- CX one lower; then jump when it is not 0 and the test holds on ZF. -/
def loopWhile (test : Bool → Bool) (d : Byte) (s : State) : Outcome :=
  let t := s.setReg .cx (s.reg .cx - 1#16)
  if t.reg .cx ≠ 0#16 ∧ test (t.flag .zf) then .next (t.jumpRel (d.signExtend 16)) else .next t

/-- LOOPNE (R393). -/
def execLoopne (d : Byte) (s : State) : Outcome := loopWhile (fun z => !z) d s

/-- LOOPE (R392). -/
def execLoope (d : Byte) (s : State) : Outcome := loopWhile (fun z => z) d s

/-- LOOP (R391). -/
def execLoop (d : Byte) (s : State) : Outcome := loopWhile (fun _ => true) d s

/-- JCXZ: CX does not change (R394). -/
def execJcxz (d : Byte) (s : State) : Outcome :=
  if s.reg .cx = 0#16 then .next (s.jumpRel (d.signExtend 16)) else .next s

/-! ## Software interrupts and return (R400-R403) -/

/-- INT n (R400). -/
def execInt (n : Byte) (s : State) : Outcome := .next (s.interrupt n)

/-- INT3 (R401). -/
def execInt3 (s : State) : Outcome := .next (s.interrupt 3#8)

/-- INTO (R402). -/
def execInto (s : State) : Outcome := if s.flag .of then .next (s.interrupt 4#8) else .next s

/-- IRET (R403). -/
def execIret (s : State) : Outcome := .next s.returnFromInterrupt

/-- BOUND: interrupt 5 outside the inclusive signed limits (47_post8086_ext R472). -/
def execBound (r : RegNum) (m : MemOp) (s : State) : Outcome :=
  let (lo, hi) := s.farOperand m
  let i := (s.reg r.r16).toInt
  if i < lo.toInt ∨ hi.toInt < i then .next (s.interrupt 5#8) else .next s

end Sys2Proof.Machine
end

