-- ==== Sys2Proof/Machine/Logic.lean ====
section
/-! DEFINITION. The logical instructions (42_logic R300-R304) and the shifts and rotates (43_shift_rotate R320-R327,
47_post8086_ext R492). -/

namespace Sys2Proof.Machine

/-- Write a logical result and its flags: CF = OF = 0, SF ZF PF from the result, AF free (10_state R54). -/
def logicWrite (o : Operands) (r : BitVec o.w.bits) (s : State) : Outcome :=
  .next ((s.writePlace o.w o.dst r).setLogic r)

/-- AND (R300). -/
def execAnd (f : AluForm) (s : State) : Outcome :=
  let o := f.operands s
  logicWrite o (s.readPlace o.w o.dst &&& o.src) s

/-- OR (R301). -/
def execOr (f : AluForm) (s : State) : Outcome :=
  let o := f.operands s
  logicWrite o (s.readPlace o.w o.dst ||| o.src) s

/-- XOR (R302). -/
def execXor (f : AluForm) (s : State) : Outcome :=
  let o := f.operands s
  logicWrite o (s.readPlace o.w o.dst ^^^ o.src) s

/-- NOT: no flag changes (R303). -/
def execNot (w : Width) (e : Rm) (s : State) : Outcome := .next (s.writeRm w e (~~~(s.readRm w e)))

/-- TEST: nothing is written but the flags (R304). -/
def execTest (f : TestForm) (s : State) : Outcome :=
  let o := f.operands s
  .next (s.setLogic (s.readPlace o.w o.dst &&& o.src))

/-- The common part of 43_shift_rotate R320: a masked count of 0 changes nothing. -/
def shiftRun (op : ShiftOp) (f : ShiftForm) (s : State) : Outcome :=
  let x := f.args s
  if x.count = 0 then .next s
  else
    let a := s.readPlace x.w x.dst
    let p := shiftSteps op x.count a (s.flag .cf)
    .next ((s.writePlace x.w x.dst p.1).setShiftFlags op x.count a p.1 p.2)

/-- The immediate-count forms are of class x186 (47_post8086_ext R492). -/
def shiftMeaning (op : ShiftOp) (f : ShiftForm) (s : State) : Outcome :=
  match f with
  | .one _ _ | .cl _ _ => shiftRun op f s
  | .imm _ _ _ => s.ifExt186 (shiftRun op f s)

/-- ROL (R324). -/
def execRol (f : ShiftForm) (s : State) : Outcome := shiftMeaning .rol f s

/-- ROR (R325). -/
def execRor (f : ShiftForm) (s : State) : Outcome := shiftMeaning .ror f s

/-- RCL (R326). -/
def execRcl (f : ShiftForm) (s : State) : Outcome := shiftMeaning .rcl f s

/-- RCR (R327). -/
def execRcr (f : ShiftForm) (s : State) : Outcome := shiftMeaning .rcr f s

/-- SHL (R321). -/
def execShl (f : ShiftForm) (s : State) : Outcome := shiftMeaning .shl f s

/-- SHR (R322). -/
def execShr (f : ShiftForm) (s : State) : Outcome := shiftMeaning .shr f s

/-- SAL, the same operation as SHL (R321). -/
def execSal (f : ShiftForm) (s : State) : Outcome := shiftMeaning .shl f s

/-- SAR (R323). -/
def execSar (f : ShiftForm) (s : State) : Outcome := shiftMeaning .sar f s

end Sys2Proof.Machine
end

