-- ==== Sys2Proof/Machine/Strings.lean ====
section
/-! DEFINITION. The string instructions and their repetition (44_string R350-R360, 47_post8086_ext R493, R494). -/

namespace Sys2Proof.Machine

/-- `delta`: the element size, negative when DF is set (44_string R350). -/
def State.delta (w : Width) (s : State) : Word :=
  if s.flag .df then -(BitVec.ofNat 16 w.bytes) else BitVec.ofNat 16 w.bytes

/-- SI moved by one element. -/
def State.stepSi (w : Width) (s : State) : State := s.setReg .si (s.reg .si + s.delta w)

/-- DI moved by one element. -/
def State.stepDi (w : Width) (s : State) : State := s.setReg .di (s.reg .di + s.delta w)

/-- The source element, at the overridable DS:SI (44_string R351). -/
def State.sourceElem (w : Width) (s : State) : BitVec w.bits := s.readMem w s.dataSeg (s.reg .si)

/-- The destination element, at ES:DI (44_string R351). -/
def State.destElem (w : Width) (s : State) : BitVec w.bits := s.readMem w (s.seg .es) (s.reg .di)

/-- Write the destination element. -/
def State.setDestElem (w : Width) (s : State) (v : BitVec w.bits) : State := s.writeMem w (s.seg .es) (s.reg .di) v

/-! ## One iteration -/

/-- MOVS (44_string R352). -/
def movsOnce (w : Width) (s : State) : State := ((s.setDestElem w (s.sourceElem w)).stepSi w).stepDi w

/-- CMPS: source minus destination (44_string R353). -/
def cmpsOnce (w : Width) (s : State) : State :=
  ((s.setArith (subArith (s.sourceElem w) (s.destElem w) false)).stepSi w).stepDi w

/-- STOS (44_string R355). -/
def stosOnce (w : Width) (s : State) : State := (s.setDestElem w (s.acc w)).stepDi w

/-- LODS (44_string R354). -/
def lodsOnce (w : Width) (s : State) : State := (s.setAcc w (s.sourceElem w)).stepSi w

/-- SCAS: accumulator minus memory (44_string R356). -/
def scasOnce (w : Width) (s : State) : State :=
  (s.setArith (subArith (s.acc w) (s.destElem w) false)).stepDi w

/-- INS (47_post8086_ext R493). -/
def insOnce (w : Width) (s : State) : State :=
  let (v, s) := s.portRead w (s.reg .dx)
  (s.setDestElem w v).stepDi w

/-- OUTS (47_post8086_ext R494). -/
def outsOnce (w : Width) (s : State) : State := (s.portWrite w (s.reg .dx) (s.sourceElem w)).stepSi w

/-! ## Repetition (44_string R360) -/

/-- CX one lower, no flag touched. -/
def State.decCx (s : State) : State := s.setReg .cx (s.reg .cx - 1#16)

/-- The loop of R360 for `n` iterations left: one iteration, CX one lower, then the stop test. -/
def repeatLoop (once : State → State) (stop : State → Bool) : Nat → State → State
  | 0, s => s
  | n + 1, s =>
    let t := (once s).decCx
    if stop t then t else repeatLoop once stop n t

/-- MOVS, LODS, STOS, INS, OUTS: "The ZF predicate does not apply". -/
def neverStops (_ : State) : Bool := false

/-- CMPS, SCAS: "`rep`/`repe` stops when ZF=0; `repne` stops when ZF=1". -/
def stopsOnZF (s : State) : Bool :=
  match s.rep with
  | none => false
  | some .repe => !s.flag .zf
  | some .repne => s.flag .zf

/-- A string instruction: one iteration without a repeat prefix, else the loop until CX = 0 or the stop test (R360). -/
def stringMeaning (once : State → State) (stop : State → Bool) (s : State) : Outcome :=
  match s.rep with
  | none => .next (once s)
  | some _ => .next (repeatLoop once stop (s.reg .cx).toNat s)

def execMovsb (s : State) : Outcome := stringMeaning (movsOnce .byte) neverStops s

def execMovsw (s : State) : Outcome := stringMeaning (movsOnce .word) neverStops s

def execCmpsb (s : State) : Outcome := stringMeaning (cmpsOnce .byte) stopsOnZF s

def execCmpsw (s : State) : Outcome := stringMeaning (cmpsOnce .word) stopsOnZF s

def execStosb (s : State) : Outcome := stringMeaning (stosOnce .byte) neverStops s

def execStosw (s : State) : Outcome := stringMeaning (stosOnce .word) neverStops s

def execLodsb (s : State) : Outcome := stringMeaning (lodsOnce .byte) neverStops s

def execLodsw (s : State) : Outcome := stringMeaning (lodsOnce .word) neverStops s

def execScasb (s : State) : Outcome := stringMeaning (scasOnce .byte) stopsOnZF s

def execScasw (s : State) : Outcome := stringMeaning (scasOnce .word) stopsOnZF s

/-- INSB, class x186. -/
def execInsb (s : State) : Outcome := s.ifExt186 (stringMeaning (insOnce .byte) neverStops s)

/-- INSW, class x186. -/
def execInsw (s : State) : Outcome := s.ifExt186 (stringMeaning (insOnce .word) neverStops s)

/-- OUTSB, class x186. -/
def execOutsb (s : State) : Outcome := s.ifExt186 (stringMeaning (outsOnce .byte) neverStops s)

/-- OUTSW, class x186. -/
def execOutsw (s : State) : Outcome := s.ifExt186 (stringMeaning (outsOnce .word) neverStops s)

end Sys2Proof.Machine
end

