-- ==== Sys2Proof/Machine/System.lean ====
section
/-! DEFINITION. Port I/O and processor control (46_io_processor_control R434-R449), the stack-frame instructions of
47_post8086_ext (R470, R471, R474, R475), the prefixes (30_encoding R123-R127), and the encodings without an instruction
(30_encoding R155-R159). -/

namespace Sys2Proof.Machine

/-! ## IN and OUT -/

/-- Read a port into the accumulator. -/
def portIn (w : Width) (p : Word) (s : State) : Outcome :=
  let (v, s) := s.portRead w p
  .next (s.setAcc w v)

/-- IN AL/AX, imm8 (R434). -/
def execInImm (w : Width) (port : Byte) (s : State) : Outcome := portIn w (port.setWidth 16) s

/-- IN AL/AX, DX (R434). -/
def execInDx (w : Width) (s : State) : Outcome := portIn w (s.reg .dx) s

/-- OUT imm8, AL/AX (R435). -/
def execOutImm (w : Width) (port : Byte) (s : State) : Outcome := .next (s.portWrite w (port.setWidth 16) (s.acc w))

/-- OUT DX, AL/AX (R435). -/
def execOutDx (w : Width) (s : State) : Outcome := .next (s.portWrite w (s.reg .dx) (s.acc w))

/-! ## Flag instructions -/

/-- CLC (R436). -/
def execClc (s : State) : Outcome := .next (s.setFlag .cf false)

/-- STC (R437). -/
def execStc (s : State) : Outcome := .next (s.setFlag .cf true)

/-- CMC (R438). -/
def execCmc (s : State) : Outcome := .next (s.setFlag .cf (!s.flag .cf))

/-- CLD (R439). -/
def execCld (s : State) : Outcome := .next (s.setFlag .df false)

/-- STD (R440). -/
def execStd (s : State) : Outcome := .next (s.setFlag .df true)

/-- CLI (R441). -/
def execCli (s : State) : Outcome := .next (s.setFlag .if_ false)

/-- STI (R442). -/
def execSti (s : State) : Outcome := .next (s.setFlag .if_ true)

/-! ## HLT, NOP, WAIT, ESC -/

/-- HLT (R443). -/
def execHlt (s : State) : Outcome := .next (s.halt .hlt)

/-- NOP (R445). -/
def execNop (s : State) : Outcome := .next s

/-- WAIT: there is no coprocessor to wait for (R446). -/
def execWait (s : State) : Outcome := .next s

/-- ESC: the operand is consumed, nothing is read, one TRACE record (R447). -/
def execEsc (op reg : RegNum) (e : Rm) (s : State) : Outcome :=
  .next (s.traceOpcode [opcodeR 0xD8#8 op] (encode (.esc op reg e)).length)

/-! ## Stack frames (47_post8086_ext) -/

/-- PUSHA: the SP slot holds the value before the instruction (R470). -/
def execPusha (s : State) : Outcome :=
  let t := s.push16 (s.reg .ax)
  let t := t.push16 (s.reg .cx)
  let t := t.push16 (s.reg .dx)
  let t := t.push16 (s.reg .bx)
  let t := t.push16 (s.reg .sp)
  let t := t.push16 (s.reg .bp)
  let t := t.push16 (s.reg .si)
  .next (t.push16 (s.reg .di))

/-- POPA: the SP slot is skipped (R471). -/
def execPopa (s : State) : Outcome :=
  let s := ((s.popInto .di).popInto .si).popInto .bp
  let s := s.release 2#16
  .next ((((s.popInto .bx).popInto .dx).popInto .cx).popInto .ax)

/-- The display copy of ENTER: `n` times, BP two lower and the word at SS:BP pushed (R474). -/
def copyDisplay : Nat → State → State
  | 0, s => s
  | n + 1, s =>
    let s := s.setReg .bp (s.reg .bp - 2#16)
    copyDisplay n (s.push16 (s.readMem .word (s.seg .ss) (s.reg .bp)))

/-- ENTER (R474). -/
def execEnter (size : Word) (level : Byte) (s : State) : Outcome :=
  let n := level.toNat % 32
  let s := s.push16 (s.reg .bp)
  let frame := s.reg .sp
  let s := if n = 0 then s else (copyDisplay (n - 1) s).push16 frame
  let s := s.setReg .bp frame
  .next (s.setReg .sp (s.reg .sp - size))

/-- LEAVE (R475). -/
def execLeave (s : State) : Outcome := .next ((s.setReg .sp (s.reg .bp)).popInto .bp)

/-! ## Prefixes (30_encoding R123, R124): each overwrites the field it sets -/

def execSegES (s : State) : Outcome := .next (s.setSegov .es)

def execSegCS (s : State) : Outcome := .next (s.setSegov .cs)

def execSegSS (s : State) : Outcome := .next (s.setSegov .ss)

def execSegDS (s : State) : Outcome := .next (s.setSegov .ds)

def execSegFS (s : State) : Outcome := .next (s.setSegov .fs)

def execSegGS (s : State) : Outcome := .next (s.setSegov .gs)

/-- LOCK changes nothing (R126). -/
def execLock (s : State) : Outcome := .next s

def execRepne (s : State) : Outcome := .next (s.setRep .repne)

def execRep (s : State) : Outcome := .next (s.setRep .repe)

/-! ## Encodings without an instruction -/

/-- An unknown primary opcode: one byte consumed, one TRACE record (30_encoding R155). -/
def execUnknown (op : Byte) (s : State) : Outcome := .next (s.traceOpcode [op] 1)

/-- An unlisted second byte after `0F`: two bytes consumed, one TRACE record (30_encoding R157). -/
def execUnknown0F (op : Byte) (s : State) : Outcome := .next (s.traceOpcode [0x0F#8, op] 2)

/-- A reserved encoding: "the spec therefore gives no behaviour. A model must not treat them as no-operations" (R159). -/
def execReserved (_ _ : Byte) (_ : State) : Outcome := .refused .reservedEncoding

end Sys2Proof.Machine
end

