-- ==== Sys2Proof/Machine/Dispatch.lean ====
section
/-! DEFINITION. The one dispatch from an instruction to its meaning. -/

namespace Sys2Proof.Machine

def exec (i : Instr) (s : State) : Host.Outcome State Fault Refusal :=
  match i with
  | .add f => Sys2Proof.Machine.execAdd f s
  | .or f => Sys2Proof.Machine.execOr f s
  | .adc f => Sys2Proof.Machine.execAdc f s
  | .sbb f => Sys2Proof.Machine.execSbb f s
  | .and f => Sys2Proof.Machine.execAnd f s
  | .sub f => Sys2Proof.Machine.execSub f s
  | .xor f => Sys2Proof.Machine.execXor f s
  | .cmp f => Sys2Proof.Machine.execCmp f s
  | .incReg r => Sys2Proof.Machine.execIncReg r s
  | .incRm w e => Sys2Proof.Machine.execIncRm w e s
  | .decReg r => Sys2Proof.Machine.execDecReg r s
  | .decRm w e => Sys2Proof.Machine.execDecRm w e s
  | .not w e => Sys2Proof.Machine.execNot w e s
  | .neg w e => Sys2Proof.Machine.execNeg w e s
  | .mul w e => Sys2Proof.Machine.execMul w e s
  | .imul w e => Sys2Proof.Machine.execImul w e s
  | .div w e => Sys2Proof.Machine.execDiv w e s
  | .idiv w e => Sys2Proof.Machine.execIdiv w e s
  | .imulImm16 r e imm => Sys2Proof.Machine.execImulImm16 r e imm s
  | .imulSimm8 r e imm => Sys2Proof.Machine.execImulSimm8 r e imm s
  | .cbw => Sys2Proof.Machine.execCbw s
  | .cwd => Sys2Proof.Machine.execCwd s
  | .daa => Sys2Proof.Machine.execDaa s
  | .das => Sys2Proof.Machine.execDas s
  | .aaa => Sys2Proof.Machine.execAaa s
  | .aas => Sys2Proof.Machine.execAas s
  | .aam base => Sys2Proof.Machine.execAam base s
  | .aad base => Sys2Proof.Machine.execAad base s
  | .test f => Sys2Proof.Machine.execTest f s
  | .rol f => Sys2Proof.Machine.execRol f s
  | .ror f => Sys2Proof.Machine.execRor f s
  | .rcl f => Sys2Proof.Machine.execRcl f s
  | .rcr f => Sys2Proof.Machine.execRcr f s
  | .shl f => Sys2Proof.Machine.execShl f s
  | .shr f => Sys2Proof.Machine.execShr f s
  | .sal f => Sys2Proof.Machine.execSal f s
  | .sar f => Sys2Proof.Machine.execSar f s
  | .movRmReg w e r => Sys2Proof.Machine.execMovRmReg w e r s
  | .movRegRm w r e => Sys2Proof.Machine.execMovRegRm w r e s
  | .movRegImm8 r imm => Sys2Proof.Machine.execMovRegImm8 r imm s
  | .movRegImm16 r imm => Sys2Proof.Machine.execMovRegImm16 r imm s
  | .movRmImm8 e imm => Sys2Proof.Machine.execMovRmImm8 e imm s
  | .movRmImm16 e imm => Sys2Proof.Machine.execMovRmImm16 e imm s
  | .movAccMoffs w off => Sys2Proof.Machine.execMovAccMoffs w off s
  | .movMoffsAcc w off => Sys2Proof.Machine.execMovMoffsAcc w off s
  | .movRmSeg e sr => Sys2Proof.Machine.execMovRmSeg e sr s
  | .movSegRm sr e => Sys2Proof.Machine.execMovSegRm sr e s
  | .pushReg r => Sys2Proof.Machine.execPushReg r s
  | .pushRm e => Sys2Proof.Machine.execPushRm e s
  | .pushSeg sr => Sys2Proof.Machine.execPushSeg sr s
  | .pushImm16 imm => Sys2Proof.Machine.execPushImm16 imm s
  | .pushSimm8 imm => Sys2Proof.Machine.execPushSimm8 imm s
  | .pushFs => Sys2Proof.Machine.execPushFs s
  | .pushGs => Sys2Proof.Machine.execPushGs s
  | .popReg r => Sys2Proof.Machine.execPopReg r s
  | .popRm e => Sys2Proof.Machine.execPopRm e s
  | .popSeg sr => Sys2Proof.Machine.execPopSeg sr s
  | .popFs => Sys2Proof.Machine.execPopFs s
  | .popGs => Sys2Proof.Machine.execPopGs s
  | .xchgRm w e r => Sys2Proof.Machine.execXchgRm w e r s
  | .xchgAx r => Sys2Proof.Machine.execXchgAx r s
  | .xlat => Sys2Proof.Machine.execXlat s
  | .lea r m => Sys2Proof.Machine.execLea r m s
  | .lds r m => Sys2Proof.Machine.execLds r m s
  | .les r m => Sys2Proof.Machine.execLes r m s
  | .lahf => Sys2Proof.Machine.execLahf s
  | .sahf => Sys2Proof.Machine.execSahf s
  | .pushf => Sys2Proof.Machine.execPushf s
  | .popf => Sys2Proof.Machine.execPopf s
  | .movsb => Sys2Proof.Machine.execMovsb s
  | .movsw => Sys2Proof.Machine.execMovsw s
  | .cmpsb => Sys2Proof.Machine.execCmpsb s
  | .cmpsw => Sys2Proof.Machine.execCmpsw s
  | .stosb => Sys2Proof.Machine.execStosb s
  | .stosw => Sys2Proof.Machine.execStosw s
  | .lodsb => Sys2Proof.Machine.execLodsb s
  | .lodsw => Sys2Proof.Machine.execLodsw s
  | .scasb => Sys2Proof.Machine.execScasb s
  | .scasw => Sys2Proof.Machine.execScasw s
  | .insb => Sys2Proof.Machine.execInsb s
  | .insw => Sys2Proof.Machine.execInsw s
  | .outsb => Sys2Proof.Machine.execOutsb s
  | .outsw => Sys2Proof.Machine.execOutsw s
  | .jmpShort d => Sys2Proof.Machine.execJmpShort d s
  | .jmpNear d => Sys2Proof.Machine.execJmpNear d s
  | .jmpRm e => Sys2Proof.Machine.execJmpRm e s
  | .jmpFar off seg => Sys2Proof.Machine.execJmpFar off seg s
  | .jmpFarMem m => Sys2Proof.Machine.execJmpFarMem m s
  | .callNear d => Sys2Proof.Machine.execCallNear d s
  | .callRm e => Sys2Proof.Machine.execCallRm e s
  | .callFar off seg => Sys2Proof.Machine.execCallFar off seg s
  | .callFarMem m => Sys2Proof.Machine.execCallFarMem m s
  | .ret => Sys2Proof.Machine.execRet s
  | .retImm n => Sys2Proof.Machine.execRetImm n s
  | .retf => Sys2Proof.Machine.execRetf s
  | .retfImm n => Sys2Proof.Machine.execRetfImm n s
  | .jo d => Sys2Proof.Machine.execJo d s
  | .jno d => Sys2Proof.Machine.execJno d s
  | .jb d => Sys2Proof.Machine.execJb d s
  | .jae d => Sys2Proof.Machine.execJae d s
  | .je d => Sys2Proof.Machine.execJe d s
  | .jne d => Sys2Proof.Machine.execJne d s
  | .jbe d => Sys2Proof.Machine.execJbe d s
  | .ja d => Sys2Proof.Machine.execJa d s
  | .js d => Sys2Proof.Machine.execJs d s
  | .jns d => Sys2Proof.Machine.execJns d s
  | .jp d => Sys2Proof.Machine.execJp d s
  | .jnp d => Sys2Proof.Machine.execJnp d s
  | .jl d => Sys2Proof.Machine.execJl d s
  | .jge d => Sys2Proof.Machine.execJge d s
  | .jle d => Sys2Proof.Machine.execJle d s
  | .jg d => Sys2Proof.Machine.execJg d s
  | .loopne d => Sys2Proof.Machine.execLoopne d s
  | .loope d => Sys2Proof.Machine.execLoope d s
  | .loop d => Sys2Proof.Machine.execLoop d s
  | .jcxz d => Sys2Proof.Machine.execJcxz d s
  | .int n => Sys2Proof.Machine.execInt n s
  | .int3 => Sys2Proof.Machine.execInt3 s
  | .into => Sys2Proof.Machine.execInto s
  | .iret => Sys2Proof.Machine.execIret s
  | .inImm w port => Sys2Proof.Machine.execInImm w port s
  | .inDx w => Sys2Proof.Machine.execInDx w s
  | .outImm w port => Sys2Proof.Machine.execOutImm w port s
  | .outDx w => Sys2Proof.Machine.execOutDx w s
  | .clc => Sys2Proof.Machine.execClc s
  | .stc => Sys2Proof.Machine.execStc s
  | .cmc => Sys2Proof.Machine.execCmc s
  | .cld => Sys2Proof.Machine.execCld s
  | .std => Sys2Proof.Machine.execStd s
  | .cli => Sys2Proof.Machine.execCli s
  | .sti => Sys2Proof.Machine.execSti s
  | .hlt => Sys2Proof.Machine.execHlt s
  | .nop => Sys2Proof.Machine.execNop s
  | .wait => Sys2Proof.Machine.execWait s
  | .esc op reg e => Sys2Proof.Machine.execEsc op reg e s
  | .pusha => Sys2Proof.Machine.execPusha s
  | .popa => Sys2Proof.Machine.execPopa s
  | .bound r m => Sys2Proof.Machine.execBound r m s
  | .enter size level => Sys2Proof.Machine.execEnter size level s
  | .leave => Sys2Proof.Machine.execLeave s
  | .movzx w r e => Sys2Proof.Machine.execMovzx w r e s
  | .movsx w r e => Sys2Proof.Machine.execMovsx w r e s
  | .segES => Sys2Proof.Machine.execSegES s
  | .segCS => Sys2Proof.Machine.execSegCS s
  | .segSS => Sys2Proof.Machine.execSegSS s
  | .segDS => Sys2Proof.Machine.execSegDS s
  | .segFS => Sys2Proof.Machine.execSegFS s
  | .segGS => Sys2Proof.Machine.execSegGS s
  | .lock => Sys2Proof.Machine.execLock s
  | .repne => Sys2Proof.Machine.execRepne s
  | .rep => Sys2Proof.Machine.execRep s
  | .unknown op => Sys2Proof.Machine.execUnknown op s
  | .unknown0F op => Sys2Proof.Machine.execUnknown0F op s
  | .reserved op modrm => Sys2Proof.Machine.execReserved op modrm s

end Sys2Proof.Machine
end

