-- ==== Sys2Proof/Machine/Fetch.lean ====
section
/-! DEFINITION. Fetching an instruction's bytes (30_encoding R120-R122): byte by byte from `CS:IP`, the offset wrapping inside the
code segment. Reading memory has no effect (20_memory R89), so the fetch reads as many bytes as the longest instruction has and
IP moves past those the decoder used. -/

namespace Sys2Proof.Machine

/-- The byte `k` places after `CS:IP`, IP wrapping modulo 2^16 (30_encoding R122). -/
def State.codeByte (s : State) (k : Nat) : Byte :=
  s.memRead8 (phys (s.seg .cs) (s.ip + BitVec.ofNat 16 k))

/-- The next six bytes of the instruction stream. -/
def State.fetchWindow (s : State) : List Byte := (List.range maxLength).map s.codeByte

/-- IP past `n` fetched bytes (10_state R44). -/
def State.advance (s : State) (n : Nat) : State := s.setIp (s.ip + BitVec.ofNat 16 n)

/-- What the fetch finds at `CS:IP`: the decoded prefix or instruction and its length. -/
def State.fetched (s : State) : Except DecodeError (Instr × Nat) :=
  match decode s.ext186 s.fetchWindow with
  | .ok (i, rest) => .ok (i, maxLength - rest.length)
  | .error e => .error e

/-- Store bytes from the `k`-th byte after `CS:IP` on, where the fetch finds them. -/
def State.storeCode (s : State) : Nat → List Byte → State
  | _, [] => s
  | k, b :: bs => (s.memWrite8 (phys (s.seg .cs) (s.ip + BitVec.ofNat 16 k)) b).storeCode (k + 1) bs

end Sys2Proof.Machine
end

