-- ==== Sys2Proof/Machine/Step.lean ====
section
/-! DEFINITION. One step of the core (30_encoding R121): nothing while halted; else the prefix state is cleared, the prefixes are
executed one by one, and the step ends with the instruction they attach to. -/

namespace Sys2Proof.Machine

/-- The fetch loop of 30_encoding R121 with fuel: a prefix is executed and the loop goes on, any other instruction is executed
and the step ends. Without fuel the step is stuck (70_reset_and_hazards R682). -/
def stepLoop : Nat → State → Host.Outcome State Fault Refusal
  | 0, _ => .fault .prefixRun
  | n + 1, s =>
    match s.fetched with
    | .error e => .refused (.undecodable e)
    | .ok (i, len) =>
      if i.isPrefix then
        match exec i (s.advance len) with
        | .next t => stepLoop n t
        | .fault r => .fault r
        | .refused r => .refused r
      else exec i (s.advance len)

/-- `Step()`. -/
def step (s : State) : Host.Outcome State Fault Refusal :=
  if s.halted then .next s else stepLoop Config.prefixLimit s.clearPrefixes

/-- The state with one instruction stored where `step` fetches next, its bits numbered as spec/opcode_table.json numbers them, the
bytes after it zero. A halted machine is woken, since it fetches nothing (log 10). -/
def State.withFetchWord (s : State) (nbits w : Nat) : State :=
  { s.storeCode 0 (tableBytes nbits w) with halted := false, haltReason := .none }

end Sys2Proof.Machine
end

