-- ==== Sys2Proof/Machine/HostPort.lean ====
section
/-! DEFINITION. What the host does between steps: the port HOST (70_reset_and_hazards R664-R672), the launch states of D0's loader
(R666-R668), D0's handler table (60_exceptions R620), and the host's use of the sector port and the translator
(48_fat12_translator R520-R525). No instruction reaches any of it. -/

namespace Sys2Proof.Machine

/-! ## Load, SetReg, Status, Wake -/

/-- `Load(addr, bytes)`: byte `i` at `addr + i`, each address masked to 20 bits (20_memory R90, R664). -/
def State.load (s : State) (a : Addr) : List Byte → State
  | [] => s
  | b :: bs => (s.memWrite8 a b).load (a + 1#20) bs

/-- What `SetReg` names (R665). -/
inductive HostReg where
  | general (r : Reg16)
  | segment (r : SReg)
  | ip
  | flags
  deriving DecidableEq, Repr, Inhabited

/-- `SetReg(name, value)`: "FLAGS writes go through `norm`" (R665). -/
def State.hostSetReg (s : State) (r : HostReg) (v : Word) : State :=
  match r with
  | .general r => s.setReg r v
  | .segment r => s.setSeg r v
  | .ip => s.setIp v
  | .flags => s.setFlags v

/-- What the host reads of a register between steps (R665). -/
def State.hostGetReg (s : State) (r : HostReg) : Word :=
  match r with
  | .general r => s.reg r
  | .segment r => s.seg r
  | .ip => s.ip
  | .flags => s.flags

/-- `Status()` (R670). -/
def State.status (s : State) : Bool × HaltReason := (s.halted, s.haltReason)

/-- `Wake()`: allowed only from key-wait, and nothing but the halt state changes (R671, log 14). -/
def State.wake (s : State) : Outcome :=
  match s.haltReason with
  | .keyWait => .next { s with halted := false, haltReason := .none }
  | .none | .hlt | .programExit => .refused .wakeNotAllowed

/-- The host key pump appends a key: scan code in the high byte, ASCII in the low byte (60_exceptions R622). -/
def State.pressKey (s : State) (k : Word) : State := { s with keyBuffer := s.keyBuffer ++ [k] }

/-- The session states of D0 (R672). -/
inductive Session where
  | running
  | exit
  | waitingForKey
  deriving DecidableEq, Repr, Inhabited

/-- The session state of a halt reason (R672). -/
def State.session (s : State) : Session :=
  match s.haltReason with
  | .none => .running
  | .hlt | .programExit => .exit
  | .keyWait => .waitingForKey

/-! ## Launch (R666-R668) -/

/-- Load bytes at `seg:off`. -/
def State.loadAt (s : State) (seg off : Word) (bs : List Byte) : State := s.load (phys seg off) bs

/-- The handle table of the PSP: 0, 1, 2, 3, 4, then fifteen 0xFF (R667). -/
def pspHandles : List Byte := [0x00#8, 0x01#8, 0x02#8, 0x03#8, 0x04#8] ++ List.replicate 15 0xFF#8

/-- The PSP bytes of R667; the bytes it does not state are left as they are. The arguments are the top of allocated memory, the
environment segment and the command tail. DESIGN CHOICE (log 27): a tail of more than 126 bytes runs on past the end of the PSP,
and its length is stored modulo 256. -/
def State.buildPsp (s : State) (psp top env : Word) (tail : List Byte) : State :=
  let s := s.loadAt psp 0x0000#16 [0xCD#8, 0x20#8]
  let s := s.loadAt psp 0x0002#16 (bytes16 top)
  let s := s.loadAt psp 0x0005#16 [0xCD#8, 0x21#8, 0xCB#8]
  let s := s.loadAt psp 0x0018#16 pspHandles
  let s := s.loadAt psp 0x002C#16 (bytes16 env)
  let s := s.loadAt psp 0x0080#16 [BitVec.ofNat 8 tail.length]
  s.loadAt psp 0x0081#16 (tail ++ [0x0D#8])

/-- A running machine at an entry point: the registers the launch rules do not name are as after reset (R666). -/
def State.start (s : State) (cs ip ss sp ds es : Word) : State :=
  { s with
    regs := { State.reset.regs with sp := sp }
    segs := { State.reset.segs with cs := cs, ss := ss, ds := ds, es := es }
    ip := ip
    flags := State.reset.flags
    halted := false
    haltReason := .none }

/-- The COM launch state (R666). DESIGN CHOICE (log 26): the parts are stored in the order PSP, image, zero word, so the zero word
stands where an image of more than 0xFEFE bytes reaches it, and the image over a command tail that leaves the PSP. -/
def State.launchCom (s : State) (psp top env : Word) (tail image : List Byte) : State :=
  let s := s.buildPsp psp top env tail
  let s := s.loadAt psp 0x0100#16 image
  let s := s.loadAt psp 0xFFFE#16 [0x00#8, 0x00#8]
  s.start psp 0x0100#16 psp 0xFFFE#16 psp psp

/-- The image begins `4D 5A` (R668). -/
def isMz (image : List Byte) : Bool := image.getD 0 0#8 == 0x4D#8 && image.getD 1 0#8 == 0x5A#8

/-- The image size from header words 2 and 4: bytes in the last page, pages (R668, "from general knowledge"; log 16). A header
with no pages gives the bytes of the last page alone (DESIGN CHOICE, log 28). -/
def mzImageSize (image : List Byte) : Nat :=
  let last := (wordAt image 2).toNat
  let pages := (wordAt image 4).toNat
  if last = 0 then pages * 512 else (pages - 1) * 512 + last

/-- Add the load segment to the relocated words: `n` entries of the table at byte `o` of the image (R668), a byte past its end
read as 0 (DESIGN CHOICE, log 28). -/
def State.relocate (s : State) (loadSeg : Word) (image : List Byte) : Nat → Nat → State
  | 0, _ => s
  | n + 1, o =>
    let a := phys (loadSeg + wordAt image (o + 2)) (wordAt image o)
    (s.memWrite16 a (s.memRead16 a + loadSeg)).relocate loadSeg image n (o + 4)

/-- The MZ launch state (R668). The load segment, DS and ES are arguments: the spec gives none of them (log 16). DESIGN CHOICE
(log 28): the bytes that the header or the relocation table has past the end of the image read as 0. -/
def State.launchMz (s : State) (loadSeg ds es : Word) (image : List Byte) : State :=
  let header := (wordAt image 8).toNat * 16
  let s := s.loadAt loadSeg 0x0000#16 ((image.take (mzImageSize image)).drop header)
  let s := s.relocate loadSeg image (wordAt image 6).toNat (wordAt image 24).toNat
  s.start (wordAt image 22 + loadSeg) (wordAt image 20) (wordAt image 14 + loadSeg) (wordAt image 16) ds es

/-- The load segment, DS and ES of DOS (R668, "from general knowledge"; log 16). -/
def State.launchMzDos (s : State) (psp top env : Word) (tail image : List Byte) : State :=
  (s.buildPsp psp top env tail).launchMz (psp + 0x0010#16) psp psp image

/-- D0's loader: the two launch states by the image's first two bytes (R666, R668). -/
def State.launch (s : State) (psp top env : Word) (tail image : List Byte) : State :=
  if isMz image then s.launchMzDos psp top env tail image else s.launchCom psp top env tail image

/-! ## D0's platform (60_exceptions R620) -/

/-- The vectors with a synthesised handler on D0's platform. -/
def d0Handlers : List (Byte × Handler) :=
  [(0x10#8, .service), (0x11#8, .service), (0x12#8, .service), (0x13#8, .service), (0x14#8, .service), (0x15#8, .service),
   (0x16#8, .keyboard), (0x17#8, .service), (0x19#8, .service), (0x1A#8, .service), (0x20#8, .programExit), (0x21#8, .dos),
   (0x22#8, .service), (0x23#8, .service), (0x24#8, .service), (0x27#8, .programExit), (0x28#8, .service), (0x2F#8, .service),
   (0x33#8, .service)]

/-- The reset machine on D0's platform: the handler table is "as supplied by the platform" (10_state R70). -/
def State.resetOnD0 : State := { State.reset with handlers := d0Handlers }

/-- The reset machine for a value of the argument EXT186: the spec's default is `refuse` (00_scope R8, 30_encoding R160; log 3). -/
def State.resetWith (x : Ext186) : State := { State.reset with ext186 := x }

/-! ## The host's use of the translator (48_fat12_translator R520-R525) -/

/-- One request to the translator: its answer, and the state after it (R520). -/
def State.hostFat (s : State) (r : FatRequest) : FatAnswer × State :=
  let (a, f) := s.fat.request r
  (a, { s with fat := f })

/-- The platform's store begins or ceases to fail: the sectors on which a `get` and those on which a `put` fails from here on
(93_implementation_defined U23, U24; log 30). -/
def State.setStoreFailures (s : State) (gets puts : List Nat) : State :=
  { s with fat := { s.fat with failsGet := gets, failsPut := puts } }

/-- `WriteSector` by number: an index of 2880 or more is refused (48_fat12_translator R521, log 15). Nothing is flushed (R524,
log 17). -/
def State.hostWriteSector (s : State) (n : Nat) (b : Vector Byte 512) : Outcome :=
  if h : n < 2880 then .next (s.hostFat (.writeSector ⟨n, h⟩ b)).2 else .refused .sectorOutOfRange

/-- `ReadSector` by number: the state after it; an index of 2880 or more is refused (48_fat12_translator R521, log 15). -/
def State.hostReadSector (s : State) (n : Nat) : Outcome :=
  if h : n < 2880 then .next (s.hostFat (.readSector ⟨n, h⟩)).2 else .refused .sectorOutOfRange

end Sys2Proof.Machine
end

