-- ==== Sys2Proof/Safety.lean ====
section
/-! DEFINITION. The terms claims use: the invariants of the machine, what an instruction may change, and the flags of a result
written with numbers (10_state R50-R53) rather than with the machine's own helpers. -/

namespace Sys2Proof.Machine

/-! ## Invariants -/

/-- `halted = false` exactly when `haltReason = none` (10_state R60). -/
def State.haltConsistent (s : State) : Bool := s.halted == (s.haltReason != .none)

/-- The invariants of the machine: memory in canonical form, the reserved flag bits as 10_state R46 says, the halt state as
10_state R60 says. -/
def State.Inv (s : State) : Prop :=
  s.mem.wf = true ∧ flagsNormal s.flags = true ∧ s.haltConsistent = true

/-! ## Frames -/

/-- The parts of the machine an instruction may change. -/
structure Touched where
  regs : List Reg16 := []
  halves : List Reg8 := []
  segs : List SReg := []
  flags : List Flag := []
  stored : List Addr := []

/-- The parts of the state that are neither registers, flags, IP nor memory. Only the model's draw counter is left out. -/
def SameRest (s t : State) : Prop :=
  t.halted = s.halted ∧ t.haltReason = s.haltReason ∧ t.segov = s.segov ∧ t.rep = s.rep ∧ t.ext186 = s.ext186 ∧
  t.handlers = s.handlers ∧ t.ports = s.ports ∧ t.keyBuffer = s.keyBuffer ∧ t.fat = s.fat ∧ t.portLog = s.portLog ∧
  t.trace = s.trace

/-- Everything but the touched parts is as before: every other general register and byte half, every other segment register,
every other bit of FLAGS, every other byte of memory, and the rest of the state. IP is not spoken of. -/
structure OnlyChanges (x : Touched) (s t : State) : Prop where
  regs : ∀ r, r ∉ x.regs → (∀ h ∈ x.halves, h.parent ≠ r) → t.reg r = s.reg r
  halves : ∀ h, h ∉ x.halves → h.parent ∉ x.regs → t.half h = s.half h
  segs : ∀ r, r ∉ x.segs → t.seg r = s.seg r
  flags : ∀ k, (∀ f ∈ x.flags, f.pos ≠ k) → t.flags.getLsbD k = s.flags.getLsbD k
  mem : ∀ a, a ∉ x.stored → t.memRead8 a = s.memRead8 a
  rest : SameRest s t

/-- The bytes a store of a width at `seg:off` writes: the second one at the next physical address (20_memory R86). -/
def storedBytes (w : Width) (seg off : Word) : List Addr :=
  match w with
  | .byte => [phys seg off]
  | .word => [phys seg off, phys seg off + 1#20]

/-- The register an operand number names at a width, as touched parts. -/
def touchedReg (w : Width) (r : RegNum) (flags : List Flag) : Touched :=
  match w with
  | .byte => { halves := [r.r8], flags := flags }
  | .word => { regs := [r.r16], flags := flags }

/-- A destination place as touched parts. -/
def Place.touched (w : Width) (p : Place) (flags : List Flag) : Touched :=
  match p with
  | .reg i => touchedReg w i flags
  | .mem seg off => { stored := storedBytes w seg off, flags := flags }

/-- Both of two lists of touched parts. -/
def Touched.add (a b : Touched) : Touched :=
  ⟨a.regs ++ b.regs, a.halves ++ b.halves, a.segs ++ b.segs, a.flags ++ b.flags, a.stored ++ b.stored⟩

/-- The six arithmetic flags. -/
def arithFlags : List Flag := [.cf, .pf, .af, .zf, .sf, .of]

/-- The six arithmetic flags but CF. -/
def flagsButCF : List Flag := [.pf, .af, .zf, .sf, .of]

/-! ## Flags of results, with numbers -/

/-- The low 8 bits of a number hold an even number of 1 bits (10_state R50). -/
def evenOnes (n : Nat) : Bool :=
  !(n.testBit 0 ^^ n.testBit 1 ^^ n.testBit 2 ^^ n.testBit 3 ^^ n.testBit 4 ^^ n.testBit 5 ^^ n.testBit 6 ^^ n.testBit 7)

/-- SF, ZF and PF of a result (10_state R51). -/
def ResultFlags {w : Nat} (r : BitVec w) (t : State) : Prop :=
  t.flag .sf = decide (2 ^ (w - 1) ≤ r.toNat) ∧ t.flag .zf = decide (r.toNat = 0) ∧ t.flag .pf = evenOnes r.toNat

/-- An integer that is no `w`-bit signed number. -/
def SignedOverflow (w : Nat) (x : Int) : Prop := x < -(2 : Int) ^ (w - 1) ∨ (2 : Int) ^ (w - 1) ≤ x

/-- CF, AF and OF of `a + b + c` (10_state R52): CF the carry out of the top bit, AF the carry out of bit 3, OF the signed
overflow. -/
def AddFlags {w : Nat} (a b : BitVec w) (c : Nat) (t : State) : Prop :=
  t.flag .cf = decide (2 ^ w ≤ a.toNat + b.toNat + c) ∧
  t.flag .af = decide (16 ≤ a.toNat % 16 + b.toNat % 16 + c) ∧
  (t.flag .of = true ↔ SignedOverflow w (a.toInt + b.toInt + c))

/-- CF, AF and OF of `a - b - c` (10_state R53): CF the borrow, AF the borrow from bit 4, OF the signed overflow. -/
def SubFlags {w : Nat} (a b : BitVec w) (c : Nat) (t : State) : Prop :=
  t.flag .cf = decide (a.toNat < b.toNat + c) ∧
  t.flag .af = decide (a.toNat % 16 < b.toNat % 16 + c) ∧
  (t.flag .of = true ↔ SignedOverflow w (a.toInt - b.toInt - c))

/-- The masked count of a shift form: "The count is masked to the low 5 bits" (43_shift_rotate R320). -/
def shiftCount (f : ShiftForm) (s : State) : Nat :=
  match f with
  | .one _ _ => 1
  | .cl _ _ => (s.half .cl).toNat % 32
  | .imm _ _ v => v.toNat % 32

/-- How far one string iteration moves an index (44_string R350): the element's size, up or down by DF. -/
def strideOf (w : Width) (s : State) : Word :=
  match s.flag .df, w with
  | false, .byte => 1#16
  | false, .word => 2#16
  | true, .byte => 0xFFFF#16
  | true, .word => 0xFFFE#16

/-- The word on top of the stack of `s`, `n` bytes up (20_memory R93). -/
def stackWord (s : State) (n : Word) : Word := s.readMem .word (s.seg .ss) (s.reg .sp + n)

/-- `t` is `s` with the word `v` pushed (20_memory R92): SP two lower, the word at the new top, nothing else. -/
def PushesWord (v : Word) (s t : State) : Prop :=
  t.reg .sp = s.reg .sp - 2#16 ∧ t.readMem .word (s.seg .ss) (s.reg .sp - 2#16) = v ∧
  OnlyChanges { regs := [.sp], stored := storedBytes .word (s.seg .ss) (s.reg .sp - 2#16) } s t

/-- The bytes of the `n` words below `SS:SP` of `s`: what `n` pushes store (20_memory R92). Three of them are an interrupt frame
(60_exceptions R601). -/
def pushedBytes (s : State) (n : Nat) : List Addr :=
  (List.range n).flatMap fun k => storedBytes .word (s.seg .ss) (s.reg .sp - BitVec.ofNat 16 (2 * (k + 1)))

/-- The interrupt frame stands in memory: IP, CS, FLAGS of `s` from its `SS:SP - 6` upwards (60_exceptions R601). -/
def FrameStands (s t : State) : Prop :=
  t.readMem .word (s.seg .ss) (s.reg .sp - 2#16) = s.flags ∧
  t.readMem .word (s.seg .ss) (s.reg .sp - 4#16) = s.seg .cs ∧
  t.readMem .word (s.seg .ss) (s.reg .sp - 6#16) = s.ip

/-! ## Prefixes -/

/-- The effect of a run of prefix instructions on the prefix state: each overwrites the field it sets (30_encoding R124). -/
def applyPrefixes : List Instr → State → State
  | [], s => s
  | i :: is, s =>
    match i with
    | .segES => applyPrefixes is { s with segov := some .es }
    | .segCS => applyPrefixes is { s with segov := some .cs }
    | .segSS => applyPrefixes is { s with segov := some .ss }
    | .segDS => applyPrefixes is { s with segov := some .ds }
    | .segFS => applyPrefixes is { s with segov := some .fs }
    | .segGS => applyPrefixes is { s with segov := some .gs }
    | .rep => applyPrefixes is { s with rep := some .repe }
    | .repne => applyPrefixes is { s with rep := some .repne }
    | _ => applyPrefixes is s

/-- What a read of port `p` yields when `k` free values have been drawn (46_io_processor_control R431). -/
def portValue (s : State) (k : Nat) (p : Word) : Byte := if p ∈ s.ports then Config.portByte k p else 0xFF#8

/-- The records a read of port `p` leaves when `k` free values have been drawn: exactly one for a registered port
(46_io_processor_control R431). -/
def portReads (s : State) (k : Nat) (p : Word) : List PortEvent :=
  if p ∈ s.ports then [.read p (Config.portByte k p)] else []

/-- The records a write of `b` to port `p` leaves (46_io_processor_control R431, R432). -/
def portWrites (s : State) (p : Word) (b : Byte) : List PortEvent := if p ∈ s.ports then [.write p b] else []

/-- The prefix bytes of 30_encoding R123. -/
def isPrefixByte (b : Byte) : Bool :=
  b ∈ [0x26#8, 0x2E#8, 0x36#8, 0x3E#8, 0x64#8, 0x65#8, 0xF0#8, 0xF2#8, 0xF3#8]

/-! ## The translator -/

/-- The two FATs hold the same 4608 bytes (48_fat12_translator R571, item 1). -/
def FatState.fatsAgree (f : FatState) : Prop := ∀ k < 4608, (f.fatByte 1 k).1 = (f.fatByte 10 k).1

/-- Every cached sector that is not dirty, and on which the store does not fail, is what the store yields (48_fat12_translator R523,
R525; log 30). -/
def FatState.cacheAgrees (f : FatState) : Prop :=
  ∀ n b, n ∉ f.dirty → n ∉ f.failsGet → n ∉ f.failsPut → f.cache.get n = some b → f.stored n = b

/-- The mutating public operations (48_fat12_translator R572). -/
def FatRequest.isMutating : FatRequest → Bool
  | .format _ _ _ | .writeFile _ _ _ _ | .mkdir _ _ _ | .deleteEntry _ _ | .renameEntry _ _ _ => true
  | _ => false

end Sys2Proof.Machine

namespace Sys2Proof

open Sys2Proof.Machine

/-- Where the operand of a two-operand form's destination is read before the instruction. -/
def AluForm.left (f : AluForm) (s : State) : BitVec (f.operands s).w.bits :=
  s.readPlace (f.operands s).w (f.operands s).dst

/-- A form that the machine's EXT186 gives a meaning: the immediate-count forms need `present` (47_post8086_ext R492). -/
def ShiftForm.available (f : ShiftForm) (s : State) : Prop :=
  match f with
  | .one _ _ | .cl _ _ => True
  | .imm _ _ _ => s.ext186 = .present

/-! ## Families of instructions -/

/-- The instructions that may write a segment register: those 10_state R42 lists, the dispatcher's causes among them
(60_exceptions R602). -/
def Instr.mayWriteSegment : Instr → Bool
  | .movSegRm _ _ | .popSeg _ | .popFs | .popGs | .lds _ _ | .les _ _ | .jmpFar _ _ | .jmpFarMem _ | .callFar _ _
  | .callFarMem _ | .retf | .retfImm _ | .iret | .int _ | .int3 | .into | .bound _ _ | .div _ _ | .idiv _ _ | .aam _ => true
  | _ => false

/-- The class x186 of 30_encoding R160. -/
def Instr.isX186 : Instr → Bool
  | .imulImm16 _ _ _ | .imulSimm8 _ _ _ | .pushSimm8 _ | .pushFs | .pushGs | .popFs | .popGs => true
  | .insb | .insw | .outsb | .outsw => true
  | .rol (.imm _ _ _) | .ror (.imm _ _ _) | .rcl (.imm _ _ _) | .rcr (.imm _ _ _) => true
  | .shl (.imm _ _ _) | .shr (.imm _ _ _) | .sal (.imm _ _ _) | .sar (.imm _ _ _) => true
  | _ => false

/-- The vector an instruction raises when it raises one (60_exceptions R602). -/
def Instr.vector : Instr → Option Byte
  | .int n => some n
  | .int3 => some 3#8
  | .into => some 4#8
  | .bound _ _ => some 5#8
  | .div _ _ | .idiv _ _ | .aam _ => some 0#8
  | _ => none

/-- The instructions that leave FLAGS alone: the row "everything else" of 10_state R47 with NOT, the moves and the string
instructions that compare nothing. -/
def Instr.leavesFlags : Instr → Bool
  | .not _ _ | .movRmReg _ _ _ | .movRegRm _ _ _ | .movRegImm8 _ _ | .movRegImm16 _ _ | .movRmImm8 _ _ | .movRmImm16 _ _ => true
  | .movAccMoffs _ _ | .movMoffsAcc _ _ | .movRmSeg _ _ | .movSegRm _ _ | .pushReg _ | .pushRm _ | .pushSeg _ => true
  | .pushImm16 _ | .pushSimm8 _ | .pushFs | .pushGs | .popReg _ | .popRm _ | .popSeg _ | .popFs | .popGs => true
  | .xchgRm _ _ _ | .xchgAx _ | .xlat | .lea _ _ | .lds _ _ | .les _ _ | .lahf | .pushf | .cbw | .cwd => true
  | .movsb | .movsw | .stosb | .stosw | .lodsb | .lodsw | .insb | .insw | .outsb | .outsw => true
  | .jmpShort _ | .jmpNear _ | .jmpRm _ | .jmpFar _ _ | .jmpFarMem _ | .callNear _ | .callRm _ | .callFar _ _ => true
  | .callFarMem _ | .ret | .retImm _ | .retf | .retfImm _ => true
  | .jo _ | .jno _ | .jb _ | .jae _ | .je _ | .jne _ | .jbe _ | .ja _ => true
  | .js _ | .jns _ | .jp _ | .jnp _ | .jl _ | .jge _ | .jle _ | .jg _ => true
  | .loopne _ | .loope _ | .loop _ | .jcxz _ | .inImm _ _ | .inDx _ | .outImm _ _ | .outDx _ => true
  | .hlt | .nop | .wait | .esc _ _ _ | .pusha | .popa | .enter _ _ | .leave | .movzx _ _ _ | .movsx _ _ _ => true
  | .segES | .segCS | .segSS | .segDS | .segFS | .segGS | .lock | .repne | .rep | .unknown _ | .unknown0F _ => true
  | _ => false

end Sys2Proof
end

