-- ==== Sys2Proof/Certificates/Slice0/Obligations.lean ====
section
/-! DEFINITION. The statements for the provers. The frame vocabulary is that of Safety.lean: `OnlyChanges x s t` says that nothing
but the parts `x` differs, every byte of memory outside the stored ones included. The marks of the spec: a rule it calls
"from general knowledge" or its own decision is named in the docstring, and the statement is then derived. -/

open Sys2Proof Sys2Proof.Machine

/-! ## Encoding -/

/-- 30_encoding R130-R133, R138, R140, R150-R152 (93, G1): no operand and no bit of an encoding is dropped. -/
def Obligations.DecodeOfEncodeIsTheInstruction : Prop :=
  ∀ (x : Ext186) (i : Instr) (rest : List Byte), i.wf x = true → decode x (encode i ++ rest) = .ok (i, rest)

/-- 30_encoding R120, R150-R160: any six bytes begin with exactly one encoding, whose instruction is well-formed; reserved and
unknown encodings have instructions of their own, so nothing falls through to a neighbour. -/
def Obligations.SixBytesBeginWithOneEncoding : Prop :=
  ∀ (x : Ext186) (bs : List Byte), 6 ≤ bs.length →
    ∃ i rest, decode x bs = .ok (i, rest) ∧ i.wf x = true ∧ encode i ++ rest = bs ∧
      ∀ j rest', j.wf x = true → encode j ++ rest' = bs → j = i ∧ rest' = rest

/-- Words written out from the spec's encodings (95_test_vectors tables 2.1 to 2.9, the opcode map of 30_encoding R150), the two
directions of a two-operand form among them. -/
def Obligations.WordsOfTheSpecDecode : Prop :=
  decode .present [0x89#8, 0xD8#8] = .ok (.movRmReg .word (.reg .n0) .n3, []) ∧
  decode .present [0x8A#8, 0x47#8, 0x02#8] = .ok (.movRegRm .byte .n0 (.mem (.based .bx (.d8 0x02#8))), []) ∧
  decode .present [0x01#8, 0xD8#8] = .ok (.add (.rmReg .word (.reg .n0) .n3), []) ∧
  decode .present [0x03#8, 0xD8#8] = .ok (.add (.regRm .word .n3 (.reg .n0)), []) ∧
  decode .present [0x83#8, 0xE8#8, 0xFF#8] = .ok (.sub (.rm16Simm (.reg .n0) 0xFF#8), []) ∧
  decode .present [0xF7#8, 0xE3#8] = .ok (.mul .word (.reg .n3), []) ∧
  decode .present [0xD3#8, 0xF8#8] = .ok (.sar (.cl .word (.reg .n0)), []) ∧
  decode .present [0x8B#8, 0x06#8, 0x34#8, 0x12#8] = .ok (.movRegRm .word .n0 (.mem (.direct 0x1234#16)), []) ∧
  decode .present [0xEA#8, 0x00#8, 0x7C#8, 0x00#8, 0x00#8] = .ok (.jmpFar 0x7C00#16 0x0000#16, []) ∧
  decode .present [0x0F#8, 0x84#8, 0x00#8, 0x01#8] = .ok (.je (.rel16 0x0100#16), []) ∧
  decode .present [0xC8#8, 0x04#8, 0x00#8, 0x02#8] = .ok (.enter 0x0004#16 0x02#8, []) ∧
  decode .absent [0x6A#8, 0xFF#8] = .ok (.unknown 0x6A#8, [0xFF#8])

/-! ## The step -/

/-- 30_encoding R121, R122: when the bytes from CS:IP on, IP wrapping modulo 2^16, are the encoding of a well-formed instruction
that is no prefix, the step is that instruction's meaning with the prefix state cleared and IP past its bytes. -/
def Obligations.StepRunsTheDecodedInstruction : Prop :=
  ∀ (s : State) (i : Instr), s.halted = false → i.wf s.ext186 = true → i.isPrefix = false →
    (∀ k b, (encode i)[k]? = some b → s.memRead8 (phys (s.seg .cs) (s.ip + BitVec.ofNat 16 k)) = b) →
    step s = exec i { s with segov := none, rep := none, ip := s.ip + BitVec.ofNat 16 (encode i).length }

/-- 30_encoding R121, R124: prefixes in any number (fewer than 65536) and order before an instruction: each overwrites the field
it sets, and the step ends with the instruction they attach to, IP past all the bytes. -/
def Obligations.PrefixesAttachToOneInstruction : Prop :=
  ∀ (s : State) (ps : List Instr) (i : Instr), s.halted = false → i.wf s.ext186 = true → i.isPrefix = false →
    (∀ p ∈ ps, p.isPrefix = true) → ps.length < 65536 →
    (∀ k b, (ps.flatMap encode ++ encode i)[k]? = some b →
      s.memRead8 (phys (s.seg .cs) (s.ip + BitVec.ofNat 16 k)) = b) →
    step s = exec i (applyPrefixes ps
      { s with segov := none, rep := none, ip := s.ip + BitVec.ofNat 16 (ps.length + (encode i).length) })

/-- 30_encoding R128, 70_reset_and_hazards R682 (decision D40, log 11): a code segment of prefix bytes is stuck. -/
def Obligations.PrefixRunIsStuck : Prop :=
  ∀ s : State, s.halted = false → (∀ off : Word, isPrefixByte (s.memRead8 (phys (s.seg .cs) off)) = true) →
    step s = .fault .prefixRun

/-- 10_state R46, R60, and the model's canonical memory (log 1): every step keeps the reserved flag bits, the agreement of
`halted` with `haltReason`, and the memory's form. -/
def Obligations.EveryStepKeepsTheInvariant : Prop :=
  ∀ s t : State, s.Inv → step s = .next t → t.Inv

/-- The invariant holds at reset. -/
def Obligations.ResetMeetsTheInvariant : Prop := State.reset.Inv

/-- 10_state R70, 70_reset_and_hazards R660 (decision D20): the values after reset that the spec gives. -/
def Obligations.ResetValues : Prop :=
  (∀ r, State.reset.reg r = 0x0000#16) ∧ (∀ r, State.reset.seg r = 0x0000#16) ∧ State.reset.ip = 0x0000#16 ∧
  State.reset.flags = 0x0002#16 ∧ State.reset.halted = false ∧ State.reset.haltReason = .none ∧
  State.reset.segov = none ∧ State.reset.rep = none ∧ State.reset.fat.cache = [] ∧ State.reset.fat.dirty = []

/-- 60_exceptions R600, 30_encoding R128, R159, R160, 70_reset_and_hazards R682 (decisions D9, D11, D40; log 3, 11, 12): a step
goes on in every state but the ones the spec gives no meaning. It stops as a prefix run only where every byte of the code segment
is a prefix byte; and otherwise only where, after fewer than 65536 prefix bytes at CS:IP, the encoding stands of a reserved
instruction, or of one of class x186 on a machine whose EXT186 is `refuse`. -/
def Obligations.StepStopsOnlyWhereTheSpecSays : Prop :=
  ∀ s : State,
    let byteAt (k : Nat) : Byte := s.memRead8 (phys (s.seg .cs) (s.ip + BitVec.ofNat 16 k))
    (∃ t, step s = .next t) ∨
    (step s = .fault .prefixRun ∧ ∀ off : Word, isPrefixByte (s.memRead8 (phys (s.seg .cs) off)) = true) ∨
    (∃ n i, n < 65536 ∧ (∀ k < n, isPrefixByte (byteAt k) = true) ∧ i.wf s.ext186 = true ∧
      (∀ k b, (encode i)[k]? = some b → byteAt (n + k) = b) ∧
      ((step s = .refused .reservedEncoding ∧ ∃ op m, i = .reserved op m) ∨
        (step s = .refused .ext186NotPresent ∧ i.isX186 = true ∧ s.ext186 = .refuse)))

/-- 10_state R63 (decision D23): no step changes the handler table or the port table, nor the parameter EXT186. -/
def Obligations.NoStepChangesTheTables : Prop :=
  ∀ s t : State, step s = .next t → t.handlers = s.handlers ∧ t.ports = s.ports ∧ t.ext186 = s.ext186

/-- 10_state R42: segment registers are written only by the instructions listed there and by the interrupt dispatcher. -/
def Obligations.SegmentRegistersHaveFewWriters : Prop :=
  ∀ (i : Instr) (s t : State), i.mayWriteSegment = false → exec i s = .next t → t.segs = s.segs

/-- 10_state R47, the row "everything else" and the row of NOT (93, G3): those instructions change no bit of FLAGS. -/
def Obligations.FlagsAreLeftAlone : Prop :=
  ∀ (i : Instr) (s t : State), i.leavesFlags = true → exec i s = .next t → t.flags = s.flags

/-- 10_state R60, 60_exceptions R602: the machine halts only by HLT, with reason `hlt`, or inside the synthesised handler
registered for the vector the instruction raises, with another reason. -/
def Obligations.OnlyHltAndHandlersHalt : Prop :=
  ∀ (i : Instr) (s t : State), exec i s = .next t → s.halted = false → t.halted = true →
    (i = .hlt ∧ t.haltReason = .hlt) ∨
    ((∃ n h, i.vector = some n ∧ lookupHandler s.handlers n = some h) ∧
      (t.haltReason = .programExit ∨ t.haltReason = .keyWait))

/-! ## Registers, addresses, memory -/

/-- 10_state R34: a byte half aliases its 16-bit register and nothing else. -/
def Obligations.ByteHalvesAliasTheirRegister : Prop :=
  ∀ (s : State) (v : Byte) (x : Word),
    (s.setHalf .al v).reg .ax = (s.reg .ax).extractLsb' 8 8 ++ v ∧
    (s.setHalf .ah v).reg .ax = v ++ (s.reg .ax).extractLsb' 0 8 ∧
    (s.setHalf .cl v).reg .cx = (s.reg .cx).extractLsb' 8 8 ++ v ∧
    (s.setHalf .ch v).reg .cx = v ++ (s.reg .cx).extractLsb' 0 8 ∧
    (s.setHalf .dl v).reg .dx = (s.reg .dx).extractLsb' 8 8 ++ v ∧
    (s.setHalf .dh v).reg .dx = v ++ (s.reg .dx).extractLsb' 0 8 ∧
    (s.setHalf .bl v).reg .bx = (s.reg .bx).extractLsb' 8 8 ++ v ∧
    (s.setHalf .bh v).reg .bx = v ++ (s.reg .bx).extractLsb' 0 8 ∧
    ((s.setReg .ax x).half .ah ++ (s.setReg .ax x).half .al) = x ∧
    (∀ h, OnlyChanges { halves := [h] } s (s.setHalf h v))

/-- 20_memory R82: the physical address wraps modulo 2^20. -/
def Obligations.PhysicalAddressesWrap : Prop :=
  ∀ seg off : Word, (phys seg off).toNat = (seg.toNat * 16 + off.toNat) % 2 ^ 20

/-- 20_memory R84, R85: a store of a byte or a word is read back and changes no other byte; a word is two bytes, the low one first,
each address masked to 20 bits separately. -/
def Obligations.MemoryIsLittleEndianBytes : Prop :=
  ∀ (s : State) (a : Addr) (b : Byte) (v : Word),
    let a1 : Addr := BitVec.ofNat 20 ((a.toNat + 1) % 2 ^ 20)
    (s.memWrite8 a b).memRead8 a = b ∧ OnlyChanges { stored := [a] } s (s.memWrite8 a b) ∧
    (s.memRead16 a).toNat = (s.memRead8 a).toNat + 256 * (s.memRead8 a1).toNat ∧
    ((s.memWrite16 a v).memRead8 a).toNat = v.toNat % 256 ∧ ((s.memWrite16 a v).memRead8 a1).toNat = v.toNat / 256 ∧
    OnlyChanges { stored := [a, a1] } s (s.memWrite16 a v)

/-- 30_encoding R130-R134: base by base, the offset of a memory operand is the sum modulo 2^16, its segment SS for the BP forms
and DS for the others and for the direct form, and an override takes the default's place (R134 is decision D46).
10_state R32, R33, 00_scope R13, 30_encoding R136, R138, R140, 43_shift_rotate R320: where each operand form of a two-operand
instruction, of TEST and of a shift has its width, its destination and its source (its count, masked to five bits), the immediate of
opcode 83 being sign-extended. -/
def Obligations.EffectiveAddressesAndOperands : Prop :=
  (∀ (s : State) (d : Disp) (off : Word),
    let n (r : Reg16) : Int := (s.reg r).toNat
    let disp : Int := match d with | .none => 0 | .d8 b => b.toInt | .d16 v => v.toInt
    let seg (r : SReg) : Word := match s.segov with | some o => s.seg o | none => s.seg r
    let ea (b : Base) : Int := (s.effAddr (.based b d)).toNat
    ea .bxsi = (n .bx + n .si + disp) % 65536 ∧ ea .bxdi = (n .bx + n .di + disp) % 65536 ∧
    ea .bpsi = (n .bp + n .si + disp) % 65536 ∧ ea .bpdi = (n .bp + n .di + disp) % 65536 ∧
    ea .si = (n .si + disp) % 65536 ∧ ea .di = (n .di + disp) % 65536 ∧
    ea .bp = (n .bp + disp) % 65536 ∧ ea .bx = (n .bx + disp) % 65536 ∧
    s.effAddr (.direct off) = off ∧ s.effSeg (.direct off) = seg .ds ∧
    (∀ b, s.effSeg (.based b d) = seg (if b = .bpsi ∨ b = .bpdi ∨ b = .bp then .ss else .ds))) ∧
  [RegNum.n0, .n1, .n2, .n3, .n4, .n5, .n6, .n7].map RegNum.r16 = [.ax, .cx, .dx, .bx, .sp, .bp, .si, .di] ∧
  [RegNum.n0, .n1, .n2, .n3, .n4, .n5, .n6, .n7].map RegNum.r8 = [.al, .cl, .dl, .bl, .ah, .ch, .dh, .bh] ∧
  (∀ (s : State) (w : Width) (e : Rm) (r : RegNum) (m : MemOp) (alt : Bool) (b : Byte) (v : Word),
    s.regW .byte r = s.half r.r8 ∧ s.regW .word r = s.reg r.r16 ∧
    s.readRm w (.reg r) = s.regW w r ∧ s.readRm w (.mem m) = s.readMem w (s.effSeg m) (s.effAddr m) ∧
    s.readRm .byte (.mem m) = s.memRead8 (phys (s.effSeg m) (s.effAddr m)) ∧
    s.readRm .word (.mem m) = s.memRead16 (phys (s.effSeg m) (s.effAddr m)) ∧
    s.readRm w e = s.readPlace w (s.resolve e) ∧
    s.resolve (.reg r) = .reg r ∧ s.resolve (.mem m) = .mem (s.effSeg m) (s.effAddr m) ∧
    (AluForm.rmReg w e r).operands s = { w := w, dst := s.resolve e, src := s.regW w r } ∧
    (AluForm.regRm w r e).operands s = { w := w, dst := .reg r, src := s.readRm w e } ∧
    (AluForm.alImm b).operands s = { w := .byte, dst := .reg .n0, src := b } ∧
    (AluForm.axImm v).operands s = { w := .word, dst := .reg .n0, src := v } ∧
    (AluForm.rm8Imm alt e b).operands s = { w := .byte, dst := s.resolve e, src := b } ∧
    (AluForm.rm16Imm e v).operands s = { w := .word, dst := s.resolve e, src := v } ∧
    (AluForm.rm16Simm e b).operands s = { w := .word, dst := s.resolve e, src := BitVec.ofInt 16 b.toInt } ∧
    (TestForm.rmReg w e r).operands s = { w := w, dst := s.resolve e, src := s.regW w r } ∧
    (TestForm.alImm b).operands s = { w := .byte, dst := .reg .n0, src := b } ∧
    (TestForm.axImm v).operands s = { w := .word, dst := .reg .n0, src := v } ∧
    (TestForm.rm8Imm e b).operands s = { w := .byte, dst := s.resolve e, src := b } ∧
    (TestForm.rm16Imm e v).operands s = { w := .word, dst := s.resolve e, src := v } ∧
    (ShiftForm.one w e).args s = { w := w, dst := s.resolve e, count := 1 } ∧
    (ShiftForm.cl w e).args s = { w := w, dst := s.resolve e, count := (s.half .cl).toNat % 32 } ∧
    (ShiftForm.imm w e b).args s = { w := w, dst := s.resolve e, count := b.toNat % 32 })

/-! ## Data transfer (40_data_transfer, 47_post8086_ext; 93 G2, G9) -/

/-- R200, R202, R204, R205: the moves whose destination is an operand E or a moffs. -/
def Obligations.MovesToAnOperand : Prop :=
  ∀ (s : State) (e : Rm),
    (∀ w r, ∃ t, exec (.movRmReg w e r) s = .next t ∧ t.readPlace w (s.resolve e) = s.regW w r ∧ t.ip = s.ip ∧
      OnlyChanges ((s.resolve e).touched w []) s t) ∧
    (∀ v, ∃ t, exec (.movRmImm8 e v) s = .next t ∧ t.readPlace .byte (s.resolve e) = v ∧ t.ip = s.ip ∧
      OnlyChanges ((s.resolve e).touched .byte []) s t) ∧
    (∀ v, ∃ t, exec (.movRmImm16 e v) s = .next t ∧ t.readPlace .word (s.resolve e) = v ∧ t.ip = s.ip ∧
      OnlyChanges ((s.resolve e).touched .word []) s t) ∧
    (∀ sr, ∃ t, exec (.movRmSeg e sr) s = .next t ∧ t.readPlace .word (s.resolve e) = s.seg sr ∧ t.ip = s.ip ∧
      OnlyChanges ((s.resolve e).touched .word []) s t) ∧
    (∀ w off, ∃ t, exec (.movMoffsAcc w off) s = .next t ∧
      t.readMem w (s.seg (s.segov.getD .ds)) off = s.regW w .n0 ∧ t.ip = s.ip ∧
      OnlyChanges { stored := storedBytes w (s.seg (s.segov.getD .ds)) off } s t)

/-- R200, R201, R203, R215, R220, R223, 41_arithmetic R265, R266, 47_post8086_ext R477, R478: the moves into a register. -/
def Obligations.MovesToARegister : Prop :=
  ∀ (s : State) (r : RegNum) (e : Rm) (m : MemOp),
    (∀ w, ∃ t, exec (.movRegRm w r e) s = .next t ∧ t.regW w r = s.readRm w e ∧ t.ip = s.ip ∧
      OnlyChanges (touchedReg w r []) s t) ∧
    (∀ v, ∃ t, exec (.movRegImm8 r v) s = .next t ∧ t.half r.r8 = v ∧ t.ip = s.ip ∧ OnlyChanges { halves := [r.r8] } s t) ∧
    (∀ v, ∃ t, exec (.movRegImm16 r v) s = .next t ∧ t.reg r.r16 = v ∧ t.ip = s.ip ∧ OnlyChanges { regs := [r.r16] } s t) ∧
    (∀ w off, ∃ t, exec (.movAccMoffs w off) s = .next t ∧
      t.regW w .n0 = s.readMem w (s.seg (s.segov.getD .ds)) off ∧ t.ip = s.ip ∧ OnlyChanges (touchedReg w .n0 []) s t) ∧
    (∃ t, exec .xlat s = .next t ∧
      t.half .al = s.memRead8 (phys (s.seg (s.segov.getD .ds)) (s.reg .bx + (s.half .al).zeroExtend 16)) ∧
      t.ip = s.ip ∧ OnlyChanges { halves := [.al] } s t) ∧
    (∃ t, exec (.lea r m) s = .next t ∧ t.reg r.r16 = s.effAddr m ∧ t.ip = s.ip ∧ OnlyChanges { regs := [r.r16] } s t) ∧
    (∃ t, exec .lahf s = .next t ∧ (t.half .ah).toNat = s.flags.toNat % 256 ∧ t.ip = s.ip ∧
      OnlyChanges { halves := [.ah] } s t) ∧
    (∃ t, exec .cbw s = .next t ∧ (t.reg .ax).toInt = (s.half .al).toInt ∧ t.ip = s.ip ∧
      OnlyChanges { regs := [.ax] } s t) ∧
    (∃ t, exec .cwd s = .next t ∧ (t.reg .dx ++ t.reg .ax).toInt = (s.reg .ax).toInt ∧ t.ip = s.ip ∧
      OnlyChanges { regs := [.dx] } s t) ∧
    (∀ w, ∃ t, exec (.movzx w r e) s = .next t ∧ (t.reg r.r16).toNat = (s.readRm w e).toNat ∧ t.ip = s.ip ∧
      OnlyChanges { regs := [r.r16] } s t) ∧
    (∀ w, ∃ t, exec (.movsx w r e) s = .next t ∧ (t.reg r.r16).toInt = (s.readRm w e).toInt ∧ t.ip = s.ip ∧
      OnlyChanges { regs := [r.r16] } s t)

/-- R206 (CS too, decision D33), R221, R222 (decision D35), the loads of a segment register; R213, R214, the exchanges, which read
both operands before they write either. -/
def Obligations.SegmentRegisterLoadsAndExchanges : Prop :=
  ∀ (s : State) (r : RegNum) (e : Rm) (m : MemOp),
    (∀ sr, ∃ t, exec (.movSegRm sr e) s = .next t ∧ t.seg sr = s.readRm .word e ∧ t.ip = s.ip ∧
      OnlyChanges { segs := [sr] } s t) ∧
    (∃ t, exec (.lds r m) s = .next t ∧ t.reg r.r16 = s.readMem .word (s.effSeg m) (s.effAddr m) ∧
      t.seg .ds = s.readMem .word (s.effSeg m) (s.effAddr m + 2#16) ∧ t.ip = s.ip ∧
      OnlyChanges { regs := [r.r16], segs := [.ds] } s t) ∧
    (∃ t, exec (.les r m) s = .next t ∧ t.reg r.r16 = s.readMem .word (s.effSeg m) (s.effAddr m) ∧
      t.seg .es = s.readMem .word (s.effSeg m) (s.effAddr m + 2#16) ∧ t.ip = s.ip ∧
      OnlyChanges { regs := [r.r16], segs := [.es] } s t) ∧
    (∀ w, ∃ t, exec (.xchgRm w e r) s = .next t ∧ t.readPlace w (s.resolve e) = s.regW w r ∧
      t.regW w r = s.readRm w e ∧ t.ip = s.ip ∧
      OnlyChanges (Touched.add ((s.resolve e).touched w []) (touchedReg w r [])) s t) ∧
    (∃ t, exec (.xchgAx r) s = .next t ∧ t.reg .ax = s.reg r.r16 ∧ t.reg r.r16 = s.reg .ax ∧ t.ip = s.ip ∧
      OnlyChanges { regs := [.ax, r.r16] } s t)

/-- 20_memory R92 (decision D34), R208 (the value of SP before the push, decision D12), R211, R225, 47_post8086_ext R473, and
R490, R495 on a machine with the class x186: the pushes. -/
def Obligations.Pushes : Prop :=
  ∀ s : State,
    (∀ r, ∃ t, exec (.pushReg r) s = .next t ∧ PushesWord (s.reg r.r16) s t ∧ t.ip = s.ip) ∧
    (∀ e, ∃ t, exec (.pushRm e) s = .next t ∧ PushesWord (s.readRm .word e) s t ∧ t.ip = s.ip) ∧
    (∀ sr, ∃ t, exec (.pushSeg sr) s = .next t ∧ PushesWord (s.seg sr) s t ∧ t.ip = s.ip) ∧
    (∀ v, ∃ t, exec (.pushImm16 v) s = .next t ∧ PushesWord v s t ∧ t.ip = s.ip) ∧
    (∃ t, exec .pushf s = .next t ∧ PushesWord s.flags s t ∧ t.ip = s.ip) ∧
    (s.ext186 = .present →
      (∀ v, ∃ t, exec (.pushSimm8 v) s = .next t ∧ PushesWord (v.signExtend 16) s t ∧ t.ip = s.ip) ∧
      (∃ t, exec .pushFs s = .next t ∧ PushesWord (s.seg .fs) s t ∧ t.ip = s.ip) ∧
      (∃ t, exec .pushGs s = .next t ∧ PushesWord (s.seg .gs) s t ∧ t.ip = s.ip))

/-- 20_memory R93 (decision D34), R209 (POP SP ends with the popped word, decision D45), R210, R212, R226 (decision D2), and
47_post8086_ext R495 on a machine with the class x186: the pops. -/
def Obligations.Pops : Prop :=
  ∀ s : State,
    (∀ r, ∃ t, exec (.popReg r) s = .next t ∧ t.reg r.r16 = stackWord s 0#16 ∧ (r ≠ .n4 → t.reg .sp = s.reg .sp + 2#16) ∧
      t.ip = s.ip ∧ OnlyChanges { regs := [.sp, r.r16] } s t) ∧
    (∀ e, ∃ t, exec (.popRm e) s = .next t ∧ t.readPlace .word (s.resolve e) = stackWord s 0#16 ∧
      (e ≠ .reg .n4 → t.reg .sp = s.reg .sp + 2#16) ∧ t.ip = s.ip ∧
      OnlyChanges (Touched.add { regs := [.sp] } ((s.resolve e).touched .word [])) s t) ∧
    (∀ sr, ∃ t, exec (.popSeg sr) s = .next t ∧ t.seg sr = stackWord s 0#16 ∧ t.reg .sp = s.reg .sp + 2#16 ∧
      t.ip = s.ip ∧ OnlyChanges { regs := [.sp], segs := [sr] } s t) ∧
    (∃ t, exec .popf s = .next t ∧ t.flags = (stackWord s 0#16 &&& 0x0FD5#16) ||| 0x0002#16 ∧
      t.reg .sp = s.reg .sp + 2#16 ∧ t.ip = s.ip ∧ OnlyChanges { regs := [.sp] } s { t with flags := s.flags }) ∧
    (s.ext186 = .present →
      (∃ t, exec .popFs s = .next t ∧ t.seg .fs = stackWord s 0#16 ∧ t.reg .sp = s.reg .sp + 2#16 ∧
        t.ip = s.ip ∧ OnlyChanges { regs := [.sp], segs := [.fs] } s t) ∧
      (∃ t, exec .popGs s = .next t ∧ t.seg .gs = stackWord s 0#16 ∧ t.reg .sp = s.reg .sp + 2#16 ∧
        t.ip = s.ip ∧ OnlyChanges { regs := [.sp], segs := [.gs] } s t))

/-- 47_post8086_ext R470, R471 (93, G9): PUSHA stores the eight registers, the SP slot with the value before it; POPA loads seven
of them and skips the SP slot. -/
def Obligations.PushaAndPopa : Prop :=
  ∀ s : State,
    (∃ t, exec .pusha s = .next t ∧ t.reg .sp = s.reg .sp - 16#16 ∧
      (∀ k r, [Reg16.ax, .cx, .dx, .bx, .sp, .bp, .si, .di][k]? = some r →
        t.readMem .word (s.seg .ss) (s.reg .sp - BitVec.ofNat 16 (2 * (k + 1))) = s.reg r) ∧
      t.ip = s.ip ∧
      OnlyChanges { regs := [.sp], stored := pushedBytes s 8 } s t) ∧
    (∃ t, exec .popa s = .next t ∧ t.reg .di = stackWord s 0#16 ∧ t.reg .si = stackWord s 2#16 ∧
      t.reg .bp = stackWord s 4#16 ∧ t.reg .bx = stackWord s 8#16 ∧ t.reg .dx = stackWord s 10#16 ∧
      t.reg .cx = stackWord s 12#16 ∧ t.reg .ax = stackWord s 14#16 ∧ t.reg .sp = s.reg .sp + 16#16 ∧ t.ip = s.ip ∧
      OnlyChanges { regs := [.di, .si, .bp, .bx, .dx, .cx, .ax, .sp] } s t)

/-- 47_post8086_ext R474 (decision D41), R475: ENTER saves BP, sets the frame pointer to the slot it is saved in, copies the
display of the frame at BP below it (word by word where the old display lies outside the new bytes), and releases the locals;
LEAVE undoes it. -/
def Obligations.EnterAndLeave : Prop :=
  ∀ s : State,
    (∀ (size : Word) (level : Byte), let n := level.toNat % 32
      ∃ t, exec (.enter size level) s = .next t ∧ t.reg .bp = s.reg .sp - 2#16 ∧
      t.reg .sp = s.reg .sp - BitVec.ofNat 16 (2 * (n + 1)) - size ∧
      t.readMem .word (s.seg .ss) (s.reg .sp - 2#16) = s.reg .bp ∧
      (0 < n → t.readMem .word (s.seg .ss) (s.reg .sp - BitVec.ofNat 16 (2 * (n + 1))) = s.reg .sp - 2#16) ∧
      t.ip = s.ip ∧
      (∀ k, 1 ≤ k → k < n →
        (∀ b ∈ storedBytes .word (s.seg .ss) (s.reg .bp - BitVec.ofNat 16 (2 * k)), b ∉ pushedBytes s (n + 1)) →
        t.readMem .word (s.seg .ss) (s.reg .sp - BitVec.ofNat 16 (2 * (k + 1)))
          = s.readMem .word (s.seg .ss) (s.reg .bp - BitVec.ofNat 16 (2 * k))) ∧
      OnlyChanges { regs := [.bp, .sp], stored := pushedBytes s (n + 1) } s t) ∧
    (∃ t, exec .leave s = .next t ∧ t.reg .sp = s.reg .bp + 2#16 ∧
      t.reg .bp = s.readMem .word (s.seg .ss) (s.reg .bp) ∧ t.ip = s.ip ∧ OnlyChanges { regs := [.sp, .bp] } s t)

/-! ## Arithmetic (41_arithmetic; 93 G3, G4) -/

/-- R250, R251 with 10_state R52, R51, R50: the sum, its six flags, and nothing else. -/
def Obligations.AddAndAdc : Prop :=
  ∀ (f : AluForm) (s : State),
    let o := f.operands s
    let a := f.left s
    (∃ t, exec (.add f) s = .next t ∧ t.readPlace o.w o.dst = a + o.src ∧ AddFlags a o.src 0 t ∧
      ResultFlags (a + o.src) t ∧ t.ip = s.ip ∧ OnlyChanges (o.dst.touched o.w arithFlags) s t) ∧
    (let c := (s.flag .cf).toNat
     let r := BitVec.ofNat o.w.bits (a.toNat + o.src.toNat + c)
     ∃ t, exec (.adc f) s = .next t ∧ t.readPlace o.w o.dst = r ∧ AddFlags a o.src c t ∧ ResultFlags r t ∧ t.ip = s.ip ∧
      OnlyChanges (o.dst.touched o.w arithFlags) s t)

/-- R252, R253, R254 with 10_state R53, R51, R50: the difference, its six flags, and nothing else; CMP writes the flags only. -/
def Obligations.SubSbbAndCmp : Prop :=
  ∀ (f : AluForm) (s : State),
    let o := f.operands s
    let a := f.left s
    (∃ t, exec (.sub f) s = .next t ∧ t.readPlace o.w o.dst = a - o.src ∧ SubFlags a o.src 0 t ∧
      ResultFlags (a - o.src) t ∧ t.ip = s.ip ∧ OnlyChanges (o.dst.touched o.w arithFlags) s t) ∧
    (let c := (s.flag .cf).toNat
     let r := BitVec.ofInt o.w.bits (a.toNat - o.src.toNat - c)
     ∃ t, exec (.sbb f) s = .next t ∧ t.readPlace o.w o.dst = r ∧ SubFlags a o.src c t ∧ ResultFlags r t ∧ t.ip = s.ip ∧
      OnlyChanges (o.dst.touched o.w arithFlags) s t) ∧
    (∃ t, exec (.cmp f) s = .next t ∧ SubFlags a o.src 0 t ∧ ResultFlags (a - o.src) t ∧ t.ip = s.ip ∧
      OnlyChanges { flags := arithFlags } s t)

/-- R255, R256 ("INC/DEC preserve CF") and R257: the flags of INC, DEC and NEG as their rules spell them out. -/
def Obligations.IncDecAndNeg : Prop :=
  ∀ (s : State) (w : Width) (e : Rm) (r : RegNum),
    let a := s.readRm w e
    let x := s.reg r.r16
    let top := 2 ^ (w.bits - 1)
    (∃ t, exec (.incRm w e) s = .next t ∧ t.readPlace w (s.resolve e) = a + 1 ∧ ResultFlags (a + 1) t ∧
      t.flag .of = decide (a.toNat + 1 = top) ∧ t.flag .af = decide (a.toNat % 16 = 15) ∧ t.ip = s.ip ∧
      OnlyChanges ((s.resolve e).touched w flagsButCF) s t) ∧
    (∃ t, exec (.incReg r) s = .next t ∧ t.reg r.r16 = x + 1 ∧ ResultFlags (x + 1) t ∧
      t.flag .of = decide (x.toNat = 32767) ∧ t.flag .af = decide (x.toNat % 16 = 15) ∧ t.ip = s.ip ∧
      OnlyChanges { regs := [r.r16], flags := flagsButCF } s t) ∧
    (∃ t, exec (.decRm w e) s = .next t ∧ t.readPlace w (s.resolve e) = a - 1 ∧ ResultFlags (a - 1) t ∧
      t.flag .of = decide (a.toNat = top) ∧ t.flag .af = decide (a.toNat % 16 = 0) ∧ t.ip = s.ip ∧
      OnlyChanges ((s.resolve e).touched w flagsButCF) s t) ∧
    (∃ t, exec (.decReg r) s = .next t ∧ t.reg r.r16 = x - 1 ∧ ResultFlags (x - 1) t ∧
      t.flag .of = decide (x.toNat = 32768) ∧ t.flag .af = decide (x.toNat % 16 = 0) ∧ t.ip = s.ip ∧
      OnlyChanges { regs := [r.r16], flags := flagsButCF } s t) ∧
    (∃ t, exec (.neg w e) s = .next t ∧ t.readPlace w (s.resolve e) = -a ∧ ResultFlags (-a) t ∧
      t.flag .cf = decide (a.toNat ≠ 0) ∧ t.flag .of = decide (a.toNat = top) ∧ t.flag .af = decide (a.toNat % 16 ≠ 0) ∧
      t.ip = s.ip ∧ OnlyChanges ((s.resolve e).touched w arithFlags) s t)

/-- R258, R259 (decision D14), R282: the exact double-width product; CF and OF say that it does not fit in the single width; so does
47_post8086_ext R491 for the three-operand forms on a machine with the class x186 (decision D9), whose product is cut; the
other four flags are free (93, U2; log 2), so the statement says nothing of them. -/
def Obligations.MulAndImul : Prop :=
  ∀ (s : State) (e : Rm),
    (let p := (s.half .al).toNat * (s.readRm .byte e).toNat
     ∃ t, exec (.mul .byte e) s = .next t ∧ (t.reg .ax).toNat = p ∧ t.flag .cf = decide (256 ≤ p) ∧
      t.flag .of = decide (256 ≤ p) ∧ t.ip = s.ip ∧ OnlyChanges { regs := [.ax], flags := arithFlags } s t) ∧
    (let p := (s.reg .ax).toNat * (s.readRm .word e).toNat
     ∃ t, exec (.mul .word e) s = .next t ∧ (t.reg .dx).toNat * 65536 + (t.reg .ax).toNat = p ∧
      t.flag .cf = decide (65536 ≤ p) ∧ t.flag .of = decide (65536 ≤ p) ∧ t.ip = s.ip ∧
      OnlyChanges { regs := [.ax, .dx], flags := arithFlags } s t) ∧
    (let p := (s.half .al).toInt * (s.readRm .byte e).toInt
     ∃ t, exec (.imul .byte e) s = .next t ∧ (t.reg .ax).toInt = p ∧ (t.flag .cf = true ↔ SignedOverflow 8 p) ∧
      t.flag .of = t.flag .cf ∧ t.ip = s.ip ∧ OnlyChanges { regs := [.ax], flags := arithFlags } s t) ∧
    (let p := (s.reg .ax).toInt * (s.readRm .word e).toInt
     ∃ t, exec (.imul .word e) s = .next t ∧ (t.reg .dx ++ t.reg .ax).toInt = p ∧
      (t.flag .cf = true ↔ SignedOverflow 16 p) ∧ t.flag .of = t.flag .cf ∧ t.ip = s.ip ∧
      OnlyChanges { regs := [.ax, .dx], flags := arithFlags } s t) ∧
    (s.ext186 = .present → ∀ (r : RegNum) (v : Word),
      (let p := (s.readRm .word e).toInt * v.toInt
       ∃ t, exec (.imulImm16 r e v) s = .next t ∧ t.reg r.r16 = BitVec.ofInt 16 p ∧
        (t.flag .cf = true ↔ SignedOverflow 16 p) ∧ t.flag .of = t.flag .cf ∧ t.ip = s.ip ∧
        OnlyChanges { regs := [r.r16], flags := arithFlags } s t) ∧
      (∀ b : Byte, let p := (s.readRm .word e).toInt * b.toInt
       ∃ t, exec (.imulSimm8 r e b) s = .next t ∧ t.reg r.r16 = BitVec.ofInt 16 p ∧
        (t.flag .cf = true ↔ SignedOverflow 16 p) ∧ t.flag .of = t.flag .cf ∧ t.ip = s.ip ∧
        OnlyChanges { regs := [r.r16], flags := arithFlags } s t))

/-- R260, R261 (decision D13), R281: quotient and remainder when the divisor is not 0 and the quotient fits; the quotient of IDIV
is truncated toward zero and the remainder has the sign of the dividend; the six flags are free (93, U3; log 2). -/
def Obligations.DivAndIdiv : Prop :=
  ∀ (s : State) (e : Rm),
    (let n := (s.reg .ax).toNat
     let d := (s.readRm .byte e).toNat
     d ≠ 0 → n / d < 256 → ∃ t, exec (.div .byte e) s = .next t ∧ (t.half .al).toNat = n / d ∧ (t.half .ah).toNat = n % d ∧
      t.ip = s.ip ∧ OnlyChanges { regs := [.ax], flags := arithFlags } s t) ∧
    (let n := (s.reg .dx).toNat * 65536 + (s.reg .ax).toNat
     let d := (s.readRm .word e).toNat
     d ≠ 0 → n / d < 65536 → ∃ t, exec (.div .word e) s = .next t ∧ (t.reg .ax).toNat = n / d ∧ (t.reg .dx).toNat = n % d ∧
      t.ip = s.ip ∧ OnlyChanges { regs := [.ax, .dx], flags := arithFlags } s t) ∧
    (let n := (s.reg .ax).toInt
     let d := (s.readRm .byte e).toInt
     d ≠ 0 → ¬SignedOverflow 8 (n.tdiv d) → ∃ t, exec (.idiv .byte e) s = .next t ∧ (t.half .al).toInt = n.tdiv d ∧
      (t.half .ah).toInt = n.tmod d ∧ t.ip = s.ip ∧ OnlyChanges { regs := [.ax], flags := arithFlags } s t) ∧
    (let n := (s.reg .dx ++ s.reg .ax).toInt
     let d := (s.readRm .word e).toInt
     d ≠ 0 → ¬SignedOverflow 16 (n.tdiv d) → ∃ t, exec (.idiv .word e) s = .next t ∧ (t.reg .ax).toInt = n.tdiv d ∧
      (t.reg .dx).toInt = n.tmod d ∧ t.ip = s.ip ∧ OnlyChanges { regs := [.ax, .dx], flags := arithFlags } s t)

/-- 60_exceptions R602, R607, 41_arithmetic R260, R261, R274, 45_control_transfer R401, R402, 47_post8086_ext R472: what raises
vectors 0, 3, 4 and 5. Each is the interrupt of that vector in the state before any effect of the instruction, with the same IP
(R606, decision D4). INTO with OF clear and BOUND inside its inclusive limits change nothing. -/
def Obligations.TrapsEnterTheirVectors : Prop :=
  ∀ (s : State) (e : Rm),
    (let n := (s.reg .ax).toNat
     let d := (s.readRm .byte e).toNat
     (d = 0 ∨ 256 ≤ n / d) → exec (.div .byte e) s = exec (.int 0#8) s) ∧
    (let n := (s.reg .dx).toNat * 65536 + (s.reg .ax).toNat
     let d := (s.readRm .word e).toNat
     (d = 0 ∨ 65536 ≤ n / d) → exec (.div .word e) s = exec (.int 0#8) s) ∧
    (let n := (s.reg .ax).toInt
     let d := (s.readRm .byte e).toInt
     (d = 0 ∨ SignedOverflow 8 (n.tdiv d)) → exec (.idiv .byte e) s = exec (.int 0#8) s) ∧
    (let n := (s.reg .dx ++ s.reg .ax).toInt
     let d := (s.readRm .word e).toInt
     (d = 0 ∨ SignedOverflow 16 (n.tdiv d)) → exec (.idiv .word e) s = exec (.int 0#8) s) ∧
    exec (.aam 0#8) s = exec (.int 0#8) s ∧
    exec .int3 s = exec (.int 3#8) s ∧
    (s.flag .of = true → exec .into s = exec (.int 4#8) s) ∧
    (∀ r m, let i := (s.reg r.r16).toInt
      (i < (s.readMem .word (s.effSeg m) (s.effAddr m)).toInt ∨
        (s.readMem .word (s.effSeg m) (s.effAddr m + 2#16)).toInt < i) →
      exec (.bound r m) s = exec (.int 5#8) s) ∧
    (s.flag .of = false → exec .into s = .next s) ∧
    (∀ r m, (s.readMem .word (s.effSeg m) (s.effAddr m)).toInt ≤ (s.reg r.r16).toInt →
      (s.reg r.r16).toInt ≤ (s.readMem .word (s.effSeg m) (s.effAddr m + 2#16)).toInt → exec (.bound r m) s = .next s)

/-- R270, R271 (decision D31): DAA and DAS; OF is free (93, U4; log 2). -/
def Obligations.DecimalAdjusts : Prop :=
  ∀ s : State,
    let al := (s.half .al).toNat
    let low : Prop := 9 < al % 16 ∨ s.flag .af = true
    let high : Prop := 0x99 < al ∨ s.flag .cf = true
    (∃ t, exec .daa s = .next t ∧ ((t.half .al).toNat : Int) = (al + (if low then 6 else 0) + (if high then 0x60 else 0)) % 256 ∧
      (t.flag .cf = true ↔ high) ∧ (t.flag .af = true ↔ low) ∧ ResultFlags (t.half .al) t ∧ t.ip = s.ip ∧
      OnlyChanges { halves := [.al], flags := arithFlags } s t) ∧
    (∃ t, exec .das s = .next t ∧
      ((t.half .al).toNat : Int) = ((al : Int) - (if low then 6 else 0) - (if high then 0x60 else 0)) % 256 ∧
      (t.flag .cf = true ↔ high ∨ (low ∧ al < 6)) ∧ (t.flag .af = true ↔ low) ∧ ResultFlags (t.half .al) t ∧ t.ip = s.ip ∧
      OnlyChanges { halves := [.al], flags := arithFlags } s t)

/-- R272-R275 (decisions D30, D31): AAA, AAS, AAM with a base other than 0, AAD; the flags the rules call undefined are free. -/
def Obligations.AsciiAdjusts : Prop :=
  ∀ s : State,
    let al := (s.half .al).toNat
    let ah := (s.half .ah).toNat
    let adjust : Prop := 9 < al % 16 ∨ s.flag .af = true
    (∃ t, exec .aaa s = .next t ∧ (t.half .al).toNat = (al + (if adjust then 6 else 0)) % 16 ∧
      (t.half .ah).toNat = (ah + (if adjust then 1 else 0)) % 256 ∧ (t.flag .af = true ↔ adjust) ∧
      (t.flag .cf = true ↔ adjust) ∧ t.ip = s.ip ∧ OnlyChanges { regs := [.ax], flags := arithFlags } s t) ∧
    (∃ t, exec .aas s = .next t ∧ ((t.half .al).toNat : Int) = ((al : Int) - (if adjust then 6 else 0)) % 16 ∧
      ((t.half .ah).toNat : Int) = ((ah : Int) - (if adjust then 1 else 0)) % 256 ∧ (t.flag .af = true ↔ adjust) ∧
      (t.flag .cf = true ↔ adjust) ∧ t.ip = s.ip ∧ OnlyChanges { regs := [.ax], flags := arithFlags } s t) ∧
    (∀ b : Byte, b ≠ 0#8 → ∃ t, exec (.aam b) s = .next t ∧ (t.half .ah).toNat = al / b.toNat ∧
      (t.half .al).toNat = al % b.toNat ∧ ResultFlags (t.half .al) t ∧ t.ip = s.ip ∧
      OnlyChanges { regs := [.ax], flags := arithFlags } s t) ∧
    (∀ b : Byte, ∃ t, exec (.aad b) s = .next t ∧ (t.half .al).toNat = (al + ah * b.toNat) % 256 ∧ t.half .ah = 0#8 ∧
      ResultFlags (t.half .al) t ∧ t.ip = s.ip ∧ OnlyChanges { regs := [.ax], flags := arithFlags } s t)

/-! ## Logic, shifts (42_logic, 43_shift_rotate; 93 G3, G5) -/

/-- 10_state R54, 42_logic R300-R304: the bitwise result, CF = OF = 0, SF ZF PF from it; AF is free (93, U1; log 2). -/
def Obligations.LogicalOperations : Prop :=
  ∀ (s : State) (f : AluForm) (g : TestForm) (w : Width) (e : Rm),
    let o := f.operands s
    let a := f.left s
    let u := g.operands s
    let tested := s.readPlace u.w u.dst &&& u.src
    (∃ t, exec (.and f) s = .next t ∧ t.readPlace o.w o.dst = a &&& o.src ∧ ResultFlags (a &&& o.src) t ∧
      t.flag .cf = false ∧ t.flag .of = false ∧ t.ip = s.ip ∧ OnlyChanges (o.dst.touched o.w arithFlags) s t) ∧
    (∃ t, exec (.or f) s = .next t ∧ t.readPlace o.w o.dst = a ||| o.src ∧ ResultFlags (a ||| o.src) t ∧
      t.flag .cf = false ∧ t.flag .of = false ∧ t.ip = s.ip ∧ OnlyChanges (o.dst.touched o.w arithFlags) s t) ∧
    (∃ t, exec (.xor f) s = .next t ∧ t.readPlace o.w o.dst = a ^^^ o.src ∧ ResultFlags (a ^^^ o.src) t ∧
      t.flag .cf = false ∧ t.flag .of = false ∧ t.ip = s.ip ∧ OnlyChanges (o.dst.touched o.w arithFlags) s t) ∧
    (∃ t, exec (.test g) s = .next t ∧ ResultFlags tested t ∧ t.flag .cf = false ∧ t.flag .of = false ∧ t.ip = s.ip ∧
      OnlyChanges { flags := arithFlags } s t) ∧
    (∃ t, exec (.not w e) s = .next t ∧ t.readPlace w (s.resolve e) = ~~~(s.readRm w e) ∧ t.ip = s.ip ∧
      OnlyChanges ((s.resolve e).touched w []) s t)

/-- R320-R323 (decision D15): the shifts by a masked count n that is not 0, in closed form for counts beyond the width too; CF is
the last bit shifted out; OF is defined for a count of 1 only; AF is free (93, U5; log 2). A masked count of 0 changes
nothing at all, in a rotate neither (decision D39). -/
def Obligations.Shifts : Prop :=
  ∀ (f : ShiftForm) (s : State), f.available s →
    (shiftCount f s = 0 →
      exec (.rol f) s = .next s ∧ exec (.ror f) s = .next s ∧ exec (.rcl f) s = .next s ∧ exec (.rcr f) s = .next s ∧
      exec (.shl f) s = .next s ∧ exec (.shr f) s = .next s ∧ exec (.sal f) s = .next s ∧ exec (.sar f) s = .next s) ∧
    (shiftCount f s ≠ 0 →
    let n := shiftCount f s
    let x := f.args s
    let w := x.w.bits
    let a := s.readPlace x.w x.dst
    let Ends (i : Instr) (r : BitVec w) (cf of : Bool) : Prop :=
      ∃ t, exec i s = .next t ∧ t.readPlace x.w x.dst = r ∧ t.flag .cf = cf ∧ (n = 1 → t.flag .of = of) ∧ ResultFlags r t ∧
        t.ip = s.ip ∧ OnlyChanges (x.dst.touched x.w arithFlags) s t
    let left := BitVec.ofNat w (a.toNat * 2 ^ n)
    let leftCarry := decide (n ≤ w) && a.getLsbD (w - n)
    Ends (.shl f) left leftCarry (leftCarry ^^ left.getLsbD (w - 1)) ∧
    Ends (.sal f) left leftCarry (leftCarry ^^ left.getLsbD (w - 1)) ∧
    Ends (.shr f) (BitVec.ofNat w (a.toNat / 2 ^ n)) (a.getLsbD (n - 1)) (a.getLsbD (w - 1)) ∧
    Ends (.sar f) (a.sshiftRight n) (a.getLsbD (min n w - 1)) false)

/-- R320, R324-R327 (decisions D15, D32): the rotates by a masked count n that is not 0, as rotations of w bits or, through CF, of
w + 1 bits; OF for a count of 1 is CF XOR the new top bit; SF, ZF, PF and AF keep their values. -/
def Obligations.Rotates : Prop :=
  ∀ (f : ShiftForm) (s : State), f.available s → shiftCount f s ≠ 0 →
    let n := shiftCount f s
    let x := f.args s
    let w := x.w.bits
    let a := s.readPlace x.w x.dst
    let Ends (i : Instr) (cf : Bool) (r : BitVec w) : Prop :=
      ∃ t, exec i s = .next t ∧ t.readPlace x.w x.dst = r ∧ t.flag .cf = cf ∧
        (n = 1 → t.flag .of = (cf ^^ r.getLsbD (w - 1))) ∧ t.ip = s.ip ∧ OnlyChanges (x.dst.touched x.w [.cf, .of]) s t
    Ends (.rol f) ((a.rotateLeft n).getLsbD 0) (a.rotateLeft n) ∧
    Ends (.ror f) ((a.rotateRight n).getLsbD (w - 1)) (a.rotateRight n) ∧
    (∃ cf r, BitVec.cons cf r = (BitVec.cons (s.flag .cf) a).rotateLeft n ∧ Ends (.rcl f) cf r) ∧
    (∃ cf r, BitVec.cons cf r = (BitVec.cons (s.flag .cf) a).rotateRight n ∧ Ends (.rcr f) cf r)

/-! ## Strings (44_string, 47_post8086_ext; 93 G6) -/

/-- R350-R355, R360: one iteration of MOVS, STOS and LODS without a repeat prefix, and of INS and OUTS
(47_post8086_ext R493, R494, decision D9) on a machine with the class x186; that the port access of INS and OUTS changes neither
the key buffer nor the translator is the model's choice (log 7). -/
def Obligations.StringMoves : Prop :=
  ∀ (s : State) (w : Width), s.rep = none →
    let src := s.readMem w (s.seg (s.segov.getD .ds)) (s.reg .si)
    let pick (b v : Instr) : Instr := match w with | .byte => b | .word => v
    (∃ t, exec (pick .movsb .movsw) s = .next t ∧ t.readMem w (s.seg .es) (s.reg .di) = src ∧
      t.reg .si = s.reg .si + strideOf w s ∧ t.reg .di = s.reg .di + strideOf w s ∧ t.ip = s.ip ∧
      OnlyChanges { regs := [.si, .di], stored := storedBytes w (s.seg .es) (s.reg .di) } s t) ∧
    (∃ t, exec (pick .stosb .stosw) s = .next t ∧ t.readMem w (s.seg .es) (s.reg .di) = s.regW w .n0 ∧
      t.reg .di = s.reg .di + strideOf w s ∧ t.ip = s.ip ∧
      OnlyChanges { regs := [.di], stored := storedBytes w (s.seg .es) (s.reg .di) } s t) ∧
    (∃ t, exec (pick .lodsb .lodsw) s = .next t ∧ t.regW w .n0 = src ∧ t.reg .si = s.reg .si + strideOf w s ∧ t.ip = s.ip ∧
      OnlyChanges (Touched.add { regs := [.si] } (touchedReg w .n0 [])) s t) ∧
    (s.ext186 = .present →
      (∃ t, exec (pick .insb .insw) s = .next t ∧
        t.readMem w (s.seg .es) (s.reg .di) = (s.portRead w (s.reg .dx)).1 ∧
        t.portLog = (s.portRead w (s.reg .dx)).2.portLog ∧ t.reg .di = s.reg .di + strideOf w s ∧ t.ip = s.ip ∧
        OnlyChanges { regs := [.di], stored := storedBytes w (s.seg .es) (s.reg .di) } s { t with portLog := s.portLog }) ∧
      (∃ t, exec (pick .outsb .outsw) s = .next t ∧ t.portLog = (s.portWrite w (s.reg .dx) src).portLog ∧
        t.reg .si = s.reg .si + strideOf w s ∧ t.ip = s.ip ∧
        OnlyChanges { regs := [.si] } s { t with portLog := s.portLog }))

/-- R353, R356, R360: one iteration of CMPS (source minus destination) and SCAS (accumulator minus memory). -/
def Obligations.StringCompares : Prop :=
  ∀ (s : State) (w : Width), s.rep = none →
    let src := s.readMem w (s.seg (s.segov.getD .ds)) (s.reg .si)
    let dst := s.readMem w (s.seg .es) (s.reg .di)
    let acc := s.regW w .n0
    let pick (b v : Instr) : Instr := match w with | .byte => b | .word => v
    (∃ t, exec (pick .cmpsb .cmpsw) s = .next t ∧ SubFlags src dst 0 t ∧ ResultFlags (src - dst) t ∧
      t.reg .si = s.reg .si + strideOf w s ∧ t.reg .di = s.reg .di + strideOf w s ∧ t.ip = s.ip ∧
      OnlyChanges { regs := [.si, .di], flags := arithFlags } s t) ∧
    (∃ t, exec (pick .scasb .scasw) s = .next t ∧ SubFlags acc dst 0 t ∧ ResultFlags (acc - dst) t ∧
      t.reg .di = s.reg .di + strideOf w s ∧ t.ip = s.ip ∧ OnlyChanges { regs := [.di], flags := arithFlags } s t)

/-- 44_string R360, D0's property 4: after a repeated MOVS, STOS or LODS (INS, OUTS) CX is 0 and the index registers have moved by
the initial CX times the stride; no flag changes. A repeated STOSB with DF = 0 fills exactly the CX bytes from ES:DI with AL (D0's S4). -/
def Obligations.RepeatedMovesRunToZero : Prop :=
  ∀ (s : State) (r : Rep) (w : Width), s.rep = some r →
    let pick (b v : Instr) : Instr := match w with | .byte => b | .word => v
    let far := s.reg .cx * strideOf w s
    let Ends (i : Instr) (movesSi movesDi : Bool) : Prop :=
      ∃ t, exec i s = .next t ∧ t.reg .cx = 0#16 ∧ t.reg .si = (if movesSi then s.reg .si + far else s.reg .si) ∧
        t.reg .di = (if movesDi then s.reg .di + far else s.reg .di) ∧ t.flags = s.flags ∧ t.segs = s.segs ∧ t.ip = s.ip
    Ends (pick .movsb .movsw) true true ∧ Ends (pick .stosb .stosw) false true ∧ Ends (pick .lodsb .lodsw) true false ∧
    (s.ext186 = .present → Ends (pick .insb .insw) false true ∧ Ends (pick .outsb .outsw) true false) ∧
    (s.flag .df = false → ∃ t, exec .stosb s = .next t ∧
      (∀ k < (s.reg .cx).toNat, t.memRead8 (phys (s.seg .es) (s.reg .di + BitVec.ofNat 16 k)) = s.half .al) ∧
      OnlyChanges { regs := [.cx, .di], stored := (List.range (s.reg .cx).toNat).map fun k => phys (s.seg .es) (s.reg .di + BitVec.ofNat 16 k) } s t)

/-- 44_string R360, D0's property 9: with a repeat prefix and CX = 0 nothing is read, written or moved; with CX not 0 it is one
iteration, CX one lower, and then, unless the ZF test of CMPS and SCAS stops it ("`rep`/`repe` stops when ZF=0; `repne` stops
when ZF=1"), the same instruction again. -/
def Obligations.RepeatUnfolds : Prop :=
  ∀ (s : State) (r : Rep) (i : Instr), s.rep = some r →
    let unconditional := i ∈ [Instr.movsb, .movsw, .stosb, .stosw, .lodsb, .lodsw] ∨
      (s.ext186 = .present ∧ i ∈ [Instr.insb, .insw, .outsb, .outsw])
    let compares := i ∈ [Instr.cmpsb, .cmpsw, .scasb, .scasw]
    (s.reg .cx = 0#16 → unconditional ∨ compares → exec i s = .next s) ∧
    (∀ once : State, s.reg .cx ≠ 0#16 → exec i { s with rep := none } = .next once →
      let u : State := { once with rep := some r, regs := { once.regs with cx := s.reg .cx - 1#16 } }
      (unconditional → exec i s = exec i u) ∧
      (compares →
        exec i s = if (r = .repe ∧ u.flag .zf = false) ∨ (r = .repne ∧ u.flag .zf = true) then .next u else exec i u))

/-! ## Control transfer (45_control_transfer, 47_post8086_ext; 93 G7) -/

/-- R380, R381 (decision D35): jumps change IP, and the far ones CS, and nothing else. -/
def Obligations.Jumps : Prop :=
  ∀ (s : State) (e : Rm) (m : MemOp) (d : Byte) (off seg : Word),
    exec (.jmpShort d) s = .next { s with ip := s.ip + d.signExtend 16 } ∧
    exec (.jmpNear off) s = .next { s with ip := s.ip + off } ∧
    exec (.jmpRm e) s = .next { s with ip := s.readRm .word e } ∧
    exec (.jmpFar off seg) s = .next { s with ip := off, segs := { s.segs with cs := seg } } ∧
    (let far := { s.segs with cs := s.readMem .word (s.effSeg m) (s.effAddr m + 2#16) }
     exec (.jmpFarMem m) s = .next { s with ip := s.readMem .word (s.effSeg m) (s.effAddr m), segs := far })

/-- R390, 47_post8086_ext R476: the sixteen conditions, each with both displacement forms, and JCXZ (R394); no flag and no other
state changes, taken or not. -/
def Obligations.ConditionalJumps : Prop :=
  ∀ (s : State) (d : CondDisp) (d8 : Byte),
    let go (c : Prop) [Decidable c] : Outcome :=
      .next (if c then { s with ip := s.ip + (match d with | .rel8 b => b.signExtend 16 | .rel16 v => v) } else s)
    let f (x : Flag) : Bool := s.flag x
    exec (.jo d) s = go (f .of = true) ∧ exec (.jno d) s = go (f .of = false) ∧
    exec (.jb d) s = go (f .cf = true) ∧ exec (.jae d) s = go (f .cf = false) ∧
    exec (.je d) s = go (f .zf = true) ∧ exec (.jne d) s = go (f .zf = false) ∧
    exec (.jbe d) s = go (f .cf = true ∨ f .zf = true) ∧ exec (.ja d) s = go (f .cf = false ∧ f .zf = false) ∧
    exec (.js d) s = go (f .sf = true) ∧ exec (.jns d) s = go (f .sf = false) ∧
    exec (.jp d) s = go (f .pf = true) ∧ exec (.jnp d) s = go (f .pf = false) ∧
    exec (.jl d) s = go (f .sf ≠ f .of) ∧ exec (.jge d) s = go (f .sf = f .of) ∧
    exec (.jle d) s = go (f .zf = true ∨ f .sf ≠ f .of) ∧ exec (.jg d) s = go (f .zf = false ∧ f .sf = f .of) ∧
    exec (.jcxz d8) s = .next (if s.reg .cx = 0#16 then { s with ip := s.ip + d8.signExtend 16 } else s)

/-- R391-R393: CX one lower, modulo 2^16 and without a flag; the jump when it is not 0 and the ZF test holds. -/
def Obligations.Loops : Prop :=
  ∀ (s : State) (d : Byte),
    let Ends (i : Instr) (taken : Prop) : Prop :=
      ∃ t, exec i s = .next t ∧ ((t.reg .cx).toNat : Int) = ((s.reg .cx).toNat - 1) % 65536 ∧
        (taken → t.ip = s.ip + d.signExtend 16) ∧ (¬taken → t.ip = s.ip) ∧ OnlyChanges { regs := [.cx] } s t
    Ends (.loop d) (s.reg .cx ≠ 1#16) ∧ Ends (.loope d) (s.reg .cx ≠ 1#16 ∧ s.flag .zf = true) ∧
    Ends (.loopne d) (s.reg .cx ≠ 1#16 ∧ s.flag .zf = false)

/-- R382-R384: the return address is the IP after the instruction, under CS for a far call; targets are read before the push. -/
def Obligations.Calls : Prop :=
  ∀ s : State,
    (∀ d, ∃ t, exec (.callNear d) s = .next t ∧ PushesWord s.ip s t ∧ t.ip = s.ip + d) ∧
    (∀ e, ∃ t, exec (.callRm e) s = .next t ∧ PushesWord s.ip s t ∧ t.ip = s.readRm .word e) ∧
    (let Far (i : Instr) (seg off : Word) : Prop :=
      ∃ t, exec i s = .next t ∧ t.reg .sp = s.reg .sp - 4#16 ∧
        t.readMem .word (s.seg .ss) (s.reg .sp - 2#16) = s.seg .cs ∧
        t.readMem .word (s.seg .ss) (s.reg .sp - 4#16) = s.ip ∧ t.seg .cs = seg ∧ t.ip = off ∧
        OnlyChanges { regs := [.sp], segs := [.cs], stored := pushedBytes s 2 } s t
     (∀ off seg, Far (.callFar off seg) seg off) ∧
     (∀ m, Far (.callFarMem m) (s.readMem .word (s.effSeg m) (s.effAddr m + 2#16))
       (s.readMem .word (s.effSeg m) (s.effAddr m))))

/-- R385-R388: the returns read IP, and CS above it for the far ones, from the stack, and release the words and n more bytes. -/
def Obligations.Returns : Prop :=
  ∀ (s : State) (n : Word),
    (∃ t, exec .ret s = .next t ∧ t.ip = stackWord s 0#16 ∧ t.reg .sp = s.reg .sp + 2#16 ∧ OnlyChanges { regs := [.sp] } s t) ∧
    (∃ t, exec (.retImm n) s = .next t ∧ t.ip = stackWord s 0#16 ∧ t.reg .sp = s.reg .sp + 2#16 + n ∧
      OnlyChanges { regs := [.sp] } s t) ∧
    (∃ t, exec .retf s = .next t ∧ t.ip = stackWord s 0#16 ∧ t.seg .cs = stackWord s 2#16 ∧
      t.reg .sp = s.reg .sp + 4#16 ∧ OnlyChanges { regs := [.sp], segs := [.cs] } s t) ∧
    (∃ t, exec (.retfImm n) s = .next t ∧ t.ip = stackWord s 0#16 ∧ t.seg .cs = stackWord s 2#16 ∧
      t.reg .sp = s.reg .sp + 4#16 + n ∧ OnlyChanges { regs := [.sp], segs := [.cs] } s t)

/-! ## Interrupts (60_exceptions) -/

/-- R601, R604 (decision D35), R606: INT n, INT3 and INTO with OF set, when no handler is registered for the vector: the frame
FLAGS, CS, IP; IF and TF cleared; CS:IP from physical 4n and 4n + 2, read after the pushes; nothing else. -/
def Obligations.InterruptsEnterThroughTheVectorTable : Prop :=
  ∀ s : State,
    let Enters (i : Instr) (n : Byte) : Prop :=
      ∃ t, exec i s = .next t ∧ FrameStands s t ∧ t.reg .sp = s.reg .sp - 6#16 ∧ t.flag .if_ = false ∧ t.flag .tf = false ∧
        t.ip = t.memRead16 (BitVec.ofNat 20 (4 * n.toNat)) ∧ t.seg .cs = t.memRead16 (BitVec.ofNat 20 (4 * n.toNat + 2)) ∧
        OnlyChanges { regs := [.sp], segs := [.cs], flags := [.if_, .tf], stored := pushedBytes s 3 } s t
    (∀ n, lookupHandler s.handlers n = none → Enters (.int n) n) ∧
    (lookupHandler s.handlers 3#8 = none → Enters .int3 3#8) ∧
    (lookupHandler s.handlers 4#8 = none → s.flag .of = true → Enters .into 4#8)

/-- 60_exceptions R621, D0's S6: a terminating service halts with reason program-exit; SP, CS, IP and every register are as before,
IF and TF stay cleared, and the frame words stay in memory below SP. R614, R622, D0's property 8: a blocking key read on an empty
buffer rewinds IP by two bytes and halts with reason key-wait. R603, R612, R613 (decision D5, log 5): whatever a registered
handler does, the step goes on and SP is as before: the three frame words are discarded. The last clause, that a blocking key read
with a key in the buffer takes the oldest one into AX and removes it, is the model's choice (DEDUCED, log 6), no rule of the
spec. -/
def Obligations.RegisteredHandlers : Prop :=
  ∀ (s : State) (n : Byte),
    (∀ h, lookupHandler s.handlers n = some h → ∃ t, exec (.int n) s = .next t ∧ t.reg .sp = s.reg .sp) ∧
    (lookupHandler s.handlers n = some .programExit ∨ (lookupHandler s.handlers n = some .dos ∧ s.half .ah = 0x4C#8) →
      ∃ t, exec (.int n) s = .next t ∧ t.halted = true ∧ t.haltReason = .programExit ∧ FrameStands s t ∧
        t.flag .if_ = false ∧ t.flag .tf = false ∧ t.ip = s.ip ∧
        OnlyChanges { flags := [.if_, .tf], stored := pushedBytes s 3 } s
          { t with halted := s.halted, haltReason := s.haltReason }) ∧
    (lookupHandler s.handlers n = some .keyboard → (s.half .ah = 0x00#8 ∨ s.half .ah = 0x10#8) →
      (s.keyBuffer = [] → ∃ t, exec (.int n) s = .next t ∧ t.halted = true ∧ t.haltReason = .keyWait ∧ t.ip = s.ip - 2#16 ∧
        t.flag .if_ = false ∧ t.flag .tf = false ∧
        OnlyChanges { flags := [.if_, .tf], stored := pushedBytes s 3 } s
          { t with halted := s.halted, haltReason := s.haltReason }) ∧
      (∀ k ks, s.keyBuffer = k :: ks → ∃ t, exec (.int n) s = .next t ∧ t.reg .ax = k ∧ t.keyBuffer = ks ∧ t.ip = s.ip ∧
        t.flag .if_ = false ∧ t.flag .tf = false ∧
        OnlyChanges { regs := [.ax], flags := [.if_, .tf], stored := pushedBytes s 3 } s { t with keyBuffer := s.keyBuffer }))

/-- 45_control_transfer R403, 60_exceptions R605: IRET pops IP, CS and FLAGS, the reserved bits at their defined values. -/
def Obligations.IretPopsTheFrame : Prop :=
  ∀ s : State, ∃ t, exec .iret s = .next t ∧ t.ip = stackWord s 0#16 ∧ t.seg .cs = stackWord s 2#16 ∧
    t.flags = (stackWord s 4#16 &&& 0x0FD5#16) ||| 0x0002#16 ∧ t.reg .sp = s.reg .sp + 6#16 ∧
    OnlyChanges { regs := [.sp], segs := [.cs] } s { t with flags := s.flags }

/-- 45_control_transfer R403, 60_exceptions R601, R604, R605, D0's property 7: IRET right after PUSHF; PUSH CS; PUSH imm continues
at CS:imm with the FLAGS and SP from before; an interrupt through the vector table and the handler's IRET, with nothing in
between, resume after the interrupting instruction with every register and the FLAGS, IF and TF included, from before. -/
def Obligations.IretUndoesAFrame : Prop :=
  ∀ (s : State), flagsNormal s.flags = true →
    (∀ (a b c : State) (v : Word),
      exec .pushf s = .next a → exec (.pushSeg .cs) a = .next b → exec (.pushImm16 v) b = .next c →
      ∃ d, exec .iret c = .next d ∧ d.ip = v ∧ d.segs = s.segs ∧ d.flags = s.flags ∧ d.regs = s.regs) ∧
    (∀ (t : State) (n : Byte), lookupHandler s.handlers n = none → exec (.int n) s = .next t →
      ∃ u, exec .iret t = .next u ∧ u.ip = s.ip ∧ u.segs = s.segs ∧ u.flags = s.flags ∧ u.regs = s.regs)

/-! ## Ports and processor control (46_io_processor_control; 93 G8) -/

/-- 46_io_processor_control R431, R432 (decision D17), R433 (decision D16), R434, R435: IN reads the low byte at p, then for the
word form the high byte at p + 1 modulo 2^16; a registered port is read exactly once and its byte is free (log 7: the statement
holds for every one), any other port reads 0xFF. OUT performs its writes in order on the registered ports. That an access changes
neither the key buffer nor the translator is the model's choice (log 7), no rule of the spec. -/
def Obligations.PortInstructions : Prop :=
  ∀ (s : State) (p : Word) (read write : Width → Instr),
    ((∃ port : Byte, p = port.setWidth 16 ∧ read = (fun w => .inImm w port) ∧ write = fun w => .outImm w port) ∨
      (p = s.reg .dx ∧ read = .inDx ∧ write = .outDx)) →
    (∃ t, exec (read .byte) s = .next t ∧ t.half .al = portValue s s.draws p ∧
      t.portLog = s.portLog ++ portReads s s.draws p ∧ t.ip = s.ip ∧
      OnlyChanges { halves := [.al] } s { t with portLog := s.portLog }) ∧
    (let k := if p ∈ s.ports then s.draws + 1 else s.draws
     ∃ t, exec (read .word) s = .next t ∧ t.half .al = portValue s s.draws p ∧ t.half .ah = portValue s k (p + 1#16) ∧
      t.portLog = s.portLog ++ portReads s s.draws p ++ portReads s k (p + 1#16) ∧ t.ip = s.ip ∧
      OnlyChanges { regs := [.ax] } s { t with portLog := s.portLog }) ∧
    exec (write .byte) s = .next { s with portLog := s.portLog ++ portWrites s p (s.half .al) } ∧
    exec (write .word) s
      = .next { s with portLog := s.portLog ++ portWrites s p (s.half .al) ++ portWrites s (p + 1#16) (s.half .ah) }

/-- R436-R442: each flag instruction writes its flag and nothing else; SAHF writes five flags (40_data_transfer R224), the reserved
bits being as 10_state R46 says. -/
def Obligations.FlagInstructions : Prop :=
  ∀ s : State,
    let Sets (i : Instr) (f : Flag) (v : Bool) : Prop :=
      ∃ t, exec i s = .next t ∧ t.flag f = v ∧ t.ip = s.ip ∧ OnlyChanges { flags := [f] } s t
    Sets .clc .cf false ∧ Sets .stc .cf true ∧ Sets .cmc .cf (!s.flag .cf) ∧ Sets .cld .df false ∧ Sets .std .df true ∧
    Sets .cli .if_ false ∧ Sets .sti .if_ true ∧
    (flagsNormal s.flags = true → ∃ t, exec .sahf s = .next t ∧
      t.flag .sf = (s.half .ah).getLsbD 7 ∧ t.flag .zf = (s.half .ah).getLsbD 6 ∧ t.flag .af = (s.half .ah).getLsbD 4 ∧
      t.flag .pf = (s.half .ah).getLsbD 2 ∧ t.flag .cf = (s.half .ah).getLsbD 0 ∧ t.ip = s.ip ∧
      OnlyChanges { flags := [.sf, .zf, .af, .pf, .cf] } s t)

/-- R443, R445-R448, 30_encoding R123, R126, R155, R157: HLT halts; NOP, WAIT and LOCK do nothing; ESC and the unknown opcodes
leave one TRACE record with the opcode bytes and the CS:IP they were fetched from; a prefix sets its field. -/
def Obligations.ProcessorControl : Prop :=
  ∀ s : State,
    exec .hlt s = .next { s with halted := true, haltReason := .hlt } ∧
    exec .nop s = .next s ∧ exec .wait s = .next s ∧ exec .lock s = .next s ∧
    (∀ op reg e, exec (.esc op reg e) s = .next { s with trace := s.trace
      ++ [⟨[0xD8#8 + op.bits.setWidth 8], s.seg .cs, s.ip - BitVec.ofNat 16 (encode (.esc op reg e)).length⟩] }) ∧
    (∀ op, exec (.unknown op) s = .next { s with trace := s.trace ++ [⟨[op], s.seg .cs, s.ip - 1#16⟩] }) ∧
    (∀ op, exec (.unknown0F op) s = .next { s with trace := s.trace ++ [⟨[0x0F#8, op], s.seg .cs, s.ip - 2#16⟩] }) ∧
    exec .segES s = .next { s with segov := some .es } ∧ exec .segCS s = .next { s with segov := some .cs } ∧
    exec .segSS s = .next { s with segov := some .ss } ∧ exec .segDS s = .next { s with segov := some .ds } ∧
    exec .segFS s = .next { s with segov := some .fs } ∧ exec .segGS s = .next { s with segov := some .gs } ∧
    exec .repne s = .next { s with rep := some .repne } ∧ exec .rep s = .next { s with rep := some .repe }

/-- 30_encoding R159 (decision D11, log 12) and R160 (decision D9, log 3): reserved encodings are refused in every state; an
instruction of the class x186 (of the shifts and rotates the form by an immediate) is refused when EXT186 is `refuse`, goes on when
it is `present`, and is no well-formed instruction when it is `absent`: there its bytes begin with an unknown opcode of the list of
R160, one byte or two, the bytes after it are decoded as new instructions, and the unknown opcode runs. -/
def Obligations.RefusedEncodings : Prop :=
  (∀ (op m : Byte) (s : State), exec (.reserved op m) s = .refused .reservedEncoding) ∧
  (∀ (i : Instr) (s : State), i.isX186 = true → s.ext186 = .refuse → exec i s = .refused .ext186NotPresent) ∧
  (∀ (i : Instr) (s : State), i.isX186 = true → s.ext186 = .present → ∃ t, exec i s = .next t) ∧
  (∀ (i : Instr) (rest : List Byte), i.isX186 = true → i.wf .absent = false ∧
    ((∃ b ∈ [0x6A#8, 0x69#8, 0x6B#8, 0x6C#8, 0x6D#8, 0x6E#8, 0x6F#8, 0xC0#8, 0xC1#8], ∃ bs,
        encode i = b :: bs ∧ decode .absent (encode i ++ rest) = .ok (.unknown b, bs ++ rest)) ∨
      (∃ b ∈ [0xA0#8, 0xA1#8, 0xA8#8, 0xA9#8], ∃ bs,
        encode i = 0x0F#8 :: b :: bs ∧ decode .absent (encode i ++ rest) = .ok (.unknown0F b, bs ++ rest)))) ∧
  (∀ (b : Byte) (s : State), (∃ t, exec (.unknown b) s = .next t) ∧ ∃ t, exec (.unknown0F b) s = .next t)

/-- R665-R667: a COM program starts at CS:0100 with CS = DS = ES = SS the PSP segment, SP = FFFE and a zero word on the stack, the
PSP's bytes as listed and the image after them; the other registers are as after reset (log 16 names the arguments). -/
def Obligations.ComLaunchState : Prop :=
  ∀ (s : State) (psp top env : Word) (tail image : List Byte), tail.length ≤ 126 → image.length ≤ 0xFEFE →
    let t := s.launchCom psp top env tail image
    let byteAt (off : Nat) : Byte := t.memRead8 (phys psp (BitVec.ofNat 16 off))
    t.ip = 0x0100#16 ∧ (∀ r, r ≠ .sp → t.reg r = 0#16) ∧ t.reg .sp = 0xFFFE#16 ∧
    (∀ r ∈ [SReg.cs, .ds, .es, .ss], t.seg r = psp) ∧ t.seg .fs = 0#16 ∧ t.seg .gs = 0#16 ∧
    t.flags = 0x0002#16 ∧ t.halted = false ∧ t.haltReason = .none ∧
    byteAt 0 = 0xCD#8 ∧ byteAt 1 = 0x20#8 ∧ t.readMem .word psp 0x0002#16 = top ∧ byteAt 5 = 0xCD#8 ∧ byteAt 6 = 0x21#8 ∧ byteAt 7 = 0xCB#8 ∧
    (∀ k < 5, byteAt (0x18 + k) = BitVec.ofNat 8 k) ∧ (∀ k, 5 ≤ k → k < 20 → byteAt (0x18 + k) = 0xFF#8) ∧
    t.readMem .word psp 0x002C#16 = env ∧ (byteAt 0x80).toNat = tail.length ∧
    (∀ k b, tail[k]? = some b → byteAt (0x81 + k) = b) ∧ byteAt (0x81 + tail.length) = 0x0D#8 ∧
    (∀ k b, image[k]? = some b → byteAt (0x100 + k) = b) ∧ t.readMem .word psp 0xFFFE#16 = 0#16

/-- 10_state R60, 30_encoding R121, 70_reset_and_hazards R671 (decision D24, log 14): while halted a step changes nothing at all;
Wake from key-wait changes nothing but the halt state, after which the step runs; from any other reason it is refused. -/
def Obligations.HaltedUntilWoken : Prop :=
  ∀ s : State,
    (s.halted = true → step s = .next s) ∧
    (s.haltReason = .keyWait → s.wake = .next { s with halted := false, haltReason := .none }) ∧
    (s.haltReason ≠ .keyWait → s.wake = .refused .wakeNotAllowed)

/-! ## The FAT12 translator (48_fat12_translator) -/

/-- 48_fat12_translator R523, R524, R525: a read answers the cached sector, else the stored one, else zeros (also for a malformed
stored value and a failing `get`, 93_implementation_defined U23), and caches it; a written sector is cached and dirty and reaches
the store only by a flush; a flush puts every dirty sector, a failing `put` being dropped and the sector kept in the cache (U24),
and empties the dirty set. The state stays well-formed (R521). That the store fails by the sector is the model's choice (log 30). -/
def Obligations.SectorCache : Prop :=
  ∀ (f : FatState) (n : Nat) (b : Sector), f.wf = true → n < 2880 → b.length = 512 →
    let read := f.readSector n
    let written := f.writeSector n b
    let zeros : Sector := List.replicate 512 0#8
    let stored := if n ∈ f.failsGet then zeros
      else match f.store.get n with | some v => if v.length = 512 then v else zeros | none => zeros
    read.1 = (f.cache.get n).getD stored ∧
    read.2.cache.get n = some read.1 ∧ (∀ m, m ≠ n → read.2.cache.get m = f.cache.get m) ∧
    read.2.store = f.store ∧ read.2.dirty = f.dirty ∧
    written.cache.get n = some b ∧ (∀ m, m ≠ n → written.cache.get m = f.cache.get m) ∧ (written.readSector n).1 = b ∧
    written.store = f.store ∧ (∀ m, m ∈ written.dirty ↔ m = n ∨ m ∈ f.dirty) ∧
    f.flush.dirty = [] ∧ f.flush.cache = f.cache ∧
    (∀ m, m ∈ f.dirty → m ∉ f.failsPut → f.flush.store.get m = f.cache.get m) ∧
    (∀ m, m ∉ f.dirty ∨ m ∈ f.failsPut → f.flush.store.get m = f.store.get m) ∧
    (∀ g ∈ [read.2, written, f.flush], g.failsGet = f.failsGet ∧ g.failsPut = f.failsPut) ∧
    read.2.wf = true ∧ written.wf = true ∧ f.flush.wf = true

/-- 48_fat12_translator R542: writing a FAT entry sets that entry and no other; both FATs receive the same two bytes, and no other
byte of either changes, so two identical FATs stay identical; the writes go through WriteSector. -/
def Obligations.FatEntryWrites : Prop :=
  ∀ (f : FatState) (c : Nat) (v : BitVec 12), f.wf = true → c < 3072 →
    let g := f.fatSet c v
    let o := c + c / 2
    (g.fatGet c).1 = v ∧ (∀ d, d < 3072 → d ≠ c → (g.fatGet d).1 = (f.fatGet d).1) ∧
    (g.fatByte 10 o).1 = (g.fatByte 1 o).1 ∧ (g.fatByte 10 (o + 1)).1 = (g.fatByte 1 (o + 1)).1 ∧
    (∀ k, k < 4608 → k ≠ o → k ≠ o + 1 →
      (g.fatByte 1 k).1 = (f.fatByte 1 k).1 ∧ (g.fatByte 10 k).1 = (f.fatByte 10 k).1) ∧
    (∀ m, (m < 1 ∨ 19 ≤ m) → g.view m = f.view m) ∧ g.store = f.store ∧
    (∀ m, m ∈ g.dirty ↔ m ∈ f.dirty ∨ m ∈ [1 + o / 512, 1 + (o + 1) / 512, 10 + o / 512, 10 + (o + 1) / 512]) ∧ g.wf = true ∧ (f.fatsAgree → g.fatsAgree)

/-- 48_fat12_translator R544: Allocate returns the lowest-numbered free cluster from 2 to 2848, or fails when none is free, and
marks nothing: no sector reads differently after it, none is dirty that was not, and the store is as before. -/
def Obligations.AllocateFindsTheLowestFreeCluster : Prop :=
  ∀ f : FatState,
    (∀ c, f.allocate.1 = some c → 2 ≤ c ∧ c < 2849 ∧ (f.fatGet c).1 = 0#12 ∧ ∀ d, 2 ≤ d → d < c → (f.fatGet d).1 ≠ 0#12) ∧
    (f.allocate.1 = none → ∀ d, 2 ≤ d → d < 2849 → (f.fatGet d).1 ≠ 0#12) ∧
    (∀ m, f.allocate.2.view m = f.view m) ∧ f.allocate.2.dirty = f.dirty ∧ f.allocate.2.store = f.store

/-- 48_fat12_translator R550-R552, R554 (decision D26 for the broken ones): the chain of a first cluster other than 0 is whole
with the clusters `cs` exactly when `cs` begins at it, goes through valid clusters without repeating one, is joined by their FAT
entries, and ends at an entry of 0xFF8 or more; block k is then at sector 33 + (c - 2). A chain that is not whole is broken, and
is reported as not-found, by the translation, by FreeChain, and where it is a directory's. -/
def Obligations.ChainsFollowTheFat : Prop :=
  ∀ f : FatState, (f.chain 0).1 = .whole [] ∧ ∀ first : Nat,
    (∀ cs : List Nat, first ≠ 0 → ((f.chain first).1 = .whole cs ↔
      cs.head? = some first ∧ cs.Nodup ∧ (∀ c ∈ cs, 2 ≤ c ∧ c < 2849) ∧
      (∀ k a b, cs[k]? = some a → cs[k + 1]? = some b → (f.fatGet a).1.toNat = b) ∧
      (∀ a, cs.getLast? = some a → 0xFF8 ≤ (f.fatGet a).1.toNat))) ∧
    (∀ cs k, (f.chain first).1 = .whole cs →
      (f.physSector first k).1 = .ok ((cs[k]?).map fun c => 33 + (c - 2)) ∧ (f.freeChain first).1 = .ok ()) ∧
    (∀ k, (∀ cs, (f.chain first).1 ≠ .whole cs) →
      (f.physSector first k).1 = .error .notFound ∧ (f.freeChain first).1 = .error .notFound ∧
      (∀ c : Word, c.toNat = first → (f.subdirectory c).1 = .error .notFound))

/-- 48_fat12_translator R571 item 1, R572: whatever a mutating operation answers, when it ends no sector is dirty, the two FATs are
byte-identical if they were, and the store agrees with the cache if it did before, on every sector on which the store does not fail
(R522; 93_implementation_defined U23, U24: how the store fails is the model's choice, log 30). -/
def Obligations.MutationsFlushAndKeepTheFatsIdentical : Prop :=
  ∀ (f : FatState) (q : FatRequest), q.isMutating = true → f.wf = true →
    (f.serve q).wf = true ∧ (f.serve q).dirty = [] ∧ (f.fatsAgree → (f.serve q).fatsAgree) ∧
    (f.cacheAgrees → (f.serve q).cacheAgrees)
end

