-- ==== Sys2Proof/Laws/Encoding.lean ====
section
/-! SUPPORT. The fields of an encoded instruction: a ModR/M byte gives its fields back, an encoded operand is read back by each of
the operand readers, and every encoding begins as the opcode map says (30_encoding R130-R133, R138, R140). -/

namespace Sys2Proof

/-! ## Fields -/

theorem fields_modrmByte (mod : BitVec 2) (reg rm : RegNum) :
    modField (modrmByte mod reg rm) = mod.toNat ∧ regField (modrmByte mod reg rm) = reg ∧
    rmField (modrmByte mod reg rm) = rm := by
  revert mod; cases reg <;> cases rm <;> decide

theorem regField_modrmByte (mod : BitVec 2) (reg rm : RegNum) : regField (modrmByte mod reg rm) = reg :=
  (fields_modrmByte mod reg rm).2.1

theorem rmField_modrmByte (mod : BitVec 2) (reg rm : RegNum) : rmField (modrmByte mod reg rm) = rm :=
  (fields_modrmByte mod reg rm).2.2

theorem isRegisterForm_modrmByte (mod : BitVec 2) (reg rm : RegNum) :
    isRegisterForm (modrmByte mod reg rm) = (mod.toNat == 3) := by
  rw [isRegisterForm, (fields_modrmByte mod reg rm).1]

theorem Base.ofNum_num (b : Base) : Base.ofNum b.num = b := by cases b <;> rfl

theorem SReg.ofNum_num (r : SReg) : SReg.ofNum r.num = some r := by cases r <;> rfl

theorem bytes16_joined (v : Word) : v.extractLsb' 8 8 ++ v.extractLsb' 0 8 = v := by
  apply BitVec.eq_of_getLsbD_eq
  intro i hi
  rw [BitVec.getLsbD_append, BitVec.getLsbD_extractLsb', BitVec.getLsbD_extractLsb']
  split
  · simp_all
  · rw [show 8 + (i - 8) = i by omega]; simp; omega

/-! ## Readers -/

@[simp] theorem imm8_cons (b : Byte) (r : List Byte) (k : Byte → List Byte → DecodeResult) : imm8 (b :: r) k = k b r := rfl

@[simp] theorem imm16_bytes16 (v : Word) (r : List Byte) (k : Word → List Byte → DecodeResult) :
    imm16 (bytes16 v ++ r) k = k v r := by
  simp only [bytes16, imm16, List.cons_append, List.nil_append, imm8_cons, bytes16_joined]

/-- A memory operand's bytes begin with its ModR/M byte, from which the operand is read back. -/
theorem encodeMem_read (reg : RegNum) (m : MemOp) (hm : m.wf = true) :
    ∃ (b : Byte) (bs : List Byte), encodeMem reg m = b :: bs ∧ isRegisterForm b = false ∧ regField b = reg ∧
      ∀ (r : List Byte) (k : MemOp → List Byte → DecodeResult), memOperand b (bs ++ r) k = k m r := by
  cases m with
  | direct off =>
    refine ⟨_, _, rfl, isRegisterForm_modrmByte .., regField_modrmByte .., fun r k => ?_⟩
    simp only [memOperand, (fields_modrmByte _ _ _).1, rmField_modrmByte]
    exact imm16_bytes16 off r _
  | based b d =>
    cases d with
    | none =>
      refine ⟨_, _, rfl, isRegisterForm_modrmByte .., regField_modrmByte .., fun r k => ?_⟩
      simp only [memOperand, (fields_modrmByte _ _ _).1, rmField_modrmByte]
      cases b <;> first
        | rfl
        | cases hm
    | d8 d =>
      refine ⟨_, _, rfl, isRegisterForm_modrmByte .., regField_modrmByte .., fun r k => ?_⟩
      simp only [memOperand, (fields_modrmByte _ _ _).1, rmField_modrmByte]
      show k (.based (Base.ofNum b.num) (.d8 d)) r = _
      rw [Base.ofNum_num]
    | d16 d =>
      refine ⟨_, _, rfl, isRegisterForm_modrmByte .., regField_modrmByte .., fun r k => ?_⟩
      simp only [memOperand, (fields_modrmByte _ _ _).1, rmField_modrmByte]
      show imm16 (bytes16 d ++ r) (fun d r => k (.based (Base.ofNum b.num) (.d16 d)) r) = _
      rw [imm16_bytes16, Base.ofNum_num]

/-- The same of an operand that may be a register. -/
theorem encodeRm_read (reg : RegNum) (e : Rm) (he : e.wf = true) :
    ∃ (b : Byte) (bs : List Byte), encodeRm reg e = b :: bs ∧ regField b = reg ∧
      ∀ (r : List Byte) (k : Rm → List Byte → DecodeResult), operand b (bs ++ r) k = k e r := by
  cases e with
  | reg i =>
    refine ⟨_, _, rfl, regField_modrmByte .., fun r k => ?_⟩
    rw [operand, isRegisterForm_modrmByte, if_pos (by decide), rmField_modrmByte]; rfl
  | mem m =>
    obtain ⟨b, bs, h1, h2, h3, h4⟩ := encodeMem_read reg m he
    refine ⟨b, bs, h1, h3, fun r k => ?_⟩
    rw [operand, h2, if_neg (by decide)]
    exact h4 r _

theorem modrm_encodeRm (reg : RegNum) (e : Rm) (he : e.wf = true) (r : List Byte) (k : RegNum → Rm → List Byte → DecodeResult) :
    modrm (encodeRm reg e ++ r) k = k reg e r := by
  obtain ⟨b, bs, h1, h2, h3⟩ := encodeRm_read reg e he
  rw [h1, modrm, List.cons_append, imm8_cons, h3, h2]

theorem modrmMem_encodeMem (op : Byte) (reg : RegNum) (m : MemOp) (hm : m.wf = true) (r : List Byte)
    (k : RegNum → MemOp → List Byte → DecodeResult) : modrmMem op (encodeMem reg m ++ r) k = k reg m r := by
  obtain ⟨b, bs, h1, h2, h3, h4⟩ := encodeMem_read reg m hm
  rw [h1, modrmMem, List.cons_append, imm8_cons, h2, if_neg (by decide), h4, h3]

theorem modrmSeg_encodeRm (op : Byte) (sr : SReg) (e : Rm) (he : e.wf = true) (r : List Byte)
    (k : SReg → Rm → List Byte → DecodeResult) : modrmSeg op (encodeRm sr.num e ++ r) k = k sr e r := by
  obtain ⟨b, bs, h1, h2, h3⟩ := encodeRm_read sr.num e he
  rw [h1, modrmSeg, List.cons_append, imm8_cons, h2, SReg.ofNum_num]
  exact h3 r _

/-- A group whose sub-opcode reads an operand `E` and goes on. -/
theorem group_encodeRm (op : Byte) (n : RegNum) (e : Rm) (he : e.wf = true) (r : List Byte) (g : Group)
    (k : Rm → List Byte → DecodeResult) (hg : ∀ m, regField m = n → g m = some fun r => operand m r k) :
    group op (encodeRm n e ++ r) g = k e r := by
  obtain ⟨b, bs, h1, h2, h3⟩ := encodeRm_read n e he
  rw [h1, group, List.cons_append, imm8_cons, hg b h2]
  exact h3 r k

/-- A group whose sub-opcode reads a memory operand only. -/
theorem group_encodeMem (op : Byte) (n : RegNum) (m : MemOp) (hm : m.wf = true) (r : List Byte) (g : Group)
    (k : MemOp → List Byte → DecodeResult)
    (hg : ∀ b, regField b = n → isRegisterForm b = false → g b = some fun r => memOperand b r k) :
    group op (encodeMem n m ++ r) g = k m r := by
  obtain ⟨b, bs, h1, h2, h3, h4⟩ := encodeMem_read n m hm
  rw [h1, group, List.cons_append, imm8_cons, hg b h3 h2]
  exact h4 r k

/-! ## Lengths -/

theorem length_bytes16 (v : Word) : (bytes16 v).length = 2 := rfl

theorem length_encodeMem (reg : RegNum) (m : MemOp) : 1 ≤ (encodeMem reg m).length ∧ (encodeMem reg m).length ≤ 3 := by
  cases m with
  | direct => exact ⟨by simp [encodeMem], by simp [encodeMem, bytes16]⟩
  | based b d => cases d <;> exact ⟨by simp [encodeMem, bytes16], by simp [encodeMem, bytes16]⟩

theorem length_encodeRm (reg : RegNum) (e : Rm) : 1 ≤ (encodeRm reg e).length ∧ (encodeRm reg e).length ≤ 3 := by
  cases e with
  | reg => exact ⟨by simp [encodeRm], by simp [encodeRm]⟩
  | mem m => exact length_encodeMem reg m

end Sys2Proof
end

