-- ==== Sys2Proof/Laws/State.lean ====
section
/-! SUPPORT. One lemma per field per update, so that no proof unfolds a record update. The shared updates first, each with every
field; then the updates that go by the width, the place or the port table. -/

namespace Sys2Proof.Machine

/-! ## setReg -/

@[simp] theorem State.setReg_regs (s : State) (r : Reg16) (v : Word) : (s.setReg r v).regs = s.regs.set r v := rfl
@[simp] theorem State.setReg_segs (s : State) (r : Reg16) (v : Word) : (s.setReg r v).segs = s.segs := rfl
@[simp] theorem State.setReg_ip (s : State) (r : Reg16) (v : Word) : (s.setReg r v).ip = s.ip := rfl
@[simp] theorem State.setReg_flags (s : State) (r : Reg16) (v : Word) : (s.setReg r v).flags = s.flags := rfl
@[simp] theorem State.setReg_halted (s : State) (r : Reg16) (v : Word) : (s.setReg r v).halted = s.halted := rfl
@[simp] theorem State.setReg_haltReason (s : State) (r : Reg16) (v : Word) : (s.setReg r v).haltReason = s.haltReason := rfl
@[simp] theorem State.setReg_segov (s : State) (r : Reg16) (v : Word) : (s.setReg r v).segov = s.segov := rfl
@[simp] theorem State.setReg_rep (s : State) (r : Reg16) (v : Word) : (s.setReg r v).rep = s.rep := rfl
@[simp] theorem State.setReg_mem (s : State) (r : Reg16) (v : Word) : (s.setReg r v).mem = s.mem := rfl
@[simp] theorem State.setReg_ext186 (s : State) (r : Reg16) (v : Word) : (s.setReg r v).ext186 = s.ext186 := rfl
@[simp] theorem State.setReg_handlers (s : State) (r : Reg16) (v : Word) : (s.setReg r v).handlers = s.handlers := rfl
@[simp] theorem State.setReg_ports (s : State) (r : Reg16) (v : Word) : (s.setReg r v).ports = s.ports := rfl
@[simp] theorem State.setReg_keyBuffer (s : State) (r : Reg16) (v : Word) : (s.setReg r v).keyBuffer = s.keyBuffer := rfl
@[simp] theorem State.setReg_fat (s : State) (r : Reg16) (v : Word) : (s.setReg r v).fat = s.fat := rfl
@[simp] theorem State.setReg_draws (s : State) (r : Reg16) (v : Word) : (s.setReg r v).draws = s.draws := rfl
@[simp] theorem State.setReg_portLog (s : State) (r : Reg16) (v : Word) : (s.setReg r v).portLog = s.portLog := rfl
@[simp] theorem State.setReg_trace (s : State) (r : Reg16) (v : Word) : (s.setReg r v).trace = s.trace := rfl

/-! ## setHalf -/

@[simp] theorem State.setHalf_regs (s : State) (h : Reg8) (v : Byte) : (s.setHalf h v).regs = s.regs.set h.parent (withHalf h.isHigh (s.reg h.parent) v) := rfl
@[simp] theorem State.setHalf_segs (s : State) (h : Reg8) (v : Byte) : (s.setHalf h v).segs = s.segs := rfl
@[simp] theorem State.setHalf_ip (s : State) (h : Reg8) (v : Byte) : (s.setHalf h v).ip = s.ip := rfl
@[simp] theorem State.setHalf_flags (s : State) (h : Reg8) (v : Byte) : (s.setHalf h v).flags = s.flags := rfl
@[simp] theorem State.setHalf_halted (s : State) (h : Reg8) (v : Byte) : (s.setHalf h v).halted = s.halted := rfl
@[simp] theorem State.setHalf_haltReason (s : State) (h : Reg8) (v : Byte) : (s.setHalf h v).haltReason = s.haltReason := rfl
@[simp] theorem State.setHalf_segov (s : State) (h : Reg8) (v : Byte) : (s.setHalf h v).segov = s.segov := rfl
@[simp] theorem State.setHalf_rep (s : State) (h : Reg8) (v : Byte) : (s.setHalf h v).rep = s.rep := rfl
@[simp] theorem State.setHalf_mem (s : State) (h : Reg8) (v : Byte) : (s.setHalf h v).mem = s.mem := rfl
@[simp] theorem State.setHalf_ext186 (s : State) (h : Reg8) (v : Byte) : (s.setHalf h v).ext186 = s.ext186 := rfl
@[simp] theorem State.setHalf_handlers (s : State) (h : Reg8) (v : Byte) : (s.setHalf h v).handlers = s.handlers := rfl
@[simp] theorem State.setHalf_ports (s : State) (h : Reg8) (v : Byte) : (s.setHalf h v).ports = s.ports := rfl
@[simp] theorem State.setHalf_keyBuffer (s : State) (h : Reg8) (v : Byte) : (s.setHalf h v).keyBuffer = s.keyBuffer := rfl
@[simp] theorem State.setHalf_fat (s : State) (h : Reg8) (v : Byte) : (s.setHalf h v).fat = s.fat := rfl
@[simp] theorem State.setHalf_draws (s : State) (h : Reg8) (v : Byte) : (s.setHalf h v).draws = s.draws := rfl
@[simp] theorem State.setHalf_portLog (s : State) (h : Reg8) (v : Byte) : (s.setHalf h v).portLog = s.portLog := rfl
@[simp] theorem State.setHalf_trace (s : State) (h : Reg8) (v : Byte) : (s.setHalf h v).trace = s.trace := rfl

/-! ## setSeg -/

@[simp] theorem State.setSeg_regs (s : State) (r : SReg) (v : Word) : (s.setSeg r v).regs = s.regs := rfl
@[simp] theorem State.setSeg_segs (s : State) (r : SReg) (v : Word) : (s.setSeg r v).segs = s.segs.set r v := rfl
@[simp] theorem State.setSeg_ip (s : State) (r : SReg) (v : Word) : (s.setSeg r v).ip = s.ip := rfl
@[simp] theorem State.setSeg_flags (s : State) (r : SReg) (v : Word) : (s.setSeg r v).flags = s.flags := rfl
@[simp] theorem State.setSeg_halted (s : State) (r : SReg) (v : Word) : (s.setSeg r v).halted = s.halted := rfl
@[simp] theorem State.setSeg_haltReason (s : State) (r : SReg) (v : Word) : (s.setSeg r v).haltReason = s.haltReason := rfl
@[simp] theorem State.setSeg_segov (s : State) (r : SReg) (v : Word) : (s.setSeg r v).segov = s.segov := rfl
@[simp] theorem State.setSeg_rep (s : State) (r : SReg) (v : Word) : (s.setSeg r v).rep = s.rep := rfl
@[simp] theorem State.setSeg_mem (s : State) (r : SReg) (v : Word) : (s.setSeg r v).mem = s.mem := rfl
@[simp] theorem State.setSeg_ext186 (s : State) (r : SReg) (v : Word) : (s.setSeg r v).ext186 = s.ext186 := rfl
@[simp] theorem State.setSeg_handlers (s : State) (r : SReg) (v : Word) : (s.setSeg r v).handlers = s.handlers := rfl
@[simp] theorem State.setSeg_ports (s : State) (r : SReg) (v : Word) : (s.setSeg r v).ports = s.ports := rfl
@[simp] theorem State.setSeg_keyBuffer (s : State) (r : SReg) (v : Word) : (s.setSeg r v).keyBuffer = s.keyBuffer := rfl
@[simp] theorem State.setSeg_fat (s : State) (r : SReg) (v : Word) : (s.setSeg r v).fat = s.fat := rfl
@[simp] theorem State.setSeg_draws (s : State) (r : SReg) (v : Word) : (s.setSeg r v).draws = s.draws := rfl
@[simp] theorem State.setSeg_portLog (s : State) (r : SReg) (v : Word) : (s.setSeg r v).portLog = s.portLog := rfl
@[simp] theorem State.setSeg_trace (s : State) (r : SReg) (v : Word) : (s.setSeg r v).trace = s.trace := rfl

/-! ## setIp -/

@[simp] theorem State.setIp_regs (s : State) (v : Word) : (s.setIp v).regs = s.regs := rfl
@[simp] theorem State.setIp_segs (s : State) (v : Word) : (s.setIp v).segs = s.segs := rfl
@[simp] theorem State.setIp_ip (s : State) (v : Word) : (s.setIp v).ip = v := rfl
@[simp] theorem State.setIp_flags (s : State) (v : Word) : (s.setIp v).flags = s.flags := rfl
@[simp] theorem State.setIp_halted (s : State) (v : Word) : (s.setIp v).halted = s.halted := rfl
@[simp] theorem State.setIp_haltReason (s : State) (v : Word) : (s.setIp v).haltReason = s.haltReason := rfl
@[simp] theorem State.setIp_segov (s : State) (v : Word) : (s.setIp v).segov = s.segov := rfl
@[simp] theorem State.setIp_rep (s : State) (v : Word) : (s.setIp v).rep = s.rep := rfl
@[simp] theorem State.setIp_mem (s : State) (v : Word) : (s.setIp v).mem = s.mem := rfl
@[simp] theorem State.setIp_ext186 (s : State) (v : Word) : (s.setIp v).ext186 = s.ext186 := rfl
@[simp] theorem State.setIp_handlers (s : State) (v : Word) : (s.setIp v).handlers = s.handlers := rfl
@[simp] theorem State.setIp_ports (s : State) (v : Word) : (s.setIp v).ports = s.ports := rfl
@[simp] theorem State.setIp_keyBuffer (s : State) (v : Word) : (s.setIp v).keyBuffer = s.keyBuffer := rfl
@[simp] theorem State.setIp_fat (s : State) (v : Word) : (s.setIp v).fat = s.fat := rfl
@[simp] theorem State.setIp_draws (s : State) (v : Word) : (s.setIp v).draws = s.draws := rfl
@[simp] theorem State.setIp_portLog (s : State) (v : Word) : (s.setIp v).portLog = s.portLog := rfl
@[simp] theorem State.setIp_trace (s : State) (v : Word) : (s.setIp v).trace = s.trace := rfl

/-! ## setFlag -/

@[simp] theorem State.setFlag_regs (s : State) (f : Flag) (v : Bool) : (s.setFlag f v).regs = s.regs := rfl
@[simp] theorem State.setFlag_segs (s : State) (f : Flag) (v : Bool) : (s.setFlag f v).segs = s.segs := rfl
@[simp] theorem State.setFlag_ip (s : State) (f : Flag) (v : Bool) : (s.setFlag f v).ip = s.ip := rfl
@[simp] theorem State.setFlag_flags (s : State) (f : Flag) (v : Bool) : (s.setFlag f v).flags = putFlag f v s.flags := rfl
@[simp] theorem State.setFlag_halted (s : State) (f : Flag) (v : Bool) : (s.setFlag f v).halted = s.halted := rfl
@[simp] theorem State.setFlag_haltReason (s : State) (f : Flag) (v : Bool) : (s.setFlag f v).haltReason = s.haltReason := rfl
@[simp] theorem State.setFlag_segov (s : State) (f : Flag) (v : Bool) : (s.setFlag f v).segov = s.segov := rfl
@[simp] theorem State.setFlag_rep (s : State) (f : Flag) (v : Bool) : (s.setFlag f v).rep = s.rep := rfl
@[simp] theorem State.setFlag_mem (s : State) (f : Flag) (v : Bool) : (s.setFlag f v).mem = s.mem := rfl
@[simp] theorem State.setFlag_ext186 (s : State) (f : Flag) (v : Bool) : (s.setFlag f v).ext186 = s.ext186 := rfl
@[simp] theorem State.setFlag_handlers (s : State) (f : Flag) (v : Bool) : (s.setFlag f v).handlers = s.handlers := rfl
@[simp] theorem State.setFlag_ports (s : State) (f : Flag) (v : Bool) : (s.setFlag f v).ports = s.ports := rfl
@[simp] theorem State.setFlag_keyBuffer (s : State) (f : Flag) (v : Bool) : (s.setFlag f v).keyBuffer = s.keyBuffer := rfl
@[simp] theorem State.setFlag_fat (s : State) (f : Flag) (v : Bool) : (s.setFlag f v).fat = s.fat := rfl
@[simp] theorem State.setFlag_draws (s : State) (f : Flag) (v : Bool) : (s.setFlag f v).draws = s.draws := rfl
@[simp] theorem State.setFlag_portLog (s : State) (f : Flag) (v : Bool) : (s.setFlag f v).portLog = s.portLog := rfl
@[simp] theorem State.setFlag_trace (s : State) (f : Flag) (v : Bool) : (s.setFlag f v).trace = s.trace := rfl

/-! ## setFlags -/

@[simp] theorem State.setFlags_regs (s : State) (v : Word) : (s.setFlags v).regs = s.regs := rfl
@[simp] theorem State.setFlags_segs (s : State) (v : Word) : (s.setFlags v).segs = s.segs := rfl
@[simp] theorem State.setFlags_ip (s : State) (v : Word) : (s.setFlags v).ip = s.ip := rfl
@[simp] theorem State.setFlags_flags (s : State) (v : Word) : (s.setFlags v).flags = norm v := rfl
@[simp] theorem State.setFlags_halted (s : State) (v : Word) : (s.setFlags v).halted = s.halted := rfl
@[simp] theorem State.setFlags_haltReason (s : State) (v : Word) : (s.setFlags v).haltReason = s.haltReason := rfl
@[simp] theorem State.setFlags_segov (s : State) (v : Word) : (s.setFlags v).segov = s.segov := rfl
@[simp] theorem State.setFlags_rep (s : State) (v : Word) : (s.setFlags v).rep = s.rep := rfl
@[simp] theorem State.setFlags_mem (s : State) (v : Word) : (s.setFlags v).mem = s.mem := rfl
@[simp] theorem State.setFlags_ext186 (s : State) (v : Word) : (s.setFlags v).ext186 = s.ext186 := rfl
@[simp] theorem State.setFlags_handlers (s : State) (v : Word) : (s.setFlags v).handlers = s.handlers := rfl
@[simp] theorem State.setFlags_ports (s : State) (v : Word) : (s.setFlags v).ports = s.ports := rfl
@[simp] theorem State.setFlags_keyBuffer (s : State) (v : Word) : (s.setFlags v).keyBuffer = s.keyBuffer := rfl
@[simp] theorem State.setFlags_fat (s : State) (v : Word) : (s.setFlags v).fat = s.fat := rfl
@[simp] theorem State.setFlags_draws (s : State) (v : Word) : (s.setFlags v).draws = s.draws := rfl
@[simp] theorem State.setFlags_portLog (s : State) (v : Word) : (s.setFlags v).portLog = s.portLog := rfl
@[simp] theorem State.setFlags_trace (s : State) (v : Word) : (s.setFlags v).trace = s.trace := rfl

/-! ## freeFlag -/

@[simp] theorem State.freeFlag_regs (s : State) (f : Flag) : (s.freeFlag f).regs = s.regs := rfl
@[simp] theorem State.freeFlag_segs (s : State) (f : Flag) : (s.freeFlag f).segs = s.segs := rfl
@[simp] theorem State.freeFlag_ip (s : State) (f : Flag) : (s.freeFlag f).ip = s.ip := rfl
@[simp] theorem State.freeFlag_flags (s : State) (f : Flag) : (s.freeFlag f).flags = putFlag f (Config.freeBit s.draws) s.flags := rfl
@[simp] theorem State.freeFlag_halted (s : State) (f : Flag) : (s.freeFlag f).halted = s.halted := rfl
@[simp] theorem State.freeFlag_haltReason (s : State) (f : Flag) : (s.freeFlag f).haltReason = s.haltReason := rfl
@[simp] theorem State.freeFlag_segov (s : State) (f : Flag) : (s.freeFlag f).segov = s.segov := rfl
@[simp] theorem State.freeFlag_rep (s : State) (f : Flag) : (s.freeFlag f).rep = s.rep := rfl
@[simp] theorem State.freeFlag_mem (s : State) (f : Flag) : (s.freeFlag f).mem = s.mem := rfl
@[simp] theorem State.freeFlag_ext186 (s : State) (f : Flag) : (s.freeFlag f).ext186 = s.ext186 := rfl
@[simp] theorem State.freeFlag_handlers (s : State) (f : Flag) : (s.freeFlag f).handlers = s.handlers := rfl
@[simp] theorem State.freeFlag_ports (s : State) (f : Flag) : (s.freeFlag f).ports = s.ports := rfl
@[simp] theorem State.freeFlag_keyBuffer (s : State) (f : Flag) : (s.freeFlag f).keyBuffer = s.keyBuffer := rfl
@[simp] theorem State.freeFlag_fat (s : State) (f : Flag) : (s.freeFlag f).fat = s.fat := rfl
@[simp] theorem State.freeFlag_draws (s : State) (f : Flag) : (s.freeFlag f).draws = s.draws + 1 := rfl
@[simp] theorem State.freeFlag_portLog (s : State) (f : Flag) : (s.freeFlag f).portLog = s.portLog := rfl
@[simp] theorem State.freeFlag_trace (s : State) (f : Flag) : (s.freeFlag f).trace = s.trace := rfl

/-! ## memWrite8 -/

@[simp] theorem State.memWrite8_regs (s : State) (a : Addr) (v : Byte) : (s.memWrite8 a v).regs = s.regs := rfl
@[simp] theorem State.memWrite8_segs (s : State) (a : Addr) (v : Byte) : (s.memWrite8 a v).segs = s.segs := rfl
@[simp] theorem State.memWrite8_ip (s : State) (a : Addr) (v : Byte) : (s.memWrite8 a v).ip = s.ip := rfl
@[simp] theorem State.memWrite8_flags (s : State) (a : Addr) (v : Byte) : (s.memWrite8 a v).flags = s.flags := rfl
@[simp] theorem State.memWrite8_halted (s : State) (a : Addr) (v : Byte) : (s.memWrite8 a v).halted = s.halted := rfl
@[simp] theorem State.memWrite8_haltReason (s : State) (a : Addr) (v : Byte) : (s.memWrite8 a v).haltReason = s.haltReason := rfl
@[simp] theorem State.memWrite8_segov (s : State) (a : Addr) (v : Byte) : (s.memWrite8 a v).segov = s.segov := rfl
@[simp] theorem State.memWrite8_rep (s : State) (a : Addr) (v : Byte) : (s.memWrite8 a v).rep = s.rep := rfl
@[simp] theorem State.memWrite8_mem (s : State) (a : Addr) (v : Byte) : (s.memWrite8 a v).mem = s.mem.write a.toNat v := rfl
@[simp] theorem State.memWrite8_ext186 (s : State) (a : Addr) (v : Byte) : (s.memWrite8 a v).ext186 = s.ext186 := rfl
@[simp] theorem State.memWrite8_handlers (s : State) (a : Addr) (v : Byte) : (s.memWrite8 a v).handlers = s.handlers := rfl
@[simp] theorem State.memWrite8_ports (s : State) (a : Addr) (v : Byte) : (s.memWrite8 a v).ports = s.ports := rfl
@[simp] theorem State.memWrite8_keyBuffer (s : State) (a : Addr) (v : Byte) : (s.memWrite8 a v).keyBuffer = s.keyBuffer := rfl
@[simp] theorem State.memWrite8_fat (s : State) (a : Addr) (v : Byte) : (s.memWrite8 a v).fat = s.fat := rfl
@[simp] theorem State.memWrite8_draws (s : State) (a : Addr) (v : Byte) : (s.memWrite8 a v).draws = s.draws := rfl
@[simp] theorem State.memWrite8_portLog (s : State) (a : Addr) (v : Byte) : (s.memWrite8 a v).portLog = s.portLog := rfl
@[simp] theorem State.memWrite8_trace (s : State) (a : Addr) (v : Byte) : (s.memWrite8 a v).trace = s.trace := rfl

/-! ## memWrite16 -/

@[simp] theorem State.memWrite16_regs (s : State) (a : Addr) (v : Word) : (s.memWrite16 a v).regs = s.regs := rfl
@[simp] theorem State.memWrite16_segs (s : State) (a : Addr) (v : Word) : (s.memWrite16 a v).segs = s.segs := rfl
@[simp] theorem State.memWrite16_ip (s : State) (a : Addr) (v : Word) : (s.memWrite16 a v).ip = s.ip := rfl
@[simp] theorem State.memWrite16_flags (s : State) (a : Addr) (v : Word) : (s.memWrite16 a v).flags = s.flags := rfl
@[simp] theorem State.memWrite16_halted (s : State) (a : Addr) (v : Word) : (s.memWrite16 a v).halted = s.halted := rfl
@[simp] theorem State.memWrite16_haltReason (s : State) (a : Addr) (v : Word) : (s.memWrite16 a v).haltReason = s.haltReason := rfl
@[simp] theorem State.memWrite16_segov (s : State) (a : Addr) (v : Word) : (s.memWrite16 a v).segov = s.segov := rfl
@[simp] theorem State.memWrite16_rep (s : State) (a : Addr) (v : Word) : (s.memWrite16 a v).rep = s.rep := rfl
@[simp] theorem State.memWrite16_mem (s : State) (a : Addr) (v : Word) : (s.memWrite16 a v).mem = (s.mem.write a.toNat (v.extractLsb' 0 8)).write (a + 1#20).toNat (v.extractLsb' 8 8) := rfl
@[simp] theorem State.memWrite16_ext186 (s : State) (a : Addr) (v : Word) : (s.memWrite16 a v).ext186 = s.ext186 := rfl
@[simp] theorem State.memWrite16_handlers (s : State) (a : Addr) (v : Word) : (s.memWrite16 a v).handlers = s.handlers := rfl
@[simp] theorem State.memWrite16_ports (s : State) (a : Addr) (v : Word) : (s.memWrite16 a v).ports = s.ports := rfl
@[simp] theorem State.memWrite16_keyBuffer (s : State) (a : Addr) (v : Word) : (s.memWrite16 a v).keyBuffer = s.keyBuffer := rfl
@[simp] theorem State.memWrite16_fat (s : State) (a : Addr) (v : Word) : (s.memWrite16 a v).fat = s.fat := rfl
@[simp] theorem State.memWrite16_draws (s : State) (a : Addr) (v : Word) : (s.memWrite16 a v).draws = s.draws := rfl
@[simp] theorem State.memWrite16_portLog (s : State) (a : Addr) (v : Word) : (s.memWrite16 a v).portLog = s.portLog := rfl
@[simp] theorem State.memWrite16_trace (s : State) (a : Addr) (v : Word) : (s.memWrite16 a v).trace = s.trace := rfl

/-! ## setSegov -/

@[simp] theorem State.setSegov_regs (s : State) (r : SReg) : (s.setSegov r).regs = s.regs := rfl
@[simp] theorem State.setSegov_segs (s : State) (r : SReg) : (s.setSegov r).segs = s.segs := rfl
@[simp] theorem State.setSegov_ip (s : State) (r : SReg) : (s.setSegov r).ip = s.ip := rfl
@[simp] theorem State.setSegov_flags (s : State) (r : SReg) : (s.setSegov r).flags = s.flags := rfl
@[simp] theorem State.setSegov_halted (s : State) (r : SReg) : (s.setSegov r).halted = s.halted := rfl
@[simp] theorem State.setSegov_haltReason (s : State) (r : SReg) : (s.setSegov r).haltReason = s.haltReason := rfl
@[simp] theorem State.setSegov_segov (s : State) (r : SReg) : (s.setSegov r).segov = some r := rfl
@[simp] theorem State.setSegov_rep (s : State) (r : SReg) : (s.setSegov r).rep = s.rep := rfl
@[simp] theorem State.setSegov_mem (s : State) (r : SReg) : (s.setSegov r).mem = s.mem := rfl
@[simp] theorem State.setSegov_ext186 (s : State) (r : SReg) : (s.setSegov r).ext186 = s.ext186 := rfl
@[simp] theorem State.setSegov_handlers (s : State) (r : SReg) : (s.setSegov r).handlers = s.handlers := rfl
@[simp] theorem State.setSegov_ports (s : State) (r : SReg) : (s.setSegov r).ports = s.ports := rfl
@[simp] theorem State.setSegov_keyBuffer (s : State) (r : SReg) : (s.setSegov r).keyBuffer = s.keyBuffer := rfl
@[simp] theorem State.setSegov_fat (s : State) (r : SReg) : (s.setSegov r).fat = s.fat := rfl
@[simp] theorem State.setSegov_draws (s : State) (r : SReg) : (s.setSegov r).draws = s.draws := rfl
@[simp] theorem State.setSegov_portLog (s : State) (r : SReg) : (s.setSegov r).portLog = s.portLog := rfl
@[simp] theorem State.setSegov_trace (s : State) (r : SReg) : (s.setSegov r).trace = s.trace := rfl

/-! ## setRep -/

@[simp] theorem State.setRep_regs (s : State) (r : Rep) : (s.setRep r).regs = s.regs := rfl
@[simp] theorem State.setRep_segs (s : State) (r : Rep) : (s.setRep r).segs = s.segs := rfl
@[simp] theorem State.setRep_ip (s : State) (r : Rep) : (s.setRep r).ip = s.ip := rfl
@[simp] theorem State.setRep_flags (s : State) (r : Rep) : (s.setRep r).flags = s.flags := rfl
@[simp] theorem State.setRep_halted (s : State) (r : Rep) : (s.setRep r).halted = s.halted := rfl
@[simp] theorem State.setRep_haltReason (s : State) (r : Rep) : (s.setRep r).haltReason = s.haltReason := rfl
@[simp] theorem State.setRep_segov (s : State) (r : Rep) : (s.setRep r).segov = s.segov := rfl
@[simp] theorem State.setRep_rep (s : State) (r : Rep) : (s.setRep r).rep = some r := rfl
@[simp] theorem State.setRep_mem (s : State) (r : Rep) : (s.setRep r).mem = s.mem := rfl
@[simp] theorem State.setRep_ext186 (s : State) (r : Rep) : (s.setRep r).ext186 = s.ext186 := rfl
@[simp] theorem State.setRep_handlers (s : State) (r : Rep) : (s.setRep r).handlers = s.handlers := rfl
@[simp] theorem State.setRep_ports (s : State) (r : Rep) : (s.setRep r).ports = s.ports := rfl
@[simp] theorem State.setRep_keyBuffer (s : State) (r : Rep) : (s.setRep r).keyBuffer = s.keyBuffer := rfl
@[simp] theorem State.setRep_fat (s : State) (r : Rep) : (s.setRep r).fat = s.fat := rfl
@[simp] theorem State.setRep_draws (s : State) (r : Rep) : (s.setRep r).draws = s.draws := rfl
@[simp] theorem State.setRep_portLog (s : State) (r : Rep) : (s.setRep r).portLog = s.portLog := rfl
@[simp] theorem State.setRep_trace (s : State) (r : Rep) : (s.setRep r).trace = s.trace := rfl

/-! ## clearPrefixes -/

@[simp] theorem State.clearPrefixes_regs (s : State) : (s.clearPrefixes).regs = s.regs := rfl
@[simp] theorem State.clearPrefixes_segs (s : State) : (s.clearPrefixes).segs = s.segs := rfl
@[simp] theorem State.clearPrefixes_ip (s : State) : (s.clearPrefixes).ip = s.ip := rfl
@[simp] theorem State.clearPrefixes_flags (s : State) : (s.clearPrefixes).flags = s.flags := rfl
@[simp] theorem State.clearPrefixes_halted (s : State) : (s.clearPrefixes).halted = s.halted := rfl
@[simp] theorem State.clearPrefixes_haltReason (s : State) : (s.clearPrefixes).haltReason = s.haltReason := rfl
@[simp] theorem State.clearPrefixes_segov (s : State) : (s.clearPrefixes).segov = none := rfl
@[simp] theorem State.clearPrefixes_rep (s : State) : (s.clearPrefixes).rep = none := rfl
@[simp] theorem State.clearPrefixes_mem (s : State) : (s.clearPrefixes).mem = s.mem := rfl
@[simp] theorem State.clearPrefixes_ext186 (s : State) : (s.clearPrefixes).ext186 = s.ext186 := rfl
@[simp] theorem State.clearPrefixes_handlers (s : State) : (s.clearPrefixes).handlers = s.handlers := rfl
@[simp] theorem State.clearPrefixes_ports (s : State) : (s.clearPrefixes).ports = s.ports := rfl
@[simp] theorem State.clearPrefixes_keyBuffer (s : State) : (s.clearPrefixes).keyBuffer = s.keyBuffer := rfl
@[simp] theorem State.clearPrefixes_fat (s : State) : (s.clearPrefixes).fat = s.fat := rfl
@[simp] theorem State.clearPrefixes_draws (s : State) : (s.clearPrefixes).draws = s.draws := rfl
@[simp] theorem State.clearPrefixes_portLog (s : State) : (s.clearPrefixes).portLog = s.portLog := rfl
@[simp] theorem State.clearPrefixes_trace (s : State) : (s.clearPrefixes).trace = s.trace := rfl

/-! ## traceOpcode -/

@[simp] theorem State.traceOpcode_regs (s : State) (op : List Byte) (n : Nat) : (s.traceOpcode op n).regs = s.regs := rfl
@[simp] theorem State.traceOpcode_segs (s : State) (op : List Byte) (n : Nat) : (s.traceOpcode op n).segs = s.segs := rfl
@[simp] theorem State.traceOpcode_ip (s : State) (op : List Byte) (n : Nat) : (s.traceOpcode op n).ip = s.ip := rfl
@[simp] theorem State.traceOpcode_flags (s : State) (op : List Byte) (n : Nat) : (s.traceOpcode op n).flags = s.flags := rfl
@[simp] theorem State.traceOpcode_halted (s : State) (op : List Byte) (n : Nat) : (s.traceOpcode op n).halted = s.halted := rfl
@[simp] theorem State.traceOpcode_haltReason (s : State) (op : List Byte) (n : Nat) : (s.traceOpcode op n).haltReason = s.haltReason := rfl
@[simp] theorem State.traceOpcode_segov (s : State) (op : List Byte) (n : Nat) : (s.traceOpcode op n).segov = s.segov := rfl
@[simp] theorem State.traceOpcode_rep (s : State) (op : List Byte) (n : Nat) : (s.traceOpcode op n).rep = s.rep := rfl
@[simp] theorem State.traceOpcode_mem (s : State) (op : List Byte) (n : Nat) : (s.traceOpcode op n).mem = s.mem := rfl
@[simp] theorem State.traceOpcode_ext186 (s : State) (op : List Byte) (n : Nat) : (s.traceOpcode op n).ext186 = s.ext186 := rfl
@[simp] theorem State.traceOpcode_handlers (s : State) (op : List Byte) (n : Nat) : (s.traceOpcode op n).handlers = s.handlers := rfl
@[simp] theorem State.traceOpcode_ports (s : State) (op : List Byte) (n : Nat) : (s.traceOpcode op n).ports = s.ports := rfl
@[simp] theorem State.traceOpcode_keyBuffer (s : State) (op : List Byte) (n : Nat) : (s.traceOpcode op n).keyBuffer = s.keyBuffer := rfl
@[simp] theorem State.traceOpcode_fat (s : State) (op : List Byte) (n : Nat) : (s.traceOpcode op n).fat = s.fat := rfl
@[simp] theorem State.traceOpcode_draws (s : State) (op : List Byte) (n : Nat) : (s.traceOpcode op n).draws = s.draws := rfl
@[simp] theorem State.traceOpcode_portLog (s : State) (op : List Byte) (n : Nat) : (s.traceOpcode op n).portLog = s.portLog := rfl
@[simp] theorem State.traceOpcode_trace (s : State) (op : List Byte) (n : Nat) : (s.traceOpcode op n).trace = s.trace ++ [⟨op, s.seg .cs, s.ip - BitVec.ofNat 16 n⟩] := rfl

/-! ## halt -/

@[simp] theorem State.halt_regs (s : State) (r : HaltReason) : (s.halt r).regs = s.regs := rfl
@[simp] theorem State.halt_segs (s : State) (r : HaltReason) : (s.halt r).segs = s.segs := rfl
@[simp] theorem State.halt_ip (s : State) (r : HaltReason) : (s.halt r).ip = s.ip := rfl
@[simp] theorem State.halt_flags (s : State) (r : HaltReason) : (s.halt r).flags = s.flags := rfl
@[simp] theorem State.halt_halted (s : State) (r : HaltReason) : (s.halt r).halted = true := rfl
@[simp] theorem State.halt_haltReason (s : State) (r : HaltReason) : (s.halt r).haltReason = r := rfl
@[simp] theorem State.halt_segov (s : State) (r : HaltReason) : (s.halt r).segov = s.segov := rfl
@[simp] theorem State.halt_rep (s : State) (r : HaltReason) : (s.halt r).rep = s.rep := rfl
@[simp] theorem State.halt_mem (s : State) (r : HaltReason) : (s.halt r).mem = s.mem := rfl
@[simp] theorem State.halt_ext186 (s : State) (r : HaltReason) : (s.halt r).ext186 = s.ext186 := rfl
@[simp] theorem State.halt_handlers (s : State) (r : HaltReason) : (s.halt r).handlers = s.handlers := rfl
@[simp] theorem State.halt_ports (s : State) (r : HaltReason) : (s.halt r).ports = s.ports := rfl
@[simp] theorem State.halt_keyBuffer (s : State) (r : HaltReason) : (s.halt r).keyBuffer = s.keyBuffer := rfl
@[simp] theorem State.halt_fat (s : State) (r : HaltReason) : (s.halt r).fat = s.fat := rfl
@[simp] theorem State.halt_draws (s : State) (r : HaltReason) : (s.halt r).draws = s.draws := rfl
@[simp] theorem State.halt_portLog (s : State) (r : HaltReason) : (s.halt r).portLog = s.portLog := rfl
@[simp] theorem State.halt_trace (s : State) (r : HaltReason) : (s.halt r).trace = s.trace := rfl

/-! ## release -/

@[simp] theorem State.release_regs (s : State) (n : Word) : (s.release n).regs = s.regs.set .sp (s.reg .sp + n) := rfl
@[simp] theorem State.release_segs (s : State) (n : Word) : (s.release n).segs = s.segs := rfl
@[simp] theorem State.release_ip (s : State) (n : Word) : (s.release n).ip = s.ip := rfl
@[simp] theorem State.release_flags (s : State) (n : Word) : (s.release n).flags = s.flags := rfl
@[simp] theorem State.release_halted (s : State) (n : Word) : (s.release n).halted = s.halted := rfl
@[simp] theorem State.release_haltReason (s : State) (n : Word) : (s.release n).haltReason = s.haltReason := rfl
@[simp] theorem State.release_segov (s : State) (n : Word) : (s.release n).segov = s.segov := rfl
@[simp] theorem State.release_rep (s : State) (n : Word) : (s.release n).rep = s.rep := rfl
@[simp] theorem State.release_mem (s : State) (n : Word) : (s.release n).mem = s.mem := rfl
@[simp] theorem State.release_ext186 (s : State) (n : Word) : (s.release n).ext186 = s.ext186 := rfl
@[simp] theorem State.release_handlers (s : State) (n : Word) : (s.release n).handlers = s.handlers := rfl
@[simp] theorem State.release_ports (s : State) (n : Word) : (s.release n).ports = s.ports := rfl
@[simp] theorem State.release_keyBuffer (s : State) (n : Word) : (s.release n).keyBuffer = s.keyBuffer := rfl
@[simp] theorem State.release_fat (s : State) (n : Word) : (s.release n).fat = s.fat := rfl
@[simp] theorem State.release_draws (s : State) (n : Word) : (s.release n).draws = s.draws := rfl
@[simp] theorem State.release_portLog (s : State) (n : Word) : (s.release n).portLog = s.portLog := rfl
@[simp] theorem State.release_trace (s : State) (n : Word) : (s.release n).trace = s.trace := rfl

/-! ## setSZP -/

@[simp] theorem State.setSZP_regs (s : State) {w : Nat} (r : BitVec w) : (s.setSZP r).regs = s.regs := by simp only [State.setSZP, State.setFlag_regs]
@[simp] theorem State.setSZP_segs (s : State) {w : Nat} (r : BitVec w) : (s.setSZP r).segs = s.segs := by simp only [State.setSZP, State.setFlag_segs]
@[simp] theorem State.setSZP_ip (s : State) {w : Nat} (r : BitVec w) : (s.setSZP r).ip = s.ip := by simp only [State.setSZP, State.setFlag_ip]
@[simp] theorem State.setSZP_flags (s : State) {w : Nat} (r : BitVec w) : (s.setSZP r).flags = putFlag .pf (parity8 r) (putFlag .zf (r == 0#w) (putFlag .sf r.msb s.flags)) := by simp only [State.setSZP, State.setFlag_flags]
@[simp] theorem State.setSZP_halted (s : State) {w : Nat} (r : BitVec w) : (s.setSZP r).halted = s.halted := by simp only [State.setSZP, State.setFlag_halted]
@[simp] theorem State.setSZP_haltReason (s : State) {w : Nat} (r : BitVec w) : (s.setSZP r).haltReason = s.haltReason := by simp only [State.setSZP, State.setFlag_haltReason]
@[simp] theorem State.setSZP_segov (s : State) {w : Nat} (r : BitVec w) : (s.setSZP r).segov = s.segov := by simp only [State.setSZP, State.setFlag_segov]
@[simp] theorem State.setSZP_rep (s : State) {w : Nat} (r : BitVec w) : (s.setSZP r).rep = s.rep := by simp only [State.setSZP, State.setFlag_rep]
@[simp] theorem State.setSZP_mem (s : State) {w : Nat} (r : BitVec w) : (s.setSZP r).mem = s.mem := by simp only [State.setSZP, State.setFlag_mem]
@[simp] theorem State.setSZP_ext186 (s : State) {w : Nat} (r : BitVec w) : (s.setSZP r).ext186 = s.ext186 := by simp only [State.setSZP, State.setFlag_ext186]
@[simp] theorem State.setSZP_handlers (s : State) {w : Nat} (r : BitVec w) : (s.setSZP r).handlers = s.handlers := by simp only [State.setSZP, State.setFlag_handlers]
@[simp] theorem State.setSZP_ports (s : State) {w : Nat} (r : BitVec w) : (s.setSZP r).ports = s.ports := by simp only [State.setSZP, State.setFlag_ports]
@[simp] theorem State.setSZP_keyBuffer (s : State) {w : Nat} (r : BitVec w) : (s.setSZP r).keyBuffer = s.keyBuffer := by simp only [State.setSZP, State.setFlag_keyBuffer]
@[simp] theorem State.setSZP_fat (s : State) {w : Nat} (r : BitVec w) : (s.setSZP r).fat = s.fat := by simp only [State.setSZP, State.setFlag_fat]
@[simp] theorem State.setSZP_draws (s : State) {w : Nat} (r : BitVec w) : (s.setSZP r).draws = s.draws := by simp only [State.setSZP, State.setFlag_draws]
@[simp] theorem State.setSZP_portLog (s : State) {w : Nat} (r : BitVec w) : (s.setSZP r).portLog = s.portLog := by simp only [State.setSZP, State.setFlag_portLog]
@[simp] theorem State.setSZP_trace (s : State) {w : Nat} (r : BitVec w) : (s.setSZP r).trace = s.trace := by simp only [State.setSZP, State.setFlag_trace]

/-! ## setArithKeepCF -/

@[simp] theorem State.setArithKeepCF_regs (s : State) {w : Nat} (o : Arith w) : (s.setArithKeepCF o).regs = s.regs := by simp only [State.setArithKeepCF, State.setSZP_regs, State.setFlag_regs]
@[simp] theorem State.setArithKeepCF_segs (s : State) {w : Nat} (o : Arith w) : (s.setArithKeepCF o).segs = s.segs := by simp only [State.setArithKeepCF, State.setSZP_segs, State.setFlag_segs]
@[simp] theorem State.setArithKeepCF_ip (s : State) {w : Nat} (o : Arith w) : (s.setArithKeepCF o).ip = s.ip := by simp only [State.setArithKeepCF, State.setSZP_ip, State.setFlag_ip]
@[simp] theorem State.setArithKeepCF_halted (s : State) {w : Nat} (o : Arith w) : (s.setArithKeepCF o).halted = s.halted := by simp only [State.setArithKeepCF, State.setSZP_halted, State.setFlag_halted]
@[simp] theorem State.setArithKeepCF_haltReason (s : State) {w : Nat} (o : Arith w) : (s.setArithKeepCF o).haltReason = s.haltReason := by simp only [State.setArithKeepCF, State.setSZP_haltReason, State.setFlag_haltReason]
@[simp] theorem State.setArithKeepCF_segov (s : State) {w : Nat} (o : Arith w) : (s.setArithKeepCF o).segov = s.segov := by simp only [State.setArithKeepCF, State.setSZP_segov, State.setFlag_segov]
@[simp] theorem State.setArithKeepCF_rep (s : State) {w : Nat} (o : Arith w) : (s.setArithKeepCF o).rep = s.rep := by simp only [State.setArithKeepCF, State.setSZP_rep, State.setFlag_rep]
@[simp] theorem State.setArithKeepCF_mem (s : State) {w : Nat} (o : Arith w) : (s.setArithKeepCF o).mem = s.mem := by simp only [State.setArithKeepCF, State.setSZP_mem, State.setFlag_mem]
@[simp] theorem State.setArithKeepCF_ext186 (s : State) {w : Nat} (o : Arith w) : (s.setArithKeepCF o).ext186 = s.ext186 := by simp only [State.setArithKeepCF, State.setSZP_ext186, State.setFlag_ext186]
@[simp] theorem State.setArithKeepCF_handlers (s : State) {w : Nat} (o : Arith w) : (s.setArithKeepCF o).handlers = s.handlers := by simp only [State.setArithKeepCF, State.setSZP_handlers, State.setFlag_handlers]
@[simp] theorem State.setArithKeepCF_ports (s : State) {w : Nat} (o : Arith w) : (s.setArithKeepCF o).ports = s.ports := by simp only [State.setArithKeepCF, State.setSZP_ports, State.setFlag_ports]
@[simp] theorem State.setArithKeepCF_keyBuffer (s : State) {w : Nat} (o : Arith w) : (s.setArithKeepCF o).keyBuffer = s.keyBuffer := by simp only [State.setArithKeepCF, State.setSZP_keyBuffer, State.setFlag_keyBuffer]
@[simp] theorem State.setArithKeepCF_fat (s : State) {w : Nat} (o : Arith w) : (s.setArithKeepCF o).fat = s.fat := by simp only [State.setArithKeepCF, State.setSZP_fat, State.setFlag_fat]
@[simp] theorem State.setArithKeepCF_draws (s : State) {w : Nat} (o : Arith w) : (s.setArithKeepCF o).draws = s.draws := by simp only [State.setArithKeepCF, State.setSZP_draws, State.setFlag_draws]
@[simp] theorem State.setArithKeepCF_portLog (s : State) {w : Nat} (o : Arith w) : (s.setArithKeepCF o).portLog = s.portLog := by simp only [State.setArithKeepCF, State.setSZP_portLog, State.setFlag_portLog]
@[simp] theorem State.setArithKeepCF_trace (s : State) {w : Nat} (o : Arith w) : (s.setArithKeepCF o).trace = s.trace := by simp only [State.setArithKeepCF, State.setSZP_trace, State.setFlag_trace]

/-! ## setArith -/

@[simp] theorem State.setArith_regs (s : State) {w : Nat} (o : Arith w) : (s.setArith o).regs = s.regs := by simp only [State.setArith, State.setArithKeepCF_regs, State.setFlag_regs]
@[simp] theorem State.setArith_segs (s : State) {w : Nat} (o : Arith w) : (s.setArith o).segs = s.segs := by simp only [State.setArith, State.setArithKeepCF_segs, State.setFlag_segs]
@[simp] theorem State.setArith_ip (s : State) {w : Nat} (o : Arith w) : (s.setArith o).ip = s.ip := by simp only [State.setArith, State.setArithKeepCF_ip, State.setFlag_ip]
@[simp] theorem State.setArith_halted (s : State) {w : Nat} (o : Arith w) : (s.setArith o).halted = s.halted := by simp only [State.setArith, State.setArithKeepCF_halted, State.setFlag_halted]
@[simp] theorem State.setArith_haltReason (s : State) {w : Nat} (o : Arith w) : (s.setArith o).haltReason = s.haltReason := by simp only [State.setArith, State.setArithKeepCF_haltReason, State.setFlag_haltReason]
@[simp] theorem State.setArith_segov (s : State) {w : Nat} (o : Arith w) : (s.setArith o).segov = s.segov := by simp only [State.setArith, State.setArithKeepCF_segov, State.setFlag_segov]
@[simp] theorem State.setArith_rep (s : State) {w : Nat} (o : Arith w) : (s.setArith o).rep = s.rep := by simp only [State.setArith, State.setArithKeepCF_rep, State.setFlag_rep]
@[simp] theorem State.setArith_mem (s : State) {w : Nat} (o : Arith w) : (s.setArith o).mem = s.mem := by simp only [State.setArith, State.setArithKeepCF_mem, State.setFlag_mem]
@[simp] theorem State.setArith_ext186 (s : State) {w : Nat} (o : Arith w) : (s.setArith o).ext186 = s.ext186 := by simp only [State.setArith, State.setArithKeepCF_ext186, State.setFlag_ext186]
@[simp] theorem State.setArith_handlers (s : State) {w : Nat} (o : Arith w) : (s.setArith o).handlers = s.handlers := by simp only [State.setArith, State.setArithKeepCF_handlers, State.setFlag_handlers]
@[simp] theorem State.setArith_ports (s : State) {w : Nat} (o : Arith w) : (s.setArith o).ports = s.ports := by simp only [State.setArith, State.setArithKeepCF_ports, State.setFlag_ports]
@[simp] theorem State.setArith_keyBuffer (s : State) {w : Nat} (o : Arith w) : (s.setArith o).keyBuffer = s.keyBuffer := by simp only [State.setArith, State.setArithKeepCF_keyBuffer, State.setFlag_keyBuffer]
@[simp] theorem State.setArith_fat (s : State) {w : Nat} (o : Arith w) : (s.setArith o).fat = s.fat := by simp only [State.setArith, State.setArithKeepCF_fat, State.setFlag_fat]
@[simp] theorem State.setArith_draws (s : State) {w : Nat} (o : Arith w) : (s.setArith o).draws = s.draws := by simp only [State.setArith, State.setArithKeepCF_draws, State.setFlag_draws]
@[simp] theorem State.setArith_portLog (s : State) {w : Nat} (o : Arith w) : (s.setArith o).portLog = s.portLog := by simp only [State.setArith, State.setArithKeepCF_portLog, State.setFlag_portLog]
@[simp] theorem State.setArith_trace (s : State) {w : Nat} (o : Arith w) : (s.setArith o).trace = s.trace := by simp only [State.setArith, State.setArithKeepCF_trace, State.setFlag_trace]

/-! ## setLogic -/

@[simp] theorem State.setLogic_regs (s : State) {w : Nat} (r : BitVec w) : (s.setLogic r).regs = s.regs := by simp only [State.setLogic, State.freeFlag_regs, State.setSZP_regs, State.setFlag_regs]
@[simp] theorem State.setLogic_segs (s : State) {w : Nat} (r : BitVec w) : (s.setLogic r).segs = s.segs := by simp only [State.setLogic, State.freeFlag_segs, State.setSZP_segs, State.setFlag_segs]
@[simp] theorem State.setLogic_ip (s : State) {w : Nat} (r : BitVec w) : (s.setLogic r).ip = s.ip := by simp only [State.setLogic, State.freeFlag_ip, State.setSZP_ip, State.setFlag_ip]
@[simp] theorem State.setLogic_halted (s : State) {w : Nat} (r : BitVec w) : (s.setLogic r).halted = s.halted := by simp only [State.setLogic, State.freeFlag_halted, State.setSZP_halted, State.setFlag_halted]
@[simp] theorem State.setLogic_haltReason (s : State) {w : Nat} (r : BitVec w) : (s.setLogic r).haltReason = s.haltReason := by simp only [State.setLogic, State.freeFlag_haltReason, State.setSZP_haltReason, State.setFlag_haltReason]
@[simp] theorem State.setLogic_segov (s : State) {w : Nat} (r : BitVec w) : (s.setLogic r).segov = s.segov := by simp only [State.setLogic, State.freeFlag_segov, State.setSZP_segov, State.setFlag_segov]
@[simp] theorem State.setLogic_rep (s : State) {w : Nat} (r : BitVec w) : (s.setLogic r).rep = s.rep := by simp only [State.setLogic, State.freeFlag_rep, State.setSZP_rep, State.setFlag_rep]
@[simp] theorem State.setLogic_mem (s : State) {w : Nat} (r : BitVec w) : (s.setLogic r).mem = s.mem := by simp only [State.setLogic, State.freeFlag_mem, State.setSZP_mem, State.setFlag_mem]
@[simp] theorem State.setLogic_ext186 (s : State) {w : Nat} (r : BitVec w) : (s.setLogic r).ext186 = s.ext186 := by simp only [State.setLogic, State.freeFlag_ext186, State.setSZP_ext186, State.setFlag_ext186]
@[simp] theorem State.setLogic_handlers (s : State) {w : Nat} (r : BitVec w) : (s.setLogic r).handlers = s.handlers := by simp only [State.setLogic, State.freeFlag_handlers, State.setSZP_handlers, State.setFlag_handlers]
@[simp] theorem State.setLogic_ports (s : State) {w : Nat} (r : BitVec w) : (s.setLogic r).ports = s.ports := by simp only [State.setLogic, State.freeFlag_ports, State.setSZP_ports, State.setFlag_ports]
@[simp] theorem State.setLogic_keyBuffer (s : State) {w : Nat} (r : BitVec w) : (s.setLogic r).keyBuffer = s.keyBuffer := by simp only [State.setLogic, State.freeFlag_keyBuffer, State.setSZP_keyBuffer, State.setFlag_keyBuffer]
@[simp] theorem State.setLogic_fat (s : State) {w : Nat} (r : BitVec w) : (s.setLogic r).fat = s.fat := by simp only [State.setLogic, State.freeFlag_fat, State.setSZP_fat, State.setFlag_fat]
@[simp] theorem State.setLogic_draws (s : State) {w : Nat} (r : BitVec w) : (s.setLogic r).draws = s.draws + 1 := by simp only [State.setLogic, State.freeFlag_draws, State.setSZP_draws, State.setFlag_draws]
@[simp] theorem State.setLogic_portLog (s : State) {w : Nat} (r : BitVec w) : (s.setLogic r).portLog = s.portLog := by simp only [State.setLogic, State.freeFlag_portLog, State.setSZP_portLog, State.setFlag_portLog]
@[simp] theorem State.setLogic_trace (s : State) {w : Nat} (r : BitVec w) : (s.setLogic r).trace = s.trace := by simp only [State.setLogic, State.freeFlag_trace, State.setSZP_trace, State.setFlag_trace]

/-! ## setRegW -/

@[simp] theorem State.setRegW_segs (s : State) (w : Width) (i : RegNum) (v : BitVec w.bits) : (s.setRegW w i v).segs = s.segs := by cases w <;> rfl
@[simp] theorem State.setRegW_ip (s : State) (w : Width) (i : RegNum) (v : BitVec w.bits) : (s.setRegW w i v).ip = s.ip := by cases w <;> rfl
@[simp] theorem State.setRegW_flags (s : State) (w : Width) (i : RegNum) (v : BitVec w.bits) : (s.setRegW w i v).flags = s.flags := by cases w <;> rfl
@[simp] theorem State.setRegW_halted (s : State) (w : Width) (i : RegNum) (v : BitVec w.bits) : (s.setRegW w i v).halted = s.halted := by cases w <;> rfl
@[simp] theorem State.setRegW_haltReason (s : State) (w : Width) (i : RegNum) (v : BitVec w.bits) : (s.setRegW w i v).haltReason = s.haltReason := by cases w <;> rfl
@[simp] theorem State.setRegW_segov (s : State) (w : Width) (i : RegNum) (v : BitVec w.bits) : (s.setRegW w i v).segov = s.segov := by cases w <;> rfl
@[simp] theorem State.setRegW_rep (s : State) (w : Width) (i : RegNum) (v : BitVec w.bits) : (s.setRegW w i v).rep = s.rep := by cases w <;> rfl
@[simp] theorem State.setRegW_mem (s : State) (w : Width) (i : RegNum) (v : BitVec w.bits) : (s.setRegW w i v).mem = s.mem := by cases w <;> rfl
@[simp] theorem State.setRegW_ext186 (s : State) (w : Width) (i : RegNum) (v : BitVec w.bits) : (s.setRegW w i v).ext186 = s.ext186 := by cases w <;> rfl
@[simp] theorem State.setRegW_handlers (s : State) (w : Width) (i : RegNum) (v : BitVec w.bits) : (s.setRegW w i v).handlers = s.handlers := by cases w <;> rfl
@[simp] theorem State.setRegW_ports (s : State) (w : Width) (i : RegNum) (v : BitVec w.bits) : (s.setRegW w i v).ports = s.ports := by cases w <;> rfl
@[simp] theorem State.setRegW_keyBuffer (s : State) (w : Width) (i : RegNum) (v : BitVec w.bits) : (s.setRegW w i v).keyBuffer = s.keyBuffer := by cases w <;> rfl
@[simp] theorem State.setRegW_fat (s : State) (w : Width) (i : RegNum) (v : BitVec w.bits) : (s.setRegW w i v).fat = s.fat := by cases w <;> rfl
@[simp] theorem State.setRegW_draws (s : State) (w : Width) (i : RegNum) (v : BitVec w.bits) : (s.setRegW w i v).draws = s.draws := by cases w <;> rfl
@[simp] theorem State.setRegW_portLog (s : State) (w : Width) (i : RegNum) (v : BitVec w.bits) : (s.setRegW w i v).portLog = s.portLog := by cases w <;> rfl
@[simp] theorem State.setRegW_trace (s : State) (w : Width) (i : RegNum) (v : BitVec w.bits) : (s.setRegW w i v).trace = s.trace := by cases w <;> rfl

/-! ## writeMem -/

@[simp] theorem State.writeMem_regs (s : State) (w : Width) (seg off : Word) (v : BitVec w.bits) : (s.writeMem w seg off v).regs = s.regs := by cases w <;> rfl
@[simp] theorem State.writeMem_segs (s : State) (w : Width) (seg off : Word) (v : BitVec w.bits) : (s.writeMem w seg off v).segs = s.segs := by cases w <;> rfl
@[simp] theorem State.writeMem_ip (s : State) (w : Width) (seg off : Word) (v : BitVec w.bits) : (s.writeMem w seg off v).ip = s.ip := by cases w <;> rfl
@[simp] theorem State.writeMem_flags (s : State) (w : Width) (seg off : Word) (v : BitVec w.bits) : (s.writeMem w seg off v).flags = s.flags := by cases w <;> rfl
@[simp] theorem State.writeMem_halted (s : State) (w : Width) (seg off : Word) (v : BitVec w.bits) : (s.writeMem w seg off v).halted = s.halted := by cases w <;> rfl
@[simp] theorem State.writeMem_haltReason (s : State) (w : Width) (seg off : Word) (v : BitVec w.bits) : (s.writeMem w seg off v).haltReason = s.haltReason := by cases w <;> rfl
@[simp] theorem State.writeMem_segov (s : State) (w : Width) (seg off : Word) (v : BitVec w.bits) : (s.writeMem w seg off v).segov = s.segov := by cases w <;> rfl
@[simp] theorem State.writeMem_rep (s : State) (w : Width) (seg off : Word) (v : BitVec w.bits) : (s.writeMem w seg off v).rep = s.rep := by cases w <;> rfl
@[simp] theorem State.writeMem_ext186 (s : State) (w : Width) (seg off : Word) (v : BitVec w.bits) : (s.writeMem w seg off v).ext186 = s.ext186 := by cases w <;> rfl
@[simp] theorem State.writeMem_handlers (s : State) (w : Width) (seg off : Word) (v : BitVec w.bits) : (s.writeMem w seg off v).handlers = s.handlers := by cases w <;> rfl
@[simp] theorem State.writeMem_ports (s : State) (w : Width) (seg off : Word) (v : BitVec w.bits) : (s.writeMem w seg off v).ports = s.ports := by cases w <;> rfl
@[simp] theorem State.writeMem_keyBuffer (s : State) (w : Width) (seg off : Word) (v : BitVec w.bits) : (s.writeMem w seg off v).keyBuffer = s.keyBuffer := by cases w <;> rfl
@[simp] theorem State.writeMem_fat (s : State) (w : Width) (seg off : Word) (v : BitVec w.bits) : (s.writeMem w seg off v).fat = s.fat := by cases w <;> rfl
@[simp] theorem State.writeMem_draws (s : State) (w : Width) (seg off : Word) (v : BitVec w.bits) : (s.writeMem w seg off v).draws = s.draws := by cases w <;> rfl
@[simp] theorem State.writeMem_portLog (s : State) (w : Width) (seg off : Word) (v : BitVec w.bits) : (s.writeMem w seg off v).portLog = s.portLog := by cases w <;> rfl
@[simp] theorem State.writeMem_trace (s : State) (w : Width) (seg off : Word) (v : BitVec w.bits) : (s.writeMem w seg off v).trace = s.trace := by cases w <;> rfl

/-! ## writePlace -/

@[simp] theorem State.writePlace_segs (s : State) (w : Width) (p : Place) (v : BitVec w.bits) : (s.writePlace w p v).segs = s.segs := by cases p <;> cases w <;> rfl
@[simp] theorem State.writePlace_ip (s : State) (w : Width) (p : Place) (v : BitVec w.bits) : (s.writePlace w p v).ip = s.ip := by cases p <;> cases w <;> rfl
@[simp] theorem State.writePlace_flags (s : State) (w : Width) (p : Place) (v : BitVec w.bits) : (s.writePlace w p v).flags = s.flags := by cases p <;> cases w <;> rfl
@[simp] theorem State.writePlace_halted (s : State) (w : Width) (p : Place) (v : BitVec w.bits) : (s.writePlace w p v).halted = s.halted := by cases p <;> cases w <;> rfl
@[simp] theorem State.writePlace_haltReason (s : State) (w : Width) (p : Place) (v : BitVec w.bits) : (s.writePlace w p v).haltReason = s.haltReason := by cases p <;> cases w <;> rfl
@[simp] theorem State.writePlace_segov (s : State) (w : Width) (p : Place) (v : BitVec w.bits) : (s.writePlace w p v).segov = s.segov := by cases p <;> cases w <;> rfl
@[simp] theorem State.writePlace_rep (s : State) (w : Width) (p : Place) (v : BitVec w.bits) : (s.writePlace w p v).rep = s.rep := by cases p <;> cases w <;> rfl
@[simp] theorem State.writePlace_ext186 (s : State) (w : Width) (p : Place) (v : BitVec w.bits) : (s.writePlace w p v).ext186 = s.ext186 := by cases p <;> cases w <;> rfl
@[simp] theorem State.writePlace_handlers (s : State) (w : Width) (p : Place) (v : BitVec w.bits) : (s.writePlace w p v).handlers = s.handlers := by cases p <;> cases w <;> rfl
@[simp] theorem State.writePlace_ports (s : State) (w : Width) (p : Place) (v : BitVec w.bits) : (s.writePlace w p v).ports = s.ports := by cases p <;> cases w <;> rfl
@[simp] theorem State.writePlace_keyBuffer (s : State) (w : Width) (p : Place) (v : BitVec w.bits) : (s.writePlace w p v).keyBuffer = s.keyBuffer := by cases p <;> cases w <;> rfl
@[simp] theorem State.writePlace_fat (s : State) (w : Width) (p : Place) (v : BitVec w.bits) : (s.writePlace w p v).fat = s.fat := by cases p <;> cases w <;> rfl
@[simp] theorem State.writePlace_draws (s : State) (w : Width) (p : Place) (v : BitVec w.bits) : (s.writePlace w p v).draws = s.draws := by cases p <;> cases w <;> rfl
@[simp] theorem State.writePlace_portLog (s : State) (w : Width) (p : Place) (v : BitVec w.bits) : (s.writePlace w p v).portLog = s.portLog := by cases p <;> cases w <;> rfl
@[simp] theorem State.writePlace_trace (s : State) (w : Width) (p : Place) (v : BitVec w.bits) : (s.writePlace w p v).trace = s.trace := by cases p <;> cases w <;> rfl

/-! ## push16 -/

@[simp] theorem State.push16_segs (s : State) (v : Word) : (s.push16 v).segs = s.segs := rfl
@[simp] theorem State.push16_ip (s : State) (v : Word) : (s.push16 v).ip = s.ip := rfl
@[simp] theorem State.push16_flags (s : State) (v : Word) : (s.push16 v).flags = s.flags := rfl
@[simp] theorem State.push16_halted (s : State) (v : Word) : (s.push16 v).halted = s.halted := rfl
@[simp] theorem State.push16_haltReason (s : State) (v : Word) : (s.push16 v).haltReason = s.haltReason := rfl
@[simp] theorem State.push16_segov (s : State) (v : Word) : (s.push16 v).segov = s.segov := rfl
@[simp] theorem State.push16_rep (s : State) (v : Word) : (s.push16 v).rep = s.rep := rfl
@[simp] theorem State.push16_ext186 (s : State) (v : Word) : (s.push16 v).ext186 = s.ext186 := rfl
@[simp] theorem State.push16_handlers (s : State) (v : Word) : (s.push16 v).handlers = s.handlers := rfl
@[simp] theorem State.push16_ports (s : State) (v : Word) : (s.push16 v).ports = s.ports := rfl
@[simp] theorem State.push16_keyBuffer (s : State) (v : Word) : (s.push16 v).keyBuffer = s.keyBuffer := rfl
@[simp] theorem State.push16_fat (s : State) (v : Word) : (s.push16 v).fat = s.fat := rfl
@[simp] theorem State.push16_draws (s : State) (v : Word) : (s.push16 v).draws = s.draws := rfl
@[simp] theorem State.push16_portLog (s : State) (v : Word) : (s.push16 v).portLog = s.portLog := rfl
@[simp] theorem State.push16_trace (s : State) (v : Word) : (s.push16 v).trace = s.trace := rfl

/-! ## freeFlags -/

@[simp] theorem State.freeFlags_regs (s : State) (fs : List Flag) : (s.freeFlags fs).regs = s.regs := by induction fs generalizing s with | nil => rfl | cons f fs ih => exact ih (s.freeFlag f)
@[simp] theorem State.freeFlags_segs (s : State) (fs : List Flag) : (s.freeFlags fs).segs = s.segs := by induction fs generalizing s with | nil => rfl | cons f fs ih => exact ih (s.freeFlag f)
@[simp] theorem State.freeFlags_ip (s : State) (fs : List Flag) : (s.freeFlags fs).ip = s.ip := by induction fs generalizing s with | nil => rfl | cons f fs ih => exact ih (s.freeFlag f)
@[simp] theorem State.freeFlags_halted (s : State) (fs : List Flag) : (s.freeFlags fs).halted = s.halted := by induction fs generalizing s with | nil => rfl | cons f fs ih => exact ih (s.freeFlag f)
@[simp] theorem State.freeFlags_haltReason (s : State) (fs : List Flag) : (s.freeFlags fs).haltReason = s.haltReason := by induction fs generalizing s with | nil => rfl | cons f fs ih => exact ih (s.freeFlag f)
@[simp] theorem State.freeFlags_segov (s : State) (fs : List Flag) : (s.freeFlags fs).segov = s.segov := by induction fs generalizing s with | nil => rfl | cons f fs ih => exact ih (s.freeFlag f)
@[simp] theorem State.freeFlags_rep (s : State) (fs : List Flag) : (s.freeFlags fs).rep = s.rep := by induction fs generalizing s with | nil => rfl | cons f fs ih => exact ih (s.freeFlag f)
@[simp] theorem State.freeFlags_mem (s : State) (fs : List Flag) : (s.freeFlags fs).mem = s.mem := by induction fs generalizing s with | nil => rfl | cons f fs ih => exact ih (s.freeFlag f)
@[simp] theorem State.freeFlags_ext186 (s : State) (fs : List Flag) : (s.freeFlags fs).ext186 = s.ext186 := by induction fs generalizing s with | nil => rfl | cons f fs ih => exact ih (s.freeFlag f)
@[simp] theorem State.freeFlags_handlers (s : State) (fs : List Flag) : (s.freeFlags fs).handlers = s.handlers := by induction fs generalizing s with | nil => rfl | cons f fs ih => exact ih (s.freeFlag f)
@[simp] theorem State.freeFlags_ports (s : State) (fs : List Flag) : (s.freeFlags fs).ports = s.ports := by induction fs generalizing s with | nil => rfl | cons f fs ih => exact ih (s.freeFlag f)
@[simp] theorem State.freeFlags_keyBuffer (s : State) (fs : List Flag) : (s.freeFlags fs).keyBuffer = s.keyBuffer := by induction fs generalizing s with | nil => rfl | cons f fs ih => exact ih (s.freeFlag f)
@[simp] theorem State.freeFlags_fat (s : State) (fs : List Flag) : (s.freeFlags fs).fat = s.fat := by induction fs generalizing s with | nil => rfl | cons f fs ih => exact ih (s.freeFlag f)
@[simp] theorem State.freeFlags_portLog (s : State) (fs : List Flag) : (s.freeFlags fs).portLog = s.portLog := by induction fs generalizing s with | nil => rfl | cons f fs ih => exact ih (s.freeFlag f)
@[simp] theorem State.freeFlags_trace (s : State) (fs : List Flag) : (s.freeFlags fs).trace = s.trace := by induction fs generalizing s with | nil => rfl | cons f fs ih => exact ih (s.freeFlag f)

/-! ## setProduct -/

@[simp] theorem State.setProduct_segs (s : State) (w : Width) (p : Int) : (s.setProduct w p).segs = s.segs := by cases w <;> rfl
@[simp] theorem State.setProduct_ip (s : State) (w : Width) (p : Int) : (s.setProduct w p).ip = s.ip := by cases w <;> rfl
@[simp] theorem State.setProduct_flags (s : State) (w : Width) (p : Int) : (s.setProduct w p).flags = s.flags := by cases w <;> rfl
@[simp] theorem State.setProduct_halted (s : State) (w : Width) (p : Int) : (s.setProduct w p).halted = s.halted := by cases w <;> rfl
@[simp] theorem State.setProduct_haltReason (s : State) (w : Width) (p : Int) : (s.setProduct w p).haltReason = s.haltReason := by cases w <;> rfl
@[simp] theorem State.setProduct_segov (s : State) (w : Width) (p : Int) : (s.setProduct w p).segov = s.segov := by cases w <;> rfl
@[simp] theorem State.setProduct_rep (s : State) (w : Width) (p : Int) : (s.setProduct w p).rep = s.rep := by cases w <;> rfl
@[simp] theorem State.setProduct_mem (s : State) (w : Width) (p : Int) : (s.setProduct w p).mem = s.mem := by cases w <;> rfl
@[simp] theorem State.setProduct_ext186 (s : State) (w : Width) (p : Int) : (s.setProduct w p).ext186 = s.ext186 := by cases w <;> rfl
@[simp] theorem State.setProduct_handlers (s : State) (w : Width) (p : Int) : (s.setProduct w p).handlers = s.handlers := by cases w <;> rfl
@[simp] theorem State.setProduct_ports (s : State) (w : Width) (p : Int) : (s.setProduct w p).ports = s.ports := by cases w <;> rfl
@[simp] theorem State.setProduct_keyBuffer (s : State) (w : Width) (p : Int) : (s.setProduct w p).keyBuffer = s.keyBuffer := by cases w <;> rfl
@[simp] theorem State.setProduct_fat (s : State) (w : Width) (p : Int) : (s.setProduct w p).fat = s.fat := by cases w <;> rfl
@[simp] theorem State.setProduct_draws (s : State) (w : Width) (p : Int) : (s.setProduct w p).draws = s.draws := by cases w <;> rfl
@[simp] theorem State.setProduct_portLog (s : State) (w : Width) (p : Int) : (s.setProduct w p).portLog = s.portLog := by cases w <;> rfl
@[simp] theorem State.setProduct_trace (s : State) (w : Width) (p : Int) : (s.setProduct w p).trace = s.trace := by cases w <;> rfl

/-! ## setQuotRem -/

@[simp] theorem State.setQuotRem_segs (s : State) (w : Width) (q r : Int) : (s.setQuotRem w q r).segs = s.segs := by cases w <;> rfl
@[simp] theorem State.setQuotRem_ip (s : State) (w : Width) (q r : Int) : (s.setQuotRem w q r).ip = s.ip := by cases w <;> rfl
@[simp] theorem State.setQuotRem_flags (s : State) (w : Width) (q r : Int) : (s.setQuotRem w q r).flags = s.flags := by cases w <;> rfl
@[simp] theorem State.setQuotRem_halted (s : State) (w : Width) (q r : Int) : (s.setQuotRem w q r).halted = s.halted := by cases w <;> rfl
@[simp] theorem State.setQuotRem_haltReason (s : State) (w : Width) (q r : Int) : (s.setQuotRem w q r).haltReason = s.haltReason := by cases w <;> rfl
@[simp] theorem State.setQuotRem_segov (s : State) (w : Width) (q r : Int) : (s.setQuotRem w q r).segov = s.segov := by cases w <;> rfl
@[simp] theorem State.setQuotRem_rep (s : State) (w : Width) (q r : Int) : (s.setQuotRem w q r).rep = s.rep := by cases w <;> rfl
@[simp] theorem State.setQuotRem_mem (s : State) (w : Width) (q r : Int) : (s.setQuotRem w q r).mem = s.mem := by cases w <;> rfl
@[simp] theorem State.setQuotRem_ext186 (s : State) (w : Width) (q r : Int) : (s.setQuotRem w q r).ext186 = s.ext186 := by cases w <;> rfl
@[simp] theorem State.setQuotRem_handlers (s : State) (w : Width) (q r : Int) : (s.setQuotRem w q r).handlers = s.handlers := by cases w <;> rfl
@[simp] theorem State.setQuotRem_ports (s : State) (w : Width) (q r : Int) : (s.setQuotRem w q r).ports = s.ports := by cases w <;> rfl
@[simp] theorem State.setQuotRem_keyBuffer (s : State) (w : Width) (q r : Int) : (s.setQuotRem w q r).keyBuffer = s.keyBuffer := by cases w <;> rfl
@[simp] theorem State.setQuotRem_fat (s : State) (w : Width) (q r : Int) : (s.setQuotRem w q r).fat = s.fat := by cases w <;> rfl
@[simp] theorem State.setQuotRem_draws (s : State) (w : Width) (q r : Int) : (s.setQuotRem w q r).draws = s.draws := by cases w <;> rfl
@[simp] theorem State.setQuotRem_portLog (s : State) (w : Width) (q r : Int) : (s.setQuotRem w q r).portLog = s.portLog := by cases w <;> rfl
@[simp] theorem State.setQuotRem_trace (s : State) (w : Width) (q r : Int) : (s.setQuotRem w q r).trace = s.trace := by cases w <;> rfl

/-! ## setMulFlags -/

@[simp] theorem State.setMulFlags_regs (s : State) (v : Bool) : (s.setMulFlags v).regs = s.regs := by simp only [State.setMulFlags, State.freeFlags_regs, State.setFlag_regs]
@[simp] theorem State.setMulFlags_segs (s : State) (v : Bool) : (s.setMulFlags v).segs = s.segs := by simp only [State.setMulFlags, State.freeFlags_segs, State.setFlag_segs]
@[simp] theorem State.setMulFlags_ip (s : State) (v : Bool) : (s.setMulFlags v).ip = s.ip := by simp only [State.setMulFlags, State.freeFlags_ip, State.setFlag_ip]
@[simp] theorem State.setMulFlags_halted (s : State) (v : Bool) : (s.setMulFlags v).halted = s.halted := by simp only [State.setMulFlags, State.freeFlags_halted, State.setFlag_halted]
@[simp] theorem State.setMulFlags_haltReason (s : State) (v : Bool) : (s.setMulFlags v).haltReason = s.haltReason := by simp only [State.setMulFlags, State.freeFlags_haltReason, State.setFlag_haltReason]
@[simp] theorem State.setMulFlags_segov (s : State) (v : Bool) : (s.setMulFlags v).segov = s.segov := by simp only [State.setMulFlags, State.freeFlags_segov, State.setFlag_segov]
@[simp] theorem State.setMulFlags_rep (s : State) (v : Bool) : (s.setMulFlags v).rep = s.rep := by simp only [State.setMulFlags, State.freeFlags_rep, State.setFlag_rep]
@[simp] theorem State.setMulFlags_mem (s : State) (v : Bool) : (s.setMulFlags v).mem = s.mem := by simp only [State.setMulFlags, State.freeFlags_mem, State.setFlag_mem]
@[simp] theorem State.setMulFlags_ext186 (s : State) (v : Bool) : (s.setMulFlags v).ext186 = s.ext186 := by simp only [State.setMulFlags, State.freeFlags_ext186, State.setFlag_ext186]
@[simp] theorem State.setMulFlags_handlers (s : State) (v : Bool) : (s.setMulFlags v).handlers = s.handlers := by simp only [State.setMulFlags, State.freeFlags_handlers, State.setFlag_handlers]
@[simp] theorem State.setMulFlags_ports (s : State) (v : Bool) : (s.setMulFlags v).ports = s.ports := by simp only [State.setMulFlags, State.freeFlags_ports, State.setFlag_ports]
@[simp] theorem State.setMulFlags_keyBuffer (s : State) (v : Bool) : (s.setMulFlags v).keyBuffer = s.keyBuffer := by simp only [State.setMulFlags, State.freeFlags_keyBuffer, State.setFlag_keyBuffer]
@[simp] theorem State.setMulFlags_fat (s : State) (v : Bool) : (s.setMulFlags v).fat = s.fat := by simp only [State.setMulFlags, State.freeFlags_fat, State.setFlag_fat]
@[simp] theorem State.setMulFlags_portLog (s : State) (v : Bool) : (s.setMulFlags v).portLog = s.portLog := by simp only [State.setMulFlags, State.freeFlags_portLog, State.setFlag_portLog]
@[simp] theorem State.setMulFlags_trace (s : State) (v : Bool) : (s.setMulFlags v).trace = s.trace := by simp only [State.setMulFlags, State.freeFlags_trace, State.setFlag_trace]

/-! ## freeDivFlags -/

@[simp] theorem State.freeDivFlags_regs (s : State) : (s.freeDivFlags).regs = s.regs := by simp only [State.freeDivFlags, State.freeFlags_regs]
@[simp] theorem State.freeDivFlags_segs (s : State) : (s.freeDivFlags).segs = s.segs := by simp only [State.freeDivFlags, State.freeFlags_segs]
@[simp] theorem State.freeDivFlags_ip (s : State) : (s.freeDivFlags).ip = s.ip := by simp only [State.freeDivFlags, State.freeFlags_ip]
@[simp] theorem State.freeDivFlags_halted (s : State) : (s.freeDivFlags).halted = s.halted := by simp only [State.freeDivFlags, State.freeFlags_halted]
@[simp] theorem State.freeDivFlags_haltReason (s : State) : (s.freeDivFlags).haltReason = s.haltReason := by simp only [State.freeDivFlags, State.freeFlags_haltReason]
@[simp] theorem State.freeDivFlags_segov (s : State) : (s.freeDivFlags).segov = s.segov := by simp only [State.freeDivFlags, State.freeFlags_segov]
@[simp] theorem State.freeDivFlags_rep (s : State) : (s.freeDivFlags).rep = s.rep := by simp only [State.freeDivFlags, State.freeFlags_rep]
@[simp] theorem State.freeDivFlags_mem (s : State) : (s.freeDivFlags).mem = s.mem := by simp only [State.freeDivFlags, State.freeFlags_mem]
@[simp] theorem State.freeDivFlags_ext186 (s : State) : (s.freeDivFlags).ext186 = s.ext186 := by simp only [State.freeDivFlags, State.freeFlags_ext186]
@[simp] theorem State.freeDivFlags_handlers (s : State) : (s.freeDivFlags).handlers = s.handlers := by simp only [State.freeDivFlags, State.freeFlags_handlers]
@[simp] theorem State.freeDivFlags_ports (s : State) : (s.freeDivFlags).ports = s.ports := by simp only [State.freeDivFlags, State.freeFlags_ports]
@[simp] theorem State.freeDivFlags_keyBuffer (s : State) : (s.freeDivFlags).keyBuffer = s.keyBuffer := by simp only [State.freeDivFlags, State.freeFlags_keyBuffer]
@[simp] theorem State.freeDivFlags_fat (s : State) : (s.freeDivFlags).fat = s.fat := by simp only [State.freeDivFlags, State.freeFlags_fat]
@[simp] theorem State.freeDivFlags_portLog (s : State) : (s.freeDivFlags).portLog = s.portLog := by simp only [State.freeDivFlags, State.freeFlags_portLog]
@[simp] theorem State.freeDivFlags_trace (s : State) : (s.freeDivFlags).trace = s.trace := by simp only [State.freeDivFlags, State.freeFlags_trace]

/-! ## setDecimal -/

@[simp] theorem State.setDecimal_segs (s : State) (x : Byte × Bool × Bool) : (s.setDecimal x).segs = s.segs := by simp only [State.setDecimal, State.freeFlag_segs, State.setSZP_segs, State.setFlag_segs, State.setHalf_segs]
@[simp] theorem State.setDecimal_ip (s : State) (x : Byte × Bool × Bool) : (s.setDecimal x).ip = s.ip := by simp only [State.setDecimal, State.freeFlag_ip, State.setSZP_ip, State.setFlag_ip, State.setHalf_ip]
@[simp] theorem State.setDecimal_halted (s : State) (x : Byte × Bool × Bool) : (s.setDecimal x).halted = s.halted := by simp only [State.setDecimal, State.freeFlag_halted, State.setSZP_halted, State.setFlag_halted, State.setHalf_halted]
@[simp] theorem State.setDecimal_haltReason (s : State) (x : Byte × Bool × Bool) : (s.setDecimal x).haltReason = s.haltReason := by simp only [State.setDecimal, State.freeFlag_haltReason, State.setSZP_haltReason, State.setFlag_haltReason, State.setHalf_haltReason]
@[simp] theorem State.setDecimal_segov (s : State) (x : Byte × Bool × Bool) : (s.setDecimal x).segov = s.segov := by simp only [State.setDecimal, State.freeFlag_segov, State.setSZP_segov, State.setFlag_segov, State.setHalf_segov]
@[simp] theorem State.setDecimal_rep (s : State) (x : Byte × Bool × Bool) : (s.setDecimal x).rep = s.rep := by simp only [State.setDecimal, State.freeFlag_rep, State.setSZP_rep, State.setFlag_rep, State.setHalf_rep]
@[simp] theorem State.setDecimal_mem (s : State) (x : Byte × Bool × Bool) : (s.setDecimal x).mem = s.mem := by simp only [State.setDecimal, State.freeFlag_mem, State.setSZP_mem, State.setFlag_mem, State.setHalf_mem]
@[simp] theorem State.setDecimal_ext186 (s : State) (x : Byte × Bool × Bool) : (s.setDecimal x).ext186 = s.ext186 := by simp only [State.setDecimal, State.freeFlag_ext186, State.setSZP_ext186, State.setFlag_ext186, State.setHalf_ext186]
@[simp] theorem State.setDecimal_handlers (s : State) (x : Byte × Bool × Bool) : (s.setDecimal x).handlers = s.handlers := by simp only [State.setDecimal, State.freeFlag_handlers, State.setSZP_handlers, State.setFlag_handlers, State.setHalf_handlers]
@[simp] theorem State.setDecimal_ports (s : State) (x : Byte × Bool × Bool) : (s.setDecimal x).ports = s.ports := by simp only [State.setDecimal, State.freeFlag_ports, State.setSZP_ports, State.setFlag_ports, State.setHalf_ports]
@[simp] theorem State.setDecimal_keyBuffer (s : State) (x : Byte × Bool × Bool) : (s.setDecimal x).keyBuffer = s.keyBuffer := by simp only [State.setDecimal, State.freeFlag_keyBuffer, State.setSZP_keyBuffer, State.setFlag_keyBuffer, State.setHalf_keyBuffer]
@[simp] theorem State.setDecimal_fat (s : State) (x : Byte × Bool × Bool) : (s.setDecimal x).fat = s.fat := by simp only [State.setDecimal, State.freeFlag_fat, State.setSZP_fat, State.setFlag_fat, State.setHalf_fat]
@[simp] theorem State.setDecimal_portLog (s : State) (x : Byte × Bool × Bool) : (s.setDecimal x).portLog = s.portLog := by simp only [State.setDecimal, State.freeFlag_portLog, State.setSZP_portLog, State.setFlag_portLog, State.setHalf_portLog]
@[simp] theorem State.setDecimal_trace (s : State) (x : Byte × Bool × Bool) : (s.setDecimal x).trace = s.trace := by simp only [State.setDecimal, State.freeFlag_trace, State.setSZP_trace, State.setFlag_trace, State.setHalf_trace]

/-! ## setAscii -/

@[simp] theorem State.setAscii_segs (s : State) (al ah : Byte) (adjusted : Bool) : (s.setAscii al ah adjusted).segs = s.segs := by simp only [State.setAscii, State.freeFlags_segs, State.setFlag_segs, State.setHalf_segs]
@[simp] theorem State.setAscii_ip (s : State) (al ah : Byte) (adjusted : Bool) : (s.setAscii al ah adjusted).ip = s.ip := by simp only [State.setAscii, State.freeFlags_ip, State.setFlag_ip, State.setHalf_ip]
@[simp] theorem State.setAscii_halted (s : State) (al ah : Byte) (adjusted : Bool) : (s.setAscii al ah adjusted).halted = s.halted := by simp only [State.setAscii, State.freeFlags_halted, State.setFlag_halted, State.setHalf_halted]
@[simp] theorem State.setAscii_haltReason (s : State) (al ah : Byte) (adjusted : Bool) : (s.setAscii al ah adjusted).haltReason = s.haltReason := by simp only [State.setAscii, State.freeFlags_haltReason, State.setFlag_haltReason, State.setHalf_haltReason]
@[simp] theorem State.setAscii_segov (s : State) (al ah : Byte) (adjusted : Bool) : (s.setAscii al ah adjusted).segov = s.segov := by simp only [State.setAscii, State.freeFlags_segov, State.setFlag_segov, State.setHalf_segov]
@[simp] theorem State.setAscii_rep (s : State) (al ah : Byte) (adjusted : Bool) : (s.setAscii al ah adjusted).rep = s.rep := by simp only [State.setAscii, State.freeFlags_rep, State.setFlag_rep, State.setHalf_rep]
@[simp] theorem State.setAscii_mem (s : State) (al ah : Byte) (adjusted : Bool) : (s.setAscii al ah adjusted).mem = s.mem := by simp only [State.setAscii, State.freeFlags_mem, State.setFlag_mem, State.setHalf_mem]
@[simp] theorem State.setAscii_ext186 (s : State) (al ah : Byte) (adjusted : Bool) : (s.setAscii al ah adjusted).ext186 = s.ext186 := by simp only [State.setAscii, State.freeFlags_ext186, State.setFlag_ext186, State.setHalf_ext186]
@[simp] theorem State.setAscii_handlers (s : State) (al ah : Byte) (adjusted : Bool) : (s.setAscii al ah adjusted).handlers = s.handlers := by simp only [State.setAscii, State.freeFlags_handlers, State.setFlag_handlers, State.setHalf_handlers]
@[simp] theorem State.setAscii_ports (s : State) (al ah : Byte) (adjusted : Bool) : (s.setAscii al ah adjusted).ports = s.ports := by simp only [State.setAscii, State.freeFlags_ports, State.setFlag_ports, State.setHalf_ports]
@[simp] theorem State.setAscii_keyBuffer (s : State) (al ah : Byte) (adjusted : Bool) : (s.setAscii al ah adjusted).keyBuffer = s.keyBuffer := by simp only [State.setAscii, State.freeFlags_keyBuffer, State.setFlag_keyBuffer, State.setHalf_keyBuffer]
@[simp] theorem State.setAscii_fat (s : State) (al ah : Byte) (adjusted : Bool) : (s.setAscii al ah adjusted).fat = s.fat := by simp only [State.setAscii, State.freeFlags_fat, State.setFlag_fat, State.setHalf_fat]
@[simp] theorem State.setAscii_portLog (s : State) (al ah : Byte) (adjusted : Bool) : (s.setAscii al ah adjusted).portLog = s.portLog := by simp only [State.setAscii, State.freeFlags_portLog, State.setFlag_portLog, State.setHalf_portLog]
@[simp] theorem State.setAscii_trace (s : State) (al ah : Byte) (adjusted : Bool) : (s.setAscii al ah adjusted).trace = s.trace := by simp only [State.setAscii, State.freeFlags_trace, State.setFlag_trace, State.setHalf_trace]

/-! ## setShiftFlags -/

@[simp] theorem State.setShiftFlags_regs (s : State) {w : Nat} (op : ShiftOp) (n : Nat) (a r : BitVec w) (cf : Bool) : (s.setShiftFlags op n a r cf).regs = s.regs := by unfold State.setShiftFlags; split <;> split <;> simp only [State.freeFlag_regs, State.setSZP_regs, State.setFlag_regs]
@[simp] theorem State.setShiftFlags_segs (s : State) {w : Nat} (op : ShiftOp) (n : Nat) (a r : BitVec w) (cf : Bool) : (s.setShiftFlags op n a r cf).segs = s.segs := by unfold State.setShiftFlags; split <;> split <;> simp only [State.freeFlag_segs, State.setSZP_segs, State.setFlag_segs]
@[simp] theorem State.setShiftFlags_ip (s : State) {w : Nat} (op : ShiftOp) (n : Nat) (a r : BitVec w) (cf : Bool) : (s.setShiftFlags op n a r cf).ip = s.ip := by unfold State.setShiftFlags; split <;> split <;> simp only [State.freeFlag_ip, State.setSZP_ip, State.setFlag_ip]
@[simp] theorem State.setShiftFlags_halted (s : State) {w : Nat} (op : ShiftOp) (n : Nat) (a r : BitVec w) (cf : Bool) : (s.setShiftFlags op n a r cf).halted = s.halted := by unfold State.setShiftFlags; split <;> split <;> simp only [State.freeFlag_halted, State.setSZP_halted, State.setFlag_halted]
@[simp] theorem State.setShiftFlags_haltReason (s : State) {w : Nat} (op : ShiftOp) (n : Nat) (a r : BitVec w) (cf : Bool) : (s.setShiftFlags op n a r cf).haltReason = s.haltReason := by unfold State.setShiftFlags; split <;> split <;> simp only [State.freeFlag_haltReason, State.setSZP_haltReason, State.setFlag_haltReason]
@[simp] theorem State.setShiftFlags_segov (s : State) {w : Nat} (op : ShiftOp) (n : Nat) (a r : BitVec w) (cf : Bool) : (s.setShiftFlags op n a r cf).segov = s.segov := by unfold State.setShiftFlags; split <;> split <;> simp only [State.freeFlag_segov, State.setSZP_segov, State.setFlag_segov]
@[simp] theorem State.setShiftFlags_rep (s : State) {w : Nat} (op : ShiftOp) (n : Nat) (a r : BitVec w) (cf : Bool) : (s.setShiftFlags op n a r cf).rep = s.rep := by unfold State.setShiftFlags; split <;> split <;> simp only [State.freeFlag_rep, State.setSZP_rep, State.setFlag_rep]
@[simp] theorem State.setShiftFlags_mem (s : State) {w : Nat} (op : ShiftOp) (n : Nat) (a r : BitVec w) (cf : Bool) : (s.setShiftFlags op n a r cf).mem = s.mem := by unfold State.setShiftFlags; split <;> split <;> simp only [State.freeFlag_mem, State.setSZP_mem, State.setFlag_mem]
@[simp] theorem State.setShiftFlags_ext186 (s : State) {w : Nat} (op : ShiftOp) (n : Nat) (a r : BitVec w) (cf : Bool) : (s.setShiftFlags op n a r cf).ext186 = s.ext186 := by unfold State.setShiftFlags; split <;> split <;> simp only [State.freeFlag_ext186, State.setSZP_ext186, State.setFlag_ext186]
@[simp] theorem State.setShiftFlags_handlers (s : State) {w : Nat} (op : ShiftOp) (n : Nat) (a r : BitVec w) (cf : Bool) : (s.setShiftFlags op n a r cf).handlers = s.handlers := by unfold State.setShiftFlags; split <;> split <;> simp only [State.freeFlag_handlers, State.setSZP_handlers, State.setFlag_handlers]
@[simp] theorem State.setShiftFlags_ports (s : State) {w : Nat} (op : ShiftOp) (n : Nat) (a r : BitVec w) (cf : Bool) : (s.setShiftFlags op n a r cf).ports = s.ports := by unfold State.setShiftFlags; split <;> split <;> simp only [State.freeFlag_ports, State.setSZP_ports, State.setFlag_ports]
@[simp] theorem State.setShiftFlags_keyBuffer (s : State) {w : Nat} (op : ShiftOp) (n : Nat) (a r : BitVec w) (cf : Bool) : (s.setShiftFlags op n a r cf).keyBuffer = s.keyBuffer := by unfold State.setShiftFlags; split <;> split <;> simp only [State.freeFlag_keyBuffer, State.setSZP_keyBuffer, State.setFlag_keyBuffer]
@[simp] theorem State.setShiftFlags_fat (s : State) {w : Nat} (op : ShiftOp) (n : Nat) (a r : BitVec w) (cf : Bool) : (s.setShiftFlags op n a r cf).fat = s.fat := by unfold State.setShiftFlags; split <;> split <;> simp only [State.freeFlag_fat, State.setSZP_fat, State.setFlag_fat]
@[simp] theorem State.setShiftFlags_portLog (s : State) {w : Nat} (op : ShiftOp) (n : Nat) (a r : BitVec w) (cf : Bool) : (s.setShiftFlags op n a r cf).portLog = s.portLog := by unfold State.setShiftFlags; split <;> split <;> simp only [State.freeFlag_portLog, State.setSZP_portLog, State.setFlag_portLog]
@[simp] theorem State.setShiftFlags_trace (s : State) {w : Nat} (op : ShiftOp) (n : Nat) (a r : BitVec w) (cf : Bool) : (s.setShiftFlags op n a r cf).trace = s.trace := by unfold State.setShiftFlags; split <;> split <;> simp only [State.freeFlag_trace, State.setSZP_trace, State.setFlag_trace]

/-! ## portRead8 -/

@[simp] theorem State.portRead8_regs (s : State) (p : Word) : ((s.portRead8 p).2).regs = s.regs := by unfold State.portRead8; split <;> rfl
@[simp] theorem State.portRead8_segs (s : State) (p : Word) : ((s.portRead8 p).2).segs = s.segs := by unfold State.portRead8; split <;> rfl
@[simp] theorem State.portRead8_ip (s : State) (p : Word) : ((s.portRead8 p).2).ip = s.ip := by unfold State.portRead8; split <;> rfl
@[simp] theorem State.portRead8_flags (s : State) (p : Word) : ((s.portRead8 p).2).flags = s.flags := by unfold State.portRead8; split <;> rfl
@[simp] theorem State.portRead8_halted (s : State) (p : Word) : ((s.portRead8 p).2).halted = s.halted := by unfold State.portRead8; split <;> rfl
@[simp] theorem State.portRead8_haltReason (s : State) (p : Word) : ((s.portRead8 p).2).haltReason = s.haltReason := by unfold State.portRead8; split <;> rfl
@[simp] theorem State.portRead8_segov (s : State) (p : Word) : ((s.portRead8 p).2).segov = s.segov := by unfold State.portRead8; split <;> rfl
@[simp] theorem State.portRead8_rep (s : State) (p : Word) : ((s.portRead8 p).2).rep = s.rep := by unfold State.portRead8; split <;> rfl
@[simp] theorem State.portRead8_mem (s : State) (p : Word) : ((s.portRead8 p).2).mem = s.mem := by unfold State.portRead8; split <;> rfl
@[simp] theorem State.portRead8_ext186 (s : State) (p : Word) : ((s.portRead8 p).2).ext186 = s.ext186 := by unfold State.portRead8; split <;> rfl
@[simp] theorem State.portRead8_handlers (s : State) (p : Word) : ((s.portRead8 p).2).handlers = s.handlers := by unfold State.portRead8; split <;> rfl
@[simp] theorem State.portRead8_ports (s : State) (p : Word) : ((s.portRead8 p).2).ports = s.ports := by unfold State.portRead8; split <;> rfl
@[simp] theorem State.portRead8_keyBuffer (s : State) (p : Word) : ((s.portRead8 p).2).keyBuffer = s.keyBuffer := by unfold State.portRead8; split <;> rfl
@[simp] theorem State.portRead8_fat (s : State) (p : Word) : ((s.portRead8 p).2).fat = s.fat := by unfold State.portRead8; split <;> rfl
@[simp] theorem State.portRead8_trace (s : State) (p : Word) : ((s.portRead8 p).2).trace = s.trace := by unfold State.portRead8; split <;> rfl

/-! ## portWrite8 -/

@[simp] theorem State.portWrite8_regs (s : State) (p : Word) (b : Byte) : (s.portWrite8 p b).regs = s.regs := by unfold State.portWrite8; split <;> rfl
@[simp] theorem State.portWrite8_segs (s : State) (p : Word) (b : Byte) : (s.portWrite8 p b).segs = s.segs := by unfold State.portWrite8; split <;> rfl
@[simp] theorem State.portWrite8_ip (s : State) (p : Word) (b : Byte) : (s.portWrite8 p b).ip = s.ip := by unfold State.portWrite8; split <;> rfl
@[simp] theorem State.portWrite8_flags (s : State) (p : Word) (b : Byte) : (s.portWrite8 p b).flags = s.flags := by unfold State.portWrite8; split <;> rfl
@[simp] theorem State.portWrite8_halted (s : State) (p : Word) (b : Byte) : (s.portWrite8 p b).halted = s.halted := by unfold State.portWrite8; split <;> rfl
@[simp] theorem State.portWrite8_haltReason (s : State) (p : Word) (b : Byte) : (s.portWrite8 p b).haltReason = s.haltReason := by unfold State.portWrite8; split <;> rfl
@[simp] theorem State.portWrite8_segov (s : State) (p : Word) (b : Byte) : (s.portWrite8 p b).segov = s.segov := by unfold State.portWrite8; split <;> rfl
@[simp] theorem State.portWrite8_rep (s : State) (p : Word) (b : Byte) : (s.portWrite8 p b).rep = s.rep := by unfold State.portWrite8; split <;> rfl
@[simp] theorem State.portWrite8_mem (s : State) (p : Word) (b : Byte) : (s.portWrite8 p b).mem = s.mem := by unfold State.portWrite8; split <;> rfl
@[simp] theorem State.portWrite8_ext186 (s : State) (p : Word) (b : Byte) : (s.portWrite8 p b).ext186 = s.ext186 := by unfold State.portWrite8; split <;> rfl
@[simp] theorem State.portWrite8_handlers (s : State) (p : Word) (b : Byte) : (s.portWrite8 p b).handlers = s.handlers := by unfold State.portWrite8; split <;> rfl
@[simp] theorem State.portWrite8_ports (s : State) (p : Word) (b : Byte) : (s.portWrite8 p b).ports = s.ports := by unfold State.portWrite8; split <;> rfl
@[simp] theorem State.portWrite8_keyBuffer (s : State) (p : Word) (b : Byte) : (s.portWrite8 p b).keyBuffer = s.keyBuffer := by unfold State.portWrite8; split <;> rfl
@[simp] theorem State.portWrite8_fat (s : State) (p : Word) (b : Byte) : (s.portWrite8 p b).fat = s.fat := by unfold State.portWrite8; split <;> rfl
@[simp] theorem State.portWrite8_draws (s : State) (p : Word) (b : Byte) : (s.portWrite8 p b).draws = s.draws := by unfold State.portWrite8; split <;> rfl
@[simp] theorem State.portWrite8_trace (s : State) (p : Word) (b : Byte) : (s.portWrite8 p b).trace = s.trace := by unfold State.portWrite8; split <;> rfl

end Sys2Proof.Machine
end

