-- ==== Sys2Proof/Laws/Registers.lean ====
section
/-! SUPPORT. The register accessors after each update: registers, byte halves, segment registers (10_state R31-R40). -/

namespace Sys2Proof

/-! ## Widths -/

theorem Width.bits_cases (w : Width) : w.bits = 8 ∨ w.bits = 16 := by cases w <;> simp

end Sys2Proof

namespace Sys2Proof.Machine

/-! ## General registers -/

@[simp] theorem Regs.get_set_same (g : Regs) (r : Reg16) (v : Word) : (g.set r v).get r = v := by cases r <;> rfl

theorem Regs.get_set (g : Regs) (r q : Reg16) (v : Word) : (g.set r v).get q = if q = r then v else g.get q := by
  cases r <;> cases q <;> rfl

theorem Regs.get_set_ne (g : Regs) {r q : Reg16} (h : q ≠ r) (v : Word) : (g.set r v).get q = g.get q := by
  rw [Regs.get_set, if_neg h]

theorem Regs.ext_get {g k : Regs} (h : ∀ r, g.get r = k.get r) : g = k := by
  cases g; cases k
  simp only [Regs.mk.injEq]
  exact ⟨h .ax, h .cx, h .dx, h .bx, h .sp, h .bp, h .si, h .di⟩

@[simp] theorem Regs.set_get_same (g : Regs) (r : Reg16) : g.set r (g.get r) = g := by cases r <;> rfl

/-- Two registers are equal as data when every register reads the same. -/
theorem State.regs_eq {s t : State} (h : ∀ r, t.reg r = s.reg r) : t.regs = s.regs := Regs.ext_get h

@[simp] theorem State.reg_setReg_same (s : State) (r : Reg16) (v : Word) : (s.setReg r v).reg r = v := by
  simp [State.reg]

theorem State.reg_setReg (s : State) (r q : Reg16) (v : Word) :
    (s.setReg r v).reg q = if q = r then v else s.reg q := Regs.get_set ..

theorem State.reg_setReg_ne (s : State) {r q : Reg16} (h : q ≠ r) (v : Word) : (s.setReg r v).reg q = s.reg q :=
  Regs.get_set_ne _ h _

/-! ## Byte halves -/

theorem append_low (a b : Byte) : (a ++ b).extractLsb' 0 8 = b := BitVec.extractLsb'_append_eq_right

theorem append_high (a b : Byte) : (a ++ b).extractLsb' 8 8 = a := BitVec.extractLsb'_append_eq_left

/-- A concatenation as a number. -/
theorem toNat_append_eq {m n : Nat} (a : BitVec m) (b : BitVec n) : (a ++ b).toNat = a.toNat * 2 ^ n + b.toNat := by
  rw [BitVec.toNat_append, Nat.shiftLeft_eq, Nat.mul_comm, ← Nat.two_pow_add_eq_or_of_lt b.isLt]

theorem toNat_extract_low (x : Word) : (x.extractLsb' 0 8).toNat = x.toNat % 256 := by simp [BitVec.extractLsb']

theorem toNat_extract_high (x : Word) : (x.extractLsb' 8 8).toNat = x.toNat / 256 := by
  have := x.isLt
  simp [BitVec.extractLsb', Nat.shiftRight_eq_div_pow]; omega

@[simp] theorem extract_withHalf (b : Bool) (x : Word) (v : Byte) :
    (withHalf b x v).extractLsb' (if b then 8 else 0) 8 = v := by
  cases b
  · exact append_low _ _
  · exact append_high _ _

/-- The other half of a word with one half replaced. -/
theorem extract_withHalf_not (b : Bool) (x : Word) (v : Byte) :
    (withHalf b x v).extractLsb' (if !b then 8 else 0) 8 = x.extractLsb' (if !b then 8 else 0) 8 := by
  cases b
  · exact append_high _ _
  · exact append_low _ _

theorem State.half_eq (s : State) (h : Reg8) :
    s.half h = (s.reg h.parent).extractLsb' (if h.isHigh then 8 else 0) 8 := by
  unfold State.half; cases h.isHigh <;> rfl

/-- A half is the low or the high 8 bits of its register, and the two make the register up. -/
theorem word_of_halves (x : Word) : x.extractLsb' 8 8 ++ x.extractLsb' 0 8 = x := by
  ext i hi
  simp only [BitVec.getElem_append, BitVec.getElem_extractLsb']
  split
  · simp [BitVec.getLsbD_eq_getElem hi]
  · rw [BitVec.getLsbD_eq_getElem (by omega)]; congr 1; omega

@[simp] theorem State.half_setHalf_same (s : State) (h : Reg8) (v : Byte) : (s.setHalf h v).half h = v := by
  simp [State.half_eq, State.reg]

theorem Reg8.eq_of_parent {h q : Reg8} (hp : q.parent = h.parent) (hh : q.isHigh = h.isHigh) : q = h := by
  revert hp hh; cases h <;> cases q <;> decide

/-- The other halves are as before. -/
theorem State.half_setHalf_ne (s : State) {h q : Reg8} (hq : q ≠ h) (v : Byte) : (s.setHalf h v).half q = s.half q := by
  by_cases hp : q.parent = h.parent
  · have hh : q.isHigh = !h.isHigh := by
      rcases Bool.eq_or_eq_not q.isHigh h.isHigh with e | e
      · exact absurd (Reg8.eq_of_parent hp e) hq
      · exact e
    rw [State.half_eq, State.half_eq, hp, hh, State.setHalf, State.reg, State.setReg_regs, Regs.get_set_same,
      extract_withHalf_not]
  · rw [State.half_eq, State.half_eq, State.setHalf, State.reg, State.setReg_regs, Regs.get_set_ne _ hp]; rfl

theorem State.half_setHalf (s : State) (h q : Reg8) (v : Byte) :
    (s.setHalf h v).half q = if q = h then v else s.half q := by
  split
  · subst q; simp
  · exact State.half_setHalf_ne s ‹_› v

theorem State.reg_setHalf (s : State) (h : Reg8) (q : Reg16) (v : Byte) :
    (s.setHalf h v).reg q = if q = h.parent then withHalf h.isHigh (s.reg h.parent) v else s.reg q := Regs.get_set ..

theorem State.reg_setHalf_ne (s : State) {h : Reg8} {q : Reg16} (hq : q ≠ h.parent) (v : Byte) :
    (s.setHalf h v).reg q = s.reg q := Regs.get_set_ne _ hq _

theorem State.half_setReg_same (s : State) {r : Reg16} {h : Reg8} (hr : h.parent = r) (v : Word) :
    (s.setReg r v).half h = v.extractLsb' (if h.isHigh then 8 else 0) 8 := by
  subst r; simp [State.half_eq]

theorem State.half_setReg_ne (s : State) {r : Reg16} {h : Reg8} (hr : h.parent ≠ r) (v : Word) :
    (s.setReg r v).half h = s.half h := by
  simp [State.half_eq, State.reg_setReg_ne s hr]

/-- A register is its two halves. -/
theorem State.ax_eq_halves (s : State) : s.reg .ax = s.half .ah ++ s.half .al := (word_of_halves _).symm

/-! ## By width -/

@[simp] theorem State.regW_setRegW_same (w : Width) (s : State) (i : RegNum) (v : BitVec w.bits) :
    (s.setRegW w i v).regW w i = v := by
  cases w
  · exact State.half_setHalf_same s i.r8 v
  · exact State.reg_setReg_same s i.r16 v

theorem RegNum.r16_injective {i j : RegNum} (h : i.r16 = j.r16) : i = j := by
  cases i <;> cases j <;> first | rfl | cases h

theorem RegNum.r8_injective {i j : RegNum} (h : i.r8 = j.r8) : i = j := by
  cases i <;> cases j <;> first | rfl | cases h

theorem State.regW_setRegW_ne (w : Width) (s : State) {i j : RegNum} (h : j ≠ i) (v : BitVec w.bits) :
    (s.setRegW w i v).regW w j = s.regW w j := by
  cases w
  · exact State.half_setHalf_ne s (fun e => h (RegNum.r8_injective e)) v
  · exact State.reg_setReg_ne s (fun e => h (RegNum.r16_injective e)) v

/-! ## Segment registers -/

@[simp] theorem Segs.get_set_same (g : Segs) (r : SReg) (v : Word) : (g.set r v).get r = v := by cases r <;> rfl

theorem Segs.get_set (g : Segs) (r q : SReg) (v : Word) : (g.set r v).get q = if q = r then v else g.get q := by
  cases r <;> cases q <;> rfl

theorem Segs.get_set_ne (g : Segs) {r q : SReg} (h : q ≠ r) (v : Word) : (g.set r v).get q = g.get q := by
  rw [Segs.get_set, if_neg h]

theorem Segs.ext_get {g k : Segs} (h : ∀ r, g.get r = k.get r) : g = k := by
  cases g; cases k
  simp only [Segs.mk.injEq]
  exact ⟨h .es, h .cs, h .ss, h .ds, h .fs, h .gs⟩

@[simp] theorem State.seg_setSeg_same (s : State) (r : SReg) (v : Word) : (s.setSeg r v).seg r = v := by
  simp [State.seg]

theorem State.seg_setSeg (s : State) (r q : SReg) (v : Word) :
    (s.setSeg r v).seg q = if q = r then v else s.seg q := Segs.get_set ..

theorem State.seg_setSeg_ne (s : State) {r q : SReg} (h : q ≠ r) (v : Word) : (s.setSeg r v).seg q = s.seg q :=
  Segs.get_set_ne _ h _

/-! ## States that agree on the registers or the segment registers -/

theorem State.reg_congr {s t : State} (h : t.regs = s.regs) (r : Reg16) : t.reg r = s.reg r := by
  rw [State.reg, h]; rfl

theorem State.half_congr {s t : State} (h : t.regs = s.regs) (r : Reg8) : t.half r = s.half r := by
  rw [State.half_eq, State.half_eq, State.reg_congr h]

theorem State.regW_congr {s t : State} (h : t.regs = s.regs) (w : Width) (r : RegNum) : t.regW w r = s.regW w r := by
  cases w
  · exact State.half_congr h _
  · exact State.reg_congr h _

theorem State.seg_congr {s t : State} (h : t.segs = s.segs) (r : SReg) : t.seg r = s.seg r := by
  rw [State.seg, h]; rfl

end Sys2Proof.Machine
end

