-- ==== Sys2Proof/Laws/Fat.lean ====
section
/-! SUPPORT. The translator (48_fat12_translator): the partial maps, one lemma per operation of the sector cache, and two relations
that later proofs compose: `Quiet`, what every reading operation leaves as it was, and `Keeps`, what every operation keeps. -/

namespace Sys2Proof.Machine

/-! ## Partial maps (R522) -/

theorem SectorMap.get_put (m : SectorMap) (s t : Nat) (b : Sector) :
    (m.put s b).get t = if t = s then some b else m.get t := by
  induction m with
  | nil => by_cases h : s = t <;> simp [SectorMap.put, SectorMap.get, h, eq_comm]
  | cons p r ih =>
    obtain ⟨k, c⟩ := p
    unfold SectorMap.put
    split
    · by_cases h : s = t <;> simp [SectorMap.get, h, eq_comm]
    · split
      · subst k
        by_cases h : s = t <;> simp [SectorMap.get, h, eq_comm]
      · by_cases h : k = t
        · subst k
          simp [SectorMap.get, Ne.symm ‹s ≠ t›]
        · simp [SectorMap.get, h, ih]

@[simp] theorem SectorMap.get_put_same (m : SectorMap) (s : Nat) (b : Sector) : (m.put s b).get s = some b := by
  simp [SectorMap.get_put]

theorem SectorMap.get_put_ne (m : SectorMap) {s t : Nat} (h : t ≠ s) (b : Sector) : (m.put s b).get t = m.get t := by
  simp [SectorMap.get_put, h]

theorem SectorMap.wfFrom_cons {lo k : Nat} {b : Sector} {m : SectorMap} :
    SectorMap.wfFrom lo ((k, b) :: m) = true ↔
      lo ≤ k ∧ k < 2880 ∧ b.length = 512 ∧ SectorMap.wfFrom (k + 1) m = true := by
  rw [SectorMap.wfFrom]
  simp only [Bool.and_eq_true, decide_eq_true_eq, beq_iff_eq, and_assoc]
  exact Iff.rfl

theorem SectorMap.wfFrom_mono {m : SectorMap} {lo lo' : Nat} (h : lo' ≤ lo) (hm : SectorMap.wfFrom lo m = true) :
    SectorMap.wfFrom lo' m = true := by
  cases m with
  | nil => rfl
  | cons p r =>
    obtain ⟨k, b⟩ := p
    rw [SectorMap.wfFrom_cons] at hm ⊢
    exact ⟨h.trans hm.1, hm.2⟩

theorem SectorMap.wfFrom_put {m : SectorMap} {lo s : Nat} {b : Sector} (hm : SectorMap.wfFrom lo m = true) (hlo : lo ≤ s)
    (hs : s < 2880) (hb : b.length = 512) : SectorMap.wfFrom lo (m.put s b) = true := by
  induction m generalizing lo with
  | nil => simp [SectorMap.put, SectorMap.wfFrom, hlo, hs, hb, Config.totalSectors, Config.sectorSize]
  | cons p r ih =>
    obtain ⟨k, c⟩ := p
    have hm' := SectorMap.wfFrom_cons.1 hm
    unfold SectorMap.put
    split
    · exact SectorMap.wfFrom_cons.2 ⟨hlo, hs, hb, SectorMap.wfFrom_cons.2 ⟨by omega, hm'.2⟩⟩
    · split
      · subst k
        exact SectorMap.wfFrom_cons.2 ⟨hlo, hs, hb, hm'.2.2.2⟩
      · exact SectorMap.wfFrom_cons.2 ⟨hm'.1, hm'.2.1, hm'.2.2.1, ih hm'.2.2.2 (by omega)⟩

theorem SectorMap.length_of_get {m : SectorMap} {lo s : Nat} {b : Sector} (hm : SectorMap.wfFrom lo m = true)
    (h : m.get s = some b) : b.length = 512 := by
  induction m generalizing lo with
  | nil => simp [SectorMap.get] at h
  | cons p r ih =>
    obtain ⟨k, c⟩ := p
    have hm' := SectorMap.wfFrom_cons.1 hm
    unfold SectorMap.get at h
    split at h
    · simp only [Option.some.injEq] at h
      exact h ▸ hm'.2.2.1
    · exact ih hm'.2.2.2 h

theorem SectorMap.key_lt {m : SectorMap} {lo s : Nat} {b : Sector} (hm : SectorMap.wfFrom lo m = true)
    (h : m.get s = some b) : s < 2880 := by
  induction m generalizing lo with
  | nil => simp [SectorMap.get] at h
  | cons p r ih =>
    obtain ⟨k, c⟩ := p
    have hm' := SectorMap.wfFrom_cons.1 hm
    unfold SectorMap.get at h
    split at h
    · exact ‹k = s› ▸ hm'.2.1
    · exact ih hm'.2.2.2 h

theorem mem_insertIndex {s t : Nat} (l : List Nat) : t ∈ insertIndex s l ↔ t = s ∨ t ∈ l := by
  induction l with
  | nil => simp [insertIndex]
  | cons k r ih =>
    unfold insertIndex
    split
    · simp
    · split
      · subst k
        simp
      · simp only [List.mem_cons, ih]
        tauto

theorem indicesFrom_insertIndex {lo s : Nat} {l : List Nat} (hl : indicesFrom lo l = true) (hlo : lo ≤ s) :
    indicesFrom lo (insertIndex s l) = true := by
  induction l generalizing lo with
  | nil => simp [insertIndex, indicesFrom, hlo]
  | cons k r ih =>
    simp only [indicesFrom, Bool.and_eq_true, decide_eq_true_eq] at hl
    unfold insertIndex
    split
    · simp only [indicesFrom, Bool.and_eq_true, decide_eq_true_eq]
      exact ⟨hlo, by omega, hl.2⟩
    · split
      · subst k
        simp [indicesFrom, hl]
      · simp only [indicesFrom, Bool.and_eq_true, decide_eq_true_eq]
        exact ⟨hl.1, ih hl.2 (by omega)⟩

theorem SectorMap.keys_put (m : SectorMap) (s : Nat) (b : Sector) : (m.put s b).keys = insertIndex s m.keys := by
  induction m with
  | nil => rfl
  | cons p r ih =>
    obtain ⟨k, c⟩ := p
    simp only [SectorMap.keys] at ih ⊢
    simp only [SectorMap.put, List.map_cons, insertIndex]
    split
    · rfl
    · split
      · subst k
        rfl
      · rw [List.map_cons, ih]

/-- The keys of the store rise strictly and are sector indices. -/
def SectorMap.keysWf (m : SectorMap) : Prop := indicesFrom 0 m.keys = true ∧ ∀ s ∈ m.keys, s < 2880

theorem SectorMap.keysWf_put {m : SectorMap} (h : m.keysWf) {s : Nat} (hs : s < 2880) (b : Sector) : (m.put s b).keysWf := by
  rw [SectorMap.keysWf, SectorMap.keys_put]
  refine ⟨indicesFrom_insertIndex h.1 (Nat.zero_le _), fun t ht => ?_⟩
  rcases (mem_insertIndex _).1 ht with rfl | ht
  · exact hs
  · exact h.2 t ht

/-! ## The cache (R523-R525) -/

theorem FatState.wf_iff {f : FatState} : f.wf = true ↔
    f.store.keysWf ∧ SectorMap.wfFrom 0 f.cache = true ∧ indicesFrom 0 f.dirty = true ∧
      ∀ n ∈ f.dirty, (f.cache.get n).isSome = true := by
  simp only [FatState.wf, SectorMap.keysWf, Bool.and_eq_true, List.all_eq_true, decide_eq_true_eq, and_assoc]
  exact Iff.rfl

theorem FatState.length_stored (f : FatState) (n : Nat) : (f.stored n).length = 512 := by
  unfold FatState.stored
  split
  · exact List.length_replicate
  · split
    · split
      · assumption
      · exact List.length_replicate
    · exact List.length_replicate

theorem FatState.stored_of_get {f : FatState} {n : Nat} {b : Sector} (hf : n ∉ f.failsGet) (h : f.store.get n = some b)
    (hb : b.length = 512) : f.stored n = b := by
  rw [FatState.stored, if_neg (by simpa using hf), h]
  exact if_pos hb

theorem FatState.stored_of_fails {f : FatState} {n : Nat} (h : n ∈ f.failsGet) : f.stored n = zeroSector := by
  rw [FatState.stored, if_pos (by simpa using h)]

theorem FatState.stored_of_absent {f : FatState} {n : Nat} (h : f.store.get n = none) : f.stored n = zeroSector := by
  rw [FatState.stored, h]
  split <;> rfl

/-- A sector reads alike from two stores that hold the same for it and fail alike. -/
theorem FatState.stored_congr {f g : FatState} {n : Nat} (hg : g.failsGet = f.failsGet) (h : g.store.get n = f.store.get n) :
    g.stored n = f.stored n := by
  rw [FatState.stored, FatState.stored, hg, h]

/-- What a read answers. -/
theorem FatState.view_eq (f : FatState) (n : Nat) : f.view n = (f.cache.get n).getD (f.stored n) := by
  unfold FatState.view FatState.readSector
  cases f.cache.get n <;> rfl

theorem FatState.length_view {f : FatState} (h : f.wf = true) (n : Nat) : (f.view n).length = 512 := by
  rw [FatState.view_eq]
  cases hc : f.cache.get n with
  | some b => exact SectorMap.length_of_get (FatState.wf_iff.1 h).2.1 hc
  | none => exact f.length_stored n

/-- What an operation leaves as it was when it only reads: every sector reads the same, nothing more is dirty, and the store is
the same; the state stays well-formed, and the cache goes on agreeing with the store. -/
structure Quiet (f g : FatState) : Prop where
  view : ∀ n, g.view n = f.view n
  dirty : g.dirty = f.dirty
  store : g.store = f.store
  wf : f.wf = true → g.wf = true
  agrees : f.cacheAgrees → g.cacheAgrees

theorem Quiet.refl (f : FatState) : Quiet f f := ⟨fun _ => rfl, rfl, rfl, id, id⟩

theorem Quiet.trans {f g h : FatState} (a : Quiet f g) (b : Quiet g h) : Quiet f h :=
  ⟨fun n => (b.view n).trans (a.view n), b.dirty.trans a.dirty, b.store.trans a.store, b.wf ∘ a.wf, b.agrees ∘ a.agrees⟩

theorem FatState.readSector_view (f : FatState) (n : Nat) : (f.readSector n).1 = f.view n := rfl

/-- A read changes no view. -/
theorem FatState.view_readSector (f : FatState) (n m : Nat) : (f.readSector n).2.view m = f.view m := by
  unfold FatState.readSector
  split
  · rfl
  · rw [FatState.view_eq, FatState.view_eq, SectorMap.get_put]
    split
    · subst m
      simp [*]
    · rfl

theorem quiet_readSector (f : FatState) {n : Nat} (hn : n < 2880) : Quiet f (f.readSector n).2 := by
  refine ⟨FatState.view_readSector f n, ?_, ?_, ?_, ?_⟩
  · unfold FatState.readSector
    split <;> rfl
  · unfold FatState.readSector
    split <;> rfl
  · intro h
    have hl := FatState.length_view h n
    unfold FatState.readSector
    split
    · exact h
    · rename_i hc
      rw [FatState.view_eq, hc] at hl
      obtain ⟨h1, h2, h3, h4⟩ := FatState.wf_iff.1 h
      refine FatState.wf_iff.2 ⟨h1, SectorMap.wfFrom_put h2 (Nat.zero_le _) hn hl, h3, fun k hk => ?_⟩
      have := h4 k hk
      simp only [SectorMap.get_put]
      split <;> simp_all
  · intro h
    unfold FatState.readSector
    split
    · exact h
    · intro m b hm hg hp hb
      dsimp only at hm hg hp hb ⊢
      rw [SectorMap.get_put] at hb
      split at hb
      · subst m
        exact Option.some.inj hb
      · exact h m b hm hg hp hb

theorem FatState.view_writeSector (f : FatState) (n m : Nat) (b : Sector) :
    (f.writeSector n b).view m = if m = n then b else f.view m := by
  rw [FatState.view_eq, FatState.view_eq]
  simp only [FatState.writeSector, SectorMap.get_put]
  split <;> rfl

theorem FatState.wf_writeSector {f : FatState} {n : Nat} {b : Sector} (h : f.wf = true) (hn : n < 2880) (hb : b.length = 512) :
    (f.writeSector n b).wf = true := by
  obtain ⟨h1, h2, h3, h4⟩ := FatState.wf_iff.1 h
  refine FatState.wf_iff.2 ⟨h1, SectorMap.wfFrom_put h2 (Nat.zero_le _) hn hb, indicesFrom_insertIndex h3 (Nat.zero_le _), ?_⟩
  intro k hk
  simp only [FatState.writeSector, mem_insertIndex] at hk
  simp only [FatState.writeSector, SectorMap.get_put]
  split
  · rfl
  · exact h4 k (hk.resolve_left ‹_›)

theorem FatState.agrees_writeSector {f : FatState} (n : Nat) (b : Sector) (h : f.cacheAgrees) :
    (f.writeSector n b).cacheAgrees := by
  intro m c hm hg hp hc
  simp only [FatState.writeSector, mem_insertIndex, not_or] at hm
  simp only [FatState.writeSector, SectorMap.get_put, if_neg hm.1] at hc
  exact h m c hm.2 hg hp hc

/-- The store after the puts of a flush. -/
theorem FatState.get_foldl_putInto (f : FatState) (l : List Nat) (st : SectorMap) (m : Nat)
    (h : ∀ n ∈ l, (f.cache.get n).isSome = true) :
    SectorMap.get (l.foldl f.putInto st) m = if m ∈ l ∧ m ∉ f.failsPut then f.cache.get m else st.get m := by
  induction l generalizing st with
  | nil => simp
  | cons k r ih =>
    obtain ⟨b, hb⟩ := Option.isSome_iff_exists.1 (h k (List.mem_cons_self ..))
    have hput : (f.putInto st k).get m = if m = k ∧ m ∉ f.failsPut then f.cache.get m else st.get m := by
      unfold FatState.putInto
      by_cases hm : m = k
      · subst m
        by_cases hp : k ∈ f.failsPut <;> simp [hp, hb]
      · split
        · simp [hm]
        · rw [hb]
          simp [hm, SectorMap.get_put]
    rw [List.foldl_cons, ih _ fun n hn => h n (List.mem_cons_of_mem _ hn), hput]
    by_cases hp : m ∈ f.failsPut
    · simp [hp]
    · by_cases hr : m ∈ r <;> simp [hp, hr]

theorem FatState.keysWf_foldl_putInto {f : FatState} (hc : SectorMap.wfFrom 0 f.cache = true) (l : List Nat) {st : SectorMap}
    (hs : st.keysWf) : SectorMap.keysWf (l.foldl f.putInto st) := by
  induction l generalizing st with
  | nil => exact hs
  | cons k r ih =>
    rw [List.foldl_cons]
    apply ih
    unfold FatState.putInto
    split
    · exact hs
    · split
      · rename_i b hb
        exact SectorMap.keysWf_put hs (SectorMap.key_lt hc hb) b
      · exact hs

theorem FatState.store_flush {f : FatState} (h : f.wf = true) (m : Nat) :
    f.flush.store.get m = if m ∈ f.dirty ∧ m ∉ f.failsPut then f.cache.get m else f.store.get m :=
  f.get_foldl_putInto f.dirty f.store m (FatState.wf_iff.1 h).2.2.2

/-- What the store yields after a flush. -/
theorem FatState.stored_flush {f : FatState} (h : f.wf = true) (m : Nat) :
    f.flush.stored m = if m ∈ f.dirty ∧ m ∉ f.failsPut ∧ m ∉ f.failsGet then f.view m else f.stored m := by
  obtain ⟨-, h2, -, h4⟩ := FatState.wf_iff.1 h
  have hs := FatState.store_flush h m
  split
  · rename_i hm
    obtain ⟨b, hb⟩ := Option.isSome_iff_exists.1 (h4 m hm.1)
    rw [if_pos ⟨hm.1, hm.2.1⟩, hb] at hs
    rw [FatState.view_eq, hb]
    exact FatState.stored_of_get hm.2.2 hs (SectorMap.length_of_get h2 hb)
  · rename_i hm
    by_cases hg : m ∈ f.failsGet
    · rw [FatState.stored_of_fails hg, FatState.stored_of_fails (f := f.flush) hg]
    · rw [if_neg (fun h => hm ⟨h.1, h.2, hg⟩)] at hs
      exact FatState.stored_congr rfl hs

theorem FatState.view_flush {f : FatState} (h : f.wf = true) (m : Nat) : f.flush.view m = f.view m := by
  rw [FatState.view_eq, FatState.stored_flush h]
  change (f.cache.get m).getD _ = _
  rw [FatState.view_eq]
  cases hc : f.cache.get m with
  | some b => rfl
  | none =>
    have hm : m ∉ f.dirty := fun hm => by
      have := (FatState.wf_iff.1 h).2.2.2 m hm
      rw [hc] at this
      exact Bool.noConfusion this
    rw [if_neg fun h => hm h.1]

theorem FatState.wf_flush {f : FatState} (h : f.wf = true) : f.flush.wf = true := by
  obtain ⟨h1, h2, -, -⟩ := FatState.wf_iff.1 h
  exact FatState.wf_iff.2 ⟨FatState.keysWf_foldl_putInto h2 _ h1, h2, rfl, by simp [FatState.flush]⟩

theorem FatState.agrees_flush {f : FatState} (h : f.wf = true) (ha : f.cacheAgrees) : f.flush.cacheAgrees := by
  intro m b _ hg hp hb
  rw [FatState.stored_flush h]
  have hb : f.cache.get m = some b := hb
  split
  · rw [FatState.view_eq, hb]
    rfl
  · rename_i hm
    exact ha m b (fun hd => hm ⟨hd, hp, hg⟩) hg hp hb

/-! ## The FAT (R540-R545) -/

/-- Byte `o` of the FAT that begins at sector `start`, as it reads. -/
def FatState.fatView (f : FatState) (start o : Nat) : Byte := (f.view (start + o / 512)).getD (o % 512) 0#8

theorem FatState.fatByte_view (f : FatState) (start o : Nat) : (f.fatByte start o).1 = f.fatView start o := rfl

theorem quiet_fatByte (f : FatState) {start o : Nat} (h : start + o / 512 < 2880) : Quiet f (f.fatByte start o).2 :=
  quiet_readSector f h

theorem fatView_congr {f g : FatState} (h : ∀ n, g.view n = f.view n) (start o : Nat) : g.fatView start o = f.fatView start o := by
  simp only [FatState.fatView, h]

/-- The 12-bit entry of a cluster, as it reads. -/
def FatState.entry (f : FatState) (c : Nat) : BitVec 12 :=
  entryOfWord c (f.fatView 1 (fatOffset c + 1) ++ f.fatView 1 (fatOffset c))

theorem FatState.view_fatByte (f : FatState) (start o m : Nat) : (f.fatByte start o).2.view m = f.view m :=
  FatState.view_readSector f _ m

theorem FatState.fatWord_eq (f : FatState) (c : Nat) :
    (f.fatWord c).1 = f.fatView 1 (fatOffset c + 1) ++ f.fatView 1 (fatOffset c) := by
  have h : (f.fatWord c).1
      = (show Word from ((f.fatByte 1 (fatOffset c)).2.fatByte 1 (fatOffset c + 1)).1 ++ (f.fatByte 1 (fatOffset c)).1) := rfl
  rw [h, FatState.fatByte_view, FatState.fatByte_view, fatView_congr (FatState.view_fatByte f 1 (fatOffset c))]

theorem FatState.fatGet_entry (f : FatState) (c : Nat) : (f.fatGet c).1 = f.entry c := by
  show entryOfWord c (f.fatWord c).1 = _
  rw [FatState.fatWord_eq]
  rfl

theorem FatState.view_fatGet (f : FatState) (c m : Nat) : (f.fatGet c).2.view m = f.view m :=
  (FatState.view_fatByte _ _ _ m).trans (FatState.view_fatByte f _ _ m)

theorem entry_congr {f g : FatState} (h : ∀ n, g.view n = f.view n) (c : Nat) : g.entry c = f.entry c := by
  simp only [FatState.entry, fatView_congr h]

theorem fatOffset_bound {c : Nat} (h : c < 3072) : fatOffset c + 1 < 4608 := by
  unfold fatOffset
  omega

theorem quiet_fatWord (f : FatState) {c : Nat} (h : c < 3072) : Quiet f (f.fatWord c).2 := by
  have := fatOffset_bound h
  exact (quiet_fatByte f (start := 1) (o := fatOffset c) (by omega)).trans
    (quiet_fatByte _ (start := 1) (o := fatOffset c + 1) (by omega))

theorem quiet_fatGet (f : FatState) {c : Nat} (h : c < 3072) : Quiet f (f.fatGet c).2 := quiet_fatWord f h

/-- The scan finds the first free entry, and only reads. -/
theorem allocateFrom_spec (n c : Nat) (f : FatState) (h : c + n ≤ 3072) :
    Quiet f (FatState.allocateFrom n c f).2 ∧
    (∀ k, (FatState.allocateFrom n c f).1 = some k →
      c ≤ k ∧ k < c + n ∧ f.entry k = 0#12 ∧ ∀ d, c ≤ d → d < k → f.entry d ≠ 0#12) ∧
    ((FatState.allocateFrom n c f).1 = none → ∀ d, c ≤ d → d < c + n → f.entry d ≠ 0#12) := by
  induction n generalizing c f with
  | zero => exact ⟨Quiet.refl f, by simp [FatState.allocateFrom], fun _ d h1 h2 => by omega⟩
  | succ n ih =>
    have q := quiet_fatGet f (c := c) (by omega)
    have he : (f.fatGet c).1 = f.entry c := FatState.fatGet_entry f c
    have step : FatState.allocateFrom (n + 1) c f
        = if (f.fatGet c).1 = 0#12 then (some c, (f.fatGet c).2) else FatState.allocateFrom n (c + 1) (f.fatGet c).2 := rfl
    rw [step, he]
    split
    · refine ⟨q, fun k hk => ?_, fun hk => by simp at hk⟩
      simp only [Option.some.injEq] at hk
      subst hk
      exact ⟨le_rfl, by omega, ‹_›, fun d h1 h2 => by omega⟩
    · obtain ⟨i1, i2, i3⟩ := ih (c + 1) (f.fatGet c).2 (by omega)
      have hent : ∀ d, (f.fatGet c).2.entry d = f.entry d := entry_congr q.view
      simp only [hent] at i2 i3
      refine ⟨q.trans i1, fun k hk => ?_, fun hk d h1 h2 => ?_⟩
      · obtain ⟨a, b, z, l⟩ := i2 k hk
        refine ⟨by omega, by omega, z, fun d h1 h2 => ?_⟩
        rcases Nat.eq_or_lt_of_le h1 with rfl | h1
        · assumption
        · exact l d h1 h2
      · rcases Nat.eq_or_lt_of_le h1 with rfl | h1
        · assumption
        · exact i3 hk d h1 (by omega)

theorem FatState.setFatByte_eq (f : FatState) (start o : Nat) (b : Byte) :
    f.setFatByte start o b
      = (f.readSector (start + o / 512)).2.writeSector (start + o / 512) ((f.view (start + o / 512)).set (o % 512) b) := rfl

theorem FatState.fatSet_eq (f : FatState) (c : Nat) (v : BitVec 12) :
    f.fatSet c v
      = ((((f.fatWord c).2.setFatByte 1 (fatOffset c) ((wordWithEntry c (f.fatWord c).1 v).extractLsb' 0 8)).setFatByte 1
          (fatOffset c + 1) ((wordWithEntry c (f.fatWord c).1 v).extractLsb' 8 8)).setFatByte 10 (fatOffset c)
          ((wordWithEntry c (f.fatWord c).1 v).extractLsb' 0 8)).setFatByte 10 (fatOffset c + 1)
          ((wordWithEntry c (f.fatWord c).1 v).extractLsb' 8 8) := rfl

/-- A byte of a FAT written. -/
theorem fatView_setFatByte {f : FatState} (hw : f.wf = true) (start start' o o' : Nat) (b : Byte) :
    (f.setFatByte start o b).fatView start' o'
      = if start + o / 512 = start' + o' / 512 ∧ o % 512 = o' % 512 then b else f.fatView start' o' := by
  have hs : (f.setFatByte start o b).view (start' + o' / 512)
      = if start' + o' / 512 = start + o / 512 then (f.view (start + o / 512)).set (o % 512) b else f.view (start' + o' / 512) := by
    rw [FatState.setFatByte_eq, FatState.view_writeSector, FatState.view_readSector]
  have hl := FatState.length_view hw (start + o / 512)
  unfold FatState.fatView
  rw [hs]
  by_cases h : start' + o' / 512 = start + o / 512
  · rw [if_pos h, h]
    by_cases ho : o % 512 = o' % 512
    · rw [if_pos ⟨rfl, ho⟩, ← ho, List.getD_eq_getElem?_getD, List.getElem?_set_self (by omega)]
      rfl
    · rw [if_neg (by simp [ho]), List.getD_eq_getElem?_getD, List.getElem?_set_ne ho, List.getD_eq_getElem?_getD]
  · rw [if_neg h, if_neg (by omega)]

/-- What every operation of the translator keeps, given a well-formed state: the state's form, the two FATs identical, the cache's
agreement with the store. -/
structure Keeps (f g : FatState) : Prop where
  wf : f.wf = true → g.wf = true
  fats : f.wf = true → f.fatsAgree → g.fatsAgree
  agrees : f.wf = true → f.cacheAgrees → g.cacheAgrees

theorem Keeps.refl (f : FatState) : Keeps f f := ⟨id, fun _ => id, fun _ => id⟩

theorem Keeps.trans {f g h : FatState} (a : Keeps f g) (b : Keeps g h) : Keeps f h :=
  ⟨fun w => b.wf (a.wf w), fun w x => b.fats (a.wf w) (a.fats w x), fun w x => b.agrees (a.wf w) (a.agrees w x)⟩

theorem fatsAgree_congr {f g : FatState} (h : ∀ n, (1 ≤ n ∧ n < 19) → g.view n = f.view n) (a : f.fatsAgree) : g.fatsAgree := by
  intro k hk
  have := a k hk
  simp only [FatState.fatByte_view, FatState.fatView] at this ⊢
  rw [h _ (by omega), h _ (by omega)]
  exact this

theorem Quiet.keeps {f g : FatState} (q : Quiet f g) : Keeps f g :=
  ⟨q.wf, fun _ => fatsAgree_congr fun n _ => q.view n, fun _ => q.agrees⟩

/-- Writing a sector that is part of no FAT. -/
theorem keeps_writeSector (f : FatState) {n : Nat} {b : Sector} (hn : n < 2880) (hf : n < 1 ∨ 19 ≤ n) (hb : b.length = 512) :
    Keeps f (f.writeSector n b) :=
  ⟨fun h => FatState.wf_writeSector h hn hb,
    fun _ => fatsAgree_congr fun m hm => by rw [FatState.view_writeSector, if_neg (by omega)],
    fun _ => FatState.agrees_writeSector n b⟩

theorem keeps_flush (f : FatState) : Keeps f f.flush :=
  ⟨FatState.wf_flush, fun h => fatsAgree_congr fun m _ => FatState.view_flush h m, fun h => FatState.agrees_flush h⟩

theorem wf_setFatByte {f : FatState} (h : f.wf = true) {start o : Nat} (ho : start + o / 512 < 2880) (b : Byte) :
    (f.setFatByte start o b).wf = true := by
  rw [FatState.setFatByte_eq]
  exact FatState.wf_writeSector ((quiet_readSector f ho).wf h) ho (by rw [List.length_set, FatState.length_view h])

theorem agrees_setFatByte {f : FatState} (h : f.cacheAgrees) {start o : Nat} (ho : start + o / 512 < 2880) (b : Byte) :
    (f.setFatByte start o b).cacheAgrees :=
  FatState.agrees_writeSector _ _ ((quiet_readSector f ho).agrees h)

/-- The entry written into a word is the entry read from it. -/
theorem entryOfWord_wordWithEntry (c : Nat) (wd : Word) (v : BitVec 12) : entryOfWord c (wordWithEntry c wd v) = v := by
  unfold entryOfWord wordWithEntry
  split <;> ext i hi <;> interval_cases i <;> simp

theorem getLsbD_join (a b : Byte) (i : Nat) :
    BitVec.getLsbD (w := 16) (a ++ b) i = if i < 8 then b.getLsbD i else a.getLsbD (i - 8) := BitVec.getLsbD_append

/-- The entry after an even one keeps the four bits that share a byte with it. -/
theorem entryOfWord_next {c : Nat} (h : c % 2 = 0) (a b e : Byte) (v : BitVec 12) :
    entryOfWord (c + 1) (e ++ (wordWithEntry c (a ++ b) v).extractLsb' 8 8) = entryOfWord (c + 1) (e ++ a) := by
  have h1 : ¬(c + 1) % 2 = 0 := by omega
  simp only [entryOfWord, wordWithEntry, if_pos h, if_neg h1]
  ext i hi
  interval_cases i <;> simp [← BitVec.getLsbD_eq_getElem, getLsbD_join]

/-- The entry before an odd one keeps the four bits that share a byte with it. -/
theorem entryOfWord_prev {d : Nat} (h : d % 2 = 0) (a b e : Byte) (v : BitVec 12) :
    entryOfWord d ((wordWithEntry (d + 1) (a ++ b) v).extractLsb' 0 8 ++ e) = entryOfWord d (b ++ e) := by
  have h1 : ¬(d + 1) % 2 = 0 := by omega
  simp only [entryOfWord, wordWithEntry, if_pos h, if_neg h1]
  ext i hi
  interval_cases i <;> simp [← BitVec.getLsbD_eq_getElem, getLsbD_join]

/-- What a write of a FAT entry does to the bytes of the two FATs, and that it touches nothing else. -/
theorem fatSet_spec {f : FatState} (hw : f.wf = true) {c : Nat} (hc : c < 3072) (v : BitVec 12) :
    let o := fatOffset c
    let wd := wordWithEntry c (f.fatView 1 (o + 1) ++ f.fatView 1 o) v
    (∀ start, start = 1 ∨ start = 10 → ∀ k < 4608,
      (f.fatSet c v).fatView start k
        = if k = o then wd.extractLsb' 0 8 else if k = o + 1 then wd.extractLsb' 8 8 else f.fatView start k) ∧
    (∀ m, m < 1 ∨ 19 ≤ m → (f.fatSet c v).view m = f.view m) ∧ (f.fatSet c v).store = f.store ∧
    (f.fatSet c v).wf = true ∧ (f.cacheAgrees → (f.fatSet c v).cacheAgrees) := by
  intro o wd
  have hb : o + 1 < 4608 := fatOffset_bound hc
  have q := quiet_fatWord f hc
  obtain ⟨g, hg⟩ : ∃ g, g = (f.fatWord c).2 := ⟨_, rfl⟩
  have heq : f.fatSet c v = (((g.setFatByte 1 o (wd.extractLsb' 0 8)).setFatByte 1 (o + 1) (wd.extractLsb' 8 8)).setFatByte 10 o
      (wd.extractLsb' 0 8)).setFatByte 10 (o + 1) (wd.extractLsb' 8 8) := by
    rw [FatState.fatSet_eq, FatState.fatWord_eq, hg]
  rw [← hg] at q
  have w0 := q.wf hw
  have w1 := wf_setFatByte w0 (start := 1) (o := o) (by omega) (wd.extractLsb' 0 8)
  have w2 := wf_setFatByte w1 (start := 1) (o := o + 1) (by omega) (wd.extractLsb' 8 8)
  have w3 := wf_setFatByte w2 (start := 10) (o := o) (by omega) (wd.extractLsb' 0 8)
  have w4 := wf_setFatByte w3 (start := 10) (o := o + 1) (by omega) (wd.extractLsb' 8 8)
  rw [heq]
  refine ⟨fun start hs k hk => ?_, fun m hm => ?_, ?_, w4, fun ha => ?_⟩
  · rw [fatView_setFatByte w3, fatView_setFatByte w2, fatView_setFatByte w1, fatView_setFatByte w0, fatView_congr q.view]
    rcases hs with rfl | rfl
    all_goals
      by_cases h1 : k = o
      · rw [if_pos h1]
        repeat (first | rw [if_pos (by omega)] | rw [if_neg (by omega)])
      · rw [if_neg h1]
        by_cases h2 : k = o + 1
        · rw [if_pos h2]
          repeat (first | rw [if_pos (by omega)] | rw [if_neg (by omega)])
        · rw [if_neg h2]
          repeat (first | rw [if_pos (by omega)] | rw [if_neg (by omega)])
  · have hset : ∀ (x : FatState) (start k : Nat) (b : Byte), m ≠ start + k / 512 → (x.setFatByte start k b).view m = x.view m := by
      intro x start k b hne
      rw [FatState.setFatByte_eq, FatState.view_writeSector, if_neg hne, FatState.view_readSector]
    rw [hset _ _ _ _ (by omega), hset _ _ _ _ (by omega), hset _ _ _ _ (by omega), hset _ _ _ _ (by omega), q.view]
  · have hstore : ∀ (x : FatState) (start k : Nat) (b : Byte), start + k / 512 < 2880 → (x.setFatByte start k b).store = x.store :=
      fun x start k b h => (quiet_readSector x h).store
    rw [hstore _ _ _ _ (by omega), hstore _ _ _ _ (by omega), hstore _ _ _ _ (by omega), hstore _ _ _ _ (by omega), q.store]
  · exact agrees_setFatByte (agrees_setFatByte (agrees_setFatByte (agrees_setFatByte (q.agrees ha) (by omega) _) (by omega) _)
      (by omega) _) (by omega) _

/-- The entries after a write: the one written, and the others as before. -/
theorem entry_fatSet {f : FatState} (hw : f.wf = true) {c d : Nat} (hc : c < 3072) (hd : d < 3072) (v : BitVec 12) :
    (f.fatSet c v).entry d = if d = c then v else f.entry d := by
  have hv := (fatSet_spec hw hc v).1 1 (.inl rfl)
  have bd := fatOffset_bound hd
  unfold FatState.entry
  rw [hv _ bd, hv _ (by omega)]
  generalize f.fatView 1 = F
  generalize hwd : wordWithEntry c (F (fatOffset c + 1) ++ F (fatOffset c)) v = wd
  by_cases h : d = c
  · subst d
    rw [if_pos rfl, if_neg (by omega), if_pos rfl, if_pos rfl]
    refine (congrArg (entryOfWord c) (word_of_halves wd)).trans ?_
    rw [← hwd]
    exact entryOfWord_wordWithEntry ..
  · rw [if_neg h]
    unfold fatOffset at hwd ⊢
    by_cases he : c % 2 = 0
    · by_cases h1 : d = c + 1
      · subst h1
        rw [if_neg (by omega), if_neg (by omega), if_neg (by omega), if_pos (by omega)]
        have e1 : c + 1 + (c + 1) / 2 = c + c / 2 + 1 := by omega
        rw [e1, ← hwd]
        exact entryOfWord_next he _ _ _ v
      · repeat (first | rw [if_neg (by omega)])
    · by_cases h1 : d + 1 = c
      · subst h1
        rw [if_pos (by omega), if_neg (by omega), if_neg (by omega)]
        have e1 : d + 1 + (d + 1) / 2 = d + d / 2 + 1 := by omega
        rw [e1] at hwd
        rw [← hwd]
        exact entryOfWord_prev (by omega) _ _ _ v
      · repeat (first | rw [if_neg (by omega)])

theorem keeps_fatSet (f : FatState) {c : Nat} (hc : c < 3072) (v : BitVec 12) : Keeps f (f.fatSet c v) := by
  refine ⟨fun h => (fatSet_spec h hc v).2.2.2.1, fun h ha k hk => ?_, fun h => (fatSet_spec h hc v).2.2.2.2⟩
  have hv := (fatSet_spec h hc v).1
  have := ha k hk
  simp only [FatState.fatByte_view] at this ⊢
  rw [hv 1 (.inl rfl) k hk, hv 10 (.inr rfl) k hk, this]

/-! ## The chain walk (R550-R555) -/

theorem validCluster_iff {c : Nat} : validCluster c = true ↔ 2 ≤ c ∧ c < 2849 := by
  rw [validCluster, Bool.and_eq_true, decide_eq_true_eq, decide_eq_true_eq]
  exact Iff.rfl

/-- A walk as one step and the rest. -/
theorem FatState.walkFrom_succ (f : FatState) (n c : Nat) (cs : List Nat) :
    f.walkFrom (n + 1) c cs
      = if !validCluster c || cs.contains c || decide (2847 ≤ cs.length) then (.broken cs, f)
        else if isEndOfChain (f.fatGet c).1 then (.whole (cs ++ [c]), (f.fatGet c).2)
        else (f.fatGet c).2.walkFrom n (f.fatGet c).1.toNat (cs ++ [c]) := rfl

/-- A walk only reads, and collects valid clusters only. -/
theorem walkFrom_spec (n c : Nat) (cs : List Nat) (f : FatState) (hcs : ∀ d ∈ cs, 2 ≤ d ∧ d < 2849) :
    Quiet f (f.walkFrom n c cs).2 ∧ ∀ d ∈ (f.walkFrom n c cs).1.clusters, 2 ≤ d ∧ d < 2849 := by
  induction n generalizing c cs f with
  | zero => exact ⟨Quiet.refl f, hcs⟩
  | succ n ih =>
    rw [FatState.walkFrom_succ]
    split
    · exact ⟨Quiet.refl f, hcs⟩
    · rename_i h
      simp only [Bool.or_eq_true, Bool.not_eq_true', decide_eq_true_eq, not_or, Bool.not_eq_false] at h
      have hv := validCluster_iff.1 h.1.1
      have q := quiet_fatGet f (c := c) (by omega)
      have hcs' : ∀ d ∈ cs ++ [c], 2 ≤ d ∧ d < 2849 := by
        intro d hd
        rcases List.mem_append.1 hd with hd | hd
        · exact hcs d hd
        · rw [List.mem_singleton.1 hd]
          exact hv
      split
      · exact ⟨q, hcs'⟩
      · obtain ⟨q', h'⟩ := ih (f.fatGet c).1.toNat (cs ++ [c]) (f.fatGet c).2 hcs'
        exact ⟨q.trans q', h'⟩

theorem quiet_chain (f : FatState) (c : Nat) :
    Quiet f (f.chain c).2 ∧ ∀ d ∈ (f.chain c).1.clusters, 2 ≤ d ∧ d < 2849 := by
  unfold FatState.chain
  split
  · exact ⟨Quiet.refl f, by simp [Walk.clusters]⟩
  · exact walkFrom_spec _ c [] f (by simp)

/-- Where a whole walk ends: it begins with the clusters given, follows the entries, and stops at an end-of-chain entry. -/
theorem walkFrom_whole {n c : Nat} {pre : List Nat} {f : FatState} {cs : List Nat} (h : (f.walkFrom n c pre).1 = .whole cs) :
    ∃ rest, cs = pre ++ c :: rest ∧ (pre.Nodup → cs.Nodup) ∧
      (∀ k a b, (c :: rest)[k]? = some a → (c :: rest)[k + 1]? = some b → (f.entry a).toNat = b) ∧
      (∀ a, (c :: rest).getLast? = some a → 0xFF8 ≤ (f.entry a).toNat) := by
  induction n generalizing c pre f with
  | zero => simp [FatState.walkFrom] at h
  | succ n ih =>
    rw [FatState.walkFrom_succ] at h
    split at h
    · simp at h
    · rename_i hg
      simp only [Bool.or_eq_true, Bool.not_eq_true', decide_eq_true_eq, not_or, Bool.not_eq_false, List.contains_iff_mem] at hg
      have hv := validCluster_iff.1 hg.1.1
      have hn : pre.Nodup → (pre ++ [c]).Nodup := by
        intro hp
        rw [List.nodup_append]
        refine ⟨hp, by simp, ?_⟩
        rintro a ha b hb rfl
        exact hg.1.2 (List.mem_singleton.1 hb ▸ ha)
      have q := quiet_fatGet f (c := c) (by omega)
      split at h
      · rename_i he
        simp only [Walk.whole.injEq] at h
        refine ⟨[], h.symm, fun hp => h ▸ hn hp, by simp, ?_⟩
        intro a ha
        simp only [List.getLast?_singleton, Option.some.injEq] at ha
        subst ha
        rw [← FatState.fatGet_entry]
        simpa [isEndOfChain] using he
      · obtain ⟨rest, e, nd, nx, la⟩ := ih h
        have hent : ∀ d, (f.fatGet c).2.entry d = f.entry d := entry_congr q.view
        simp only [hent] at nx la
        refine ⟨(f.fatGet c).1.toNat :: rest, by simp [e], fun hp => nd (hn hp), ?_, ?_⟩
        · intro k a b ha hb
          cases k with
          | zero =>
            simp only [List.getElem?_cons_zero, Option.some.injEq, Nat.zero_add, List.getElem?_cons_succ] at ha hb
            rw [← ha, ← FatState.fatGet_entry, hb]
          | succ k => exact nx k a b (by simpa using ha) (by simpa using hb)
        · intro a ha
          exact la a (by simpa [List.getLast?_cons_cons] using ha)

/-- A walk along clusters that are joined by their entries and end at an end-of-chain entry is whole. -/
theorem walkFrom_of_joined {n c : Nat} {pre rest : List Nat} {f : FatState} (hn : rest.length < n)
    (hv : ∀ d ∈ c :: rest, 2 ≤ d ∧ d < 2849) (hd : (pre ++ c :: rest).Nodup) (hl : (pre ++ c :: rest).length ≤ 2847)
    (nx : ∀ k a b, (c :: rest)[k]? = some a → (c :: rest)[k + 1]? = some b → (f.entry a).toNat = b)
    (la : ∀ a, (c :: rest).getLast? = some a → 0xFF8 ≤ (f.entry a).toNat) :
    (f.walkFrom n c pre).1 = .whole (pre ++ c :: rest) := by
  induction n generalizing c pre rest f with
  | zero => omega
  | succ n ih =>
    have hc := hv c (List.mem_cons_self ..)
    have q := quiet_fatGet f (c := c) (by omega)
    have hent : ∀ d, (f.fatGet c).2.entry d = f.entry d := entry_congr q.view
    have hmem : c ∉ pre := fun h => (List.nodup_append.1 hd).2.2 c h c (List.mem_cons_self ..) rfl
    have hlen : pre.length < 2847 := by
      rw [List.length_append, List.length_cons] at hl
      omega
    have hgo : (!validCluster c || pre.contains c || decide (2847 ≤ pre.length)) = false := by
      simp [validCluster_iff.2 hc, hmem, hlen]
    rw [FatState.walkFrom_succ, hgo, if_neg (by decide)]
    cases rest with
    | nil =>
      have he : isEndOfChain (f.fatGet c).1 = true := by
        rw [FatState.fatGet_entry]
        simpa [isEndOfChain] using la c rfl
      rw [if_pos he]
    | cons d r =>
      have hd' := hv d (by simp)
      have hcd : (f.fatGet c).1.toNat = d := by
        rw [FatState.fatGet_entry]
        exact nx 0 c d rfl rfl
      have he : ¬isEndOfChain (f.fatGet c).1 = true := by
        rw [isEndOfChain, decide_eq_true_eq, hcd]
        omega
      rw [if_neg he, hcd]
      have hassoc : pre ++ c :: d :: r = (pre ++ [c]) ++ d :: r := by simp
      rw [hassoc] at hd hl ⊢
      refine ih (by simpa using hn) (fun x hx => hv x (List.mem_cons_of_mem _ hx)) hd hl ?_ ?_
      · intro k a b ha hb
        rw [hent]
        exact nx (k + 1) a b ha hb
      · intro a ha
        rw [hent]
        exact la a (by simpa [List.getLast?_cons_cons] using ha)

theorem FatState.freeAll_cons (f : FatState) (c : Nat) (cs : List Nat) :
    f.freeAll (c :: cs) = (f.fatSet c 0#12).freeAll cs := by
  simp only [FatState.freeAll, List.foldl_cons]

theorem keeps_freeAll (f : FatState) (cs : List Nat) (h : ∀ d ∈ cs, 2 ≤ d ∧ d < 2849) : Keeps f (f.freeAll cs) := by
  induction cs generalizing f with
  | nil => exact Keeps.refl f
  | cons c r ih =>
    have hc := h c (List.mem_cons_self ..)
    have k : Keeps f (f.fatSet c 0#12) := keeps_fatSet f (by omega) _
    rw [FatState.freeAll_cons]
    exact k.trans (ih _ fun d hd => h d (List.mem_cons_of_mem _ hd))

theorem FatState.freeChain_eq (f : FatState) (c : Nat) :
    f.freeChain c = ((f.chain c).1.report, (f.chain c).2.freeAll (f.chain c).1.clusters) := by
  unfold FatState.freeChain
  cases f.chain c
  rfl

theorem FatState.physSector_eq (f : FatState) (c k : Nat) :
    (f.physSector c k).1 = match (f.chain c).1 with
      | .whole cs => .ok (cs[k]?.map clusterToSector)
      | .broken _ => .error .notFound := by
  unfold FatState.physSector
  rcases f.chain c with ⟨w, g⟩
  cases w <;> rfl

theorem keeps_freeChain (f : FatState) (c : Nat) : Keeps f (f.freeChain c).2 := by
  rw [FatState.freeChain_eq]
  exact (quiet_chain f c).1.keeps.trans (keeps_freeAll _ _ (quiet_chain f c).2)

/-- Allocation finds a valid cluster, and only reads. -/
theorem quiet_allocate (f : FatState) : Quiet f f.allocate.2 ∧ ∀ c, f.allocate.1 = some c → 2 ≤ c ∧ c < 2849 := by
  obtain ⟨q, h, -⟩ := allocateFrom_spec 2847 2 f (by omega)
  refine ⟨q, fun c hc => ?_⟩
  obtain ⟨a, b, -⟩ := h c hc
  exact ⟨a, by omega⟩

theorem FatState.buildFrom_succ (n : Nat) (prev : Option Nat) (taken : List Nat) (f : FatState) :
    FatState.buildFrom (n + 1) prev taken f
      = match f.allocate with
        | (none, f) => (none, f.freeAll taken)
        | (some c, f) => FatState.buildFrom n (some c) (taken ++ [c])
            (match prev with | none => f.fatSet c endOfChain | some p => (f.fatSet c endOfChain).fatSet p (BitVec.ofNat 12 c)) := by
  cases prev <;> rfl

theorem keeps_buildFrom (n : Nat) (prev : Option Nat) (taken : List Nat) (f : FatState) (hp : ∀ p, prev = some p → p < 2849)
    (ht : ∀ d ∈ taken, 2 ≤ d ∧ d < 2849) :
    Keeps f (FatState.buildFrom n prev taken f).2 ∧
      ∀ cs, (FatState.buildFrom n prev taken f).1 = some cs → ∀ d ∈ cs, 2 ≤ d ∧ d < 2849 := by
  induction n generalizing prev taken f with
  | zero => exact ⟨Keeps.refl f, fun cs h => Option.some.inj h ▸ ht⟩
  | succ n ih =>
    obtain ⟨q, hc⟩ := quiet_allocate f
    rw [FatState.buildFrom_succ]
    rcases he : f.allocate with ⟨a, g⟩
    rw [he] at q hc
    cases a with
    | none => exact ⟨q.keeps.trans (keeps_freeAll _ _ ht), fun cs h => by simp at h⟩
    | some c =>
      have hc := hc c rfl
      have k1 : Keeps f (g.fatSet c endOfChain) := q.keeps.trans (keeps_fatSet g (by omega) _)
      have ht' : ∀ d ∈ taken ++ [c], 2 ≤ d ∧ d < 2849 := by
        intro d hd
        rcases List.mem_append.1 hd with hd | hd
        · exact ht d hd
        · rw [List.mem_singleton.1 hd]
          exact hc
      have hp' : ∀ p, some c = some p → p < 2849 := fun p h => Option.some.inj h ▸ hc.2
      cases prev with
      | none =>
        obtain ⟨i1, i2⟩ := ih (some c) (taken ++ [c]) _ hp' ht'
        exact ⟨k1.trans i1, i2⟩
      | some p =>
        obtain ⟨i1, i2⟩ := ih (some c) (taken ++ [c]) _ hp' ht'
        have := hp p rfl
        exact ⟨(k1.trans (keeps_fatSet _ (by omega) _)).trans i1, i2⟩

theorem keeps_buildChain (f : FatState) (n : Nat) :
    Keeps f (f.buildChain n).2 ∧ ∀ cs, (f.buildChain n).1 = some cs → ∀ d ∈ cs, 2 ≤ d ∧ d < 2849 :=
  keeps_buildFrom n none [] f (by simp) (by simp)

/-! ## Directories and files (R560-R568) -/

/-- A slot outside the FATs and the boot sector. -/
def Slot.inData (p : Slot) : Prop := 19 ≤ p.sector ∧ p.sector < 2880 ∧ p.offset ≤ 480

theorem inData_slotsOf {s : Nat} (h : 19 ≤ s ∧ s < 2880) : ∀ p ∈ slotsOf s, p.inData := by
  intro p hp
  simp only [slotsOf, List.mem_map, List.mem_range] at hp
  obtain ⟨k, hk, rfl⟩ := hp
  exact ⟨h.1, h.2, by show 32 * k ≤ 480; omega⟩

theorem inData_rootDir : ∀ p ∈ rootDir.slots, p.inData := by
  intro p hp
  simp only [rootDir, List.mem_flatMap, List.mem_range, Config.rootSectors, Config.rootStart] at hp
  obtain ⟨k, hk, hp⟩ := hp
  exact inData_slotsOf (by omega) p hp

theorem quiet_slotBytes (f : FatState) {p : Slot} (h : p.inData) : Quiet f (f.slotBytes p).2 := quiet_readSector f h.2.1

theorem keeps_patchSlot (f : FatState) {p : Slot} (h : p.inData) {o : Nat} {bs : List Byte} (hb : o + bs.length ≤ 32) :
    Keeps f (f.patchSlot p o bs) := by
  have q := quiet_readSector f h.2.1
  have e : f.patchSlot p o bs = (f.readSector p.sector).2.writeSector p.sector (patch (f.view p.sector) (p.offset + o) bs) := rfl
  rw [e]
  constructor
  · intro hw
    have hl := FatState.length_view hw p.sector
    have := h.2.2
    refine FatState.wf_writeSector (q.wf hw) h.2.1 ?_
    simp only [patch, List.length_append, List.length_take, List.length_drop, hl]
    omega
  · intro hw
    exact fatsAgree_congr fun m hm => by
      rw [FatState.view_writeSector, if_neg (by have := h.1; omega), q.view]
  · intro _ ha
    exact FatState.agrees_writeSector _ _ (q.agrees ha)

theorem quiet_entriesIn (ps : List Slot) (f : FatState) (h : ∀ p ∈ ps, p.inData) :
    Quiet f (FatState.entriesIn ps f).2 ∧ ∀ e ∈ (FatState.entriesIn ps f).1, e.1.inData := by
  induction ps generalizing f with
  | nil => exact ⟨Quiet.refl f, by simp [FatState.entriesIn]⟩
  | cons p r ih =>
    have hp := h p (List.mem_cons_self ..)
    have q := quiet_slotBytes f hp
    obtain ⟨q', h'⟩ := ih (f.slotBytes p).2 fun x hx => h x (List.mem_cons_of_mem _ hx)
    have e : FatState.entriesIn (p :: r) f
        = if (f.slotBytes p).1.getD 0 0#8 = 0x00#8 then ([], (f.slotBytes p).2)
          else if (f.slotBytes p).1.getD 0 0#8 = 0xE5#8 ∨ (f.slotBytes p).1.getD 11 0#8 = 0x0F#8 then
            FatState.entriesIn r (f.slotBytes p).2
          else ((p, DirEntry.ofBytes (f.slotBytes p).1) :: (FatState.entriesIn r (f.slotBytes p).2).1,
            (FatState.entriesIn r (f.slotBytes p).2).2) := rfl
    rw [e]
    split
    · exact ⟨q, by simp⟩
    · split
      · exact ⟨q.trans q', h'⟩
      · refine ⟨q.trans q', fun x hx => ?_⟩
        rcases List.mem_cons.1 hx with rfl | hx
        · exact hp
        · exact h' x hx

theorem quiet_freeSlot (ps : List Slot) (f : FatState) (h : ∀ p ∈ ps, p.inData) :
    Quiet f (FatState.freeSlot ps f).2 ∧ ∀ p, (FatState.freeSlot ps f).1 = some p → p.inData := by
  induction ps generalizing f with
  | nil => exact ⟨Quiet.refl f, by simp [FatState.freeSlot]⟩
  | cons p r ih =>
    have hp := h p (List.mem_cons_self ..)
    have q := quiet_slotBytes f hp
    obtain ⟨q', h'⟩ := ih (f.slotBytes p).2 fun x hx => h x (List.mem_cons_of_mem _ hx)
    have e : FatState.freeSlot (p :: r) f
        = if (f.slotBytes p).1.getD 0 0#8 = 0x00#8 ∨ (f.slotBytes p).1.getD 0 0#8 = 0xE5#8 then (some p, (f.slotBytes p).2)
          else FatState.freeSlot r (f.slotBytes p).2 := rfl
    rw [e]
    split
    · exact ⟨q, fun x hx => Option.some.inj hx ▸ hp⟩
    · exact ⟨q.trans q', h'⟩

theorem quiet_findWhere (f : FatState) {d : Dir} (h : ∀ p ∈ d.slots, p.inData) (test : DirEntry → Bool) :
    Quiet f (f.findWhere d test).2 ∧ ∀ e, (f.findWhere d test).1 = some e → e.1.inData := by
  obtain ⟨q, hq⟩ := quiet_entriesIn d.slots f h
  exact ⟨q, fun e he => hq e (List.mem_of_find?_eq_some he)⟩

theorem quiet_findEntry (f : FatState) {d : Dir} (h : ∀ p ∈ d.slots, p.inData) (name : List Byte) :
    Quiet f (f.findEntry d name).2 ∧ ∀ e, (f.findEntry d name).1 = some e → e.1.inData :=
  quiet_findWhere f h _

theorem quiet_subdirectory (f : FatState) (c : Word) :
    Quiet f (f.subdirectory c).2 ∧ ∀ d, (f.subdirectory c).1 = .ok d → ∀ p ∈ d.slots, p.inData := by
  obtain ⟨q, hq⟩ := quiet_chain f c.toNat
  unfold FatState.subdirectory
  split
  · exact ⟨Quiet.refl f, fun d hd => Except.ok.inj hd ▸ inData_rootDir⟩
  · rcases he : f.chain c.toNat with ⟨w, g⟩
    rw [he] at q hq
    cases w with
    | broken cs => exact ⟨q, by simp⟩
    | whole cs =>
      refine ⟨q, fun d hd => ?_⟩
      simp only [Except.ok.injEq] at hd
      subst hd
      intro p hp
      simp only [List.mem_flatMap] at hp
      obtain ⟨k, hk, hp⟩ := hp
      have hk := hq k hk
      exact inData_slotsOf (by simp only [clusterToSector, Config.dataStart]; omega) p hp

theorem quiet_walkPath (path : List (List Byte)) (d : Dir) (f : FatState) (h : ∀ p ∈ d.slots, p.inData) :
    Quiet f (FatState.walkPath path d f).2 ∧
      ∀ d', (FatState.walkPath path d f).1 = .ok (some d') → ∀ p ∈ d'.slots, p.inData := by
  induction path generalizing d f with
  | nil => exact ⟨Quiet.refl f, fun d' hd => Option.some.inj (Except.ok.inj hd) ▸ h⟩
  | cons n ns ih =>
    obtain ⟨q, -⟩ := quiet_findWhere f h fun e => e.isDirectory && e.hasName n
    unfold FatState.walkPath
    rcases he : f.findWhere d fun e => e.isDirectory && e.hasName n with ⟨r, g⟩
    rw [he] at q
    cases r with
    | none => exact ⟨q, by simp⟩
    | some e =>
      obtain ⟨p, e⟩ := e
      obtain ⟨q', h'⟩ := quiet_subdirectory g e.cluster
      dsimp only
      rcases hs : g.subdirectory e.cluster with ⟨r', g'⟩
      rw [hs] at q' h'
      cases r' with
      | error e => exact ⟨q.trans q', by simp⟩
      | ok d' =>
        obtain ⟨i1, i2⟩ := ih d' g' (h' d' rfl)
        exact ⟨(q.trans q').trans i1, i2⟩

theorem quiet_resolve (f : FatState) (path : List (List Byte)) :
    Quiet f (f.resolve path).2 ∧ ∀ d, (f.resolve path).1 = .ok (some d) → ∀ p ∈ d.slots, p.inData :=
  quiet_walkPath path rootDir f inData_rootDir

theorem quiet_directory (f : FatState) (path : List (List Byte)) :
    Quiet f (f.directory path).2 ∧ ∀ d, (f.directory path).1 = .ok d → ∀ p ∈ d.slots, p.inData := by
  obtain ⟨q, hq⟩ := quiet_resolve f path
  unfold FatState.directory
  rcases he : f.resolve path with ⟨r, g⟩
  rw [he] at q hq
  rcases r with e | _ | d
  · exact ⟨q, by simp⟩
  · exact ⟨q, by simp⟩
  · exact ⟨q, fun d' hd => Except.ok.inj hd ▸ hq d rfl⟩

/-- A broken chain is reported as `notFound` where a directory is read too (R551). -/
theorem FatState.subdirectory_of_broken {f g : FatState} {c : Word} {cs : List Nat} (h : f.chain c.toNat = (.broken cs, g)) :
    f.subdirectory c = (.error .notFound, g) := by
  have hc : c ≠ 0#16 := by
    rintro rfl
    exact Walk.noConfusion (congrArg Prod.fst h)
  rw [FatState.subdirectory, if_neg hc, h]

theorem keeps_eraseEntry (f : FatState) {p : Slot} (h : p.inData) (e : DirEntry) : Keeps f (f.eraseEntry p e).2 :=
  (keeps_patchSlot f h (o := 0) (bs := [0xE5#8]) (by simp)).trans (keeps_freeChain _ _)

theorem keeps_eraseOld (f : FatState) {d : Dir} (h : ∀ p ∈ d.slots, p.inData) (name : List Byte) :
    Keeps f (f.eraseOld d name).2 := by
  obtain ⟨q, hq⟩ := quiet_findEntry f h name
  unfold FatState.eraseOld
  rcases he : f.findEntry d name with ⟨r, g⟩
  rw [he] at q hq
  cases r with
  | none => exact q.keeps
  | some e => exact q.keeps.trans (keeps_eraseEntry g (hq e rfl) e.2)

theorem keeps_writeData (ss : List Nat) (bs : List Byte) (f : FatState) (h : ∀ s ∈ ss, 19 ≤ s ∧ s < 2880) :
    Keeps f (FatState.writeData ss bs f) := by
  induction ss generalizing bs f with
  | nil => exact Keeps.refl f
  | cons s r ih =>
    have hs := h s (List.mem_cons_self ..)
    refine Keeps.trans (keeps_writeSector f hs.2 (.inr hs.1) ?_) (ih _ _ fun x hx => h x (List.mem_cons_of_mem _ hx))
    simp only [List.length_append, List.length_replicate, List.length_take, Config.sectorSize]
    omega

theorem length_padName (n : Nat) (bs : List Byte) : (padName n bs).length = n := by
  simp only [padName, List.length_append, List.length_replicate, List.length_map, List.length_take]
  omega

theorem length_packName (bs : List Byte) : (packName bs).length = 11 := by
  unfold packName
  split
  · exact length_padName 11 bs
  · simp only [List.length_append, length_padName]

theorem DirEntry.length_bytes (e : DirEntry) (h : e.name.length = 11) : e.bytes.length = 32 := by
  simp [DirEntry.bytes, diskWord, diskLong, h]

theorem length_dotSector (self parent : Word) (now : Stamp) : (dotSector self parent now).length = 512 := by
  have h (bs : List Byte) (c : Word) : (DirEntry.mk (packName bs) 0x10#8 now c 0#32).bytes.length = 32 :=
    DirEntry.length_bytes _ (length_packName bs)
  unfold dotSector
  generalize hx : (DirEntry.mk (packName [0x2E#8]) 0x10#8 now self 0#32).bytes = x
  generalize hy : (DirEntry.mk (packName [0x2E#8, 0x2E#8]) 0x10#8 now parent 0#32).bytes = y
  have hx := hx ▸ h _ self
  have hy := hy ▸ h _ parent
  simp only [List.length_append, List.length_replicate, hx, hy]
  rfl

theorem length_bootSector (oem : List Byte) (serial : BitVec 32) (label : List Byte) :
    (bootSector oem serial label).length = 512 := by
  have h (n : Nat) (bs : List Byte) : (padAscii n bs).length = n := by
    simp only [padAscii, List.length_append, List.length_replicate, List.length_take]
    omega
  have hw (v : Word) : (diskWord v).length = 2 := rfl
  have hl (v : BitVec 32) : (diskLong v).length = 4 := rfl
  unfold bootSector
  generalize hz : List.replicate 448 (0#8) = z
  have hz : z.length = 448 := hz ▸ List.length_replicate
  simp only [List.length_append, h, hw, hl, hz, List.length_cons, List.length_nil]

/-! ## The wipe of `format` (R561) -/

theorem SectorMap.get_eq_none {m : SectorMap} {n : Nat} (h : n ∉ m.keys) : m.get n = none := by
  induction m with
  | nil => rfl
  | cons p r ih =>
    obtain ⟨k, b⟩ := p
    simp only [SectorMap.keys, List.map_cons, List.mem_cons, not_or] at h
    rw [SectorMap.get, if_neg (Ne.symm h.1)]
    exact ih h.2

theorem indicesFrom_mono {l : List Nat} {lo lo' : Nat} (h : lo' ≤ lo) (hl : indicesFrom lo l = true) : indicesFrom lo' l = true := by
  cases l with
  | nil => rfl
  | cons k r =>
    simp only [indicesFrom, Bool.and_eq_true, decide_eq_true_eq] at hl ⊢
    exact ⟨h.trans hl.1, hl.2⟩

theorem indicesFrom_keys_filter {m : SectorMap} {lo : Nat} (h : indicesFrom lo m.keys = true) (p : Nat × Sector → Bool) :
    indicesFrom lo (SectorMap.keys (m.filter p)) = true := by
  induction m generalizing lo with
  | nil => rfl
  | cons x r ih =>
    simp only [SectorMap.keys, List.map_cons, indicesFrom, Bool.and_eq_true, decide_eq_true_eq] at h ih ⊢
    rw [List.filter_cons]
    split
    · simp only [List.map_cons, indicesFrom, Bool.and_eq_true, decide_eq_true_eq]
      exact ⟨h.1, ih h.2⟩
    · exact indicesFrom_mono (by omega) (ih h.2)

/-- Zeros written to a list of sectors. -/
theorem FatState.zeros_foldl (l : List Nat) (f : FatState) (hl : ∀ s ∈ l, s < 2880) :
    (∀ n, (l.foldl (fun g s => g.writeSector s zeroSector) f).view n = if n ∈ l then zeroSector else f.view n) ∧
    (f.wf = true → (l.foldl (fun g s => g.writeSector s zeroSector) f).wf = true) ∧
    (f.cacheAgrees → (l.foldl (fun g s => g.writeSector s zeroSector) f).cacheAgrees) := by
  induction l generalizing f with
  | nil => simp
  | cons s r ih =>
    obtain ⟨i1, i2, i3⟩ := ih (f.writeSector s zeroSector) fun x hx => hl x (List.mem_cons_of_mem _ hx)
    rw [List.foldl_cons]
    refine ⟨fun n => ?_, fun h => i2 (FatState.wf_writeSector h (hl s (List.mem_cons_self ..)) List.length_replicate),
      fun h => i3 (FatState.agrees_writeSector _ _ h)⟩
    rw [i1, FatState.view_writeSector]
    by_cases hr : n ∈ r <;> by_cases hs : n = s <;> simp [hr, hs]

/-- After the wipe every sector reads as zeros; the state stays well-formed, and the cache agrees with the store. -/
theorem FatState.wipe_spec (f : FatState) (h : f.wf = true) :
    (∀ n, f.wipe.view n = zeroSector) ∧ f.wipe.wf = true ∧ f.wipe.cacheAgrees := by
  obtain ⟨⟨hk, hb⟩, -, -, -⟩ := FatState.wf_iff.1 h
  have hsub : ∀ s ∈ SectorMap.keys (f.store.filter fun p => f.failsPut.contains p.1), s < 2880 := by
    intro s hs
    obtain ⟨p, hp, rfl⟩ := List.mem_map.1 hs
    exact hb _ (List.mem_map_of_mem (List.mem_of_mem_filter hp))
  unfold FatState.wipe
  obtain ⟨v, w, a⟩ := FatState.zeros_foldl _ { f with store := f.store.filter fun p => f.failsPut.contains p.1, cache := [], dirty := [] } hsub
  refine ⟨fun n => ?_, w (FatState.wf_iff.2 ⟨⟨indicesFrom_keys_filter hk _, hsub⟩, rfl, rfl, by simp⟩), a ?_⟩
  · rw [v]
    split
    · rfl
    · exact FatState.stored_of_absent (SectorMap.get_eq_none ‹_›)
  · intro n b _ _ _ hc
    simp [SectorMap.get] at hc

/-! ## How the mutating operations end (R572): with the flush of a state that keeps what the operations keep -/

/-- The state of a result is a flush after steps that keep the invariants. -/
def EndsFlushed (f g : FatState) : Prop := ∃ h, Keeps f h ∧ g = h.flush

@[simp] theorem FatResult.tell_snd {α : Type} (r : FatResult α) (say : α → FatAnswer) : (FatResult.tell r say).2 = r.2 := by
  rcases r with ⟨a, f⟩
  cases a <;> rfl

theorem endsFlushed_writeNew (f : FatState) {d : Dir} (hd : ∀ p ∈ d.slots, p.inData) (name data : List Byte) (now : Stamp) :
    EndsFlushed f (f.writeNew d name data now).2 := by
  unfold FatState.writeNew
  obtain ⟨k, h⟩ := keeps_buildChain f (blocks data.length)
  rcases hb : f.buildChain (blocks data.length) with ⟨r, g⟩
  rw [hb] at k h
  cases r with
  | none => exact ⟨g, k, rfl⟩
  | some cs =>
    have hcs := h cs rfl
    dsimp only
    have k' : Keeps g (FatState.writeData (cs.map clusterToSector) data g) := keeps_writeData _ _ _ fun s hs => by
      obtain ⟨c, hc, rfl⟩ := List.mem_map.1 hs
      have := hcs c hc
      simp only [clusterToSector, Config.dataStart]
      omega
    generalize FatState.writeData (cs.map clusterToSector) data g = g1 at k' ⊢
    obtain ⟨q, hq⟩ := quiet_freeSlot d.slots g1 hd
    rcases hf : FatState.freeSlot d.slots g1 with ⟨r, g2⟩
    rw [hf] at q hq
    have k2 := (k.trans k').trans q.keeps
    cases r with
    | none => exact ⟨_, k2.trans (keeps_freeAll g2 cs hcs), rfl⟩
    | some p =>
      exact ⟨_, k2.trans (keeps_patchSlot g2 (hq p rfl) (o := 0) (by rw [DirEntry.length_bytes _ (length_packName name)])), rfl⟩

theorem endsFlushed_writeFile (f : FatState) (path : List (List Byte)) (name data : List Byte) (now : Stamp) :
    EndsFlushed f (f.writeFile path name data now).2 := by
  unfold FatState.writeFile
  obtain ⟨q, hq⟩ := quiet_directory f path
  rcases he : f.directory path with ⟨r, g⟩
  rw [he] at q hq
  cases r with
  | error e => exact ⟨g, q.keeps, rfl⟩
  | ok d =>
    have k := keeps_eraseOld g (hq d rfl) name
    dsimp only
    rcases ho : g.eraseOld d name with ⟨r, g1⟩
    rw [ho] at k
    cases r with
    | error e => exact ⟨g1, q.keeps.trans k, rfl⟩
    | ok _ =>
      obtain ⟨h, kh, e⟩ := endsFlushed_writeNew g1 (hq d rfl) name data now
      exact ⟨h, (q.keeps.trans k).trans kh, e⟩

theorem endsFlushed_deleteEntry (f : FatState) (path : List (List Byte)) (name : List Byte) :
    EndsFlushed f (f.deleteEntry path name).2 := by
  unfold FatState.deleteEntry
  obtain ⟨q, hq⟩ := quiet_resolve f path
  rcases he : f.resolve path with ⟨r, g⟩
  rw [he] at q hq
  rcases r with e | _ | d
  · exact ⟨g, q.keeps, rfl⟩
  · exact ⟨g, q.keeps, rfl⟩
  · obtain ⟨q', hq'⟩ := quiet_findEntry g (hq d rfl) name
    dsimp only
    rcases hf : g.findEntry d name with ⟨r, g1⟩
    rw [hf] at q' hq'
    cases r with
    | none => exact ⟨_, q.keeps.trans q'.keeps, rfl⟩
    | some e => exact ⟨_, (q.keeps.trans q'.keeps).trans (keeps_eraseEntry g1 (hq' e rfl) e.2), rfl⟩

end Sys2Proof.Machine
end

