-- ==== Sys2Proof/Laws/Flags.lean ====
section
/-! SUPPORT. The flags word: one lemma per flag write, the reserved bits, and the flags of results in terms of numbers
(10_state R45-R56). -/

namespace Sys2Proof.Machine

/-! ## One flag of a word -/

theorem Flag.pos_lt (f : Flag) : f.pos < 16 := by cases f <;> decide

theorem Flag.pos_injective {f g : Flag} (h : f.pos = g.pos) : f = g := by
  revert h; cases f <;> cases g <;> decide

theorem Flag.getLsbD_mask (f : Flag) (k : Nat) : f.mask.getLsbD k = decide (k = f.pos) := by
  have := f.pos_lt
  simp only [Flag.mask, BitVec.getLsbD_shiftLeft, BitVec.getLsbD_one]
  by_cases h : k = f.pos
  · subst h; simp [this]
  · by_cases h2 : k < f.pos
    · simp [h, h2]
    · have : k - f.pos ≠ 0 := by omega
      simp [h, this]

/-- Every bit of a flags word after a flag write. -/
theorem getLsbD_putFlag (f : Flag) (v : Bool) (w : Word) (k : Nat) :
    (putFlag f v w).getLsbD k = if k = f.pos then v else w.getLsbD k := by
  have := f.pos_lt
  unfold putFlag
  cases v
  · rw [if_neg (by decide), BitVec.getLsbD_and, BitVec.getLsbD_not, f.getLsbD_mask]
    by_cases h16 : k < 16
    · by_cases h : k = f.pos <;> simp [h, h16]
    · rw [if_neg (by omega), BitVec.getLsbD_of_ge w k (by omega)]; simp
  · rw [if_pos rfl, BitVec.getLsbD_or, f.getLsbD_mask]
    by_cases h : k = f.pos <;> simp [h]

@[simp] theorem getFlag_putFlag_same (f : Flag) (v : Bool) (w : Word) : getFlag f (putFlag f v w) = v := by
  simp [getFlag, getLsbD_putFlag]

theorem getFlag_putFlag (f g : Flag) (v : Bool) (w : Word) :
    getFlag g (putFlag f v w) = if g = f then v else getFlag g w := by
  rw [getFlag, getLsbD_putFlag]
  by_cases h : g = f
  · simp [h]
  · rw [if_neg (fun e => h (Flag.pos_injective e)), if_neg h]; rfl

theorem getFlag_putFlag_ne {f g : Flag} (h : g ≠ f) (v : Bool) (w : Word) : getFlag g (putFlag f v w) = getFlag g w := by
  rw [getFlag_putFlag, if_neg h]

/-- Writing back the flag that stands there changes nothing. -/
theorem putFlag_getFlag (f : Flag) (w : Word) : putFlag f (getFlag f w) w = w := by
  apply BitVec.eq_of_getLsbD_eq
  intro k _
  rw [getLsbD_putFlag]
  split
  · subst k; rfl
  · rfl

/-! ## The machine's flags -/

@[simp] theorem State.flag_setFlag_same (s : State) (f : Flag) (v : Bool) : (s.setFlag f v).flag f = v := by
  simp [State.flag]

theorem State.flag_setFlag (s : State) (f g : Flag) (v : Bool) :
    (s.setFlag f v).flag g = if g = f then v else s.flag g := getFlag_putFlag ..

theorem State.flag_setFlag_ne (s : State) {f g : Flag} (h : g ≠ f) (v : Bool) : (s.setFlag f v).flag g = s.flag g :=
  getFlag_putFlag_ne h _ _

@[simp] theorem State.flag_freeFlag_same (s : State) (f : Flag) : (s.freeFlag f).flag f = Config.freeBit s.draws := by
  simp [State.flag]

theorem State.flag_freeFlag_ne (s : State) {f g : Flag} (h : g ≠ f) : (s.freeFlag f).flag g = s.flag g :=
  getFlag_putFlag_ne h _ _

theorem State.flag_congr {s t : State} (h : t.flags = s.flags) (f : Flag) : t.flag f = s.flag f := by
  rw [State.flag, h]; rfl

theorem State.freeFlags_cons (s : State) (f : Flag) (fs : List Flag) :
    s.freeFlags (f :: fs) = (s.freeFlag f).freeFlags fs := rfl

@[simp] theorem State.freeFlags_nil (s : State) : s.freeFlags [] = s := rfl

/-- A free flag outside the list is as before. -/
theorem State.flag_freeFlags_ne (s : State) {fs : List Flag} {g : Flag} (h : g ∉ fs) : (s.freeFlags fs).flag g = s.flag g := by
  induction fs generalizing s with
  | nil => rfl
  | cons f fs ih =>
    rw [State.freeFlags_cons, ih _ (fun e => h (List.mem_cons_of_mem _ e)),
      State.flag_freeFlag_ne s (fun e => h (by simp [e]))]

/-! ## SZP, additions, subtractions, logic -/

@[simp] theorem State.flag_setSZP_sf {w : Nat} (s : State) (r : BitVec w) : (s.setSZP r).flag .sf = r.msb := by
  simp [State.setSZP, State.flag_setFlag]

@[simp] theorem State.flag_setSZP_zf {w : Nat} (s : State) (r : BitVec w) : (s.setSZP r).flag .zf = (r == 0#w) := by
  simp [State.setSZP, State.flag_setFlag]

@[simp] theorem State.flag_setSZP_pf {w : Nat} (s : State) (r : BitVec w) : (s.setSZP r).flag .pf = parity8 r := by
  simp [State.setSZP]

theorem State.flag_setSZP_ne {w : Nat} (s : State) (r : BitVec w) {g : Flag} (h : g ∉ [Flag.sf, .zf, .pf]) :
    (s.setSZP r).flag g = s.flag g := by
  simp only [List.mem_cons, List.not_mem_nil, or_false, not_or] at h
  simp [State.setSZP, State.flag_setFlag, h]

@[simp] theorem State.flag_setArith_cf {w : Nat} (s : State) (o : Arith w) : (s.setArith o).flag .cf = o.cf := by
  simp [State.setArith]

theorem State.flag_setArith_ne {w : Nat} (s : State) (o : Arith w) {g : Flag} (h : g ≠ .cf) :
    (s.setArith o).flag g = (s.setArithKeepCF o).flag g := State.flag_setFlag_ne _ h _

@[simp] theorem State.flag_setArithKeepCF_of {w : Nat} (s : State) (o : Arith w) : (s.setArithKeepCF o).flag .of = o.of := by
  rw [State.setArithKeepCF, State.flag_setSZP_ne _ _ (by decide), State.flag_setFlag_ne _ (by decide)]; simp

@[simp] theorem State.flag_setArithKeepCF_af {w : Nat} (s : State) (o : Arith w) : (s.setArithKeepCF o).flag .af = o.af := by
  rw [State.setArithKeepCF, State.flag_setSZP_ne _ _ (by decide)]; simp

@[simp] theorem State.flag_setArith_of {w : Nat} (s : State) (o : Arith w) : (s.setArith o).flag .of = o.of := by
  rw [State.flag_setArith_ne _ _ (by decide), State.flag_setArithKeepCF_of]

@[simp] theorem State.flag_setArith_af {w : Nat} (s : State) (o : Arith w) : (s.setArith o).flag .af = o.af := by
  rw [State.flag_setArith_ne _ _ (by decide), State.flag_setArithKeepCF_af]

@[simp] theorem State.flag_setLogic_cf {w : Nat} (s : State) (r : BitVec w) : (s.setLogic r).flag .cf = false := by
  rw [State.setLogic, State.flag_freeFlag_ne _ (by decide), State.flag_setSZP_ne _ _ (by decide),
    State.flag_setFlag_ne _ (by decide)]; simp

@[simp] theorem State.flag_setLogic_of {w : Nat} (s : State) (r : BitVec w) : (s.setLogic r).flag .of = false := by
  rw [State.setLogic, State.flag_freeFlag_ne _ (by decide), State.flag_setSZP_ne _ _ (by decide)]; simp

/-! ## Results in numbers (10_state R50-R53) -/

theorem getLsbD_eq_testBit {w : Nat} (r : BitVec w) (i : Nat) : r.getLsbD i = r.toNat.testBit i := rfl

theorem parity8_eq {w : Nat} (r : BitVec w) : parity8 r = evenOnes r.toNat := by
  simp only [parity8, evenOnes, List.range, List.range.loop, List.countP_cons, List.countP_nil, getLsbD_eq_testBit]
  generalize r.toNat.testBit 0 = a
  generalize r.toNat.testBit 1 = b
  generalize r.toNat.testBit 2 = c
  generalize r.toNat.testBit 3 = d
  generalize r.toNat.testBit 4 = e
  generalize r.toNat.testBit 5 = f
  generalize r.toNat.testBit 6 = g
  generalize r.toNat.testBit 7 = h
  revert a b c d e f g h
  decide

/-- A state whose SF, ZF and PF are the model's is one whose SF, ZF and PF are the rule's. -/
theorem resultFlags_of {w : Nat} {r : BitVec w} {t : State} (hs : t.flag .sf = r.msb) (hz : t.flag .zf = (r == 0#w))
    (hp : t.flag .pf = parity8 r) : ResultFlags r t := by
  refine ⟨hs.trans (BitVec.msb_eq_decide r), hz.trans ?_, hp.trans (parity8_eq r)⟩
  rw [Bool.eq_iff_iff, beq_iff_eq, decide_eq_true_eq]
  exact ⟨fun e => by simp [e], fun e => BitVec.eq_of_toNat_eq (by simpa using e)⟩

theorem resultFlags_setSZP {w : Nat} (r : BitVec w) (s : State) : ResultFlags r (s.setSZP r) :=
  resultFlags_of (by simp) (by simp) (by simp)

/-- A write of another flag keeps the flags of the result. -/
theorem resultFlags_congr {w : Nat} {r : BitVec w} {s t : State} (hs : t.flag .sf = s.flag .sf) (hz : t.flag .zf = s.flag .zf)
    (hp : t.flag .pf = s.flag .pf) (h : ResultFlags r s) : ResultFlags r t :=
  ⟨hs.trans h.1, hz.trans h.2.1, hp.trans h.2.2⟩

theorem resultFlags_setArithKeepCF {w : Nat} (o : Arith w) (s : State) : ResultFlags o.r (s.setArithKeepCF o) :=
  resultFlags_setSZP o.r _

theorem resultFlags_setArith {w : Nat} (o : Arith w) (s : State) : ResultFlags o.r (s.setArith o) :=
  resultFlags_congr (s := s.setArithKeepCF o) (State.flag_setArith_ne _ _ (by decide)) (State.flag_setArith_ne _ _ (by decide))
    (State.flag_setArith_ne _ _ (by decide)) (resultFlags_setArithKeepCF o s)

theorem resultFlags_setLogic {w : Nat} (r : BitVec w) (s : State) : ResultFlags r (s.setLogic r) :=
  resultFlags_congr (State.flag_freeFlag_ne _ (by decide)) (State.flag_freeFlag_ne _ (by decide))
    (State.flag_freeFlag_ne _ (by decide)) (resultFlags_setSZP r _)

theorem resultFlags_freeFlags {w : Nat} {r : BitVec w} {s : State} {fs : List Flag} (h1 : Flag.sf ∉ fs) (h2 : Flag.zf ∉ fs)
    (h3 : Flag.pf ∉ fs) (h : ResultFlags r s) : ResultFlags r (s.freeFlags fs) :=
  resultFlags_congr (State.flag_freeFlags_ne _ h1) (State.flag_freeFlags_ne _ h2) (State.flag_freeFlags_ne _ h3) h

theorem addArith_of_lit (n : Nat) (hn : n = 8 ∨ n = 16) (a b : BitVec n) (c : Bool) :
    (addArith a b c).of = true ↔ SignedOverflow n (a.toInt + b.toInt + c.toNat) := by
  have ha := a.isLt
  have hb := b.isLt
  rcases hn with rfl | rfl <;> cases c <;>
    simp only [addArith, SignedOverflow, BitVec.toInt_eq_msb_cond, BitVec.msb_eq_decide, BitVec.toNat_ofNat, Bool.toNat_false,
      Bool.toNat_true, Bool.and_eq_true, beq_iff_eq, bne_iff_ne, ne_eq, decide_eq_decide, decide_eq_true_eq, Nat.reduceSub,
      Nat.reducePow, Int.reducePow] at * <;>
    split <;> split <;> omega

theorem subArith_of_lit (n : Nat) (hn : n = 8 ∨ n = 16) (a b : BitVec n) (c : Bool) :
    (subArith a b c).of = true ↔ SignedOverflow n (a.toInt - b.toInt - c.toNat) := by
  have ha := a.isLt
  have hb := b.isLt
  rcases hn with rfl | rfl <;> cases c <;>
    simp only [subArith, SignedOverflow, BitVec.toInt_eq_msb_cond, BitVec.msb_eq_decide, BitVec.toNat_ofInt, Bool.toNat_false,
      Bool.toNat_true, Bool.and_eq_true, bne_iff_ne, ne_eq, decide_eq_decide, decide_eq_true_eq, Nat.reduceSub,
      Nat.reducePow, Int.reducePow] at * <;>
    split <;> split <;> omega

/-- OF of an addition is the signed overflow. -/
theorem addArith_of (w : Width) (a b : BitVec w.bits) (c : Bool) :
    (addArith a b c).of = true ↔ SignedOverflow w.bits (a.toInt + b.toInt + c.toNat) :=
  addArith_of_lit _ (Width.bits_cases w) a b c

/-- OF of a subtraction is the signed overflow. -/
theorem subArith_of (w : Width) (a b : BitVec w.bits) (c : Bool) :
    (subArith a b c).of = true ↔ SignedOverflow w.bits (a.toInt - b.toInt - c.toNat) :=
  subArith_of_lit _ (Width.bits_cases w) a b c

theorem addFlags_setArith (w : Width) (a b : BitVec w.bits) (c : Bool) (s : State) :
    AddFlags a b c.toNat (s.setArith (addArith a b c)) := by
  refine ⟨State.flag_setArith_cf .., ?_, ?_⟩
  · rw [State.flag_setArith_af]; exact decide_eq_decide.mpr (by omega)
  · rw [State.flag_setArith_of]; exact addArith_of w a b c

theorem subFlags_setArith (w : Width) (a b : BitVec w.bits) (c : Bool) (s : State) :
    SubFlags a b c.toNat (s.setArith (subArith a b c)) := by
  refine ⟨State.flag_setArith_cf .., State.flag_setArith_af .., ?_⟩
  rw [State.flag_setArith_of]; exact subArith_of w a b c

theorem addArith_r {w : Nat} (a b : BitVec w) : (addArith a b false).r = a + b := by
  apply BitVec.eq_of_toNat_eq; simp [addArith]

theorem subArith_r {w : Nat} (a b : BitVec w) : (subArith a b false).r = a - b := by
  apply BitVec.eq_of_toInt_eq
  simp only [subArith, Bool.toNat_false, Int.natCast_zero, Int.sub_zero]
  rw [BitVec.toInt_ofInt, BitVec.toInt_sub, BitVec.toInt_eq_toNat_bmod a, BitVec.toInt_eq_toNat_bmod b]
  simp

/-! ## The reserved bits (10_state R46) -/

theorem flagsNormal_iff (w : Word) :
    flagsNormal w = true ↔ w.getLsbD 1 = true ∧ ∀ k ∈ [3, 5, 12, 13, 14, 15], w.getLsbD k = false := by
  simp only [flagsNormal, beq_iff_eq]
  constructor
  · intro h
    have g : ∀ k, (w &&& 0xF02A#16).getLsbD k = (0x0002#16).getLsbD k := fun k => by rw [h]
    have g1 := g 1; have g3 := g 3; have g5 := g 5; have g12 := g 12; have g13 := g 13; have g14 := g 14; have g15 := g 15
    simp only [BitVec.getLsbD_and, BitVec.getLsbD_ofNat] at g1 g3 g5 g12 g13 g14 g15
    simp [Nat.testBit] at *
    simp_all
  · rintro ⟨h1, h⟩
    apply BitVec.eq_of_getLsbD_eq
    intro k hk
    have h3 := h 3 (by simp); have h5 := h 5 (by simp); have h12 := h 12 (by simp); have h13 := h 13 (by simp)
    have h14 := h 14 (by simp); have h15 := h 15 (by simp)
    interval_cases k <;> simp_all

/-- A flag write keeps the reserved bits. -/
theorem flagsNormal_putFlag (f : Flag) (v : Bool) {w : Word} (h : flagsNormal w = true) : flagsNormal (putFlag f v w) = true := by
  rw [flagsNormal_iff] at h ⊢
  have key : ∀ k ∈ [1, 3, 5, 12, 13, 14, 15], (putFlag f v w).getLsbD k = w.getLsbD k := by
    intro k hk
    rw [getLsbD_putFlag, if_neg]
    revert hk; cases f <;> simp [Flag.pos] <;> omega
  exact ⟨(key 1 (by simp)).trans h.1, fun k hk => (key k (by simp at hk ⊢; omega)).trans (h.2 k hk)⟩

/-- `norm` gives a normalised word and keeps one. -/
theorem flagsNormal_norm (v : Word) : flagsNormal (norm v) = true := by
  simp only [flagsNormal, norm, beq_iff_eq]
  apply BitVec.eq_of_getLsbD_eq
  intro k hk
  interval_cases k <;> simp

theorem norm_of_flagsNormal {w : Word} (h : flagsNormal w = true) : norm w = w := by
  rw [flagsNormal_iff] at h
  obtain ⟨h1, h⟩ := h
  have h3 := h 3 (by simp); have h5 := h 5 (by simp); have h12 := h 12 (by simp); have h13 := h 13 (by simp)
  have h14 := h 14 (by simp); have h15 := h 15 (by simp)
  apply BitVec.eq_of_getLsbD_eq
  intro k hk
  interval_cases k <;> simp_all [norm]

end Sys2Proof.Machine
end

