-- ==== Sys2Proof/Laws/Memory.lean ====
section
/-! SUPPORT. Memory: what a store leaves behind, the canonical form, physical addresses, words, and when two accesses are disjoint
(20_memory R80-R91). Reading back holds of every list; the canonical form is a separate fact. -/

namespace Sys2Proof.Machine

/-! ## The list -/

theorem Memory.read_erase (m : Memory) (a c : Nat) :
    (m.erase a).read c = if c = a then Memory.unlisted else m.read c := by
  induction m with
  | nil => simp [Memory.erase, Memory.read]
  | cons p t ih =>
    obtain ⟨k, b⟩ := p
    by_cases hk : k = a <;> by_cases hc : c = a <;> by_cases hkc : k = c <;>
      simp_all [Memory.erase, Memory.read]

theorem Memory.read_insert (m : Memory) (a c : Nat) (b : Byte) (h : ∀ p ∈ m, p.1 ≠ a) :
    (m.insert a b).read c = if c = a then b else m.read c := by
  induction m with
  | nil => by_cases hc : a = c <;> simp [Memory.insert, Memory.read, hc, eq_comm]
  | cons p t ih =>
    obtain ⟨k, d⟩ := p
    have hk : k ≠ a := h _ (List.mem_cons_self ..)
    have ih := ih fun p hp => h p (List.mem_cons_of_mem _ hp)
    unfold Memory.insert
    split
    · by_cases hc : a = c
      · simp [Memory.read, hc]
      · simp [Memory.read, hc, Ne.symm hc]
    · by_cases hkc : k = c
      · subst hkc; simp [Memory.read, hk]
      · simp [Memory.read, hkc, ih]

theorem Memory.keys_erase (m : Memory) (a : Nat) : ∀ p ∈ m.erase a, p.1 ≠ a := by
  induction m with
  | nil => simp [Memory.erase]
  | cons p t ih =>
    obtain ⟨k, b⟩ := p
    unfold Memory.erase
    split
    · exact ih
    · rintro q (_ | ⟨_, hq⟩)
      · assumption
      · exact ih q ‹_›

/-- A store is read back at its address and at no other. -/
theorem Memory.read_write (m : Memory) (a c : Nat) (b : Byte) :
    (m.write a b).read c = if c = a then b else m.read c := by
  unfold Memory.write
  split
  · subst b; exact Memory.read_erase m a c
  · rw [Memory.read_insert _ _ _ _ (Memory.keys_erase m a), Memory.read_erase]
    split <;> rfl

theorem Memory.wfFrom_mono {m : Memory} {lo lo' : Nat} (h : lo' ≤ lo) (hm : Memory.wfFrom lo m = true) :
    Memory.wfFrom lo' m = true := by
  cases m with
  | nil => rfl
  | cons p t =>
    simp only [Memory.wfFrom, Bool.and_eq_true, decide_eq_true_eq] at hm ⊢
    exact ⟨⟨⟨by omega, hm.1.1.2⟩, hm.1.2⟩, hm.2⟩

theorem Memory.wfFrom_erase {m : Memory} {lo : Nat} (a : Nat) (hm : Memory.wfFrom lo m = true) :
    Memory.wfFrom lo (m.erase a) = true := by
  induction m generalizing lo with
  | nil => rfl
  | cons p t ih =>
    obtain ⟨k, b⟩ := p
    simp only [Memory.wfFrom, Bool.and_eq_true, decide_eq_true_eq] at hm
    unfold Memory.erase
    split
    · exact Memory.wfFrom_mono (by omega) (ih hm.2)
    · simp only [Memory.wfFrom, Bool.and_eq_true, decide_eq_true_eq]
      exact ⟨hm.1, ih hm.2⟩

theorem Memory.wfFrom_insert {m : Memory} {lo a : Nat} {b : Byte} (h : ∀ p ∈ m, p.1 ≠ a) (hlo : lo ≤ a) (ha : a < 2 ^ 20)
    (hb : b ≠ Memory.unlisted) (hm : Memory.wfFrom lo m = true) : Memory.wfFrom lo (m.insert a b) = true := by
  induction m generalizing lo with
  | nil => simpa [Memory.insert, Memory.wfFrom, hlo, hb] using ha
  | cons p t ih =>
    obtain ⟨k, d⟩ := p
    have hk : k ≠ a := h _ (List.mem_cons_self ..)
    simp only [Memory.wfFrom, Bool.and_eq_true, decide_eq_true_eq] at hm
    unfold Memory.insert
    split
    · simp only [Memory.wfFrom, Bool.and_eq_true, decide_eq_true_eq]
      exact ⟨⟨⟨hlo, ha⟩, by simpa using hb⟩, ⟨⟨by omega, hm.1.1.2⟩, hm.1.2⟩, hm.2⟩
    · simp only [Memory.wfFrom, Bool.and_eq_true, decide_eq_true_eq]
      exact ⟨hm.1, ih (fun p hp => h p (List.mem_cons_of_mem _ hp)) (by omega) hm.2⟩

/-- A store keeps the canonical form. -/
theorem Memory.wf_write {m : Memory} {a : Nat} (b : Byte) (ha : a < 2 ^ 20) (hm : m.wf = true) : (m.write a b).wf = true := by
  unfold Memory.write
  split
  · exact Memory.wfFrom_erase a hm
  · exact Memory.wfFrom_insert (Memory.keys_erase m a) (Nat.zero_le _) ha ‹_› (Memory.wfFrom_erase a hm)

/-! ## Bytes and words -/

theorem State.memRead8_memWrite8 (s : State) (a c : Addr) (v : Byte) :
    (s.memWrite8 a v).memRead8 c = if c = a then v else s.memRead8 c := by
  simp only [State.memRead8, State.memWrite8_mem, Memory.read_write, BitVec.toNat_inj]

@[simp] theorem State.memRead8_memWrite8_same (s : State) (a : Addr) (v : Byte) : (s.memWrite8 a v).memRead8 a = v := by
  simp [State.memRead8_memWrite8]

theorem State.memRead8_memWrite8_ne (s : State) {a c : Addr} (h : c ≠ a) (v : Byte) :
    (s.memWrite8 a v).memRead8 c = s.memRead8 c := by
  rw [State.memRead8_memWrite8, if_neg h]

theorem Addr.succ_ne (a : Addr) : a + 1#20 ≠ a := by
  intro h
  have := congrArg BitVec.toNat h
  simp only [BitVec.toNat_add, BitVec.toNat_ofNat] at this
  have := a.isLt
  omega

theorem State.memRead8_memWrite16 (s : State) (a c : Addr) (v : Word) :
    (s.memWrite16 a v).memRead8 c
      = if c = a + 1#20 then v.extractLsb' 8 8 else if c = a then v.extractLsb' 0 8 else s.memRead8 c := by
  rw [State.memWrite16, State.memRead8_memWrite8, State.memRead8_memWrite8]

@[simp] theorem State.memRead16_memWrite16_same (s : State) (a : Addr) (v : Word) : (s.memWrite16 a v).memRead16 a = v := by
  have h : a ≠ a + 1#20 := (Addr.succ_ne a).symm
  simp only [State.memRead16, State.memRead8_memWrite16, if_pos, if_neg h]
  exact word_of_halves v

/-- The bytes a read of a width looks at. -/
theorem State.readMem_congr {s t : State} {w : Width} {seg off : Word}
    (h : ∀ a ∈ storedBytes w seg off, t.memRead8 a = s.memRead8 a) : t.readMem w seg off = s.readMem w seg off := by
  cases w with
  | byte => exact h _ (by simp [storedBytes])
  | word =>
    have h0 := h (phys seg off) (by simp [storedBytes])
    have h1 := h (phys seg off + 1#20) (by simp [storedBytes])
    simp only [State.readMem, State.memRead16, h0, h1]

theorem State.memRead8_congr {s t : State} (h : t.mem = s.mem) (a : Addr) : t.memRead8 a = s.memRead8 a := by
  rw [State.memRead8, h]; rfl

theorem State.memRead16_congr {s t : State} (h : t.mem = s.mem) (a : Addr) : t.memRead16 a = s.memRead16 a := by
  rw [State.memRead16, State.memRead8_congr h, State.memRead8_congr h]; rfl

theorem State.readMem_congr_mem {s t : State} (h : t.mem = s.mem) (w : Width) (seg off : Word) :
    t.readMem w seg off = s.readMem w seg off := State.readMem_congr fun a _ => State.memRead8_congr h a

/-- A store is read back. -/
@[simp] theorem State.readMem_writeMem_same (w : Width) (s : State) (seg off : Word) (v : BitVec w.bits) :
    (s.writeMem w seg off v).readMem w seg off = v := by
  cases w
  · exact State.memRead8_memWrite8_same s _ v
  · exact State.memRead16_memWrite16_same s _ v

/-- A store leaves every byte outside its own alone. -/
theorem State.memRead8_writeMem (w : Width) (s : State) (seg off : Word) (v : BitVec w.bits) {a : Addr}
    (h : a ∉ storedBytes w seg off) : (s.writeMem w seg off v).memRead8 a = s.memRead8 a := by
  cases w with
  | byte => exact State.memRead8_memWrite8_ne s (by simpa [storedBytes] using h) v
  | word =>
    simp only [storedBytes, List.mem_cons, List.not_mem_nil, or_false, not_or] at h
    simp only [State.writeMem, State.memRead8_memWrite16, if_neg h.1, if_neg h.2]

/-- A read disjoint from a store is as before it. -/
theorem State.readMem_writeMem_disjoint {w w' : Width} (s : State) {seg off seg' off' : Word} (v : BitVec w.bits)
    (h : ∀ a ∈ storedBytes w' seg' off', a ∉ storedBytes w seg off) :
    (s.writeMem w seg off v).readMem w' seg' off' = s.readMem w' seg' off' :=
  State.readMem_congr fun a ha => State.memRead8_writeMem w s seg off v (h a ha)

theorem State.wf_memWrite8 {s : State} (a : Addr) (v : Byte) (h : s.mem.wf = true) : (s.memWrite8 a v).mem.wf = true :=
  Memory.wf_write v a.isLt h

theorem State.wf_memWrite16 {s : State} (a : Addr) (v : Word) (h : s.mem.wf = true) : (s.memWrite16 a v).mem.wf = true :=
  State.wf_memWrite8 _ _ (State.wf_memWrite8 _ _ h)

/-- A store of a width keeps the canonical form. -/
theorem State.wf_writeMem {s : State} (w : Width) (seg off : Word) (v : BitVec w.bits) (h : s.mem.wf = true) :
    (s.writeMem w seg off v).mem.wf = true := by
  cases w
  · exact State.wf_memWrite8 _ _ h
  · exact State.wf_memWrite16 _ _ h

/-! ## Physical addresses (20_memory R82) -/

theorem phys_eq_ofNat (seg off : Word) : phys seg off = BitVec.ofNat 20 (seg.toNat * 16 + off.toNat) := by
  have h1 := seg.isLt
  have h2 := off.isLt
  apply BitVec.eq_of_toNat_eq
  simp only [phys, BitVec.toNat_add, BitVec.toNat_shiftLeft, BitVec.toNat_setWidth, Nat.shiftLeft_eq, BitVec.toNat_ofNat]
  omega

/-- Different offsets of a segment are different addresses. -/
theorem phys_injective {seg o p : Word} (h : phys seg o = phys seg p) : o = p := by
  have h := congrArg BitVec.toNat h
  simp only [phys_eq_ofNat, BitVec.toNat_ofNat] at h
  apply BitVec.eq_of_toNat_eq
  have := seg.isLt; have := o.isLt; have := p.isLt
  omega

theorem mem_storedBytes {w : Width} {seg o : Word} {a : Addr} (h : a ∈ storedBytes w seg o) :
    ∃ i < 2, a = phys seg o + BitVec.ofNat 20 i := by
  cases w <;> simp only [storedBytes, List.mem_cons, List.not_mem_nil, or_false] at h
  · exact ⟨0, by omega, by simpa using h⟩
  · rcases h with h | h
    · exact ⟨0, by omega, by simpa using h⟩
    · exact ⟨1, by omega, h⟩

/-- The bytes of two accesses of a segment are disjoint when the offsets are 2 or more apart both ways around. -/
theorem storedBytes_disjoint {w w' : Width} {seg o p : Word} (h : 2 ≤ (o - p).toNat) (h' : (o - p).toNat ≤ 65534) :
    ∀ a ∈ storedBytes w seg o, a ∉ storedBytes w' seg p := by
  have hs := seg.isLt; have ho := o.isLt; have hp := p.isLt
  rw [BitVec.toNat_sub] at h h'
  intro a ha hb
  obtain ⟨i, hi, ha⟩ := mem_storedBytes ha
  obtain ⟨j, hj, hb⟩ := mem_storedBytes hb
  have e := congrArg BitVec.toNat (ha.symm.trans hb)
  simp only [BitVec.toNat_add, phys_eq_ofNat, BitVec.toNat_ofNat] at e
  omega

end Sys2Proof.Machine
end

