-- ==== Sys2Proof/Laws/Frame.lean ====
section
/-! SUPPORT. Frames: how `OnlyChanges` composes, and one frame per shared operation. A meaning's frame is the composition of the
frames of the operations it is made of, brought to the stated parts by `OnlyChanges.mono`. -/

namespace Sys2Proof.Machine

/-! ## Composition -/

theorem SameRest.refl (s : State) : SameRest s s := ⟨rfl, rfl, rfl, rfl, rfl, rfl, rfl, rfl, rfl, rfl, rfl⟩

theorem SameRest.trans {s t u : State} (h : SameRest s t) (k : SameRest t u) : SameRest s u := by
  obtain ⟨a1, a2, a3, a4, a5, a6, a7, a8, a9, a10, a11⟩ := h
  obtain ⟨b1, b2, b3, b4, b5, b6, b7, b8, b9, b10, b11⟩ := k
  exact ⟨b1.trans a1, b2.trans a2, b3.trans a3, b4.trans a4, b5.trans a5, b6.trans a6, b7.trans a7, b8.trans a8, b9.trans a9,
    b10.trans a10, b11.trans a11⟩

/-- The parts `x` lie among the parts `y`; a half may lie in a whole register. -/
def Touched.le (x y : Touched) : Prop :=
  (∀ r ∈ x.regs, r ∈ y.regs) ∧ (∀ h ∈ x.halves, h ∈ y.halves ∨ h.parent ∈ y.regs) ∧ (∀ r ∈ x.segs, r ∈ y.segs) ∧
  (∀ f ∈ x.flags, f ∈ y.flags) ∧ (∀ a ∈ x.stored, a ∈ y.stored)

theorem Touched.le_refl (x : Touched) : x.le x :=
  ⟨fun _ h => h, fun _ h => .inl h, fun _ h => h, fun _ h => h, fun _ h => h⟩

theorem OnlyChanges.mono {x y : Touched} {s t : State} (h : OnlyChanges x s t) (l : x.le y) : OnlyChanges y s t := by
  obtain ⟨lr, lh, ls, lf, lm⟩ := l
  refine ⟨fun r hr hh => h.regs r (fun e => hr (lr r e)) (fun q hq e => ?_),
    fun q hq hp => h.halves q (fun e => (lh q e).elim hq hp) (fun e => hp (lr _ e)),
    fun r hr => h.segs r (fun e => hr (ls r e)), fun k hk => h.flags k (fun f hf => hk f (lf f hf)),
    fun a ha => h.mem a (fun e => ha (lm a e)), h.rest⟩
  rcases lh q hq with e' | e'
  · exact hh q e' e
  · exact hr (e ▸ e')

theorem OnlyChanges.refl (x : Touched) (s : State) : OnlyChanges x s s :=
  ⟨fun _ _ _ => rfl, fun _ _ _ => rfl, fun _ _ => rfl, fun _ _ => rfl, fun _ _ => rfl, SameRest.refl s⟩

theorem OnlyChanges.trans_same {x : Touched} {s t u : State} (h : OnlyChanges x s t) (k : OnlyChanges x t u) :
    OnlyChanges x s u :=
  ⟨fun r hr hh => (k.regs r hr hh).trans (h.regs r hr hh), fun q hq hp => (k.halves q hq hp).trans (h.halves q hq hp),
    fun r hr => (k.segs r hr).trans (h.segs r hr), fun b hb => (k.flags b hb).trans (h.flags b hb),
    fun a ha => (k.mem a ha).trans (h.mem a ha), h.rest.trans k.rest⟩

theorem Touched.le_add_left (x y : Touched) : x.le (x.add y) :=
  ⟨fun _ h => List.mem_append_left _ h, fun _ h => .inl (List.mem_append_left _ h), fun _ h => List.mem_append_left _ h,
    fun _ h => List.mem_append_left _ h, fun _ h => List.mem_append_left _ h⟩

theorem Touched.le_add_right (x y : Touched) : y.le (x.add y) :=
  ⟨fun _ h => List.mem_append_right _ h, fun _ h => .inl (List.mem_append_right _ h), fun _ h => List.mem_append_right _ h,
    fun _ h => List.mem_append_right _ h, fun _ h => List.mem_append_right _ h⟩

theorem OnlyChanges.trans {x y : Touched} {s t u : State} (h : OnlyChanges x s t) (k : OnlyChanges y t u) :
    OnlyChanges (x.add y) s u :=
  (h.mono (Touched.le_add_left x y)).trans_same (k.mono (Touched.le_add_right x y))

/-- What an unchanged part reads as. -/
theorem OnlyChanges.flag {x : Touched} {s t : State} (h : OnlyChanges x s t) {f : Flag} (hf : f ∉ x.flags) :
    t.flag f = s.flag f :=
  h.flags f.pos fun _ hg e => hf (Flag.pos_injective e ▸ hg)

theorem OnlyChanges.flags_eq {x : Touched} {s t : State} (h : OnlyChanges x s t) (hx : x.flags = []) : t.flags = s.flags :=
  BitVec.eq_of_getLsbD_eq fun k _ => h.flags k (by simp [hx])

theorem OnlyChanges.segs_eq {x : Touched} {s t : State} (h : OnlyChanges x s t) (hx : x.segs = []) : t.segs = s.segs :=
  Segs.ext_get fun r => h.segs r (by simp [hx])

theorem OnlyChanges.regs_eq {x : Touched} {s t : State} (h : OnlyChanges x s t) (hx : x.regs = []) (hh : x.halves = []) :
    t.regs = s.regs :=
  State.regs_eq fun r => h.regs r (by simp [hx]) (by simp [hh])

theorem OnlyChanges.readMem {x : Touched} {s t : State} (h : OnlyChanges x s t) {w : Width} {seg off : Word}
    (hd : ∀ a ∈ storedBytes w seg off, a ∉ x.stored) : t.readMem w seg off = s.readMem w seg off :=
  State.readMem_congr fun a ha => h.mem a (hd a ha)

/-! ## A change of one part -/

theorem onlyChanges_of {x : Touched} {s t : State} (hr : ∀ r, r ∉ x.regs → (∀ h ∈ x.halves, h.parent ≠ r) → t.reg r = s.reg r)
    (hh : ∀ h, h ∉ x.halves → h.parent ∉ x.regs → t.half h = s.half h) (hs : t.segs = s.segs) (hf : t.flags = s.flags)
    (hm : t.mem = s.mem) (rest : SameRest s t) : OnlyChanges x s t :=
  ⟨hr, hh, fun r _ => State.seg_congr hs r, fun k _ => by rw [hf], fun a _ => State.memRead8_congr hm a, rest⟩

theorem onlyChanges_setIp (s : State) (v : Word) : OnlyChanges {} s (s.setIp v) :=
  onlyChanges_of (fun _ _ _ => rfl) (fun _ _ _ => rfl) rfl rfl rfl (SameRest.refl s)

theorem onlyChanges_setReg (s : State) (r : Reg16) (v : Word) : OnlyChanges { regs := [r] } s (s.setReg r v) :=
  onlyChanges_of (fun q hq _ => State.reg_setReg_ne s (by simpa using hq) v)
    (fun h _ hp => State.half_setReg_ne s (by simpa using hp) v) rfl rfl rfl (SameRest.refl s)

theorem onlyChanges_setHalf (s : State) (h : Reg8) (v : Byte) : OnlyChanges { halves := [h] } s (s.setHalf h v) :=
  onlyChanges_of (fun q _ hh => State.reg_setHalf_ne s (fun e => hh h (by simp) e.symm) v)
    (fun q hq _ => State.half_setHalf_ne s (by simpa using hq) v) rfl rfl rfl (SameRest.refl s)

theorem onlyChanges_setRegW (w : Width) (s : State) (i : RegNum) (v : BitVec w.bits) :
    OnlyChanges (touchedReg w i []) s (s.setRegW w i v) := by
  cases w
  · exact onlyChanges_setHalf s i.r8 v
  · exact onlyChanges_setReg s i.r16 v

theorem onlyChanges_release (s : State) (n : Word) : OnlyChanges { regs := [.sp] } s (s.release n) :=
  onlyChanges_setReg s _ _

theorem onlyChanges_setSeg (s : State) (r : SReg) (v : Word) : OnlyChanges { segs := [r] } s (s.setSeg r v) :=
  ⟨fun _ _ _ => rfl, fun _ _ _ => rfl, fun q hq => State.seg_setSeg_ne s (by simpa using hq) v, fun _ _ => rfl,
    fun _ _ => rfl, SameRest.refl s⟩

theorem onlyChanges_jumpRel (s : State) (d : Word) : OnlyChanges {} s (s.jumpRel d) := onlyChanges_setIp s _

theorem onlyChanges_jumpFar (s : State) (seg off : Word) : OnlyChanges { segs := [.cs] } s (s.jumpFar seg off) :=
  (onlyChanges_setSeg s .cs seg).trans_same ((onlyChanges_setIp _ off).mono (by simp [Touched.le]))

/-! ## Flags -/

theorem onlyChanges_setFlag (s : State) (f : Flag) (v : Bool) : OnlyChanges { flags := [f] } s (s.setFlag f v) :=
  ⟨fun _ _ _ => rfl, fun _ _ _ => rfl, fun _ _ => rfl,
    fun k hk => by
      rw [State.setFlag_flags, getLsbD_putFlag, if_neg]
      intro e; exact hk f (by simp) e.symm,
    fun _ _ => rfl, SameRest.refl s⟩

theorem onlyChanges_freeFlag (s : State) (f : Flag) : OnlyChanges { flags := [f] } s (s.freeFlag f) := by
  have h := onlyChanges_setFlag s f (Config.freeBit s.draws)
  exact ⟨fun _ _ _ => rfl, fun _ _ _ => rfl, fun _ _ => rfl, h.flags, fun _ _ => rfl, SameRest.refl s⟩

theorem onlyChanges_freeFlags (s : State) (fs : List Flag) : OnlyChanges { flags := fs } s (s.freeFlags fs) := by
  induction fs generalizing s with
  | nil => exact OnlyChanges.refl _ s
  | cons f fs ih =>
    exact ((onlyChanges_freeFlag s f).mono (by simp [Touched.le])).trans_same ((ih (s.freeFlag f)).mono (by simp [Touched.le]; tauto))

theorem onlyChanges_setSZP {w : Nat} (s : State) (r : BitVec w) : OnlyChanges { flags := [.sf, .zf, .pf] } s (s.setSZP r) :=
  (((onlyChanges_setFlag s _ _).trans (onlyChanges_setFlag _ _ _)).trans (onlyChanges_setFlag _ _ _)).mono
    (by simp [Touched.le, Touched.add])

theorem onlyChanges_setArithKeepCF {w : Nat} (s : State) (o : Arith w) :
    OnlyChanges { flags := flagsButCF } s (s.setArithKeepCF o) :=
  (((onlyChanges_setFlag s _ _).trans (onlyChanges_setFlag _ _ _)).trans (onlyChanges_setSZP _ _)).mono
    (by simp [Touched.le, Touched.add, flagsButCF])

theorem onlyChanges_setArith {w : Nat} (s : State) (o : Arith w) : OnlyChanges { flags := arithFlags } s (s.setArith o) :=
  ((onlyChanges_setArithKeepCF s o).trans (onlyChanges_setFlag _ _ _)).mono
    (by simp [Touched.le, Touched.add, flagsButCF, arithFlags])

theorem onlyChanges_setLogic {w : Nat} (s : State) (r : BitVec w) : OnlyChanges { flags := arithFlags } s (s.setLogic r) :=
  ((((onlyChanges_setFlag s _ _).trans (onlyChanges_setFlag _ _ _)).trans (onlyChanges_setSZP _ _)).trans
    (onlyChanges_freeFlag _ _)).mono (by simp [Touched.le, Touched.add, arithFlags])

/-! ## Memory, places, the stack -/

theorem onlyChanges_memWrite8 (s : State) (a : Addr) (v : Byte) : OnlyChanges { stored := [a] } s (s.memWrite8 a v) :=
  ⟨fun _ _ _ => rfl, fun _ _ _ => rfl, fun _ _ => rfl, fun _ _ => rfl,
    fun c hc => State.memRead8_memWrite8_ne s (by simpa using hc) v, SameRest.refl s⟩

theorem onlyChanges_memWrite16 (s : State) (a : Addr) (v : Word) :
    OnlyChanges { stored := [a, a + 1#20] } s (s.memWrite16 a v) :=
  ((onlyChanges_memWrite8 s _ _).trans (onlyChanges_memWrite8 _ _ _)).mono (by simp [Touched.le, Touched.add])

theorem onlyChanges_writeMem (w : Width) (s : State) (seg off : Word) (v : BitVec w.bits) :
    OnlyChanges { stored := storedBytes w seg off } s (s.writeMem w seg off v) := by
  cases w
  · exact onlyChanges_memWrite8 s _ v
  · exact onlyChanges_memWrite16 s _ v

theorem onlyChanges_writePlace (w : Width) (s : State) (p : Place) (v : BitVec w.bits) :
    OnlyChanges (p.touched w []) s (s.writePlace w p v) := by
  cases p with
  | reg i => exact onlyChanges_setRegW w s i v
  | mem seg off => exact onlyChanges_writeMem w s seg off v

theorem Place.touched_le (w : Width) (p : Place) (fs : List Flag) : (p.touched w []).le (p.touched w fs) := by
  cases p <;> cases w <;> simp [Place.touched, touchedReg, Touched.le]

theorem Place.flags_le (w : Width) (p : Place) (fs : List Flag) : Touched.le { flags := fs } (p.touched w fs) := by
  cases p <;> cases w <;> simp [Place.touched, touchedReg, Touched.le]

/-- A write of a place and then of flags. -/
theorem onlyChanges_writePlace_flags {w : Width} {s t : State} {p : Place} {v : BitVec w.bits} {fs : List Flag}
    (h : OnlyChanges { flags := fs } (s.writePlace w p v) t) : OnlyChanges (p.touched w fs) s t :=
  ((onlyChanges_writePlace w s p v).mono (Place.touched_le w p fs)).trans_same (h.mono (Place.flags_le w p fs))

theorem onlyChanges_push16 (s : State) (v : Word) :
    OnlyChanges { regs := [.sp], stored := storedBytes .word (s.seg .ss) (s.reg .sp - 2#16) } s (s.push16 v) := by
  have h := onlyChanges_writeMem .word (s.setReg .sp (s.reg .sp - 2#16)) (s.seg .ss) (s.reg .sp - 2#16) v
  have e : s.push16 v = (s.setReg .sp (s.reg .sp - 2#16)).writeMem .word (s.seg .ss) (s.reg .sp - 2#16) v := by
    simp only [State.push16, State.reg_setReg_same]; rfl
  rw [e]
  exact ((onlyChanges_setReg s _ _).mono (by simp [Touched.le])).trans_same (h.mono (by simp [Touched.le]))

/-! ## Reading a place -/

theorem State.readPlace_congr {s t : State} (hr : t.regs = s.regs) (hm : t.mem = s.mem) (w : Width) (p : Place) :
    t.readPlace w p = s.readPlace w p := by
  cases p
  · exact State.regW_congr hr _ _
  · exact State.readMem_congr_mem hm _ _ _

@[simp] theorem State.readPlace_writePlace_same (w : Width) (s : State) (p : Place) (v : BitVec w.bits) :
    (s.writePlace w p v).readPlace w p = v := by
  cases p
  · exact State.regW_setRegW_same ..
  · exact State.readMem_writeMem_same ..

@[simp] theorem State.readPlace_setArith {n : Nat} (s : State) (o : Arith n) (w : Width) (p : Place) :
    (s.setArith o).readPlace w p = s.readPlace w p := State.readPlace_congr (by simp) (by simp) w p

@[simp] theorem State.readPlace_setArithKeepCF {n : Nat} (s : State) (o : Arith n) (w : Width) (p : Place) :
    (s.setArithKeepCF o).readPlace w p = s.readPlace w p := State.readPlace_congr (by simp) (by simp) w p

@[simp] theorem State.readPlace_setLogic {n : Nat} (s : State) (r : BitVec n) (w : Width) (p : Place) :
    (s.setLogic r).readPlace w p = s.readPlace w p := State.readPlace_congr (by simp) (by simp) w p

/-! ## The invariants (10_state R46, R60) -/

/-- A change of registers, segment registers and IP keeps the invariants. -/
theorem State.Inv.of_same {s t : State} (h : s.Inv) (hm : t.mem = s.mem) (hf : t.flags = s.flags) (hh : t.halted = s.halted)
    (hr : t.haltReason = s.haltReason) : t.Inv := by
  unfold State.Inv State.haltConsistent at h ⊢
  rw [hm, hf, hh, hr]; exact h

theorem State.Inv.setFlag {s : State} (h : s.Inv) (f : Flag) (v : Bool) : (s.setFlag f v).Inv :=
  ⟨h.1, flagsNormal_putFlag f v h.2.1, h.2.2⟩

theorem State.Inv.freeFlag {s : State} (h : s.Inv) (f : Flag) : (s.freeFlag f).Inv :=
  ⟨h.1, flagsNormal_putFlag f _ h.2.1, h.2.2⟩

theorem State.Inv.freeFlags {s : State} (h : s.Inv) (fs : List Flag) : (s.freeFlags fs).Inv := by
  induction fs generalizing s with
  | nil => exact h
  | cons f fs ih => exact ih (h.freeFlag f)

theorem State.Inv.setFlags {s : State} (h : s.Inv) (v : Word) : (s.setFlags v).Inv := ⟨h.1, flagsNormal_norm v, h.2.2⟩

theorem State.Inv.setSZP {s : State} (h : s.Inv) {w : Nat} (r : BitVec w) : (s.setSZP r).Inv :=
  ((h.setFlag _ _).setFlag _ _).setFlag _ _

theorem State.Inv.setArithKeepCF {s : State} (h : s.Inv) {w : Nat} (o : Arith w) : (s.setArithKeepCF o).Inv :=
  ((h.setFlag _ _).setFlag _ _).setSZP _

theorem State.Inv.setArith {s : State} (h : s.Inv) {w : Nat} (o : Arith w) : (s.setArith o).Inv :=
  (h.setArithKeepCF o).setFlag _ _

theorem State.Inv.setLogic {s : State} (h : s.Inv) {w : Nat} (r : BitVec w) : (s.setLogic r).Inv :=
  (((h.setFlag _ _).setFlag _ _).setSZP _).freeFlag _

theorem State.Inv.setReg {s : State} (h : s.Inv) (r : Reg16) (v : Word) : (s.setReg r v).Inv := h.of_same rfl rfl rfl rfl

theorem State.Inv.setSeg {s : State} (h : s.Inv) (r : SReg) (v : Word) : (s.setSeg r v).Inv := h.of_same rfl rfl rfl rfl

theorem State.Inv.setIp {s : State} (h : s.Inv) (v : Word) : (s.setIp v).Inv := h.of_same rfl rfl rfl rfl

theorem State.Inv.memWrite8 {s : State} (h : s.Inv) (a : Addr) (v : Byte) : (s.memWrite8 a v).Inv :=
  ⟨State.wf_memWrite8 a v h.1, h.2⟩

theorem State.Inv.writeMem {s : State} (h : s.Inv) (w : Width) (seg off : Word) (v : BitVec w.bits) :
    (s.writeMem w seg off v).Inv :=
  ⟨State.wf_writeMem w seg off v h.1, by simpa using h.2.1, by simpa [State.haltConsistent] using h.2.2⟩

theorem State.Inv.setRegW {s : State} (h : s.Inv) (w : Width) (i : RegNum) (v : BitVec w.bits) : (s.setRegW w i v).Inv :=
  h.of_same (by simp) (by simp) (by simp) (by simp)

theorem State.Inv.writePlace {s : State} (h : s.Inv) (w : Width) (p : Place) (v : BitVec w.bits) : (s.writePlace w p v).Inv := by
  cases p
  · exact h.setRegW ..
  · exact h.writeMem ..

theorem State.Inv.push16 {s : State} (h : s.Inv) (v : Word) : (s.push16 v).Inv := (h.setReg _ _).writeMem ..

end Sys2Proof.Machine
end

