-- ==== Sys2Proof/Laws/Stack.lean ====
section
/-! SUPPORT. The stack: one push, one pop, any number of pushes (20_memory R92, R93). -/

namespace Sys2Proof.Machine

/-! ## One word -/

theorem State.reg_push16_sp (s : State) (v : Word) : (s.push16 v).reg .sp = s.reg .sp - 2#16 := by
  simp [State.push16, State.reg_congr (State.writeMem_regs ..)]

theorem State.reg_push16_ne (s : State) (v : Word) {r : Reg16} (h : r ≠ .sp) : (s.push16 v).reg r = s.reg r :=
  (onlyChanges_push16 s v).regs r (by simpa using h) (by simp)

theorem State.readMem_push16 (s : State) (v : Word) :
    (s.push16 v).readMem .word (s.seg .ss) (s.reg .sp - 2#16) = v := by
  simp only [State.push16, State.reg_setReg_same]
  exact State.readMem_writeMem_same .word _ _ _ v

@[simp] theorem State.push16_regs (s : State) (v : Word) : (s.push16 v).regs = s.regs.set .sp (s.reg .sp - 2#16) := by
  simp [State.push16]

/-- The memory after a push, from the memory, SS and SP before it. -/
theorem State.push16_mem (s : State) (v : Word) :
    (s.push16 v).mem = (s.mem.write (phys (s.seg .ss) (s.reg .sp - 2#16)).toNat (v.extractLsb' 0 8)).write
      (phys (s.seg .ss) (s.reg .sp - 2#16) + 1#20).toNat (v.extractLsb' 8 8) := by
  simp only [State.push16, State.reg_setReg_same, State.writeMem, State.memWrite16_mem, State.setReg_mem]
  rfl

/-- States that agree on registers, segment registers and memory do so after the same push. -/
theorem State.push16_congr {s t : State} (hr : t.regs = s.regs) (hs : t.segs = s.segs) (hm : t.mem = s.mem) (v : Word) :
    (t.push16 v).regs = (s.push16 v).regs ∧ (t.push16 v).mem = (s.push16 v).mem := by
  constructor
  · rw [State.push16_regs, State.push16_regs, State.reg_congr hr, hr]
  · rw [State.push16_mem, State.push16_mem, State.seg_congr hs, State.reg_congr hr, hm]

/-- Everything a push does. -/
theorem pushesWord_push16 (s : State) (v : Word) : PushesWord v s (s.push16 v) :=
  ⟨s.reg_push16_sp v, s.readMem_push16 v, onlyChanges_push16 s v⟩

theorem State.top_eq_stackWord (s : State) : s.top = stackWord s 0#16 := by simp [State.top, stackWord]

/-- A word of the stack read after a change that touches no memory and moves SP by `n`. -/
theorem stackWord_of_release (s : State) (n m : Word) : stackWord (s.release n) m = stackWord s (n + m) := by
  simp only [stackWord, State.release, State.reg_setReg_same, BitVec.add_assoc]
  rfl

/-! ## Pops into a register -/

/-- A pop into a register: the register holds the word on top, SP is two higher unless it is that register. -/
theorem State.reg_popInto (s : State) (r q : Reg16) :
    (s.popInto r).reg q = if q = r then stackWord s 0#16 else if q = .sp then s.reg .sp + 2#16 else s.reg q := by
  simp only [State.popInto, State.pop16, State.release, State.reg_setReg, State.top_eq_stackWord]

theorem onlyChanges_popInto (s : State) (r : Reg16) : OnlyChanges { regs := [.sp, r] } s (s.popInto r) :=
  ((onlyChanges_release s _).trans (onlyChanges_setReg ..)).mono (by simp [Touched.le, Touched.add])

/-- A word of the stack read after a pop into a register other than SP. -/
theorem stackWord_popInto (s : State) {r : Reg16} (h : r ≠ .sp) (m : Word) :
    stackWord (s.popInto r) m = stackWord s (2#16 + m) := by
  have e : (s.popInto r).reg .sp = s.reg .sp + 2#16 := by rw [State.reg_popInto, if_neg h.symm, if_pos rfl]
  simp only [stackWord, e, BitVec.add_assoc]
  rfl

theorem onlyChanges_popSegInto (s : State) (r : SReg) : OnlyChanges { regs := [.sp], segs := [r] } s (s.popSegInto r) :=
  ((onlyChanges_release s _).trans (onlyChanges_setSeg ..)).mono (by simp [Touched.le, Touched.add])

/-! ## Any number of words -/

/-- The words of a list pushed in order. -/
def State.pushAll (s : State) : List Word → State
  | [] => s
  | w :: ws => (s.push16 w).pushAll ws

/-- The offset of the `k`-th pushed word. -/
theorem pushed_offset_succ (sp : Word) (k : Nat) :
    sp - 2#16 - BitVec.ofNat 16 (2 * (k + 1)) = sp - BitVec.ofNat 16 (2 * (k + 1 + 1)) := by
  apply BitVec.eq_of_toNat_eq
  have := sp.isLt
  simp only [BitVec.toNat_sub, BitVec.toNat_ofNat]
  omega

theorem pushed_offset_zero (sp : Word) : sp - BitVec.ofNat 16 (2 * (0 + 1)) = sp - 2#16 := rfl

theorem mem_pushedBytes {s : State} {n : Nat} {a : Addr} :
    a ∈ pushedBytes s n ↔ ∃ k < n, a ∈ storedBytes .word (s.seg .ss) (s.reg .sp - BitVec.ofNat 16 (2 * (k + 1))) := by
  simp [pushedBytes]

/-- The bytes of `n + 1` pushes are those of the first and those of the `n` after it. -/
theorem mem_pushedBytes_succ {s t : State} (hsp : t.reg .sp = s.reg .sp - 2#16) (hss : t.seg .ss = s.seg .ss) (n : Nat) (a : Addr) :
    a ∈ pushedBytes s (n + 1) ↔ a ∈ storedBytes .word (s.seg .ss) (s.reg .sp - 2#16) ∨ a ∈ pushedBytes t n := by
  simp only [mem_pushedBytes, hsp, hss, pushed_offset_succ]
  constructor
  · rintro ⟨k, hk, h⟩
    cases k with
    | zero => exact .inl h
    | succ k => exact .inr ⟨k, by omega, h⟩
  · rintro (h | ⟨k, hk, h⟩)
    · exact ⟨0, by omega, h⟩
    · exact ⟨k + 1, by omega, h⟩

/-- A pushed word is disjoint from the pushes after it. -/
theorem pushed_disjoint {s t : State} {n : Nat} (hsp : t.reg .sp = s.reg .sp - 2#16) (hss : t.seg .ss = s.seg .ss) (hn : n ≤ 32766) :
    ∀ a ∈ storedBytes .word (s.seg .ss) (s.reg .sp - 2#16), a ∉ pushedBytes t n := by
  intro a ha h
  obtain ⟨k, hk, h⟩ := mem_pushedBytes.mp h
  rw [hsp, hss, pushed_offset_succ] at h
  have e : s.reg .sp - 2#16 - (s.reg .sp - BitVec.ofNat 16 (2 * (k + 1 + 1))) = BitVec.ofNat 16 (2 * (k + 1)) := by
    apply BitVec.eq_of_toNat_eq
    have := (s.reg .sp).isLt
    simp only [BitVec.toNat_sub, BitVec.toNat_ofNat]
    omega
  exact storedBytes_disjoint (by rw [e, BitVec.toNat_ofNat]; omega) (by rw [e, BitVec.toNat_ofNat]; omega) a ha h

/-- Everything a run of pushes does. -/
theorem pushAll_spec (s : State) (ws : List Word) (hn : ws.length ≤ 32767) :
    (s.pushAll ws).reg .sp = s.reg .sp - BitVec.ofNat 16 (2 * ws.length) ∧
    (∀ k w, ws[k]? = some w →
      (s.pushAll ws).readMem .word (s.seg .ss) (s.reg .sp - BitVec.ofNat 16 (2 * (k + 1))) = w) ∧
    OnlyChanges { regs := [.sp], stored := pushedBytes s ws.length } s (s.pushAll ws) ∧ (s.pushAll ws).ip = s.ip := by
  induction ws generalizing s with
  | nil => exact ⟨by simp [State.pushAll], by simp, OnlyChanges.refl _ s, rfl⟩
  | cons v ws ih =>
    simp only [List.length_cons] at hn
    have hsp := s.reg_push16_sp v
    have hss : (s.push16 v).seg .ss = s.seg .ss := rfl
    obtain ⟨h1, h2, h3, h4⟩ := ih (s.push16 v) (by omega)
    refine ⟨?_, ?_, ?_, h4⟩
    · rw [State.pushAll, h1, hsp]
      apply BitVec.eq_of_toNat_eq
      have := (s.reg .sp).isLt
      simp only [BitVec.toNat_sub, BitVec.toNat_ofNat, List.length_cons]
      omega
    · intro k w hk
      cases k with
      | zero =>
        simp only [List.getElem?_cons_zero, Option.some.injEq] at hk
        subst hk
        rw [pushed_offset_zero, State.pushAll, h3.readMem (pushed_disjoint hsp hss (by omega)), State.readMem_push16]
      | succ k =>
        have := h2 k w (by simpa using hk)
        rwa [hsp, hss, pushed_offset_succ] at this
    · have l1 : Touched.le { regs := [.sp], stored := storedBytes .word (s.seg .ss) (s.reg .sp - 2#16) }
          { regs := [.sp], stored := pushedBytes s (ws.length + 1) } :=
        ⟨by simp, by simp, by simp, by simp, fun a ha => (mem_pushedBytes_succ hsp hss _ a).mpr (.inl ha)⟩
      have l2 : Touched.le { regs := [.sp], stored := pushedBytes (s.push16 v) ws.length }
          { regs := [.sp], stored := pushedBytes s (ws.length + 1) } :=
        ⟨by simp, by simp, by simp, by simp, fun a ha => (mem_pushedBytes_succ hsp hss _ a).mpr (.inr ha)⟩
      exact ((onlyChanges_push16 s v).mono l1).trans_same (h3.mono l2)

/-! ## The display copy of ENTER (47_post8086_ext R474) -/

/-- Everything the copy does: BP and SP come down by `2n`, the words are pushed, and word `k` is the one at `BP - 2(k+1)` where the
source lies outside the pushed bytes. -/
theorem copyDisplay_spec (n : Nat) (s : State) (hn : n ≤ 32767) :
    (copyDisplay n s).reg .sp = s.reg .sp - BitVec.ofNat 16 (2 * n) ∧ (copyDisplay n s).ip = s.ip ∧
    (∀ k < n, (∀ a ∈ storedBytes .word (s.seg .ss) (s.reg .bp - BitVec.ofNat 16 (2 * (k + 1))), a ∉ pushedBytes s n) →
      (copyDisplay n s).readMem .word (s.seg .ss) (s.reg .sp - BitVec.ofNat 16 (2 * (k + 1)))
        = s.readMem .word (s.seg .ss) (s.reg .bp - BitVec.ofNat 16 (2 * (k + 1)))) ∧
    OnlyChanges { regs := [.bp, .sp], stored := pushedBytes s n } s (copyDisplay n s) := by
  induction n generalizing s with
  | zero => exact ⟨by simp [copyDisplay], rfl, by omega, OnlyChanges.refl _ s⟩
  | succ n ih =>
    let u := s.setReg .bp (s.reg .bp - 2#16)
    let v : Word := s.readMem .word (s.seg .ss) (s.reg .bp - 2#16)
    have hu : copyDisplay (n + 1) s = copyDisplay n (u.push16 v) := by
      rw [copyDisplay, State.reg_setReg_same]; rfl
    have husp : u.reg .sp = s.reg .sp := State.reg_setReg_ne s (by decide) _
    have hbp : (u.push16 v).reg .bp = s.reg .bp - 2#16 := by
      rw [State.reg_push16_ne _ _ (by decide)]; exact State.reg_setReg_same ..
    have hsp : (u.push16 v).reg .sp = s.reg .sp - 2#16 := by rw [State.reg_push16_sp, husp]
    have hss : (u.push16 v).seg .ss = s.seg .ss := rfl
    have hpush : OnlyChanges { regs := [.bp, .sp], stored := storedBytes .word (s.seg .ss) (s.reg .sp - 2#16) } s (u.push16 v) := by
      have h := onlyChanges_push16 u v
      rw [husp] at h
      exact ((onlyChanges_setReg s .bp _).mono (by simp [Touched.le])).trans_same (h.mono (by simp [Touched.le]; exact fun a ha => ha))
    obtain ⟨h1, h2, h3, h4⟩ := ih (u.push16 v) (by omega)
    rw [hu]
    refine ⟨?_, h2, ?_, ?_⟩
    · rw [h1, hsp]
      apply BitVec.eq_of_toNat_eq
      have := (s.reg .sp).isLt
      simp only [BitVec.toNat_sub, BitVec.toNat_ofNat]
      omega
    · intro k hk hd
      cases k with
      | zero =>
        rw [pushed_offset_zero, pushed_offset_zero, h4.readMem (pushed_disjoint hsp hss (by omega)), ← husp]
        exact State.readMem_push16 u v
      | succ k =>
        have h := h3 k (by omega) (by
          intro a ha hb
          rw [hbp, hss, pushed_offset_succ] at ha
          exact hd a ha ((mem_pushedBytes_succ hsp hss n a).mpr (.inr hb)))
        rw [hbp, hsp, hss, pushed_offset_succ, pushed_offset_succ] at h
        rw [h]
        apply hpush.readMem
        intro a ha hb
        exact hd a ha ((mem_pushedBytes_succ hsp hss n a).mpr (.inl hb))
    · refine (hpush.mono ⟨by simp, by simp, by simp, by simp, fun a ha => ?_⟩).trans_same
        (h4.mono ⟨by simp, by simp, by simp, by simp, fun a ha => ?_⟩)
      · exact (mem_pushedBytes_succ hsp hss n a).mpr (.inl ha)
      · exact (mem_pushedBytes_succ hsp hss n a).mpr (.inr ha)

end Sys2Proof.Machine
end

