-- ==== Sys2Proof/Laws/Interrupts.lean ====
section
/-! SUPPORT. Taking an interrupt and returning from one (60_exceptions R601-R606, R610-R622): one lemma for the frame, one for the
entry through the vector table, one for the return. -/

namespace Sys2Proof.Machine

/-- FLAGS after the frame is pushed: IF and TF cleared (60_exceptions R601). -/
def entryFlags (w : Word) : Word := putFlag .tf false (putFlag .if_ false w)

/-- The frame is three words; FLAGS is pushed as it was (60_exceptions R601). -/
theorem pushFrame_eq (s : State) :
    s.pushFrame = ((((s.push16 s.flags).setFlag .if_ false).setFlag .tf false).push16 (s.seg .cs)).push16 s.ip := (rfl)

/-- Everything the three pushes do. -/
theorem pushFrame_spec (s : State) :
    s.pushFrame.reg .sp = s.reg .sp - 6#16 ∧ FrameStands s s.pushFrame ∧ s.pushFrame.flag .if_ = false ∧
    s.pushFrame.flag .tf = false ∧ s.pushFrame.ip = s.ip ∧
    OnlyChanges { regs := [.sp], flags := [.if_, .tf], stored := pushedBytes s 3 } s s.pushFrame := by
  obtain ⟨h1, h2, h3, h4⟩ := pushAll_spec s [s.flags, s.seg .cs, s.ip] (by simp)
  have hc : s.pushFrame.regs = (s.pushAll [s.flags, s.seg .cs, s.ip]).regs ∧
      s.pushFrame.mem = (s.pushAll [s.flags, s.seg .cs, s.ip]).mem := by
    rw [pushFrame_eq]
    have h := State.push16_congr (s := s.push16 s.flags) (t := ((s.push16 s.flags).setFlag .if_ false).setFlag .tf false)
      (by simp) (by simp) (by simp) (s.seg .cs)
    exact State.push16_congr h.1 (by simp) h.2 s.ip
  obtain ⟨hr, hm⟩ := hc
  have hf : s.pushFrame.flags = entryFlags s.flags := by simp [pushFrame_eq, entryFlags]
  refine ⟨(State.reg_congr hr _).trans h1, ⟨(State.readMem_congr_mem hm ..).trans (h2 0 _ rfl),
    (State.readMem_congr_mem hm ..).trans (h2 1 _ rfl), (State.readMem_congr_mem hm ..).trans (h2 2 _ rfl)⟩, ?_, ?_, by simp [pushFrame_eq], ?_⟩
  · rw [State.flag, hf, entryFlags, getFlag_putFlag_ne (by decide), getFlag_putFlag_same]
  · rw [State.flag, hf, entryFlags, getFlag_putFlag_same]
  · refine ⟨fun r hr' hh => (State.reg_congr hr r).trans (h3.regs r hr' hh),
      fun h hh hp => (State.half_congr hr h).trans (h3.halves h hh hp), fun r _ => State.seg_congr (by simp [pushFrame_eq]) r, ?_,
      fun a ha => (State.memRead8_congr hm a).trans (h3.mem a ha), ?_⟩
    · intro k hk
      rw [hf, entryFlags, getLsbD_putFlag, getLsbD_putFlag, if_neg (fun e => hk .tf (by simp) e.symm),
        if_neg (fun e => hk .if_ (by simp) e.symm)]
    · simp [pushFrame_eq, SameRest]

theorem State.pushFrame_handlers (s : State) : s.pushFrame.handlers = s.handlers := (pushFrame_spec s).2.2.2.2.2.rest.2.2.2.2.2.1

theorem State.pushFrame_keyBuffer (s : State) : s.pushFrame.keyBuffer = s.keyBuffer :=
  (pushFrame_spec s).2.2.2.2.2.rest.2.2.2.2.2.2.2.1

theorem interrupt_unregistered {s : State} {n : Byte} (h : lookupHandler s.handlers n = none) :
    s.interrupt n = s.pushFrame.enterVector n := by
  simp only [State.interrupt, State.pushFrame_handlers, h]

theorem interrupt_registered {s : State} {n : Byte} {k : Handler} (h : lookupHandler s.handlers n = some k) :
    s.interrupt n = (s.pushFrame.runHandler k n).release 6#16 := by
  simp only [State.interrupt, State.pushFrame_handlers, h]

/-- The vector's address (60_exceptions R604). -/
theorem vector_address (n : Byte) : n.setWidth 20 <<< 2 = BitVec.ofNat 20 (4 * n.toNat) ∧
    n.setWidth 20 <<< 2 + 2#20 = BitVec.ofNat 20 (4 * n.toNat + 2) := by
  have := n.isLt
  constructor <;> apply BitVec.eq_of_toNat_eq <;>
    simp only [BitVec.toNat_add, BitVec.toNat_shiftLeft, BitVec.toNat_setWidth, BitVec.toNat_ofNat, Nat.shiftLeft_eq] <;> omega

/-- The stack after a release of the frame is the stack before the interrupt. -/
theorem release_frame (sp : Word) : sp - 6#16 + 6#16 = sp := BitVec.sub_add_cancel ..

/-- A pushed frame, a handler that changes `x` and keeps SP, and the release of the frame. -/
theorem onlyChanges_frame_released {s p t : State} {x : Touched} (hp : p.reg .sp = s.reg .sp - 6#16)
    (h0 : OnlyChanges { regs := [.sp], flags := [.if_, .tf], stored := pushedBytes s 3 } s p) (h : OnlyChanges x p t)
    (hsp : t.reg .sp = p.reg .sp) :
    OnlyChanges { x with flags := .if_ :: .tf :: x.flags, stored := pushedBytes s 3 ++ x.stored } s (t.release 6#16) := by
  have k := (h0.trans h).trans (onlyChanges_release t 6#16)
  have hs : (t.release 6#16).reg .sp = s.reg .sp := by rw [State.release, State.reg_setReg_same, hsp, hp, release_frame]
  refine ⟨fun r hr hh => ?_, fun q hq hpar => k.halves q (by simpa [Touched.add] using hq) ?_,
    fun r hr => k.segs r (by simpa [Touched.add] using hr), fun b hb => k.flags b (by simpa [Touched.add] using hb),
    fun a ha => k.mem a (by simpa [Touched.add] using ha), k.rest⟩
  · by_cases e : r = .sp
    · subst e; exact hs
    · exact k.regs r (by simp [Touched.add, e]; exact hr) (by simpa [Touched.add] using hh)
  · have : q.parent ≠ .sp := by cases q <;> decide
    simp [Touched.add, this]; exact hpar

/-- Everything a return from an interrupt does. -/
theorem returnFromInterrupt_spec (s : State) :
    s.returnFromInterrupt.ip = stackWord s 0#16 ∧ s.returnFromInterrupt.seg .cs = stackWord s 2#16 ∧
    s.returnFromInterrupt.flags = norm (stackWord s 4#16) ∧ s.returnFromInterrupt.reg .sp = s.reg .sp + 6#16 ∧
    OnlyChanges { regs := [.sp], segs := [.cs] } s { s.returnFromInterrupt with flags := s.flags } := by
  have e : s.returnFromInterrupt = ((((s.release 2#16).release 2#16).release 2#16).jumpFar (s.release 2#16).top s.top).setFlags
      ((s.release 2#16).release 2#16).top := rfl
  rw [e]
  refine ⟨State.top_eq_stackWord s, ?_, ?_, ?_, ?_⟩
  · refine (State.seg_setSeg_same _ .cs (s.release 2#16).top).trans ?_
    rw [State.top_eq_stackWord, stackWord_of_release]; rfl
  · rw [State.setFlags_flags, State.top_eq_stackWord, stackWord_of_release, stackWord_of_release]; rfl
  · refine (State.reg_setReg_same ((s.release 2#16).release 2#16) .sp _).trans ?_
    rw [State.release, State.reg_setReg_same, State.release, State.reg_setReg_same, BitVec.add_assoc, BitVec.add_assoc]; rfl
  · exact ((((onlyChanges_release s _).trans (onlyChanges_release ..)).trans (onlyChanges_release ..)).trans
      (onlyChanges_jumpFar _ (s.release 2#16).top s.top)).mono (by simp [Touched.le, Touched.add])

/-- A registered body of the platform keeps SP. -/
theorem runHandler_sp (s : State) (h : Handler) (n : Byte) : (s.runHandler h n).reg .sp = s.reg .sp := by
  have hw : ∀ (ws : List (Addr × Byte)) (s : State), (s.writeBytes ws).regs = s.regs := by
    intro ws
    induction ws with
    | nil => exact fun _ => rfl
    | cons w ws ih => exact fun s => ih _
  have hs : (s.runService n).reg .sp = s.reg .sp := by
    have : ∀ (t : State) (r : ServiceResult), (t.afterService r).reg .sp = t.reg .sp := by
      intro t r
      have : (t.afterService r).reg .sp = (t.writeBytes r.writes).reg .sp := by
        unfold State.afterService State.setServiceHalt
        cases r.halt <;> rfl
      rw [this, State.reg_congr (hw _ _)]
    exact this _ _
  unfold State.runHandler
  cases h with
  | programExit => rfl
  | dos => dsimp only; split; · rfl
           · exact hs
  | keyboard =>
    dsimp only
    split
    · split
      · rfl
      · exact State.reg_setReg_ne s (r := .ax) (q := .sp) (by decide) _
    · exact hs
  | service => exact hs

end Sys2Proof.Machine
end

