-- ==== Sys2Proof/Laws/PerInstr.lean ====
section
/-! SUPPORT. The family `EncodeLength`: the encoding of a well-formed instruction has one to six bytes (30_encoding R120, R138, R141),
so the fetch window of a step holds every instruction. -/

/-- One to six bytes. -/
def Sys2Proof.Laws.EncodeLength.Statement (i : Sys2Proof.Instr) : Prop :=
  ∀ x, i.wf x = true → 1 ≤ (Sys2Proof.encode i).length ∧ (Sys2Proof.encode i).length ≤ 6

namespace Sys2Proof

theorem length_encodeAlu (b : Byte) (n : RegNum) (f : AluForm) : 1 ≤ (encodeAlu b n f).length ∧ (encodeAlu b n f).length ≤ 6 := by
  cases f with
  | rmReg w e r => have := length_encodeRm r e; simp [encodeAlu]; omega
  | regRm w r e => have := length_encodeRm r e; simp [encodeAlu]; omega
  | alImm v => simp [encodeAlu]
  | axImm v => simp [encodeAlu, bytes16]
  | rm8Imm alt e v => have := length_encodeRm n e; cases alt <;> simp [encodeAlu] <;> omega
  | rm16Imm e v => have := length_encodeRm n e; simp [encodeAlu, bytes16]; omega
  | rm16Simm e v => have := length_encodeRm n e; simp [encodeAlu]; omega

theorem length_encodeTest (f : TestForm) : 1 ≤ (encodeTest f).length ∧ (encodeTest f).length ≤ 6 := by
  cases f with
  | rmReg w e r => have := length_encodeRm r e; simp [encodeTest]; omega
  | alImm v => simp [encodeTest]
  | axImm v => simp [encodeTest, bytes16]
  | rm8Imm e v => have := length_encodeRm .n0 e; simp [encodeTest]; omega
  | rm16Imm e v => have := length_encodeRm .n0 e; simp [encodeTest, bytes16]; omega

theorem length_encodeShift (n : RegNum) (f : ShiftForm) : 1 ≤ (encodeShift n f).length ∧ (encodeShift n f).length ≤ 6 := by
  cases f with
  | one w e => have := length_encodeRm n e; simp [encodeShift]; omega
  | cl w e => have := length_encodeRm n e; simp [encodeShift]; omega
  | imm w e v => have := length_encodeRm n e; simp [encodeShift]; omega

theorem length_encodeCond (cc : Byte) (d : CondDisp) : 1 ≤ (encodeCond cc d).length ∧ (encodeCond cc d).length ≤ 6 := by
  cases d <;> simp [encodeCond, bytes16]

theorem length_encodePushSeg (r : SReg) : 1 ≤ (encodePushSeg r).length ∧ (encodePushSeg r).length ≤ 6 := by
  cases r <;> decide

theorem length_encodePopSeg (r : SReg) (h : r ≠ .cs) : 1 ≤ (encodePopSeg r).length ∧ (encodePopSeg r).length ≤ 6 := by
  cases r <;> first | decide | exact absurd rfl h

end Sys2Proof

section

set_option Elab.async false

open Sys2Proof

theorem Sys2Proof.Laws.EncodeLength.add (f : AluForm) : Sys2Proof.Laws.EncodeLength.Statement (.add f) := fun _ _ => length_encodeAlu ..

theorem Sys2Proof.Laws.EncodeLength.or (f : AluForm) : Sys2Proof.Laws.EncodeLength.Statement (.or f) := fun _ _ => length_encodeAlu ..

theorem Sys2Proof.Laws.EncodeLength.adc (f : AluForm) : Sys2Proof.Laws.EncodeLength.Statement (.adc f) := fun _ _ => length_encodeAlu ..

theorem Sys2Proof.Laws.EncodeLength.sbb (f : AluForm) : Sys2Proof.Laws.EncodeLength.Statement (.sbb f) := fun _ _ => length_encodeAlu ..

theorem Sys2Proof.Laws.EncodeLength.and (f : AluForm) : Sys2Proof.Laws.EncodeLength.Statement (.and f) := fun _ _ => length_encodeAlu ..

theorem Sys2Proof.Laws.EncodeLength.sub (f : AluForm) : Sys2Proof.Laws.EncodeLength.Statement (.sub f) := fun _ _ => length_encodeAlu ..

theorem Sys2Proof.Laws.EncodeLength.xor (f : AluForm) : Sys2Proof.Laws.EncodeLength.Statement (.xor f) := fun _ _ => length_encodeAlu ..

theorem Sys2Proof.Laws.EncodeLength.cmp (f : AluForm) : Sys2Proof.Laws.EncodeLength.Statement (.cmp f) := fun _ _ => length_encodeAlu ..

theorem Sys2Proof.Laws.EncodeLength.incReg (r : RegNum) : Sys2Proof.Laws.EncodeLength.Statement (.incReg r) := fun _ _ => by simp [encode]

theorem Sys2Proof.Laws.EncodeLength.incRm (w : Width) (e : Rm) : Sys2Proof.Laws.EncodeLength.Statement (.incRm w e) := by
  intro _ _
  have := length_encodeRm .n0 e
  simp [encode]
  omega

theorem Sys2Proof.Laws.EncodeLength.decReg (r : RegNum) : Sys2Proof.Laws.EncodeLength.Statement (.decReg r) := fun _ _ => by simp [encode]

theorem Sys2Proof.Laws.EncodeLength.decRm (w : Width) (e : Rm) : Sys2Proof.Laws.EncodeLength.Statement (.decRm w e) := by
  intro _ _
  have := length_encodeRm .n1 e
  simp [encode]
  omega

theorem Sys2Proof.Laws.EncodeLength.not (w : Width) (e : Rm) : Sys2Proof.Laws.EncodeLength.Statement (.not w e) := by
  intro _ _
  have := length_encodeRm .n2 e
  simp [encode]
  omega

theorem Sys2Proof.Laws.EncodeLength.neg (w : Width) (e : Rm) : Sys2Proof.Laws.EncodeLength.Statement (.neg w e) := by
  intro _ _
  have := length_encodeRm .n3 e
  simp [encode]
  omega

theorem Sys2Proof.Laws.EncodeLength.mul (w : Width) (e : Rm) : Sys2Proof.Laws.EncodeLength.Statement (.mul w e) := by
  intro _ _
  have := length_encodeRm .n4 e
  simp [encode]
  omega

theorem Sys2Proof.Laws.EncodeLength.imul (w : Width) (e : Rm) : Sys2Proof.Laws.EncodeLength.Statement (.imul w e) := by
  intro _ _
  have := length_encodeRm .n5 e
  simp [encode]
  omega

theorem Sys2Proof.Laws.EncodeLength.div (w : Width) (e : Rm) : Sys2Proof.Laws.EncodeLength.Statement (.div w e) := by
  intro _ _
  have := length_encodeRm .n6 e
  simp [encode]
  omega

theorem Sys2Proof.Laws.EncodeLength.idiv (w : Width) (e : Rm) : Sys2Proof.Laws.EncodeLength.Statement (.idiv w e) := by
  intro _ _
  have := length_encodeRm .n7 e
  simp [encode]
  omega

theorem Sys2Proof.Laws.EncodeLength.imulImm16 (r : RegNum) (e : Rm) (imm : Word) : Sys2Proof.Laws.EncodeLength.Statement (.imulImm16 r e imm) := by
  intro _ _
  have := length_encodeRm r e
  simp [encode, bytes16]
  omega

theorem Sys2Proof.Laws.EncodeLength.imulSimm8 (r : RegNum) (e : Rm) (imm : Byte) : Sys2Proof.Laws.EncodeLength.Statement (.imulSimm8 r e imm) := by
  intro _ _
  have := length_encodeRm r e
  simp [encode]
  omega

theorem Sys2Proof.Laws.EncodeLength.cbw : Sys2Proof.Laws.EncodeLength.Statement .cbw := fun _ _ => by decide

theorem Sys2Proof.Laws.EncodeLength.cwd : Sys2Proof.Laws.EncodeLength.Statement .cwd := fun _ _ => by decide

theorem Sys2Proof.Laws.EncodeLength.daa : Sys2Proof.Laws.EncodeLength.Statement .daa := fun _ _ => by decide

theorem Sys2Proof.Laws.EncodeLength.das : Sys2Proof.Laws.EncodeLength.Statement .das := fun _ _ => by decide

theorem Sys2Proof.Laws.EncodeLength.aaa : Sys2Proof.Laws.EncodeLength.Statement .aaa := fun _ _ => by decide

theorem Sys2Proof.Laws.EncodeLength.aas : Sys2Proof.Laws.EncodeLength.Statement .aas := fun _ _ => by decide

theorem Sys2Proof.Laws.EncodeLength.aam (base : Byte) : Sys2Proof.Laws.EncodeLength.Statement (.aam base) := fun _ _ => by simp [encode]

theorem Sys2Proof.Laws.EncodeLength.aad (base : Byte) : Sys2Proof.Laws.EncodeLength.Statement (.aad base) := fun _ _ => by simp [encode]

theorem Sys2Proof.Laws.EncodeLength.test (f : TestForm) : Sys2Proof.Laws.EncodeLength.Statement (.test f) := fun _ _ => length_encodeTest _

theorem Sys2Proof.Laws.EncodeLength.rol (f : ShiftForm) : Sys2Proof.Laws.EncodeLength.Statement (.rol f) := fun _ _ => length_encodeShift ..

theorem Sys2Proof.Laws.EncodeLength.ror (f : ShiftForm) : Sys2Proof.Laws.EncodeLength.Statement (.ror f) := fun _ _ => length_encodeShift ..

theorem Sys2Proof.Laws.EncodeLength.rcl (f : ShiftForm) : Sys2Proof.Laws.EncodeLength.Statement (.rcl f) := fun _ _ => length_encodeShift ..

theorem Sys2Proof.Laws.EncodeLength.rcr (f : ShiftForm) : Sys2Proof.Laws.EncodeLength.Statement (.rcr f) := fun _ _ => length_encodeShift ..

theorem Sys2Proof.Laws.EncodeLength.shl (f : ShiftForm) : Sys2Proof.Laws.EncodeLength.Statement (.shl f) := fun _ _ => length_encodeShift ..

theorem Sys2Proof.Laws.EncodeLength.shr (f : ShiftForm) : Sys2Proof.Laws.EncodeLength.Statement (.shr f) := fun _ _ => length_encodeShift ..

theorem Sys2Proof.Laws.EncodeLength.sal (f : ShiftForm) : Sys2Proof.Laws.EncodeLength.Statement (.sal f) := fun _ _ => length_encodeShift ..

theorem Sys2Proof.Laws.EncodeLength.sar (f : ShiftForm) : Sys2Proof.Laws.EncodeLength.Statement (.sar f) := fun _ _ => length_encodeShift ..

theorem Sys2Proof.Laws.EncodeLength.movRmReg (w : Width) (e : Rm) (r : RegNum) : Sys2Proof.Laws.EncodeLength.Statement (.movRmReg w e r) := by
  intro _ _
  have := length_encodeRm r e
  simp [encode]
  omega

theorem Sys2Proof.Laws.EncodeLength.movRegRm (w : Width) (r : RegNum) (e : Rm) : Sys2Proof.Laws.EncodeLength.Statement (.movRegRm w r e) := by
  intro _ _
  have := length_encodeRm r e
  simp [encode]
  omega

theorem Sys2Proof.Laws.EncodeLength.movRegImm8 (r : RegNum) (imm : Byte) : Sys2Proof.Laws.EncodeLength.Statement (.movRegImm8 r imm) := fun _ _ => by simp [encode]

theorem Sys2Proof.Laws.EncodeLength.movRegImm16 (r : RegNum) (imm : Word) : Sys2Proof.Laws.EncodeLength.Statement (.movRegImm16 r imm) := fun _ _ => by simp [encode, bytes16]

theorem Sys2Proof.Laws.EncodeLength.movRmImm8 (e : Rm) (imm : Byte) : Sys2Proof.Laws.EncodeLength.Statement (.movRmImm8 e imm) := by
  intro _ _
  have := length_encodeRm .n0 e
  simp [encode]
  omega

theorem Sys2Proof.Laws.EncodeLength.movRmImm16 (e : Rm) (imm : Word) : Sys2Proof.Laws.EncodeLength.Statement (.movRmImm16 e imm) := by
  intro _ _
  have := length_encodeRm .n0 e
  simp [encode, bytes16]
  omega

theorem Sys2Proof.Laws.EncodeLength.movAccMoffs (w : Width) (off : Word) : Sys2Proof.Laws.EncodeLength.Statement (.movAccMoffs w off) := fun _ _ => by simp [encode, bytes16]

theorem Sys2Proof.Laws.EncodeLength.movMoffsAcc (w : Width) (off : Word) : Sys2Proof.Laws.EncodeLength.Statement (.movMoffsAcc w off) := fun _ _ => by simp [encode, bytes16]

theorem Sys2Proof.Laws.EncodeLength.movRmSeg (e : Rm) (sr : SReg) : Sys2Proof.Laws.EncodeLength.Statement (.movRmSeg e sr) := by
  intro _ _
  have := length_encodeRm sr.num e
  simp [encode]
  omega

theorem Sys2Proof.Laws.EncodeLength.movSegRm (sr : SReg) (e : Rm) : Sys2Proof.Laws.EncodeLength.Statement (.movSegRm sr e) := by
  intro _ _
  have := length_encodeRm sr.num e
  simp [encode]
  omega

theorem Sys2Proof.Laws.EncodeLength.pushReg (r : RegNum) : Sys2Proof.Laws.EncodeLength.Statement (.pushReg r) := fun _ _ => by simp [encode]

theorem Sys2Proof.Laws.EncodeLength.pushRm (e : Rm) : Sys2Proof.Laws.EncodeLength.Statement (.pushRm e) := by
  intro _ _
  have := length_encodeRm .n6 e
  simp [encode]
  omega

theorem Sys2Proof.Laws.EncodeLength.pushSeg (sr : SReg) : Sys2Proof.Laws.EncodeLength.Statement (.pushSeg sr) := fun _ _ => length_encodePushSeg _

theorem Sys2Proof.Laws.EncodeLength.pushImm16 (imm : Word) : Sys2Proof.Laws.EncodeLength.Statement (.pushImm16 imm) := fun _ _ => by simp [encode, bytes16]

theorem Sys2Proof.Laws.EncodeLength.pushSimm8 (imm : Byte) : Sys2Proof.Laws.EncodeLength.Statement (.pushSimm8 imm) := fun _ _ => by simp [encode]

theorem Sys2Proof.Laws.EncodeLength.pushFs : Sys2Proof.Laws.EncodeLength.Statement .pushFs := fun _ _ => by decide

theorem Sys2Proof.Laws.EncodeLength.pushGs : Sys2Proof.Laws.EncodeLength.Statement .pushGs := fun _ _ => by decide

theorem Sys2Proof.Laws.EncodeLength.popReg (r : RegNum) : Sys2Proof.Laws.EncodeLength.Statement (.popReg r) := fun _ _ => by simp [encode]

theorem Sys2Proof.Laws.EncodeLength.popRm (e : Rm) : Sys2Proof.Laws.EncodeLength.Statement (.popRm e) := by
  intro _ _
  have := length_encodeRm .n0 e
  simp [encode]
  omega

theorem Sys2Proof.Laws.EncodeLength.popSeg (sr : SReg) : Sys2Proof.Laws.EncodeLength.Statement (.popSeg sr) := fun _ h => length_encodePopSeg _ (by rintro rfl; simp [Instr.wf] at h)

theorem Sys2Proof.Laws.EncodeLength.popFs : Sys2Proof.Laws.EncodeLength.Statement .popFs := fun _ _ => by decide

theorem Sys2Proof.Laws.EncodeLength.popGs : Sys2Proof.Laws.EncodeLength.Statement .popGs := fun _ _ => by decide

theorem Sys2Proof.Laws.EncodeLength.xchgRm (w : Width) (e : Rm) (r : RegNum) : Sys2Proof.Laws.EncodeLength.Statement (.xchgRm w e r) := by
  intro _ _
  have := length_encodeRm r e
  simp [encode]
  omega

theorem Sys2Proof.Laws.EncodeLength.xchgAx (r : RegNum) : Sys2Proof.Laws.EncodeLength.Statement (.xchgAx r) := fun _ _ => by simp [encode]

theorem Sys2Proof.Laws.EncodeLength.xlat : Sys2Proof.Laws.EncodeLength.Statement .xlat := fun _ _ => by decide

theorem Sys2Proof.Laws.EncodeLength.lea (r : RegNum) (m : MemOp) : Sys2Proof.Laws.EncodeLength.Statement (.lea r m) := by
  intro _ _
  have := length_encodeMem r m
  simp [encode]
  omega

theorem Sys2Proof.Laws.EncodeLength.lds (r : RegNum) (m : MemOp) : Sys2Proof.Laws.EncodeLength.Statement (.lds r m) := by
  intro _ _
  have := length_encodeMem r m
  simp [encode]
  omega

theorem Sys2Proof.Laws.EncodeLength.les (r : RegNum) (m : MemOp) : Sys2Proof.Laws.EncodeLength.Statement (.les r m) := by
  intro _ _
  have := length_encodeMem r m
  simp [encode]
  omega

theorem Sys2Proof.Laws.EncodeLength.lahf : Sys2Proof.Laws.EncodeLength.Statement .lahf := fun _ _ => by decide

theorem Sys2Proof.Laws.EncodeLength.sahf : Sys2Proof.Laws.EncodeLength.Statement .sahf := fun _ _ => by decide

theorem Sys2Proof.Laws.EncodeLength.pushf : Sys2Proof.Laws.EncodeLength.Statement .pushf := fun _ _ => by decide

theorem Sys2Proof.Laws.EncodeLength.popf : Sys2Proof.Laws.EncodeLength.Statement .popf := fun _ _ => by decide

theorem Sys2Proof.Laws.EncodeLength.movsb : Sys2Proof.Laws.EncodeLength.Statement .movsb := fun _ _ => by decide

theorem Sys2Proof.Laws.EncodeLength.movsw : Sys2Proof.Laws.EncodeLength.Statement .movsw := fun _ _ => by decide

theorem Sys2Proof.Laws.EncodeLength.cmpsb : Sys2Proof.Laws.EncodeLength.Statement .cmpsb := fun _ _ => by decide

theorem Sys2Proof.Laws.EncodeLength.cmpsw : Sys2Proof.Laws.EncodeLength.Statement .cmpsw := fun _ _ => by decide

theorem Sys2Proof.Laws.EncodeLength.stosb : Sys2Proof.Laws.EncodeLength.Statement .stosb := fun _ _ => by decide

theorem Sys2Proof.Laws.EncodeLength.stosw : Sys2Proof.Laws.EncodeLength.Statement .stosw := fun _ _ => by decide

theorem Sys2Proof.Laws.EncodeLength.lodsb : Sys2Proof.Laws.EncodeLength.Statement .lodsb := fun _ _ => by decide

theorem Sys2Proof.Laws.EncodeLength.lodsw : Sys2Proof.Laws.EncodeLength.Statement .lodsw := fun _ _ => by decide

theorem Sys2Proof.Laws.EncodeLength.scasb : Sys2Proof.Laws.EncodeLength.Statement .scasb := fun _ _ => by decide

theorem Sys2Proof.Laws.EncodeLength.scasw : Sys2Proof.Laws.EncodeLength.Statement .scasw := fun _ _ => by decide

theorem Sys2Proof.Laws.EncodeLength.insb : Sys2Proof.Laws.EncodeLength.Statement .insb := fun _ _ => by decide

theorem Sys2Proof.Laws.EncodeLength.insw : Sys2Proof.Laws.EncodeLength.Statement .insw := fun _ _ => by decide

theorem Sys2Proof.Laws.EncodeLength.outsb : Sys2Proof.Laws.EncodeLength.Statement .outsb := fun _ _ => by decide

theorem Sys2Proof.Laws.EncodeLength.outsw : Sys2Proof.Laws.EncodeLength.Statement .outsw := fun _ _ => by decide

theorem Sys2Proof.Laws.EncodeLength.jmpShort (d : Byte) : Sys2Proof.Laws.EncodeLength.Statement (.jmpShort d) := fun _ _ => by simp [encode]

theorem Sys2Proof.Laws.EncodeLength.jmpNear (d : Word) : Sys2Proof.Laws.EncodeLength.Statement (.jmpNear d) := fun _ _ => by simp [encode, bytes16]

theorem Sys2Proof.Laws.EncodeLength.jmpRm (e : Rm) : Sys2Proof.Laws.EncodeLength.Statement (.jmpRm e) := by
  intro _ _
  have := length_encodeRm .n4 e
  simp [encode]
  omega

theorem Sys2Proof.Laws.EncodeLength.jmpFar (off seg : Word) : Sys2Proof.Laws.EncodeLength.Statement (.jmpFar off seg) := fun _ _ => by simp [encode, bytes16]

theorem Sys2Proof.Laws.EncodeLength.jmpFarMem (m : MemOp) : Sys2Proof.Laws.EncodeLength.Statement (.jmpFarMem m) := by
  intro _ _
  have := length_encodeMem .n5 m
  simp [encode]
  omega

theorem Sys2Proof.Laws.EncodeLength.callNear (d : Word) : Sys2Proof.Laws.EncodeLength.Statement (.callNear d) := fun _ _ => by simp [encode, bytes16]

theorem Sys2Proof.Laws.EncodeLength.callRm (e : Rm) : Sys2Proof.Laws.EncodeLength.Statement (.callRm e) := by
  intro _ _
  have := length_encodeRm .n2 e
  simp [encode]
  omega

theorem Sys2Proof.Laws.EncodeLength.callFar (off seg : Word) : Sys2Proof.Laws.EncodeLength.Statement (.callFar off seg) := fun _ _ => by simp [encode, bytes16]

theorem Sys2Proof.Laws.EncodeLength.callFarMem (m : MemOp) : Sys2Proof.Laws.EncodeLength.Statement (.callFarMem m) := by
  intro _ _
  have := length_encodeMem .n3 m
  simp [encode]
  omega

theorem Sys2Proof.Laws.EncodeLength.ret : Sys2Proof.Laws.EncodeLength.Statement .ret := fun _ _ => by decide

theorem Sys2Proof.Laws.EncodeLength.retImm (n : Word) : Sys2Proof.Laws.EncodeLength.Statement (.retImm n) := fun _ _ => by simp [encode, bytes16]

theorem Sys2Proof.Laws.EncodeLength.retf : Sys2Proof.Laws.EncodeLength.Statement .retf := fun _ _ => by decide

theorem Sys2Proof.Laws.EncodeLength.retfImm (n : Word) : Sys2Proof.Laws.EncodeLength.Statement (.retfImm n) := fun _ _ => by simp [encode, bytes16]

theorem Sys2Proof.Laws.EncodeLength.jo (d : CondDisp) : Sys2Proof.Laws.EncodeLength.Statement (.jo d) := fun _ _ => length_encodeCond ..

theorem Sys2Proof.Laws.EncodeLength.jno (d : CondDisp) : Sys2Proof.Laws.EncodeLength.Statement (.jno d) := fun _ _ => length_encodeCond ..

theorem Sys2Proof.Laws.EncodeLength.jb (d : CondDisp) : Sys2Proof.Laws.EncodeLength.Statement (.jb d) := fun _ _ => length_encodeCond ..

theorem Sys2Proof.Laws.EncodeLength.jae (d : CondDisp) : Sys2Proof.Laws.EncodeLength.Statement (.jae d) := fun _ _ => length_encodeCond ..

theorem Sys2Proof.Laws.EncodeLength.je (d : CondDisp) : Sys2Proof.Laws.EncodeLength.Statement (.je d) := fun _ _ => length_encodeCond ..

theorem Sys2Proof.Laws.EncodeLength.jne (d : CondDisp) : Sys2Proof.Laws.EncodeLength.Statement (.jne d) := fun _ _ => length_encodeCond ..

theorem Sys2Proof.Laws.EncodeLength.jbe (d : CondDisp) : Sys2Proof.Laws.EncodeLength.Statement (.jbe d) := fun _ _ => length_encodeCond ..

theorem Sys2Proof.Laws.EncodeLength.ja (d : CondDisp) : Sys2Proof.Laws.EncodeLength.Statement (.ja d) := fun _ _ => length_encodeCond ..

theorem Sys2Proof.Laws.EncodeLength.js (d : CondDisp) : Sys2Proof.Laws.EncodeLength.Statement (.js d) := fun _ _ => length_encodeCond ..

theorem Sys2Proof.Laws.EncodeLength.jns (d : CondDisp) : Sys2Proof.Laws.EncodeLength.Statement (.jns d) := fun _ _ => length_encodeCond ..

theorem Sys2Proof.Laws.EncodeLength.jp (d : CondDisp) : Sys2Proof.Laws.EncodeLength.Statement (.jp d) := fun _ _ => length_encodeCond ..

theorem Sys2Proof.Laws.EncodeLength.jnp (d : CondDisp) : Sys2Proof.Laws.EncodeLength.Statement (.jnp d) := fun _ _ => length_encodeCond ..

theorem Sys2Proof.Laws.EncodeLength.jl (d : CondDisp) : Sys2Proof.Laws.EncodeLength.Statement (.jl d) := fun _ _ => length_encodeCond ..

theorem Sys2Proof.Laws.EncodeLength.jge (d : CondDisp) : Sys2Proof.Laws.EncodeLength.Statement (.jge d) := fun _ _ => length_encodeCond ..

theorem Sys2Proof.Laws.EncodeLength.jle (d : CondDisp) : Sys2Proof.Laws.EncodeLength.Statement (.jle d) := fun _ _ => length_encodeCond ..

theorem Sys2Proof.Laws.EncodeLength.jg (d : CondDisp) : Sys2Proof.Laws.EncodeLength.Statement (.jg d) := fun _ _ => length_encodeCond ..

theorem Sys2Proof.Laws.EncodeLength.loopne (d : Byte) : Sys2Proof.Laws.EncodeLength.Statement (.loopne d) := fun _ _ => by simp [encode]

theorem Sys2Proof.Laws.EncodeLength.loope (d : Byte) : Sys2Proof.Laws.EncodeLength.Statement (.loope d) := fun _ _ => by simp [encode]

theorem Sys2Proof.Laws.EncodeLength.loop (d : Byte) : Sys2Proof.Laws.EncodeLength.Statement (.loop d) := fun _ _ => by simp [encode]

theorem Sys2Proof.Laws.EncodeLength.jcxz (d : Byte) : Sys2Proof.Laws.EncodeLength.Statement (.jcxz d) := fun _ _ => by simp [encode]

theorem Sys2Proof.Laws.EncodeLength.int (n : Byte) : Sys2Proof.Laws.EncodeLength.Statement (.int n) := fun _ _ => by simp [encode]

theorem Sys2Proof.Laws.EncodeLength.int3 : Sys2Proof.Laws.EncodeLength.Statement .int3 := fun _ _ => by decide

theorem Sys2Proof.Laws.EncodeLength.into : Sys2Proof.Laws.EncodeLength.Statement .into := fun _ _ => by decide

theorem Sys2Proof.Laws.EncodeLength.iret : Sys2Proof.Laws.EncodeLength.Statement .iret := fun _ _ => by decide

theorem Sys2Proof.Laws.EncodeLength.inImm (w : Width) (port : Byte) : Sys2Proof.Laws.EncodeLength.Statement (.inImm w port) := fun _ _ => by simp [encode]

theorem Sys2Proof.Laws.EncodeLength.inDx (w : Width) : Sys2Proof.Laws.EncodeLength.Statement (.inDx w) := fun _ _ => by simp [encode]

theorem Sys2Proof.Laws.EncodeLength.outImm (w : Width) (port : Byte) : Sys2Proof.Laws.EncodeLength.Statement (.outImm w port) := fun _ _ => by simp [encode]

theorem Sys2Proof.Laws.EncodeLength.outDx (w : Width) : Sys2Proof.Laws.EncodeLength.Statement (.outDx w) := fun _ _ => by simp [encode]

theorem Sys2Proof.Laws.EncodeLength.clc : Sys2Proof.Laws.EncodeLength.Statement .clc := fun _ _ => by decide

theorem Sys2Proof.Laws.EncodeLength.stc : Sys2Proof.Laws.EncodeLength.Statement .stc := fun _ _ => by decide

theorem Sys2Proof.Laws.EncodeLength.cmc : Sys2Proof.Laws.EncodeLength.Statement .cmc := fun _ _ => by decide

theorem Sys2Proof.Laws.EncodeLength.cld : Sys2Proof.Laws.EncodeLength.Statement .cld := fun _ _ => by decide

theorem Sys2Proof.Laws.EncodeLength.std : Sys2Proof.Laws.EncodeLength.Statement .std := fun _ _ => by decide

theorem Sys2Proof.Laws.EncodeLength.cli : Sys2Proof.Laws.EncodeLength.Statement .cli := fun _ _ => by decide

theorem Sys2Proof.Laws.EncodeLength.sti : Sys2Proof.Laws.EncodeLength.Statement .sti := fun _ _ => by decide

theorem Sys2Proof.Laws.EncodeLength.hlt : Sys2Proof.Laws.EncodeLength.Statement .hlt := fun _ _ => by decide

theorem Sys2Proof.Laws.EncodeLength.nop : Sys2Proof.Laws.EncodeLength.Statement .nop := fun _ _ => by decide

theorem Sys2Proof.Laws.EncodeLength.wait : Sys2Proof.Laws.EncodeLength.Statement .wait := fun _ _ => by decide

theorem Sys2Proof.Laws.EncodeLength.esc (op : RegNum) (reg : RegNum) (e : Rm) : Sys2Proof.Laws.EncodeLength.Statement (.esc op reg e) := by
  intro _ _
  have := length_encodeRm reg e
  simp [encode]
  omega

theorem Sys2Proof.Laws.EncodeLength.pusha : Sys2Proof.Laws.EncodeLength.Statement .pusha := fun _ _ => by decide

theorem Sys2Proof.Laws.EncodeLength.popa : Sys2Proof.Laws.EncodeLength.Statement .popa := fun _ _ => by decide

theorem Sys2Proof.Laws.EncodeLength.bound (r : RegNum) (m : MemOp) : Sys2Proof.Laws.EncodeLength.Statement (.bound r m) := by
  intro _ _
  have := length_encodeMem r m
  simp [encode]
  omega

theorem Sys2Proof.Laws.EncodeLength.enter (size : Word) (level : Byte) : Sys2Proof.Laws.EncodeLength.Statement (.enter size level) := fun _ _ => by simp [encode, bytes16]

theorem Sys2Proof.Laws.EncodeLength.leave : Sys2Proof.Laws.EncodeLength.Statement .leave := fun _ _ => by decide

theorem Sys2Proof.Laws.EncodeLength.movzx (w : Width) (r : RegNum) (e : Rm) : Sys2Proof.Laws.EncodeLength.Statement (.movzx w r e) := by
  intro _ _
  have := length_encodeRm r e
  simp [encode]
  omega

theorem Sys2Proof.Laws.EncodeLength.movsx (w : Width) (r : RegNum) (e : Rm) : Sys2Proof.Laws.EncodeLength.Statement (.movsx w r e) := by
  intro _ _
  have := length_encodeRm r e
  simp [encode]
  omega

theorem Sys2Proof.Laws.EncodeLength.segES : Sys2Proof.Laws.EncodeLength.Statement .segES := fun _ _ => by decide

theorem Sys2Proof.Laws.EncodeLength.segCS : Sys2Proof.Laws.EncodeLength.Statement .segCS := fun _ _ => by decide

theorem Sys2Proof.Laws.EncodeLength.segSS : Sys2Proof.Laws.EncodeLength.Statement .segSS := fun _ _ => by decide

theorem Sys2Proof.Laws.EncodeLength.segDS : Sys2Proof.Laws.EncodeLength.Statement .segDS := fun _ _ => by decide

theorem Sys2Proof.Laws.EncodeLength.segFS : Sys2Proof.Laws.EncodeLength.Statement .segFS := fun _ _ => by decide

theorem Sys2Proof.Laws.EncodeLength.segGS : Sys2Proof.Laws.EncodeLength.Statement .segGS := fun _ _ => by decide

theorem Sys2Proof.Laws.EncodeLength.lock : Sys2Proof.Laws.EncodeLength.Statement .lock := fun _ _ => by decide

theorem Sys2Proof.Laws.EncodeLength.repne : Sys2Proof.Laws.EncodeLength.Statement .repne := fun _ _ => by decide

theorem Sys2Proof.Laws.EncodeLength.rep : Sys2Proof.Laws.EncodeLength.Statement .rep := fun _ _ => by decide

theorem Sys2Proof.Laws.EncodeLength.unknown (op : Byte) : Sys2Proof.Laws.EncodeLength.Statement (.unknown op) := fun _ _ => by simp [encode]

theorem Sys2Proof.Laws.EncodeLength.unknown0F (op : Byte) : Sys2Proof.Laws.EncodeLength.Statement (.unknown0F op) := fun _ _ => by simp [encode]

theorem Sys2Proof.Laws.EncodeLength.reserved (op modrm : Byte) : Sys2Proof.Laws.EncodeLength.Statement (.reserved op modrm) := fun _ _ => by simp [encode]

end
end

