-- ==== Sys2Proof/Laws/Shifts.lean ====
section
/-! SUPPORT. The single-bit steps of the shifts and rotates in closed form (43_shift_rotate R320-R327). -/

namespace Sys2Proof.Machine

theorem getLsbD_lowBit {w : Nat} (b : Bool) (i : Nat) : (lowBit w b).getLsbD i = (decide (i < w) && decide (i = 0) && b) := by
  cases b
  · simp [lowBit]
  · simp only [lowBit, Bool.toNat_true, BitVec.getLsbD_ofNat, Bool.and_true]
    cases i
    · simp
    · simp [Nat.testBit_succ]

theorem getLsbD_highBit {w : Nat} (b : Bool) (i : Nat) (hi : i < w) : (highBit w b).getLsbD i = (decide (i = w - 1) && b) := by
  rw [highBit, BitVec.getLsbD_shiftLeft, getLsbD_lowBit]
  by_cases h : i = w - 1
  · subst h; simp [show w - 1 < w by omega, show 0 < w by omega]
  · simp [hi, h]; omega

/-! ## Shifts -/

theorem shiftSteps_shl {w : Nat} (hw : 0 < w) (n : Nat) (a : BitVec w) (cf : Bool) :
    shiftSteps .shl n a cf = (a <<< n, if n = 0 then cf else decide (n ≤ w) && a.getLsbD (w - n)) := by
  induction n generalizing a cf with
  | zero => simp [shiftSteps]
  | succ n ih =>
    simp only [shiftSteps, shiftStep, ih, Prod.mk.injEq]
    refine ⟨by rw [← BitVec.shiftLeft_add, Nat.add_comm], ?_⟩
    by_cases hn : n = 0
    · subst hn
      simp [BitVec.msb_eq_getLsbD_last, hw]
      intro; omega
    · simp only [hn, if_false, Nat.succ_ne_zero, BitVec.getLsbD_shiftLeft]
      by_cases h : n + 1 ≤ w
      · simp [show n ≤ w by omega, h, show w - n < w by omega, show ¬ w - n < 1 by omega, Nat.sub_sub]
      · by_cases h2 : n ≤ w
        · simp [h, show w - n < 1 by omega]
        · simp [h, h2]

theorem shiftSteps_shr {w : Nat} (n : Nat) (a : BitVec w) (cf : Bool) :
    shiftSteps .shr n a cf = (a >>> n, if n = 0 then cf else a.getLsbD (n - 1)) := by
  induction n generalizing a cf with
  | zero => simp [shiftSteps]
  | succ n ih =>
    simp only [shiftSteps, shiftStep, ih, Prod.mk.injEq]
    refine ⟨by rw [← BitVec.shiftRight_add, Nat.add_comm], ?_⟩
    by_cases hn : n = 0
    · simp [hn]
    · simp only [hn, if_false, Nat.succ_ne_zero, BitVec.getLsbD_ushiftRight]
      congr 1; omega

/-- One arithmetic step. -/
theorem sar_step {w : Nat} (hw : 0 < w) (a : BitVec w) : ((a >>> 1) ||| highBit w a.msb) = a.sshiftRight 1 := by
  apply BitVec.eq_of_getLsbD_eq
  intro i hi
  rw [BitVec.getLsbD_or, BitVec.getLsbD_ushiftRight, getLsbD_highBit _ _ hi, BitVec.getLsbD_sshiftRight]
  by_cases h : 1 + i < w
  · simp [h, show i ≠ w - 1 by omega, show ¬ w ≤ i by omega]
  · simp [show i = w - 1 by omega, BitVec.getLsbD_of_ge a (1 + (w - 1)) (by omega), show w - 1 < w by omega,
      show ¬ 1 + (w - 1) < w by omega]

theorem shiftSteps_sar {w : Nat} (hw : 0 < w) (n : Nat) (a : BitVec w) (cf : Bool) :
    shiftSteps .sar n a cf = (a.sshiftRight n, if n = 0 then cf else a.getLsbD (min n w - 1)) := by
  induction n generalizing a cf with
  | zero => simp [shiftSteps]
  | succ n ih =>
    simp only [shiftSteps, shiftStep, ih, Prod.mk.injEq, sar_step hw]
    refine ⟨by rw [← BitVec.sshiftRight_add, Nat.add_comm], ?_⟩
    by_cases hn : n = 0
    · simp [hn, show min 1 w = 1 by omega]
    · simp only [hn, if_false, Nat.succ_ne_zero, BitVec.getLsbD_sshiftRight]
      by_cases h : n < w
      · have h1 : min n w = n := by omega
        have h2 : min (n + 1) w = n + 1 := by omega
        simp [h1, show ¬ w ≤ n - 1 by omega, show 1 + (n - 1) = n by omega, h]
      · have h1 : min n w = w := by omega
        have h2 : min (n + 1) w = w := by omega
        simp [h1, h2, show ¬ w ≤ w - 1 by omega, show ¬ 1 + (w - 1) < w by omega, BitVec.msb_eq_getLsbD_last]

/-! ## Rotates -/

theorem getLsbD_rotateLeft_mod {w : Nat} (x : BitVec w) (r i : Nat) (hi : i < w) :
    (x.rotateLeft r).getLsbD i = x.getLsbD ((i + (w - r % w)) % w) := by
  have hr : r % w < w := Nat.mod_lt _ (by omega)
  rw [BitVec.getLsbD_rotateLeft, Bool.cond_decide]
  generalize r % w = q at *
  split
  · rw [Nat.mod_eq_of_lt (by omega), Nat.add_comm]
  · rw [show i + (w - q) = (i - q) + w by omega, Nat.add_mod_right, Nat.mod_eq_of_lt (by omega)]
    simp [hi]

theorem getLsbD_rotateRight_mod {w : Nat} (x : BitVec w) (r i : Nat) (hi : i < w) :
    (x.rotateRight r).getLsbD i = x.getLsbD ((i + r % w) % w) := by
  have hr : r % w < w := Nat.mod_lt _ (by omega)
  rw [BitVec.getLsbD_rotateRight, Bool.cond_decide]
  generalize r % w = q at *
  split
  · rw [Nat.mod_eq_of_lt (by omega), Nat.add_comm]
  · rw [show i + q = (i - (w - q)) + w by omega, Nat.add_mod_right, Nat.mod_eq_of_lt (by omega)]
    simp [hi]

theorem rotateLeft_one_then {w : Nat} (x : BitVec w) (n : Nat) :
    (x.rotateLeft 1).rotateLeft n = x.rotateLeft (n + 1) := by
  apply BitVec.eq_of_getLsbD_eq
  intro i hi
  rw [getLsbD_rotateLeft_mod _ _ _ hi, getLsbD_rotateLeft_mod _ _ _ (Nat.mod_lt _ (by omega)), getLsbD_rotateLeft_mod _ _ _ hi]
  congr 1
  have h1 := Nat.mod_add_div n w
  have h2 := Nat.mod_lt n (show 0 < w by omega)
  have h3 := Nat.mod_add_div 1 w
  have h4 := Nat.mod_lt 1 (show 0 < w by omega)
  rw [Nat.mod_add_mod, Nat.add_mod n 1 w]
  generalize n % w = p at *
  generalize 1 % w = q at *
  by_cases h : p + q < w
  · rw [Nat.mod_eq_of_lt h, show i + (w - p) + (w - q) = i + (w - (p + q)) + w by omega, Nat.add_mod_right]
  · have e : (p + q) % w = p + q - w := by
      rw [Nat.mod_eq_sub_mod (by omega), Nat.mod_eq_of_lt (by omega)]
    rw [e, show i + (w - p) + (w - q) = i + (w - (p + q - w)) by omega]

theorem rotateRight_one_then {w : Nat} (x : BitVec w) (n : Nat) :
    (x.rotateRight 1).rotateRight n = x.rotateRight (n + 1) := by
  apply BitVec.eq_of_getLsbD_eq
  intro i hi
  rw [getLsbD_rotateRight_mod _ _ _ hi, getLsbD_rotateRight_mod _ _ _ (Nat.mod_lt _ (by omega)),
    getLsbD_rotateRight_mod _ _ _ hi]
  congr 1
  rw [Nat.mod_add_mod, Nat.add_assoc, Nat.add_mod i (n % w + 1 % w), Nat.add_mod i ((n + 1) % w), ← Nat.add_mod n 1 w,
    Nat.mod_mod]

/-- One rotation to the left. -/
theorem rol_step {w : Nat} (hw : 1 < w) (a : BitVec w) : ((a <<< 1) ||| lowBit w a.msb) = a.rotateLeft 1 := by
  apply BitVec.eq_of_getLsbD_eq
  intro i hi
  rw [getLsbD_rotateLeft_mod _ _ _ hi, BitVec.getLsbD_or, BitVec.getLsbD_shiftLeft, getLsbD_lowBit, Nat.mod_eq_of_lt hw]
  by_cases h : i = 0
  · subst h
    simp [hi, BitVec.msb_eq_getLsbD_last, Nat.mod_eq_of_lt (show w - 1 < w by omega)]
  · rw [show i + (w - 1) = (i - 1) + w by omega, Nat.add_mod_right, Nat.mod_eq_of_lt (by omega)]
    simp [hi, h]

/-- One rotation to the right. -/
theorem ror_step {w : Nat} (hw : 1 < w) (a : BitVec w) : ((a >>> 1) ||| highBit w (a.getLsbD 0)) = a.rotateRight 1 := by
  apply BitVec.eq_of_getLsbD_eq
  intro i hi
  rw [getLsbD_rotateRight_mod _ _ _ hi, BitVec.getLsbD_or, BitVec.getLsbD_ushiftRight, getLsbD_highBit _ _ hi,
    Nat.mod_eq_of_lt hw]
  by_cases h : i = w - 1
  · subst h
    rw [show w - 1 + 1 = w by omega, Nat.mod_self, BitVec.getLsbD_of_ge a (1 + (w - 1)) (by omega)]
    simp
  · rw [Nat.mod_eq_of_lt (by omega)]
    simp [h, Nat.add_comm]

theorem shiftSteps_rol {w : Nat} (hw : 1 < w) (n : Nat) (a : BitVec w) (cf : Bool) :
    shiftSteps .rol n a cf = (a.rotateLeft n, if n = 0 then cf else (a.rotateLeft n).getLsbD 0) := by
  induction n generalizing a cf with
  | zero =>
    simp only [shiftSteps, if_pos, Prod.mk.injEq, and_true]
    apply BitVec.eq_of_getLsbD_eq
    intro i hi
    rw [getLsbD_rotateLeft_mod _ _ _ hi]; simp [Nat.mod_eq_of_lt hi]
  | succ n ih =>
    simp only [shiftSteps, shiftStep, rol_step hw, ih, rotateLeft_one_then, Prod.mk.injEq, true_and]
    by_cases hn : n = 0
    · subst hn
      rw [if_pos rfl, if_neg (by decide), getLsbD_rotateLeft_mod _ _ _ (by omega), BitVec.msb_eq_getLsbD_last]
      congr 1
      rw [Nat.zero_add, Nat.zero_add, Nat.mod_eq_of_lt hw, Nat.mod_eq_of_lt (by omega)]
    · simp [hn]

theorem shiftSteps_ror {w : Nat} (hw : 1 < w) (n : Nat) (a : BitVec w) (cf : Bool) :
    shiftSteps .ror n a cf = (a.rotateRight n, if n = 0 then cf else (a.rotateRight n).getLsbD (w - 1)) := by
  induction n generalizing a cf with
  | zero =>
    simp only [shiftSteps, if_pos, Prod.mk.injEq, and_true]
    apply BitVec.eq_of_getLsbD_eq
    intro i hi
    rw [getLsbD_rotateRight_mod _ _ _ hi]; simp [Nat.mod_eq_of_lt hi]
  | succ n ih =>
    simp only [shiftSteps, shiftStep, ror_step hw, ih, rotateRight_one_then, Prod.mk.injEq, true_and]
    by_cases hn : n = 0
    · subst hn
      rw [if_pos rfl, if_neg (by decide), getLsbD_rotateRight_mod _ _ _ (by omega)]
      congr 1
      rw [Nat.zero_add, Nat.mod_eq_of_lt hw, show w - 1 + 1 = w by omega, Nat.mod_self]
    · simp [hn]

/-- A rotation through CF is a rotation of the operand with CF above it. -/
theorem rcl_step {w : Nat} (hw : 1 < w) (a : BitVec w) (cf : Bool) :
    BitVec.cons a.msb ((a <<< 1) ||| lowBit w cf) = (BitVec.cons cf a).rotateLeft 1 := by
  apply BitVec.eq_of_getLsbD_eq
  intro i hi
  rw [getLsbD_rotateLeft_mod _ _ _ hi, BitVec.getLsbD_cons, BitVec.getLsbD_or, BitVec.getLsbD_shiftLeft, getLsbD_lowBit,
    BitVec.getLsbD_cons, Nat.mod_eq_of_lt (show 1 < w + 1 by omega), Nat.add_sub_cancel]
  by_cases h : i = 0
  · subst h
    simp [show 0 ≠ w by omega, show 0 < w by omega]
  · rw [show i + w = (i - 1) + (w + 1) by omega, Nat.add_mod_right, Nat.mod_eq_of_lt (by omega)]
    by_cases h2 : i = w
    · subst h2; simp [show i - 1 ≠ i by omega, BitVec.msb_eq_getLsbD_last]
    · simp [h, h2, show i - 1 ≠ w by omega, show i < w by omega]

theorem rcr_step {w : Nat} (hw : 1 < w) (a : BitVec w) (cf : Bool) :
    BitVec.cons (a.getLsbD 0) ((a >>> 1) ||| highBit w cf) = (BitVec.cons cf a).rotateRight 1 := by
  apply BitVec.eq_of_getLsbD_eq
  intro i hi
  rw [getLsbD_rotateRight_mod _ _ _ hi, BitVec.getLsbD_cons, BitVec.getLsbD_or, BitVec.getLsbD_ushiftRight,
    BitVec.getLsbD_cons, Nat.mod_eq_of_lt (show 1 < w + 1 by omega)]
  by_cases h : i = w
  · subst h; simp [show 0 ≠ i by omega]
  · rw [Nat.mod_eq_of_lt (by omega), getLsbD_highBit _ _ (by omega)]
    by_cases h2 : i = w - 1
    · subst h2; simp [show w - 1 ≠ w by omega, show w - 1 + 1 = w by omega, BitVec.getLsbD_of_ge a (1 + (w - 1)) (by omega)]
    · simp [h, h2, show i + 1 ≠ w by omega, Nat.add_comm]

theorem shiftSteps_rcl {w : Nat} (hw : 1 < w) (n : Nat) (a : BitVec w) (cf : Bool) :
    BitVec.cons (shiftSteps .rcl n a cf).2 (shiftSteps .rcl n a cf).1 = (BitVec.cons cf a).rotateLeft n := by
  induction n generalizing a cf with
  | zero =>
    apply BitVec.eq_of_getLsbD_eq
    intro i hi
    rw [getLsbD_rotateLeft_mod _ _ _ hi]; simp [shiftSteps, Nat.mod_eq_of_lt hi]
  | succ n ih =>
    rw [← rotateLeft_one_then, ← rcl_step hw]
    exact ih _ _

theorem shiftSteps_rcr {w : Nat} (hw : 1 < w) (n : Nat) (a : BitVec w) (cf : Bool) :
    BitVec.cons (shiftSteps .rcr n a cf).2 (shiftSteps .rcr n a cf).1 = (BitVec.cons cf a).rotateRight n := by
  induction n generalizing a cf with
  | zero =>
    apply BitVec.eq_of_getLsbD_eq
    intro i hi
    rw [getLsbD_rotateRight_mod _ _ _ hi]; simp [shiftSteps, Nat.mod_eq_of_lt hi]
  | succ n ih =>
    rw [← rotateRight_one_then, ← rcr_step hw]
    exact ih _ _

end Sys2Proof.Machine
end

