-- ==== Sys2Proof/Laws/Strings.lean ====
section
/-! SUPPORT. String instructions: the stride, one iteration, and the repeat loop (44_string R350-R360, 47_post8086_ext R493, R494),
with the ports they use (46_io_processor_control R430-R433). -/

namespace Sys2Proof.Machine

/-! ## The stride -/

theorem State.delta_eq_strideOf (w : Width) (s : State) : s.delta w = strideOf w s := by
  unfold State.delta strideOf
  cases s.flag .df <;> cases w <;> rfl

theorem strideOf_congr {s t : State} (h : t.flag .df = s.flag .df) (w : Width) : strideOf w t = strideOf w s := by
  unfold strideOf; rw [h]

theorem delta_congr {s t : State} (h : t.flag .df = s.flag .df) (w : Width) : t.delta w = s.delta w := by
  unfold State.delta; rw [h]

/-! ## Ports -/

theorem State.portRead8_spec (s : State) (p : Word) :
    (s.portRead8 p).1 = portValue s s.draws p ∧ (s.portRead8 p).2.portLog = s.portLog ++ portReads s s.draws p ∧
    (s.portRead8 p).2.draws = (if p ∈ s.ports then s.draws + 1 else s.draws) := by
  unfold State.portRead8 portValue portReads
  by_cases h : p ∈ s.ports <;> simp [h, Config.unhandledPort]

theorem State.portWrite8_eq (s : State) (p : Word) (b : Byte) :
    s.portWrite8 p b = { s with portLog := s.portLog ++ portWrites s p b } := by
  unfold State.portWrite8 portWrites
  by_cases h : p ∈ s.ports <;> simp [h]

/-- A port read leaves everything but the port log and the draw counter alone. -/
theorem onlyChanges_portRead8 (s : State) (p : Word) : OnlyChanges {} s { (s.portRead8 p).2 with portLog := s.portLog } := by
  unfold State.portRead8
  split <;> exact ⟨fun _ _ _ => rfl, fun _ _ _ => rfl, fun _ _ => rfl, fun _ _ => rfl, fun _ _ => rfl, SameRest.refl s⟩

theorem onlyChanges_portRead (w : Width) (s : State) (p : Word) :
    OnlyChanges {} s { (s.portRead w p).2 with portLog := s.portLog } := by
  cases w
  · exact onlyChanges_portRead8 s p
  · have h1 := onlyChanges_portRead8 s p
    have h2 := onlyChanges_portRead8 (s.portRead8 p).2 (p + 1#16)
    exact ⟨fun r a b => (h2.regs r a b).trans (h1.regs r a b), fun r a b => (h2.halves r a b).trans (h1.halves r a b),
      fun r a => (h2.segs r a).trans (h1.segs r a), fun k a => (h2.flags k a).trans (h1.flags k a),
      fun a b => (h2.mem a b).trans (h1.mem a b), by
        obtain ⟨a1, a2, a3, a4, a5, a6, a7, a8, a9, -, a11⟩ := h1.rest
        obtain ⟨b1, b2, b3, b4, b5, b6, b7, b8, b9, -, b11⟩ := h2.rest
        exact ⟨b1.trans a1, b2.trans a2, b3.trans a3, b4.trans a4, b5.trans a5, b6.trans a6, b7.trans a7, b8.trans a8,
          b9.trans a9, rfl, b11.trans a11⟩⟩

theorem portWrite_eq (w : Width) (s : State) (p : Word) (v : BitVec w.bits) :
    s.portWrite w p v = { s with portLog := (s.portWrite w p v).portLog } := by
  cases w <;> simp only [State.portWrite, State.portWrite8_eq]

theorem State.portRead_draws_le (w : Width) (s : State) (p : Word) : s.draws ≤ (s.portRead w p).2.draws := by
  have h : ∀ (s : State) q, s.draws ≤ (s.portRead8 q).2.draws := by
    intro s q; rw [(s.portRead8_spec q).2.2]; split <;> omega
  cases w
  · exact h s p
  · exact (h s p).trans (h _ _)

@[simp] theorem State.portRead_regs (w : Width) (s : State) (p : Word) : (s.portRead w p).2.regs = s.regs := by
  cases w <;> simp [State.portRead]

@[simp] theorem State.portRead_segs (w : Width) (s : State) (p : Word) : (s.portRead w p).2.segs = s.segs := by
  cases w <;> simp [State.portRead]

@[simp] theorem State.portRead_flags (w : Width) (s : State) (p : Word) : (s.portRead w p).2.flags = s.flags := by
  cases w <;> simp [State.portRead]

@[simp] theorem State.portRead_ip (w : Width) (s : State) (p : Word) : (s.portRead w p).2.ip = s.ip := by
  cases w <;> simp [State.portRead]

@[simp] theorem State.portRead_mem (w : Width) (s : State) (p : Word) : (s.portRead w p).2.mem = s.mem := by
  cases w <;> simp [State.portRead]

@[simp] theorem State.portRead_rep (w : Width) (s : State) (p : Word) : (s.portRead w p).2.rep = s.rep := by
  cases w <;> simp [State.portRead]

@[simp] theorem State.portRead_halted (w : Width) (s : State) (p : Word) : (s.portRead w p).2.halted = s.halted := by
  cases w <;> simp [State.portRead]

@[simp] theorem State.portRead_haltReason (w : Width) (s : State) (p : Word) :
    (s.portRead w p).2.haltReason = s.haltReason := by
  cases w <;> simp [State.portRead]

/-! ## One iteration -/

theorem stepSi_only (w : Width) (s : State) : OnlyChanges { regs := [.si] } s (s.stepSi w) := onlyChanges_setReg ..
theorem stepDi_only (w : Width) (s : State) : OnlyChanges { regs := [.di] } s (s.stepDi w) := onlyChanges_setReg ..

theorem stepSi_di (w : Width) (s : State) :
   ((s.stepSi w).stepDi w).reg .si = s.reg .si + strideOf w s ∧ ((s.stepSi w).stepDi w).reg .di = s.reg .di + strideOf w s := by
  constructor
  · rw [State.stepDi, State.reg_setReg_ne _ (by decide), State.stepSi, State.reg_setReg_same, State.delta_eq_strideOf]
  · rw [State.stepDi, State.reg_setReg_same, State.stepSi, State.reg_setReg_ne _ (by decide), State.delta_eq_strideOf]; rfl

theorem setArith_df {n} (s : State) (o : Arith n) : (s.setArith o).flag .df = s.flag .df := (onlyChanges_setArith s o).flag (by decide)

theorem cmpsOnce_spec (w : Width) (s : State) :
   SubFlags (s.sourceElem w) (s.destElem w) 0 (cmpsOnce w s) ∧ ResultFlags (s.sourceElem w - s.destElem w) (cmpsOnce w s) ∧
    (cmpsOnce w s).reg .si = s.reg .si + strideOf w s ∧ (cmpsOnce w s).reg .di = s.reg .di + strideOf w s ∧ (cmpsOnce w s).ip = s.ip ∧
      OnlyChanges { regs := [.si, .di], flags := arithFlags } s (cmpsOnce w s) := by
  refine ⟨subFlags_setArith w _ _ false s, ?_, ?_, ?_, by simp [cmpsOnce, State.stepSi, State.stepDi], ?_⟩
  · have := resultFlags_setArith (subArith (s.sourceElem w) (s.destElem w) false) s
    rwa [subArith_r] at this
  · rw [cmpsOnce, (stepSi_di w _).1, strideOf_congr (setArith_df ..), State.reg_congr (State.setArith_regs ..)]
  · rw [cmpsOnce, (stepSi_di w _).2, strideOf_congr (setArith_df ..), State.reg_congr (State.setArith_regs ..)]
  · exact (((onlyChanges_setArith ..).trans (stepSi_only ..)).trans (stepDi_only ..)).mono (by simp [Touched.le, Touched.add])

theorem scasOnce_spec (w : Width) (s : State) :
   SubFlags (s.acc w) (s.destElem w) 0 (scasOnce w s) ∧ ResultFlags (s.acc w - s.destElem w) (scasOnce w s) ∧
    (scasOnce w s).reg .di = s.reg .di + strideOf w s ∧ (scasOnce w s).ip = s.ip ∧
      OnlyChanges { regs := [.di], flags := arithFlags } s (scasOnce w s) := by
  refine ⟨subFlags_setArith w _ _ false s, ?_, ?_, by simp [scasOnce, State.stepDi], ?_⟩
  · have := resultFlags_setArith (subArith (s.acc w) (s.destElem w) false) s
    rwa [subArith_r] at this
  · rw [scasOnce, State.stepDi, State.reg_setReg_same, State.delta_eq_strideOf, strideOf_congr (setArith_df ..), State.reg_congr (State.setArith_regs ..)]
  · exact ((onlyChanges_setArith ..).trans (stepDi_only ..)).mono (by simp [Touched.le, Touched.add])

theorem setDest_same (w : Width) (s : State) (v) : (s.setDestElem w v).readMem w (s.seg .es) (s.reg .di) = v := State.readMem_writeMem_same ..

theorem writeMem_df (w w' : Width) (s : State) (seg off) (v : BitVec w'.bits) : strideOf w (s.writeMem w' seg off v) = strideOf w s := strideOf_congr (State.flag_congr (State.writeMem_flags ..) _) w

theorem movsOnce_spec (w : Width) (s : State) : (movsOnce w s).readMem w (s.seg .es) (s.reg .di) = s.sourceElem w ∧
      (movsOnce w s).reg .si = s.reg .si + strideOf w s ∧ (movsOnce w s).reg .di = s.reg .di + strideOf w s ∧ (movsOnce w s).ip = s.ip ∧
      OnlyChanges { regs := [.si, .di], stored := storedBytes w (s.seg .es) (s.reg .di) } s (movsOnce w s) := by
  refine ⟨?_, ?_, ?_, by simp [movsOnce, State.stepSi, State.stepDi, State.setDestElem], ?_⟩
  · exact (State.readMem_congr_mem (t := movsOnce w s) (s := s.setDestElem w (s.sourceElem w)) rfl _ _ _).trans (setDest_same ..)
  · rw [movsOnce, (stepSi_di w _).1, State.setDestElem, writeMem_df, State.reg_congr (State.writeMem_regs ..)]
  · rw [movsOnce, (stepSi_di w _).2, State.setDestElem, writeMem_df, State.reg_congr (State.writeMem_regs ..)]
  · exact (((onlyChanges_writeMem w s _ _ _).trans (stepSi_only ..)).trans (stepDi_only ..)).mono (by simp [Touched.le, Touched.add])

theorem stosOnce_spec (w : Width) (s : State) : (stosOnce w s).readMem w (s.seg .es) (s.reg .di) = s.acc w ∧
      (stosOnce w s).reg .di = s.reg .di + strideOf w s ∧ (stosOnce w s).ip = s.ip ∧
      OnlyChanges { regs := [.di], stored := storedBytes w (s.seg .es) (s.reg .di) } s (stosOnce w s) := by
  refine ⟨?_, ?_, by simp [stosOnce, State.stepDi, State.setDestElem], ?_⟩
  · exact (State.readMem_congr_mem (t := stosOnce w s) (s := s.setDestElem w (s.acc w)) rfl _ _ _).trans (setDest_same ..)
  · rw [stosOnce, State.stepDi, State.reg_setReg_same, State.delta_eq_strideOf, State.setDestElem, writeMem_df, State.reg_congr (State.writeMem_regs ..)]
  · exact ((onlyChanges_writeMem w s _ _ _).trans (stepDi_only ..)).mono (by simp [Touched.le, Touched.add])

theorem lodsOnce_spec (w : Width) (s : State) : (lodsOnce w s).regW w .n0 = s.sourceElem w ∧
      (lodsOnce w s).reg .si = s.reg .si + strideOf w s ∧ (lodsOnce w s).ip = s.ip ∧
      OnlyChanges (Touched.add { regs := [.si] } (touchedReg w .n0 [])) s (lodsOnce w s) := by
  refine ⟨?_, ?_, by simp [lodsOnce, State.stepSi], ?_⟩
  · have h : (lodsOnce w s).regW w .n0 = (s.setAcc w (s.sourceElem w)).regW w .n0 := by
      have := stepSi_only w (s.setAcc w (s.sourceElem w))
      cases w
      · exact this.halves .al (by simp) (by simp [Reg8.parent])
      · exact this.regs .ax (by simp) (by simp)
    rw [h, State.regW_setRegW_same]
  · rw [lodsOnce, State.stepSi, State.reg_setReg_same, State.delta_eq_strideOf, strideOf_congr (State.flag_congr (State.setRegW_flags ..) _)]
    congr 1
    have := onlyChanges_setRegW w s .n0 (s.sourceElem w)
    cases w
    · exact this.regs .si (by simp [touchedReg]) (by simp [touchedReg, RegNum.r8, Reg8.parent])
    · exact this.regs .si (by simp [touchedReg, RegNum.r16]) (by simp [touchedReg])
  · exact ((onlyChanges_setRegW ..).trans (stepSi_only ..)).mono (by cases w <;> simp [Touched.le, Touched.add, touchedReg])

theorem insOnce_spec (w : Width) (s : State) : (insOnce w s).readMem w (s.seg .es) (s.reg .di) = (s.portRead w (s.reg .dx)).1 ∧
      (insOnce w s).portLog = (s.portRead w (s.reg .dx)).2.portLog ∧
      (insOnce w s).reg .di = s.reg .di + strideOf w s ∧ (insOnce w s).ip = s.ip ∧
      OnlyChanges { regs := [.di], stored := storedBytes w (s.seg .es) (s.reg .di) } s { (insOnce w s) with portLog := s.portLog } := by
  have hreg := State.reg_congr (State.portRead_regs w s (s.reg .dx))
  have hseg := State.seg_congr (State.portRead_segs w s (s.reg .dx))
  refine ⟨?_, ?_, ?_, ?_, ?_⟩
  · rw [← hreg .di, ← hseg .es]
    exact (State.readMem_congr_mem (t := insOnce w s) (s := (s.portRead w (s.reg .dx)).2.setDestElem w _) rfl _ _ _).trans (setDest_same ..)
  · simp [insOnce, State.stepDi, State.setDestElem]
  · simp only [insOnce]
    rw [State.stepDi, State.reg_setReg_same, State.delta_eq_strideOf, State.setDestElem, writeMem_df, State.reg_congr (State.writeMem_regs ..), hreg, strideOf_congr (State.flag_congr (State.portRead_flags ..) _)]
  · simp [insOnce, State.stepDi, State.setDestElem]
  · have h0 := onlyChanges_portRead w s (s.reg .dx)
    have h1 := (onlyChanges_writeMem w { (s.portRead w (s.reg .dx)).2 with portLog := s.portLog } (s.seg .es) (s.reg .di) (s.portRead w (s.reg .dx)).1)
    have h2 := stepDi_only w (State.writeMem w { (s.portRead w (s.reg .dx)).2 with portLog := s.portLog } (s.seg .es) (s.reg .di) (s.portRead w (s.reg .dx)).1)
    have := ((h0.trans h1).trans h2).mono (y := { regs := [.di], stored := storedBytes w (s.seg .es) (s.reg .di) }) (by simp [Touched.le, Touched.add])
    have e : ({ (insOnce w s) with portLog := s.portLog } : State) = (State.writeMem w { (s.portRead w (s.reg .dx)).2 with portLog := s.portLog } (s.seg .es) (s.reg .di) (s.portRead w (s.reg .dx)).1).stepDi w := by
      simp only [insOnce, State.setDestElem, hreg, hseg]
      cases w <;> rfl
    rw [e]; exact this

theorem outsOnce_spec (w : Width) (s : State) : 
      (outsOnce w s).portLog = (s.portWrite w (s.reg .dx) (s.sourceElem w)).portLog ∧
      (outsOnce w s).reg .si = s.reg .si + strideOf w s ∧ (outsOnce w s).ip = s.ip ∧
      OnlyChanges { regs := [.si] } s { (outsOnce w s) with portLog := s.portLog } := by
  simp only [outsOnce]
  rw [portWrite_eq]
  refine ⟨rfl, ?_, rfl, ?_⟩
  · rw [State.stepSi, State.reg_setReg_same, State.delta_eq_strideOf]; rfl
  · exact stepSi_only w s

/-! ## The repeat loop -/

/-- The loop keeps what one iteration with its count keeps. -/
theorem repeatLoop_induct {once : State → State} {stop : State → Bool} (P : State → State → Prop) (hrefl : ∀ s, P s s)
    (hstep : ∀ s t, P ((once s).decCx) t → P s t) (n : Nat) (s : State) : P s (repeatLoop once stop n s) := by
  induction n generalizing s with
  | zero => exact hrefl s
  | succ n ih =>
    rw [repeatLoop]
    split
    · exact hstep s _ (hrefl _)
    · exact hstep s _ (ih _)

theorem repeatLoop_zero (once : State → State) (stop : State → Bool) (s : State) : repeatLoop once stop 0 s = s := rfl

theorem repeatLoop_succ (once : State → State) (stop : State → Bool) (n : Nat) (s : State) :
    repeatLoop once stop (n + 1) s
      = if stop (once s).decCx then (once s).decCx else repeatLoop once stop n (once s).decCx := rfl

theorem reg_decCx_ne (s : State) {r : Reg16} (h : r ≠ .cx) : s.decCx.reg r = s.reg r := State.reg_setReg_ne s h _

theorem reg_decCx (s : State) : s.decCx.reg .cx = s.reg .cx - 1#16 := State.reg_setReg_same ..

end Sys2Proof.Machine
end

