-- ==== Sys2Proof/Tests/Slice0.lean ====
section
/-! SUPPORT. The model's own tests. Every expected value is written out by hand from the spec: the checks of WellFormed
(30_encoding R132, R139, R156-R160), words of the opcode map (30_encoding R150-R152), and the vectors of 95_test_vectors part 2
(the table and line stand beside each). Last, a state and operands that meet the hypotheses of every statement that has some. -/

open Sys2Proof Sys2Proof.Machine

namespace Sys2Proof.Tests

set_option Elab.async false

/-! ## WellFormed refuses -/

theorem test_wf_refuses_base_bp_without_displacement : Instr.wf .present (.movRegRm .word .n0 (.mem (.based .bp .none))) = false := by decide

theorem test_wf_refuses_alu_form_with_bad_operand : Instr.wf .present (.add (.rm8Imm false (.mem (.based .bp .none)) 0x01#8)) = false := by decide

theorem test_wf_refuses_test_form_with_bad_operand : Instr.wf .present (.test (.rm16Imm (.mem (.based .bp .none)) 0x0001#16)) = false := by decide

theorem test_wf_refuses_shift_form_with_bad_operand : Instr.wf .present (.rol (.one .byte (.mem (.based .bp .none)))) = false := by decide

theorem test_wf_refuses_immediate_shift_when_absent : Instr.wf .absent (.shl (.imm .word (.reg .n0) 0x04#8)) = false := by decide

theorem test_wf_refuses_imul_three_operands_when_absent : Instr.wf .absent (.imulSimm8 .n0 (.reg .n3) 0x02#8) = false := by decide

theorem test_wf_refuses_push_simm8_when_absent : Instr.wf .absent (.pushSimm8 0xFF#8) = false := by decide

theorem test_wf_refuses_push_fs_when_absent : Instr.wf .absent .pushFs = false := by decide

theorem test_wf_refuses_insb_when_absent : Instr.wf .absent .insb = false := by decide

theorem test_wf_refuses_push_seg_fs_is_no_one_byte_push : Instr.wf .present (.pushSeg .fs) = false := by decide

theorem test_wf_refuses_pop_cs_does_not_exist : Instr.wf .present (.popSeg .cs) = false := by decide

theorem test_wf_refuses_xchg_ax_ax_is_nop : Instr.wf .present (.xchgAx .n0) = false := by decide

theorem test_wf_refuses_lea_of_bp_without_displacement : Instr.wf .present (.lea .n3 (.based .bp .none)) = false := by decide

theorem test_wf_refuses_known_opcode_is_not_unknown : Instr.wf .present (.unknown 0x90#8) = false := by decide

theorem test_wf_refuses_x186_opcode_is_not_unknown_when_present : Instr.wf .present (.unknown 0x6A#8) = false := by decide

theorem test_wf_refuses_listed_second_byte_is_not_unknown : Instr.wf .present (.unknown0F 0x84#8) = false := by decide

theorem test_wf_refuses_defined_group_member_is_not_reserved : Instr.wf .present (.reserved 0xFF#8 0xF0#8) = false := by decide

/-! ## Decoding: every constructor, by a word written out from the opcode map -/

/-- The bytes are the whole encoding of the instruction, on a machine whose EXT186 is `x`. -/
def decodesTo (x : Ext186) (bs : List Byte) (i : Instr) : Bool :=
  match decode x bs with
  | .ok (j, rest) => j == i && rest == [] && i.wf x
  | .error _ => false

theorem test_decode_two_operand :
    decodesTo .present [0x01#8, 0xD8#8] (.add (.rmReg .word (.reg .n0) .n3)) = true ∧
    decodesTo .present [0x04#8, 0x01#8] (.add (.alImm 0x01#8)) = true ∧
    decodesTo .present [0x83#8, 0xC6#8, 0x02#8] (.add (.rm16Simm (.reg .n6) 0x02#8)) = true ∧
    decodesTo .present [0x08#8, 0xC0#8] (.or (.rmReg .byte (.reg .n0) .n0)) = true ∧
    decodesTo .present [0x80#8, 0x0E#8, 0x00#8, 0x03#8, 0x01#8] (.or (.rm8Imm false (.mem (.direct 0x0300#16)) 0x01#8)) = true ∧
    decodesTo .present [0x14#8, 0xFF#8] (.adc (.alImm 0xFF#8)) = true ∧
    decodesTo .present [0x83#8, 0xD2#8, 0x00#8] (.adc (.rm16Simm (.reg .n2) 0x00#8)) = true ∧
    decodesTo .present [0x19#8, 0xC0#8] (.sbb (.rmReg .word (.reg .n0) .n0)) = true ∧
    decodesTo .present [0x1C#8, 0xFF#8] (.sbb (.alImm 0xFF#8)) = true ∧
    decodesTo .present [0x25#8, 0x0F#8, 0x0F#8] (.and (.axImm 0x0F0F#16)) = true ∧
    decodesTo .present [0x29#8, 0xD8#8] (.sub (.rmReg .word (.reg .n0) .n3)) = true ∧
    decodesTo .present [0x2C#8, 0x01#8] (.sub (.alImm 0x01#8)) = true ∧
    decodesTo .present [0x31#8, 0xC0#8] (.xor (.rmReg .word (.reg .n0) .n0)) = true ∧
    decodesTo .present [0x3C#8, 0x00#8] (.cmp (.alImm 0x00#8)) = true ∧
    decodesTo .present [0x03#8, 0x04#8] (.add (.regRm .word .n0 (.mem (.based .si .none)))) = true ∧
    decodesTo .present [0x82#8, 0xF9#8, 0x05#8] (.cmp (.rm8Imm true (.reg .n1) 0x05#8)) = true ∧
    decodesTo .present [0x81#8, 0xEB#8, 0x34#8, 0x12#8] (.sub (.rm16Imm (.reg .n3) 0x1234#16)) = true := by decide +kernel

theorem test_decode_one_operand :
    decodesTo .present [0x40#8] (.incReg .n0) = true ∧
    decodesTo .present [0xFE#8, 0x07#8] (.incRm .byte (.mem (.based .bx .none))) = true ∧
    decodesTo .present [0x49#8] (.decReg .n1) = true ∧
    decodesTo .present [0xFF#8, 0xC8#8] (.decRm .word (.reg .n0)) = true ∧
    decodesTo .present [0xF7#8, 0xD0#8] (.not .word (.reg .n0)) = true ∧
    decodesTo .present [0xF6#8, 0xD8#8] (.neg .byte (.reg .n0)) = true ∧
    decodesTo .present [0xF7#8, 0xE3#8] (.mul .word (.reg .n3)) = true ∧
    decodesTo .present [0xF6#8, 0xEB#8] (.imul .byte (.reg .n3)) = true ∧
    decodesTo .present [0xF6#8, 0xF3#8] (.div .byte (.reg .n3)) = true ∧
    decodesTo .present [0xF7#8, 0xFB#8] (.idiv .word (.reg .n3)) = true ∧
    decodesTo .present [0x69#8, 0xC3#8, 0x34#8, 0x12#8] (.imulImm16 .n0 (.reg .n3) 0x1234#16) = true ∧
    decodesTo .present [0x6B#8, 0xC3#8, 0xFE#8] (.imulSimm8 .n0 (.reg .n3) 0xFE#8) = true ∧
    decodesTo .present [0x98#8] .cbw = true ∧
    decodesTo .present [0x99#8] .cwd = true ∧
    decodesTo .present [0x27#8] .daa = true ∧
    decodesTo .present [0x2F#8] .das = true ∧
    decodesTo .present [0x37#8] .aaa = true ∧
    decodesTo .present [0x3F#8] .aas = true ∧
    decodesTo .present [0xD4#8, 0x0A#8] (.aam 0x0A#8) = true ∧
    decodesTo .present [0xD5#8, 0x0A#8] (.aad 0x0A#8) = true ∧
    decodesTo .present [0xA8#8, 0x80#8] (.test (.alImm 0x80#8)) = true ∧
    decodesTo .present [0xF7#8, 0x06#8, 0x00#8, 0x03#8, 0x00#8, 0x80#8] (.test (.rm16Imm (.mem (.direct 0x0300#16)) 0x8000#16)) = true := by decide +kernel

theorem test_decode_shift :
    decodesTo .present [0xD0#8, 0xC0#8] (.rol (.one .byte (.reg .n0))) = true ∧
    decodesTo .present [0xD0#8, 0xC8#8] (.ror (.one .byte (.reg .n0))) = true ∧
    decodesTo .present [0xD0#8, 0xD0#8] (.rcl (.one .byte (.reg .n0))) = true ∧
    decodesTo .present [0xD0#8, 0xD8#8] (.rcr (.one .byte (.reg .n0))) = true ∧
    decodesTo .present [0xD0#8, 0xE0#8] (.shl (.one .byte (.reg .n0))) = true ∧
    decodesTo .present [0xD0#8, 0xE8#8] (.shr (.one .byte (.reg .n0))) = true ∧
    decodesTo .present [0xD0#8, 0xF0#8] (.sal (.one .byte (.reg .n0))) = true ∧
    decodesTo .present [0xD0#8, 0xF8#8] (.sar (.one .byte (.reg .n0))) = true ∧
    decodesTo .present [0xD3#8, 0xF8#8] (.sar (.cl .word (.reg .n0))) = true ∧
    decodesTo .present [0xC1#8, 0xE0#8, 0x04#8] (.shl (.imm .word (.reg .n0) 0x04#8)) = true := by decide +kernel

theorem test_decode_move_1 :
    decodesTo .present [0x89#8, 0xD8#8] (.movRmReg .word (.reg .n0) .n3) = true ∧
    decodesTo .present [0x8A#8, 0x47#8, 0x02#8] (.movRegRm .byte .n0 (.mem (.based .bx (.d8 0x02#8)))) = true ∧
    decodesTo .present [0xB4#8, 0x0E#8] (.movRegImm8 .n4 0x0E#8) = true ∧
    decodesTo .present [0xBE#8, 0x0C#8, 0x01#8] (.movRegImm16 .n6 0x010C#16) = true ∧
    decodesTo .present [0xC6#8, 0x06#8, 0x00#8, 0x02#8, 0xFF#8] (.movRmImm8 (.mem (.direct 0x0200#16)) 0xFF#8) = true ∧
    decodesTo .present [0xC7#8, 0xC0#8, 0x34#8, 0x12#8] (.movRmImm16 (.reg .n0) 0x1234#16) = true ∧
    decodesTo .present [0xA1#8, 0x34#8, 0x12#8] (.movAccMoffs .word 0x1234#16) = true ∧
    decodesTo .present [0xA2#8, 0x10#8, 0x00#8] (.movMoffsAcc .byte 0x0010#16) = true ∧
    decodesTo .present [0x8C#8, 0xD8#8] (.movRmSeg (.reg .n0) .ds) = true ∧
    decodesTo .present [0x8E#8, 0xE0#8] (.movSegRm .fs (.reg .n0)) = true ∧
    decodesTo .present [0x50#8] (.pushReg .n0) = true ∧
    decodesTo .present [0xFF#8, 0xF4#8] (.pushRm (.reg .n4)) = true ∧
    decodesTo .present [0x0E#8] (.pushSeg .cs) = true ∧
    decodesTo .present [0x68#8, 0x34#8, 0x12#8] (.pushImm16 0x1234#16) = true ∧
    decodesTo .present [0x6A#8, 0xFF#8] (.pushSimm8 0xFF#8) = true ∧
    decodesTo .present [0x0F#8, 0xA0#8] .pushFs = true ∧
    decodesTo .present [0x0F#8, 0xA8#8] .pushGs = true ∧
    decodesTo .present [0x5B#8] (.popReg .n3) = true ∧
    decodesTo .present [0x8F#8, 0x06#8, 0x00#8, 0x03#8] (.popRm (.mem (.direct 0x0300#16))) = true ∧
    decodesTo .present [0x17#8] (.popSeg .ss) = true ∧
    decodesTo .present [0x0F#8, 0xA1#8] .popFs = true ∧
    decodesTo .present [0x0F#8, 0xA9#8] .popGs = true ∧
    decodesTo .present [0x87#8, 0xD9#8] (.xchgRm .word (.reg .n1) .n3) = true ∧
    decodesTo .present [0x93#8] (.xchgAx .n3) = true := by decide +kernel

theorem test_decode_move_2 :
    decodesTo .present [0xD7#8] .xlat = true ∧
    decodesTo .present [0x8D#8, 0x5F#8, 0x10#8] (.lea .n3 (.based .bx (.d8 0x10#8))) = true ∧
    decodesTo .present [0xC5#8, 0x36#8, 0x00#8, 0x03#8] (.lds .n6 (.direct 0x0300#16)) = true ∧
    decodesTo .present [0xC4#8, 0x3E#8, 0x00#8, 0x03#8] (.les .n7 (.direct 0x0300#16)) = true ∧
    decodesTo .present [0x9F#8] .lahf = true ∧
    decodesTo .present [0x9E#8] .sahf = true ∧
    decodesTo .present [0x9C#8] .pushf = true ∧
    decodesTo .present [0x9D#8] .popf = true := by decide +kernel

theorem test_decode_string :
    decodesTo .present [0xA4#8] .movsb = true ∧
    decodesTo .present [0xA5#8] .movsw = true ∧
    decodesTo .present [0xA6#8] .cmpsb = true ∧
    decodesTo .present [0xA7#8] .cmpsw = true ∧
    decodesTo .present [0xAA#8] .stosb = true ∧
    decodesTo .present [0xAB#8] .stosw = true ∧
    decodesTo .present [0xAC#8] .lodsb = true ∧
    decodesTo .present [0xAD#8] .lodsw = true ∧
    decodesTo .present [0xAE#8] .scasb = true ∧
    decodesTo .present [0xAF#8] .scasw = true ∧
    decodesTo .present [0x6C#8] .insb = true ∧
    decodesTo .present [0x6D#8] .insw = true ∧
    decodesTo .present [0x6E#8] .outsb = true ∧
    decodesTo .present [0x6F#8] .outsw = true := by decide +kernel

theorem test_decode_transfer :
    decodesTo .present [0xEB#8, 0xF5#8] (.jmpShort 0xF5#8) = true ∧
    decodesTo .present [0xE9#8, 0x00#8, 0xFF#8] (.jmpNear 0xFF00#16) = true ∧
    decodesTo .present [0xFF#8, 0xE3#8] (.jmpRm (.reg .n3)) = true ∧
    decodesTo .present [0xEA#8, 0x00#8, 0x7C#8, 0x00#8, 0x00#8] (.jmpFar 0x7C00#16 0x0000#16) = true ∧
    decodesTo .present [0xFF#8, 0x2E#8, 0x00#8, 0x03#8] (.jmpFarMem (.direct 0x0300#16)) = true ∧
    decodesTo .present [0xE8#8, 0x10#8, 0x00#8] (.callNear 0x0010#16) = true ∧
    decodesTo .present [0xFF#8, 0xD3#8] (.callRm (.reg .n3)) = true ∧
    decodesTo .present [0x9A#8, 0x00#8, 0x01#8, 0x00#8, 0x20#8] (.callFar 0x0100#16 0x2000#16) = true ∧
    decodesTo .present [0xFF#8, 0x1E#8, 0x00#8, 0x03#8] (.callFarMem (.direct 0x0300#16)) = true ∧
    decodesTo .present [0xC3#8] .ret = true ∧
    decodesTo .present [0xC2#8, 0x04#8, 0x00#8] (.retImm 0x0004#16) = true ∧
    decodesTo .present [0xCB#8] .retf = true ∧
    decodesTo .present [0xCA#8, 0x02#8, 0x00#8] (.retfImm 0x0002#16) = true ∧
    decodesTo .present [0xE0#8, 0x10#8] (.loopne 0x10#8) = true ∧
    decodesTo .present [0xE1#8, 0x10#8] (.loope 0x10#8) = true ∧
    decodesTo .present [0xE2#8, 0xFE#8] (.loop 0xFE#8) = true ∧
    decodesTo .present [0xE3#8, 0x10#8] (.jcxz 0x10#8) = true ∧
    decodesTo .present [0xCD#8, 0x21#8] (.int 0x21#8) = true ∧
    decodesTo .present [0xCC#8] .int3 = true ∧
    decodesTo .present [0xCE#8] .into = true ∧
    decodesTo .present [0xCF#8] .iret = true := by decide +kernel

theorem test_decode_condition :
    decodesTo .present [0x70#8, 0x06#8] (.jo (.rel8 0x06#8)) = true ∧
    decodesTo .present [0x71#8, 0x06#8] (.jno (.rel8 0x06#8)) = true ∧
    decodesTo .present [0x72#8, 0x06#8] (.jb (.rel8 0x06#8)) = true ∧
    decodesTo .present [0x73#8, 0x06#8] (.jae (.rel8 0x06#8)) = true ∧
    decodesTo .present [0x74#8, 0x06#8] (.je (.rel8 0x06#8)) = true ∧
    decodesTo .present [0x75#8, 0x06#8] (.jne (.rel8 0x06#8)) = true ∧
    decodesTo .present [0x76#8, 0x06#8] (.jbe (.rel8 0x06#8)) = true ∧
    decodesTo .present [0x77#8, 0x06#8] (.ja (.rel8 0x06#8)) = true ∧
    decodesTo .present [0x78#8, 0x06#8] (.js (.rel8 0x06#8)) = true ∧
    decodesTo .present [0x79#8, 0x06#8] (.jns (.rel8 0x06#8)) = true ∧
    decodesTo .present [0x7A#8, 0x06#8] (.jp (.rel8 0x06#8)) = true ∧
    decodesTo .present [0x7B#8, 0x06#8] (.jnp (.rel8 0x06#8)) = true ∧
    decodesTo .present [0x7C#8, 0x06#8] (.jl (.rel8 0x06#8)) = true ∧
    decodesTo .present [0x7D#8, 0x06#8] (.jge (.rel8 0x06#8)) = true ∧
    decodesTo .present [0x7E#8, 0x06#8] (.jle (.rel8 0x06#8)) = true ∧
    decodesTo .present [0x7F#8, 0x06#8] (.jg (.rel8 0x06#8)) = true ∧
    decodesTo .present [0x0F#8, 0x84#8, 0x00#8, 0x01#8] (.je (.rel16 0x0100#16)) = true ∧
    decodesTo .present [0x0F#8, 0x85#8, 0x00#8, 0x01#8] (.jne (.rel16 0x0100#16)) = true := by decide +kernel

theorem test_decode_control_1 :
    decodesTo .present [0xE4#8, 0x60#8] (.inImm .byte 0x60#8) = true ∧
    decodesTo .present [0xED#8] (.inDx .word) = true ∧
    decodesTo .present [0xE6#8, 0x80#8] (.outImm .byte 0x80#8) = true ∧
    decodesTo .present [0xEF#8] (.outDx .word) = true ∧
    decodesTo .present [0xF8#8] .clc = true ∧
    decodesTo .present [0xF9#8] .stc = true ∧
    decodesTo .present [0xF5#8] .cmc = true ∧
    decodesTo .present [0xFC#8] .cld = true ∧
    decodesTo .present [0xFD#8] .std = true ∧
    decodesTo .present [0xFA#8] .cli = true ∧
    decodesTo .present [0xFB#8] .sti = true ∧
    decodesTo .present [0xF4#8] .hlt = true ∧
    decodesTo .present [0x90#8] .nop = true ∧
    decodesTo .present [0x9B#8] .wait = true ∧
    decodesTo .present [0xD9#8, 0x46#8, 0x04#8] (.esc .n1 .n0 (.mem (.based .bp (.d8 0x04#8)))) = true ∧
    decodesTo .present [0x26#8] .segES = true ∧
    decodesTo .present [0x2E#8] .segCS = true ∧
    decodesTo .present [0x36#8] .segSS = true ∧
    decodesTo .present [0x3E#8] .segDS = true ∧
    decodesTo .present [0x64#8] .segFS = true ∧
    decodesTo .present [0x65#8] .segGS = true ∧
    decodesTo .present [0xF0#8] .lock = true ∧
    decodesTo .present [0xF2#8] .repne = true ∧
    decodesTo .present [0xF3#8] .rep = true := by decide +kernel

theorem test_decode_control_2 :
    decodesTo .present [0x66#8] (.unknown 0x66#8) = true ∧
    decodesTo .present [0x0F#8, 0x05#8] (.unknown0F 0x05#8) = true ∧
    decodesTo .present [0xFF#8, 0xF8#8] (.reserved 0xFF#8 0xF8#8) = true ∧
    decodesTo .present [0x8D#8, 0xC0#8] (.reserved 0x8D#8 0xC0#8) = true ∧
    decodesTo .present [0x8E#8, 0xF0#8] (.reserved 0x8E#8 0xF0#8) = true ∧
    decodesTo .absent [0x6C#8] (.unknown 0x6C#8) = true ∧
    decodesTo .absent [0x0F#8, 0xA0#8] (.unknown0F 0xA0#8) = true := by decide +kernel

theorem test_decode_post8086 :
    decodesTo .present [0x60#8] .pusha = true ∧
    decodesTo .present [0x61#8] .popa = true ∧
    decodesTo .present [0x62#8, 0x1E#8, 0x00#8, 0x03#8] (.bound .n3 (.direct 0x0300#16)) = true ∧
    decodesTo .present [0xC8#8, 0x04#8, 0x00#8, 0x02#8] (.enter 0x0004#16 0x02#8) = true ∧
    decodesTo .present [0xC9#8] .leave = true ∧
    decodesTo .present [0x0F#8, 0xB6#8, 0xC3#8] (.movzx .byte .n0 (.reg .n3)) = true ∧
    decodesTo .present [0x0F#8, 0xBF#8, 0xC3#8] (.movsx .word .n0 (.reg .n3)) = true := by decide +kernel

theorem test_table_word_add : decodeTableWord 16 0xD801 = some (.add (.rmReg .word (.reg .n0) .n3)) := by decide +kernel

theorem test_truncated : (match decode .present [0x81#8, 0xEB#8, 0x34#8] with | .error .truncated => true | _ => false) = true := by
  decide +kernel

/-! ## Steps: 95_test_vectors, part 2 -/

/-- The start state of the vectors: reset with `SP = 0200`. -/
def start : State := State.reset.setReg .sp 0x0200#16

/-- The instruction bytes at `CS:0100`, and the pc there. -/
def withCode (s : State) (code : List Byte) : State :=
  (s.load (phys (s.seg .cs) 0x0100#16) code).setIp 0x0100#16

/-- The six arithmetic flags, in the order `OF SF ZF AF PF CF` of the vectors. -/
def sixFlags (s : State) : List Bool := [s.flag .of, s.flag .sf, s.flag .zf, s.flag .af, s.flag .pf, s.flag .cf]

/-- The flags that are given are as given; `none` is a flag the vector leaves open. -/
def flagsAre (s : State) (l : List (Option Bool)) : Bool :=
  (sixFlags s).zip l |>.all fun p => p.2 == none || p.2 == some p.1

/-- The bytes from a physical address on. -/
def bytesAt (s : State) (a : Addr) (bs : List Byte) : Bool :=
  (List.range bs.length).all fun k => s.memRead8 (a + BitVec.ofNat 20 k) == bs.getD k 0#8

/-- The step goes on, and what it ends in is as expected. -/
def stepsTo (s : State) (p : State → Bool) : Bool :=
  match step s with
  | .next t => p t
  | .fault _ | .refused _ => false

-- 2.1 line 1
theorem test_mov_ax_bx :
    stepsTo (withCode (start.setReg .bx 0x1234#16) [0x89#8, 0xD8#8])
      (fun t => t.reg .ax == 0x1234#16 && t.ip == 0x0102#16) = true := by decide +kernel

-- 2.1 line 3
theorem test_mov_byte_imm :
    stepsTo (withCode start [0xC6#8, 0x06#8, 0x00#8, 0x02#8, 0xFF#8])
      (fun t => bytesAt t 0x00200#20 [0xFF#8] && t.ip == 0x0105#16) = true := by decide +kernel

-- 2.1 line 4
theorem test_mov_word_imm_register :
    stepsTo (withCode start [0xC7#8, 0xC0#8, 0x34#8, 0x12#8])
      (fun t => t.reg .ax == 0x1234#16 && t.ip == 0x0104#16) = true := by decide +kernel

-- 2.1 line 5
theorem test_mov_ah_imm :
    stepsTo (withCode (start.setReg .ax 0x0048#16) [0xB4#8, 0x0E#8])
      (fun t => t.reg .ax == 0x0E48#16 && t.ip == 0x0102#16) = true := by decide +kernel

-- 2.1 line 29: the second byte at the next physical address
theorem test_mov_ax_moffs :
    stepsTo (withCode (((start.setSeg .ds 0x1000#16).load 0x1FFFF#20 [0x11#8, 0x22#8]).load 0x10000#20 [0x99#8]) [0xA1#8, 0xFF#8, 0xFF#8])
      (fun t => t.reg .ax == 0x2211#16) = true := by decide +kernel

-- 2.1 line 7
theorem test_mov_es_moffs_al :
    stepsTo (withCode ((start.setSeg .es 0x3000#16).setReg .ax 0x0077#16) [0x26#8, 0xA2#8, 0x10#8, 0x00#8])
      (fun t => bytesAt t 0x30010#20 [0x77#8] && t.ip == 0x0104#16) = true := by decide +kernel

-- 2.1 line 8
theorem test_mov_ax_ds :
    stepsTo (withCode (start.setSeg .ds 0x2000#16) [0x8C#8, 0xD8#8])
      (fun t => t.reg .ax == 0x2000#16) = true := by decide +kernel

-- 2.1 line 10
theorem test_mov_fs_ax :
    stepsTo (withCode (start.setReg .ax 0x1234#16) [0x8E#8, 0xE0#8])
      (fun t => t.seg .fs == 0x1234#16) = true := by decide +kernel

-- 2.1 line 12
theorem test_push_sp :
    stepsTo (withCode (start.setReg .sp 0x0100#16) [0x54#8])
      (fun t => t.reg .sp == 0x00FE#16 && bytesAt t 0x000FE#20 [0x00#8, 0x01#8]) = true := by decide +kernel

-- 2.1 line 13
theorem test_pop_bx :
    stepsTo (withCode ((start.setReg .sp 0x00FE#16).load 0x000FE#20 [0x34#8, 0x12#8]) [0x5B#8])
      (fun t => t.reg .bx == 0x1234#16 && t.reg .sp == 0x0100#16) = true := by decide +kernel

-- 2.1 line 14
theorem test_pop_sp :
    stepsTo (withCode ((start.setReg .sp 0x00FE#16).load 0x000FE#20 [0x00#8, 0x03#8]) [0x5C#8])
      (fun t => t.reg .sp == 0x0300#16) = true := by decide +kernel

-- 2.1 line 15
theorem test_pop_memory :
    stepsTo (withCode ((start.setReg .sp 0x00FE#16).load 0x000FE#20 [0x34#8, 0x12#8]) [0x8F#8, 0x06#8, 0x00#8, 0x03#8])
      (fun t => bytesAt t 0x00300#20 [0x34#8, 0x12#8] && t.reg .sp == 0x0100#16 && t.ip == 0x0104#16) = true := by decide +kernel

-- 2.1 line 16
theorem test_xchg_bx_cx :
    stepsTo (withCode ((start.setReg .bx 0x1111#16).setReg .cx 0x2222#16) [0x87#8, 0xD9#8])
      (fun t => t.reg .bx == 0x2222#16 && t.reg .cx == 0x1111#16) = true := by decide +kernel

-- 2.1 line 17
theorem test_xchg_ax_bx :
    stepsTo (withCode ((start.setReg .ax 0x0001#16).setReg .bx 0x0002#16) [0x93#8])
      (fun t => t.reg .ax == 0x0002#16 && t.reg .bx == 0x0001#16) = true := by decide +kernel

-- 2.1 line 18
theorem test_xlat :
    stepsTo (withCode (((start.setReg .bx 0x0200#16).setReg .ax 0x0003#16).load 0x00203#20 [0x99#8]) [0xD7#8])
      (fun t => t.half .al == 0x99#8) = true := by decide +kernel

-- 2.1 line 19
theorem test_lea_wraps :
    stepsTo (withCode (start.setReg .bx 0xFFF8#16) [0x8D#8, 0x5F#8, 0x10#8])
      (fun t => t.reg .bx == 0x0008#16) = true := by decide +kernel

-- 2.1 line 20
theorem test_lds :
    stepsTo (withCode (start.load 0x00300#20 [0x00#8, 0x01#8, 0x00#8, 0x20#8]) [0xC5#8, 0x36#8, 0x00#8, 0x03#8])
      (fun t => t.reg .si == 0x0100#16 && t.seg .ds == 0x2000#16 && t.ip == 0x0104#16) = true := by decide +kernel

-- 2.1 line 21
theorem test_les :
    stepsTo (withCode (start.load 0x00300#20 [0x00#8, 0x01#8, 0x00#8, 0x20#8]) [0xC4#8, 0x3E#8, 0x00#8, 0x03#8])
      (fun t => t.reg .di == 0x0100#16 && t.seg .es == 0x2000#16) = true := by decide +kernel

-- 2.1 line 22
theorem test_lahf :
    stepsTo (withCode ({ start with flags := 0x0043#16 }) [0x9F#8])
      (fun t => t.half .ah == 0x43#8) = true := by decide +kernel

-- 2.1 line 23
theorem test_sahf :
    stepsTo (withCode (start.setReg .ax 0xFF00#16) [0x9E#8])
      (fun t => t.flags == 0x00D7#16) = true := by decide +kernel

-- 2.1 line 24
theorem test_popf :
    stepsTo (withCode ((start.setReg .sp 0x00FE#16).load 0x000FE#20 [0xFF#8, 0xFF#8]) [0x9D#8])
      (fun t => t.flags == 0x0FD7#16 && t.reg .sp == 0x0100#16) = true := by decide +kernel

-- 2.1 line 25
theorem test_pushf :
    stepsTo (withCode ({ start.setReg .sp 0x0100#16 with flags := 0x0202#16 }) [0x9C#8])
      (fun t => bytesAt t 0x000FE#20 [0x02#8, 0x02#8] && t.reg .sp == 0x00FE#16) = true := by decide +kernel

-- 2.1 line 27
theorem test_mov_bp_displacement_ss :
    stepsTo (withCode (((((start.setReg .bp 0x0100#16).setSeg .ss 0x3000#16).setSeg .ds 0x2000#16).load 0x300FE#20 [0x11#8, 0x22#8]).load 0x200FE#20 [0x33#8, 0x44#8]) [0x8B#8, 0x46#8, 0xFE#8])
      (fun t => t.reg .ax == 0x2211#16 && t.ip == 0x0103#16) = true := by decide +kernel

-- 2.9 line 3
theorem test_push_imm16 :
    stepsTo (withCode (start.setReg .sp 0x0100#16) [0x68#8, 0x34#8, 0x12#8])
      (fun t => bytesAt t 0x000FE#20 [0x34#8, 0x12#8] && t.reg .sp == 0x00FE#16 && t.ip == 0x0103#16) = true := by decide +kernel

-- 2.2 line 1
theorem test_add_words :
    stepsTo (withCode ((start.setReg .ax 0x8000#16).setReg .bx 0x8000#16) [0x01#8, 0xD8#8])
      (fun t => t.reg .ax == 0x0000#16 && flagsAre t [some true, some false, some true, some false, some true, some true]) = true := by decide +kernel

-- 2.2 line 3
theorem test_add_signed_overflow :
    stepsTo (withCode (start.setReg .ax 0x007F#16) [0x04#8, 0x01#8])
      (fun t => t.half .al == 0x80#8 && flagsAre t [some true, some true, some false, some true, some false, some false]) = true := by decide +kernel

-- 2.2 line 5
theorem test_adc_carry_in :
    stepsTo (withCode ({ start.setReg .ax 0x00FF#16 with flags := 0x0003#16 }) [0x14#8, 0xFF#8])
      (fun t => t.half .al == 0xFF#8 && flagsAre t [some false, some true, some false, some true, some true, some true]) = true := by decide +kernel

-- 2.2 line 6
theorem test_adc_wraps :
    stepsTo (withCode ({ start.setReg .ax 0x00FF#16 with flags := 0x0003#16 }) [0x14#8, 0x00#8])
      (fun t => t.half .al == 0x00#8 && flagsAre t [some false, some false, some true, some true, some true, some true]) = true := by decide +kernel

-- 2.2 line 7
theorem test_sub_borrow :
    stepsTo (withCode ((start.setReg .ax 0x0005#16).setReg .bx 0x0007#16) [0x29#8, 0xD8#8])
      (fun t => t.reg .ax == 0xFFFE#16 && flagsAre t [some false, some true, some false, some true, some false, some true]) = true := by decide +kernel

-- 2.2 line 14
theorem test_sub_sign_extended :
    stepsTo (withCode (start.setReg .ax 0x0000#16) [0x83#8, 0xE8#8, 0xFF#8])
      (fun t => t.reg .ax == 0x0001#16 && flagsAre t [some false, some false, some false, some true, some false, some true]) = true := by decide +kernel

-- 2.2 line 10
theorem test_sbb_self :
    stepsTo (withCode ({ start.setReg .ax 0x1234#16 with flags := 0x0003#16 }) [0x19#8, 0xC0#8])
      (fun t => t.reg .ax == 0xFFFF#16 && flagsAre t [some false, some true, some false, some true, some true, some true]) = true := by decide +kernel

-- 2.2 line 11
theorem test_sbb_full_borrow :
    stepsTo (withCode ({ start.setReg .ax 0x0000#16 with flags := 0x0003#16 }) [0x1C#8, 0xFF#8])
      (fun t => t.half .al == 0x00#8 && flagsAre t [some false, some false, some true, some true, some true, some true]) = true := by decide +kernel

-- 2.2 line 12
theorem test_cmp_writes_nothing :
    stepsTo (withCode (start.setReg .ax 0x5500#16) [0x3C#8, 0x00#8])
      (fun t => t.reg .ax == 0x5500#16 && flagsAre t [some false, some false, some true, some false, some true, some false]) = true := by decide +kernel

-- 2.2 line 16
theorem test_inc_keeps_carry :
    stepsTo (withCode ({ start.setReg .ax 0xFFFF#16 with flags := 0x0003#16 }) [0x40#8])
      (fun t => t.reg .ax == 0x0000#16 && flagsAre t [some false, some false, some true, some true, some true, some true]) = true := by decide +kernel

-- 2.2 line 17
theorem test_inc_overflow :
    stepsTo (withCode (start.setReg .ax 0x7FFF#16) [0x40#8])
      (fun t => t.reg .ax == 0x8000#16 && flagsAre t [some true, some true, some false, some true, some true, some false]) = true := by decide +kernel

-- 2.2 line 19
theorem test_dec_wraps :
    stepsTo (withCode (start.setReg .ax 0x0000#16) [0x48#8])
      (fun t => t.reg .ax == 0xFFFF#16 && flagsAre t [some false, some true, some false, some true, some true, some false]) = true := by decide +kernel

-- 2.2 line 20
theorem test_dec_overflow :
    stepsTo (withCode ({ start.setReg .ax 0x8000#16 with flags := 0x0003#16 }) [0x48#8])
      (fun t => t.reg .ax == 0x7FFF#16 && flagsAre t [some true, some false, some false, some true, some true, some true]) = true := by decide +kernel

-- 2.2 line 21
theorem test_neg_word :
    stepsTo (withCode (start.setReg .ax 0x0001#16) [0xF7#8, 0xD8#8])
      (fun t => t.reg .ax == 0xFFFF#16 && flagsAre t [some false, some true, some false, some true, some true, some true]) = true := by decide +kernel

-- 2.2 line 22
theorem test_neg_most_negative :
    stepsTo (withCode (start.setReg .ax 0x0080#16) [0xF6#8, 0xD8#8])
      (fun t => t.half .al == 0x80#8 && flagsAre t [some true, some true, some false, some false, some false, some true]) = true := by decide +kernel

-- 2.2 line 24
theorem test_mul_word :
    stepsTo (withCode ((start.setReg .ax 0xFFFF#16).setReg .bx 0xFFFF#16) [0xF7#8, 0xE3#8])
      (fun t => t.reg .dx == 0xFFFE#16 && t.reg .ax == 0x0001#16) = true := by decide +kernel

-- 2.2 line 25
theorem test_mul_byte_overwrites_ah :
    stepsTo (withCode (start.setReg .ax 0x12FF#16) [0xF6#8, 0xE3#8])
      (fun t => t.reg .ax == 0x0000#16) = true := by decide +kernel

-- 2.2 line 26
theorem test_imul_byte :
    stepsTo (withCode ((start.setReg .ax 0x00FE#16).setReg .bx 0x0003#16) [0xF6#8, 0xEB#8])
      (fun t => t.reg .ax == 0xFFFA#16) = true := by decide +kernel

-- 2.2 line 28
theorem test_imul_byte_does_not_fit :
    stepsTo (withCode ((start.setReg .ax 0x0080#16).setReg .bx 0x00FF#16) [0xF6#8, 0xEB#8])
      (fun t => t.reg .ax == 0x0080#16) = true := by decide +kernel

-- 2.2 line 30
theorem test_div_byte :
    stepsTo (withCode ((start.setReg .ax 0x0007#16).setReg .bx 0x0002#16) [0xF6#8, 0xF3#8])
      (fun t => t.reg .ax == 0x0103#16) = true := by decide +kernel

-- 2.2 line 45 with FLAGS 0203
theorem test_div_by_zero :
    stepsTo (withCode (({ start.setReg .ax 0x0005#16 with flags := 0x0203#16 }).load 0x00000#20 [0x00#8, 0x05#8, 0x00#8, 0x30#8]) [0xF6#8, 0xF3#8])
      (fun t => t.reg .sp == 0x01FA#16 && t.seg .cs == 0x3000#16 && t.ip == 0x0500#16 && bytesAt t 0x001FA#20 [0x02#8, 0x01#8, 0x00#8, 0x00#8, 0x03#8, 0x02#8] && t.flags == 0x0003#16 && t.reg .ax == 0x0005#16 && !t.halted) = true := by decide +kernel

-- 2.2 line 31
theorem test_idiv_truncates :
    stepsTo (withCode ((start.setReg .ax 0xFFF9#16).setReg .bx 0x0002#16) [0xF6#8, 0xFB#8])
      (fun t => t.reg .ax == 0xFFFD#16) = true := by decide +kernel

-- 2.2 line 48
theorem test_idiv_quotient_overflow :
    stepsTo (withCode ((((start.setReg .dx 0xFFFF#16).setReg .ax 0x8000#16).setReg .bx 0xFFFF#16).load 0x00000#20 [0x00#8, 0x05#8, 0x00#8, 0x30#8]) [0xF7#8, 0xFB#8])
      (fun t => t.reg .sp == 0x01FA#16 && t.seg .cs == 0x3000#16 && t.ip == 0x0500#16 && bytesAt t 0x001FA#20 [0x02#8, 0x01#8, 0x00#8, 0x00#8, 0x02#8, 0x00#8] && t.reg .ax == 0x8000#16 && t.reg .dx == 0xFFFF#16) = true := by decide +kernel

-- 2.2 line 35
theorem test_cbw :
    stepsTo (withCode (start.setReg .ax 0x0080#16) [0x98#8])
      (fun t => t.reg .ax == 0xFF80#16) = true := by decide +kernel

-- 2.2 line 36
theorem test_cwd :
    stepsTo (withCode (start.setReg .ax 0x8000#16) [0x99#8])
      (fun t => t.reg .dx == 0xFFFF#16) = true := by decide +kernel

-- 2.2 line 37
theorem test_daa :
    stepsTo (withCode (start.setReg .ax 0x003C#16) [0x27#8])
      (fun t => t.half .al == 0x42#8) = true := by decide +kernel

-- 2.2 line 38
theorem test_daa_carry :
    stepsTo (withCode (start.setReg .ax 0x009A#16) [0x27#8])
      (fun t => t.half .al == 0x00#8) = true := by decide +kernel

-- 2.2 line 39
theorem test_das :
    stepsTo (withCode ({ start.setReg .ax 0x002D#16 with flags := 0x0012#16 }) [0x2F#8])
      (fun t => t.half .al == 0x27#8) = true := by decide +kernel

-- 2.2 line 40
theorem test_das_borrow :
    stepsTo (withCode ({ start.setReg .ax 0x0000#16 with flags := 0x0012#16 }) [0x2F#8])
      (fun t => t.half .al == 0xFA#8) = true := by decide +kernel

-- 2.2 line 41
theorem test_aaa :
    stepsTo (withCode (start.setReg .ax 0x000B#16) [0x37#8])
      (fun t => t.reg .ax == 0x0101#16) = true := by decide +kernel

-- 2.2 line 42
theorem test_aas :
    stepsTo (withCode (start.setReg .ax 0x020F#16) [0x3F#8])
      (fun t => t.reg .ax == 0x0109#16) = true := by decide +kernel

-- 2.2 line 43
theorem test_aam :
    stepsTo (withCode (start.setReg .ax 0x003F#16) [0xD4#8, 0x0A#8])
      (fun t => t.reg .ax == 0x0603#16) = true := by decide +kernel

-- 2.2 line 49
theorem test_aam_zero :
    stepsTo (withCode ((start.setReg .ax 0x003F#16).load 0x00000#20 [0x00#8, 0x05#8, 0x00#8, 0x30#8]) [0xD4#8, 0x00#8])
      (fun t => t.seg .cs == 0x3000#16 && t.ip == 0x0500#16 && bytesAt t 0x001FA#20 [0x02#8, 0x01#8, 0x00#8, 0x00#8, 0x02#8, 0x00#8] && t.reg .ax == 0x003F#16) = true := by decide +kernel

-- 2.2 line 44
theorem test_aad :
    stepsTo (withCode (start.setReg .ax 0x0603#16) [0xD5#8, 0x0A#8])
      (fun t => t.reg .ax == 0x003F#16) = true := by decide +kernel

-- 2.3 line 1
theorem test_or_al :
    stepsTo (withCode ({ start with flags := 0x0803#16 }) [0x08#8, 0xC0#8])
      (fun t => t.half .al == 0x00#8) = true := by decide +kernel

-- 2.3 line 8
theorem test_or_memory :
    stepsTo (withCode (start.load 0x00300#20 [0x80#8]) [0x80#8, 0x0E#8, 0x00#8, 0x03#8, 0x01#8])
      (fun t => bytesAt t 0x00300#20 [0x81#8] && t.ip == 0x0105#16) = true := by decide +kernel

-- 2.3 line 3
theorem test_and_ax :
    stepsTo (withCode (start.setReg .ax 0xFFFF#16) [0x25#8, 0x0F#8, 0x0F#8])
      (fun t => t.reg .ax == 0x0F0F#16) = true := by decide +kernel

-- 2.3 line 4
theorem test_xor_ax_ax :
    stepsTo (withCode ({ start.setReg .ax 0x1234#16 with flags := 0x0003#16 }) [0x31#8, 0xC0#8])
      (fun t => t.reg .ax == 0x0000#16) = true := by decide +kernel

-- 2.3 line 5
theorem test_test_al :
    stepsTo (withCode (start.setReg .ax 0x0080#16) [0xA8#8, 0x80#8])
      (fun t => t.reg .ax == 0x0080#16) = true := by decide +kernel

-- 2.3 line 7
theorem test_test_memory :
    stepsTo (withCode (start.load 0x00300#20 [0x00#8, 0x80#8]) [0xF7#8, 0x06#8, 0x00#8, 0x03#8, 0x00#8, 0x80#8])
      (fun t => bytesAt t 0x00300#20 [0x00#8, 0x80#8] && t.ip == 0x0106#16) = true := by decide +kernel

-- 2.3 line 6
theorem test_not_keeps_flags :
    stepsTo (withCode ({ start.setReg .ax 0x00FF#16 with flags := 0x0AD7#16 }) [0xF7#8, 0xD0#8])
      (fun t => t.reg .ax == 0xFF00#16 && t.flags == 0x0AD7#16) = true := by decide +kernel

-- 2.4 line 12
theorem test_shl_nine :
    stepsTo (withCode ((start.setReg .ax 0x00FF#16).setReg .cx 0x0009#16) [0xD2#8, 0xE0#8])
      (fun t => t.half .al == 0x00#8) = true := by decide +kernel

-- 2.4 line 3
theorem test_shr_one :
    stepsTo (withCode (start.setReg .ax 0x8001#16) [0xD1#8, 0xE8#8])
      (fun t => t.reg .ax == 0x4000#16) = true := by decide +kernel

-- 2.4 line 13
theorem test_shr_count_zero :
    stepsTo (withCode ({ (start.setReg .ax 0x00FF#16).setReg .cx 0x0020#16 with flags := 0x0003#16 }) [0xD2#8, 0xE8#8])
      (fun t => t.half .al == 0xFF#8 && t.flags == 0x0003#16) = true := by decide +kernel

-- 2.4 line 4
theorem test_sar_one :
    stepsTo (withCode (start.setReg .ax 0x0081#16) [0xD0#8, 0xF8#8])
      (fun t => t.half .al == 0xC0#8) = true := by decide +kernel

-- 2.4 line 17
theorem test_sar_sixteen :
    stepsTo (withCode ((start.setReg .ax 0x8000#16).setReg .cx 0x0010#16) [0xD3#8, 0xF8#8])
      (fun t => t.reg .ax == 0xFFFF#16) = true := by decide +kernel

-- 2.4 line 5
theorem test_rol_one :
    stepsTo (withCode ({ start.setReg .ax 0x0081#16 with flags := 0x00D6#16 }) [0xD0#8, 0xC0#8])
      (fun t => t.half .al == 0x03#8 && flagsAre t [some true, some true, some true, some true, some true, some true]) = true := by decide +kernel

-- 2.4 line 16
theorem test_rol_eight :
    stepsTo (withCode ((start.setReg .ax 0x00A5#16).setReg .cx 0x0008#16) [0xD2#8, 0xC0#8])
      (fun t => t.half .al == 0xA5#8) = true := by decide +kernel

-- 2.4 line 6
theorem test_ror_one :
    stepsTo (withCode (start.setReg .ax 0x0001#16) [0xD0#8, 0xC8#8])
      (fun t => t.half .al == 0x80#8 && flagsAre t [some false, some false, some false, some false, some false, some true]) = true := by decide +kernel

-- 2.4 line 18
theorem test_ror_four :
    stepsTo (withCode ((start.setReg .ax 0x1234#16).setReg .cx 0x0004#16) [0xD3#8, 0xC8#8])
      (fun t => t.reg .ax == 0x4123#16) = true := by decide +kernel

-- 2.4 line 7
theorem test_rcl_one :
    stepsTo (withCode (start.setReg .ax 0x0080#16) [0xD0#8, 0xD0#8])
      (fun t => t.half .al == 0x00#8 && flagsAre t [some true, some false, some false, some false, some false, some true]) = true := by decide +kernel

-- 2.4 line 15
theorem test_rcl_nine :
    stepsTo (withCode ({ (start.setReg .ax 0x00A5#16).setReg .cx 0x0009#16 with flags := 0x0003#16 }) [0xD2#8, 0xD0#8])
      (fun t => t.half .al == 0xA5#8) = true := by decide +kernel

-- 2.4 line 8
theorem test_rcr_one :
    stepsTo (withCode (start.setReg .ax 0x0001#16) [0xD0#8, 0xD8#8])
      (fun t => t.half .al == 0x00#8 && flagsAre t [some true, some false, some false, some false, some false, some true]) = true := by decide +kernel

-- 2.4 line 9
theorem test_rcr_carry_in :
    stepsTo (withCode ({ start.setReg .ax 0x0002#16 with flags := 0x0003#16 }) [0xD1#8, 0xD8#8])
      (fun t => t.reg .ax == 0x8001#16 && flagsAre t [some true, some false, some false, some false, some false, some false]) = true := by decide +kernel

-- 2.4 line 1, the encoding /6
theorem test_sal_is_shl :
    stepsTo (withCode (start.setReg .ax 0x00C0#16) [0xD0#8, 0xF0#8])
      (fun t => t.half .al == 0x80#8) = true := by decide +kernel

-- 2.9 line 14
theorem test_shl_by_immediate :
    stepsTo (withCode (start.setReg .ax 0x1234#16) [0xC1#8, 0xE0#8, 0x04#8])
      (fun t => t.reg .ax == 0x2340#16 && t.ip == 0x0103#16) = true := by decide +kernel

-- 2.5 line 1
theorem test_rep_stosb :
    stepsTo (withCode (((start.setReg .di 0x0200#16).setReg .cx 0x0004#16).setReg .ax 0x00FF#16) [0xF3#8, 0xAA#8])
      (fun t => bytesAt t 0x00200#20 [0xFF#8, 0xFF#8, 0xFF#8, 0xFF#8, 0x00#8] && t.reg .cx == 0x0000#16 && t.reg .di == 0x0204#16) = true := by decide +kernel

-- 2.5 line 3
theorem test_rep_movsb_overlap :
    stepsTo (withCode ((((start.setReg .si 0x0300#16).setReg .di 0x0301#16).setReg .cx 0x0004#16).load 0x00300#20 [0x41#8, 0x42#8, 0x43#8, 0x44#8, 0x45#8]) [0xF3#8, 0xA4#8])
      (fun t => bytesAt t 0x00300#20 [0x41#8, 0x41#8, 0x41#8, 0x41#8, 0x41#8] && t.reg .si == 0x0304#16 && t.reg .di == 0x0305#16 && t.reg .cx == 0x0000#16) = true := by decide +kernel

-- 2.5 line 11
theorem test_es_movsb :
    stepsTo (withCode ((((((start.setSeg .ds 0x2000#16).setSeg .es 0x3000#16).setReg .si 0x0010#16).setReg .di 0x0020#16).load 0x30010#20 [0xAA#8]).load 0x20010#20 [0xBB#8]) [0x26#8, 0xA4#8])
      (fun t => bytesAt t 0x30020#20 [0xAA#8] && bytesAt t 0x30010#20 [0xAA#8]) = true := by decide +kernel

-- 2.5 line 4
theorem test_rep_movsw_down :
    stepsTo (withCode ((((({ start with flags := 0x0402#16 }).setReg .si 0x0306#16).setReg .di 0x0406#16).setReg .cx 0x0002#16).load 0x00304#20 [0x01#8, 0x02#8, 0x03#8, 0x04#8]) [0xF3#8, 0xA5#8])
      (fun t => bytesAt t 0x00404#20 [0x01#8, 0x02#8, 0x03#8, 0x04#8] && t.reg .si == 0x0302#16 && t.reg .di == 0x0402#16 && t.reg .cx == 0x0000#16) = true := by decide +kernel

-- 2.5 line 5
theorem test_repe_cmpsb :
    stepsTo (withCode (((((start.setReg .si 0x0300#16).setReg .di 0x0400#16).setReg .cx 0x0005#16).load 0x00300#20 [0x41#8, 0x42#8, 0x43#8, 0x44#8, 0x45#8]).load 0x00400#20 [0x41#8, 0x42#8, 0x58#8, 0x44#8, 0x45#8]) [0xF3#8, 0xA6#8])
      (fun t => t.reg .cx == 0x0002#16 && t.reg .si == 0x0303#16 && t.reg .di == 0x0403#16 && flagsAre t [some false, some true, some false, some true, some true, some true]) = true := by decide +kernel

-- 2.5 line 9
theorem test_cmpsb :
    stepsTo (withCode ((((start.setReg .si 0x0300#16).setReg .di 0x0400#16).load 0x00300#20 [0x05#8]).load 0x00400#20 [0x07#8]) [0xA6#8])
      (fun t => t.reg .si == 0x0301#16 && t.reg .di == 0x0401#16 && flagsAre t [some false, some true, some false, some true, some false, some true]) = true := by decide +kernel

-- 2.5 line 10
theorem test_cmpsw :
    stepsTo (withCode ((((start.setReg .si 0x0300#16).setReg .di 0x0400#16).load 0x00300#20 [0x00#8, 0x80#8]).load 0x00400#20 [0x01#8, 0x00#8]) [0xA7#8])
      (fun t => t.reg .si == 0x0302#16 && t.reg .di == 0x0402#16 && flagsAre t [some true, some false, some false, some true, some true, some false]) = true := by decide +kernel

-- 2.5 line 15
theorem test_repne_cmpsw :
    stepsTo (withCode (((((start.setReg .si 0x0300#16).setReg .di 0x0400#16).setReg .cx 0x0003#16).load 0x00300#20 [0x01#8, 0x00#8, 0x02#8, 0x00#8, 0x03#8, 0x00#8]).load 0x00400#20 [0x09#8, 0x00#8, 0x02#8, 0x00#8, 0x03#8, 0x00#8]) [0xF2#8, 0xA7#8])
      (fun t => t.reg .cx == 0x0001#16 && t.reg .si == 0x0304#16 && t.reg .di == 0x0404#16 && flagsAre t [some false, some false, some true, some false, some true, some false]) = true := by decide +kernel

-- 2.5 line 6
theorem test_repne_scasb :
    stepsTo (withCode (((start.setReg .di 0x0400#16).setReg .cx 0x0008#16).load 0x00400#20 [0x48#8, 0x69#8, 0x00#8, 0x21#8]) [0xF2#8, 0xAE#8])
      (fun t => t.reg .cx == 0x0005#16 && t.reg .di == 0x0403#16 && flagsAre t [some false, some false, some true, some false, some true, some false]) = true := by decide +kernel

-- 2.5 line 12
theorem test_last_repeat_prefix_governs :
    stepsTo (withCode ((((start.setReg .ax 0x0048#16).setReg .di 0x0400#16).setReg .cx 0x0008#16).load 0x00400#20 [0x48#8, 0x48#8, 0x00#8]) [0xF3#8, 0xF2#8, 0xAE#8])
      (fun t => t.reg .cx == 0x0007#16 && t.reg .di == 0x0401#16 && flagsAre t [none, none, some true, none, none, none] && t.ip == 0x0103#16) = true := by decide +kernel

-- 2.5 line 16
theorem test_repe_scasw :
    stepsTo (withCode ((((start.setReg .ax 0x2020#16).setReg .di 0x0400#16).setReg .cx 0x0003#16).load 0x00400#20 [0x20#8, 0x20#8, 0x20#8, 0x20#8, 0x41#8, 0x20#8]) [0xF3#8, 0xAF#8])
      (fun t => t.reg .cx == 0x0000#16 && t.reg .di == 0x0406#16 && flagsAre t [some false, some true, some false, some true, some false, some true]) = true := by decide +kernel

-- 2.5 line 13
theorem test_stosw_past_the_segment :
    stepsTo (withCode (((start.setSeg .es 0x1000#16).setReg .di 0xFFFF#16).setReg .ax 0x1234#16) [0xAB#8])
      (fun t => bytesAt t 0x1FFFF#20 [0x34#8, 0x12#8] && bytesAt t 0x10000#20 [0x00#8] && t.reg .di == 0x0001#16) = true := by decide +kernel

-- 2.5 line 8
theorem test_rep_lodsb :
    stepsTo (withCode (((start.setReg .si 0x0300#16).setReg .cx 0x0003#16).load 0x00300#20 [0x01#8, 0x02#8, 0x03#8]) [0xF3#8, 0xAC#8])
      (fun t => t.half .al == 0x03#8 && t.reg .si == 0x0303#16 && t.reg .cx == 0x0000#16 && t.flags == 0x0002#16) = true := by decide +kernel

-- 2.5 line 14
theorem test_lodsw_down :
    stepsTo (withCode ((({ start with flags := 0x0402#16 }).setReg .si 0x0300#16).load 0x00300#20 [0x34#8, 0x12#8]) [0xAD#8])
      (fun t => t.reg .ax == 0x1234#16 && t.reg .si == 0x02FE#16) = true := by decide +kernel

-- 2.5 line 17
theorem test_rep_nop :
    stepsTo (withCode (start.setReg .cx 0x0005#16) [0xF3#8, 0x90#8])
      (fun t => t.reg .cx == 0x0005#16 && t.ip == 0x0102#16) = true := by decide +kernel

-- 47_post8086_ext R493, 46_io_processor_control R431
theorem test_insb_unregistered :
    stepsTo (withCode ((start.setReg .dx 0x0060#16).setReg .di 0x0200#16) [0x6C#8])
      (fun t => bytesAt t 0x00200#20 [0xFF#8] && t.reg .di == 0x0201#16) = true := by decide +kernel

-- 47_post8086_ext R493, 46_io_processor_control R433
theorem test_insw_unregistered :
    stepsTo (withCode ((start.setReg .dx 0x0060#16).setReg .di 0x0200#16) [0x6D#8])
      (fun t => bytesAt t 0x00200#20 [0xFF#8, 0xFF#8] && t.reg .di == 0x0202#16) = true := by decide +kernel

-- 47_post8086_ext R494
theorem test_outsb :
    stepsTo (withCode ((({ start.setReg .dx 0x0060#16 with ports := [0x0060#16] }).setReg .si 0x0300#16).load 0x00300#20 [0x34#8]) [0x6E#8])
      (fun t => t.reg .si == 0x0301#16 && t.portLog == [.write 0x0060#16 0x34#8]) = true := by decide +kernel

-- 47_post8086_ext R494, 46_io_processor_control R433
theorem test_outsw :
    stepsTo (withCode ((({ start.setReg .dx 0xFFFF#16 with ports := [0xFFFF#16, 0x0000#16] }).setReg .si 0x0300#16).load 0x00300#20 [0x34#8, 0x12#8]) [0x6F#8])
      (fun t => t.reg .si == 0x0302#16 && t.portLog == [.write 0xFFFF#16 0x34#8, .write 0x0000#16 0x12#8]) = true := by decide +kernel

-- 2.6 line 1, at 0100
theorem test_jmp_short :
    stepsTo (withCode start [0xEB#8, 0xF5#8])
      (fun t => t.ip == 0x00F7#16) = true := by decide +kernel

-- 2.6 line 2
theorem test_jmp_near :
    stepsTo (withCode start [0xE9#8, 0x00#8, 0xFF#8])
      (fun t => t.ip == 0x0003#16) = true := by decide +kernel

-- 2.6 line 3
theorem test_jmp_bx :
    stepsTo (withCode (start.setReg .bx 0x1234#16) [0xFF#8, 0xE3#8])
      (fun t => t.ip == 0x1234#16) = true := by decide +kernel

-- 2.6 line 4
theorem test_jmp_far :
    stepsTo (withCode (start.setSeg .cs 0x1000#16) [0xEA#8, 0x00#8, 0x7C#8, 0x00#8, 0x00#8])
      (fun t => t.seg .cs == 0x0000#16 && t.ip == 0x7C00#16) = true := by decide +kernel

-- 2.6 line 5
theorem test_jmp_far_memory :
    stepsTo (withCode (start.load 0x00300#20 [0x00#8, 0x01#8, 0x00#8, 0x20#8]) [0xFF#8, 0x2E#8, 0x00#8, 0x03#8])
      (fun t => t.seg .cs == 0x2000#16 && t.ip == 0x0100#16) = true := by decide +kernel

-- 2.6 line 6
theorem test_call_near :
    stepsTo (withCode start [0xE8#8, 0x10#8, 0x00#8])
      (fun t => bytesAt t 0x001FE#20 [0x03#8, 0x01#8] && t.reg .sp == 0x01FE#16 && t.ip == 0x0113#16) = true := by decide +kernel

-- 2.6 line 8
theorem test_call_sp :
    stepsTo (withCode start [0xFF#8, 0xD4#8])
      (fun t => bytesAt t 0x001FE#20 [0x02#8, 0x01#8] && t.reg .sp == 0x01FE#16 && t.ip == 0x0200#16) = true := by decide +kernel

-- 2.6 line 9, at 1000:0100
theorem test_call_far :
    stepsTo (withCode (start.setSeg .cs 0x1000#16) [0x9A#8, 0x00#8, 0x01#8, 0x00#8, 0x20#8])
      (fun t => bytesAt t 0x001FC#20 [0x05#8, 0x01#8, 0x00#8, 0x10#8] && t.reg .sp == 0x01FC#16 && t.seg .cs == 0x2000#16 && t.ip == 0x0100#16) = true := by decide +kernel

-- 45_control_transfer R384, /3
theorem test_call_far_memory :
    stepsTo (withCode (start.load 0x00300#20 [0x00#8, 0x01#8, 0x00#8, 0x20#8]) [0xFF#8, 0x1E#8, 0x00#8, 0x03#8])
      (fun t => bytesAt t 0x001FC#20 [0x04#8, 0x01#8, 0x00#8, 0x00#8] && t.reg .sp == 0x01FC#16 && t.seg .cs == 0x2000#16 && t.ip == 0x0100#16) = true := by decide +kernel

-- 2.6 line 10
theorem test_ret :
    stepsTo (withCode ((start.setReg .sp 0x01FE#16).load 0x001FE#20 [0x34#8, 0x12#8]) [0xC3#8])
      (fun t => t.ip == 0x1234#16 && t.reg .sp == 0x0200#16) = true := by decide +kernel

-- 2.6 line 11
theorem test_ret_imm :
    stepsTo (withCode ((start.setReg .sp 0x01FE#16).load 0x001FE#20 [0x34#8, 0x12#8]) [0xC2#8, 0x04#8, 0x00#8])
      (fun t => t.ip == 0x1234#16 && t.reg .sp == 0x0204#16) = true := by decide +kernel

-- 2.6 line 12
theorem test_retf :
    stepsTo (withCode ((start.setReg .sp 0x01FC#16).load 0x001FC#20 [0x15#8, 0x00#8, 0x00#8, 0x10#8]) [0xCB#8])
      (fun t => t.ip == 0x0015#16 && t.seg .cs == 0x1000#16 && t.reg .sp == 0x0200#16) = true := by decide +kernel

-- 2.6 line 13
theorem test_retf_imm :
    stepsTo (withCode ((start.setReg .sp 0x01FC#16).load 0x001FC#20 [0x15#8, 0x00#8, 0x00#8, 0x10#8]) [0xCA#8, 0x02#8, 0x00#8])
      (fun t => t.ip == 0x0015#16 && t.seg .cs == 0x1000#16 && t.reg .sp == 0x0202#16) = true := by decide +kernel

-- 45_control_transfer R390
theorem test_jo :
    stepsTo (withCode ({ start with flags := 0x0802#16 }) [0x70#8, 0x10#8])
      (fun t => t.ip == 0x0112#16) = true := by decide +kernel

-- 45_control_transfer R390
theorem test_jno :
    stepsTo (withCode ({ start with flags := 0x0802#16 }) [0x71#8, 0x10#8])
      (fun t => t.ip == 0x0102#16) = true := by decide +kernel

-- 45_control_transfer R390
theorem test_jb :
    stepsTo (withCode ({ start with flags := 0x0003#16 }) [0x72#8, 0x10#8])
      (fun t => t.ip == 0x0112#16) = true := by decide +kernel

-- 45_control_transfer R390
theorem test_jae :
    stepsTo (withCode ({ start with flags := 0x0003#16 }) [0x73#8, 0x10#8])
      (fun t => t.ip == 0x0102#16) = true := by decide +kernel

-- 2.6 line 14, at 0100
theorem test_je :
    stepsTo (withCode ({ start with flags := 0x0042#16 }) [0x74#8, 0x06#8])
      (fun t => t.ip == 0x0108#16) = true := by decide +kernel

-- 2.6 line 25
theorem test_je_near :
    stepsTo (withCode ({ start with flags := 0x0042#16 }) [0x0F#8, 0x84#8, 0x00#8, 0x01#8])
      (fun t => t.ip == 0x0204#16) = true := by decide +kernel

-- 2.6 line 26
theorem test_jne_near :
    stepsTo (withCode ({ start with flags := 0x0042#16 }) [0x0F#8, 0x85#8, 0x00#8, 0x01#8])
      (fun t => t.ip == 0x0104#16) = true := by decide +kernel

-- 2.6 line 18
theorem test_jbe :
    stepsTo (withCode start [0x76#8, 0x10#8])
      (fun t => t.ip == 0x0102#16) = true := by decide +kernel

-- 45_control_transfer R390
theorem test_ja :
    stepsTo (withCode start [0x77#8, 0x10#8])
      (fun t => t.ip == 0x0112#16) = true := by decide +kernel

-- 45_control_transfer R390
theorem test_js :
    stepsTo (withCode ({ start with flags := 0x0082#16 }) [0x78#8, 0x10#8])
      (fun t => t.ip == 0x0112#16) = true := by decide +kernel

-- 45_control_transfer R390
theorem test_jns :
    stepsTo (withCode ({ start with flags := 0x0082#16 }) [0x79#8, 0x10#8])
      (fun t => t.ip == 0x0102#16) = true := by decide +kernel

-- 45_control_transfer R390
theorem test_jp :
    stepsTo (withCode ({ start with flags := 0x0006#16 }) [0x7A#8, 0x10#8])
      (fun t => t.ip == 0x0112#16) = true := by decide +kernel

-- 45_control_transfer R390
theorem test_jnp :
    stepsTo (withCode ({ start with flags := 0x0006#16 }) [0x7B#8, 0x10#8])
      (fun t => t.ip == 0x0102#16) = true := by decide +kernel

-- 2.6 line 16
theorem test_jl :
    stepsTo (withCode ({ start with flags := 0x0082#16 }) [0x7C#8, 0x10#8])
      (fun t => t.ip == 0x0112#16) = true := by decide +kernel

-- 45_control_transfer R390
theorem test_jge :
    stepsTo (withCode ({ start with flags := 0x0882#16 }) [0x7D#8, 0x10#8])
      (fun t => t.ip == 0x0112#16) = true := by decide +kernel

-- 45_control_transfer R390
theorem test_jle :
    stepsTo (withCode ({ start with flags := 0x0882#16 }) [0x7E#8, 0x10#8])
      (fun t => t.ip == 0x0102#16) = true := by decide +kernel

-- 2.6 line 17
theorem test_jg :
    stepsTo (withCode ({ start with flags := 0x0882#16 }) [0x7F#8, 0x10#8])
      (fun t => t.ip == 0x0112#16) = true := by decide +kernel

-- 2.6 line 20
theorem test_loop :
    stepsTo (withCode start [0xE2#8, 0x10#8])
      (fun t => t.reg .cx == 0xFFFF#16 && t.ip == 0x0112#16 && t.flags == 0x0002#16) = true := by decide +kernel

-- 2.6 line 19, the last step
theorem test_loop_falls_through :
    stepsTo (withCode (start.setReg .cx 0x0001#16) [0xE2#8, 0xFE#8])
      (fun t => t.reg .cx == 0x0000#16 && t.ip == 0x0102#16) = true := by decide +kernel

-- 2.6 line 21
theorem test_loope :
    stepsTo (withCode (start.setReg .cx 0x0002#16) [0xE1#8, 0x10#8])
      (fun t => t.reg .cx == 0x0001#16 && t.ip == 0x0102#16) = true := by decide +kernel

-- 2.6 line 22
theorem test_loopne :
    stepsTo (withCode (start.setReg .cx 0x0002#16) [0xE0#8, 0x10#8])
      (fun t => t.reg .cx == 0x0001#16 && t.ip == 0x0112#16) = true := by decide +kernel

-- 2.6 line 23
theorem test_loopne_last :
    stepsTo (withCode (start.setReg .cx 0x0001#16) [0xE0#8, 0x10#8])
      (fun t => t.reg .cx == 0x0000#16 && t.ip == 0x0102#16) = true := by decide +kernel

-- 2.6 line 24
theorem test_jcxz :
    stepsTo (withCode start [0xE3#8, 0x10#8])
      (fun t => t.ip == 0x0112#16 && t.reg .cx == 0x0000#16) = true := by decide +kernel

-- 2.7 line 1
theorem test_int :
    stepsTo (withCode (({ start with flags := 0x0303#16 }).load 0x00084#20 [0x00#8, 0x05#8, 0x00#8, 0x30#8]) [0xCD#8, 0x21#8])
      (fun t => t.reg .sp == 0x01FA#16 && bytesAt t 0x001FA#20 [0x02#8, 0x01#8, 0x00#8, 0x00#8, 0x03#8, 0x03#8] && t.flags == 0x0003#16 && t.seg .cs == 0x3000#16 && t.ip == 0x0500#16) = true := by decide +kernel

-- 2.7 line 10, 95_test_vectors S6
theorem test_int_program_exit :
    stepsTo (withCode (((({ start with handlers := [(0x20#8, .programExit)] }).setReg .sp 0xFFFE#16).setSeg .ss 0x1000#16).setSeg .cs 0x1000#16) [0xCD#8, 0x20#8])
      (fun t => t.halted && t.haltReason == .programExit && t.reg .sp == 0xFFFE#16 && t.ip == 0x0102#16 && bytesAt t 0x1FFF8#20 [0x02#8, 0x01#8, 0x00#8, 0x10#8, 0x02#8, 0x00#8]) = true := by decide +kernel

-- 2.7 line 2
theorem test_int3 :
    stepsTo (withCode (start.load 0x0000C#20 [0x00#8, 0x05#8, 0x00#8, 0x30#8]) [0xCC#8])
      (fun t => bytesAt t 0x001FA#20 [0x01#8, 0x01#8, 0x00#8, 0x00#8, 0x02#8, 0x00#8] && t.seg .cs == 0x3000#16 && t.ip == 0x0500#16) = true := by decide +kernel

-- 2.7 line 3
theorem test_into :
    stepsTo (withCode (({ start with flags := 0x0802#16 }).load 0x00010#20 [0x00#8, 0x05#8, 0x00#8, 0x30#8]) [0xCE#8])
      (fun t => bytesAt t 0x001FA#20 [0x01#8, 0x01#8, 0x00#8, 0x00#8, 0x02#8, 0x08#8] && t.flags == 0x0802#16 && t.seg .cs == 0x3000#16 && t.ip == 0x0500#16) = true := by decide +kernel

-- 2.7 line 4
theorem test_into_clear :
    stepsTo (withCode start [0xCE#8])
      (fun t => t.ip == 0x0101#16 && t.reg .sp == 0x0200#16) = true := by decide +kernel

-- 2.7 line 5
theorem test_iret :
    stepsTo (withCode ((start.setReg .sp 0x01FA#16).load 0x001FA#20 [0x00#8, 0x01#8, 0x00#8, 0x20#8, 0xFF#8, 0xFF#8]) [0xCF#8])
      (fun t => t.ip == 0x0100#16 && t.seg .cs == 0x2000#16 && t.flags == 0x0FD7#16 && t.reg .sp == 0x0200#16) = true := by decide +kernel

-- 2.7 line 7
theorem test_bound_outside :
    stepsTo (withCode ((((start.setReg .bx 0x0005#16).setReg .sp 0x0400#16).load 0x00300#20 [0x00#8, 0x00#8, 0x04#8, 0x00#8]).load 0x00014#20 [0x00#8, 0x05#8, 0x00#8, 0x30#8]) [0x62#8, 0x1E#8, 0x00#8, 0x03#8])
      (fun t => bytesAt t 0x003FA#20 [0x04#8, 0x01#8, 0x00#8, 0x00#8, 0x02#8, 0x00#8] && t.seg .cs == 0x3000#16 && t.ip == 0x0500#16 && t.reg .bx == 0x0005#16) = true := by decide +kernel

-- 2.7 line 9
theorem test_bound_inside :
    stepsTo (withCode ((start.setReg .bx 0xFFFF#16).load 0x00300#20 [0xFF#8, 0xFF#8, 0x04#8, 0x00#8]) [0x62#8, 0x1E#8, 0x00#8, 0x03#8])
      (fun t => t.ip == 0x0104#16 && t.reg .sp == 0x0200#16) = true := by decide +kernel

-- 2.8 line 1
theorem test_in_al_dx_unregistered :
    stepsTo (withCode ((start.setReg .dx 0x03F8#16).setReg .ax 0x1200#16) [0xEC#8])
      (fun t => t.reg .ax == 0x12FF#16) = true := by decide +kernel

-- 46_io_processor_control R433
theorem test_in_ax_imm_unregistered :
    stepsTo (withCode start [0xE5#8, 0x60#8])
      (fun t => t.reg .ax == 0xFFFF#16 && t.ip == 0x0102#16) = true := by decide +kernel

-- 2.8 line 2 with the value free (46_io_processor_control R431)
theorem test_in_registered_reads_once :
    stepsTo (withCode ({ start with ports := [0x0060#16] }) [0xE4#8, 0x60#8])
      (fun t => t.portLog.length == 1 && t.ip == 0x0102#16) = true := by decide +kernel

-- 2.8 line 4
theorem test_out_dx_ax :
    stepsTo (withCode ({ (start.setReg .dx 0xFFFF#16).setReg .ax 0x1234#16 with ports := [0xFFFF#16, 0x0000#16] }) [0xEF#8])
      (fun t => t.portLog == [.write 0xFFFF#16 0x34#8, .write 0x0000#16 0x12#8]) = true := by decide +kernel

-- 2.8 line 5
theorem test_out_imm_unregistered :
    stepsTo (withCode (start.setReg .ax 0x0012#16) [0xE6#8, 0x80#8])
      (fun t => t.ip == 0x0102#16 && t.portLog == []) = true := by decide +kernel

-- 2.8 line 6
theorem test_cmc :
    stepsTo (withCode ({ start with flags := 0x0203#16 }) [0xF5#8])
      (fun t => t.flags == 0x0202#16) = true := by decide +kernel

-- 2.8 line 7
theorem test_std :
    stepsTo (withCode start [0xFD#8])
      (fun t => t.flags == 0x0402#16) = true := by decide +kernel

-- 2.8 line 8
theorem test_sti :
    stepsTo (withCode start [0xFB#8])
      (fun t => t.flags == 0x0202#16) = true := by decide +kernel

-- 2.8 line 9
theorem test_clc :
    stepsTo (withCode ({ start with flags := 0x0603#16 }) [0xF8#8])
      (fun t => t.flags == 0x0602#16) = true := by decide +kernel

-- 2.8 line 9
theorem test_stc :
    stepsTo (withCode ({ start with flags := 0x0602#16 }) [0xF9#8])
      (fun t => t.flags == 0x0603#16) = true := by decide +kernel

-- 2.8 line 9
theorem test_cld :
    stepsTo (withCode ({ start with flags := 0x0603#16 }) [0xFC#8])
      (fun t => t.flags == 0x0203#16) = true := by decide +kernel

-- 2.8 line 9
theorem test_cli :
    stepsTo (withCode ({ start with flags := 0x0603#16 }) [0xFA#8])
      (fun t => t.flags == 0x0403#16) = true := by decide +kernel

-- 2.8 line 10
theorem test_hlt :
    stepsTo (withCode start [0xF4#8])
      (fun t => t.ip == 0x0101#16 && t.halted && t.haltReason == .hlt) = true := by decide +kernel

-- 2.8 line 11
theorem test_halted_does_nothing :
    stepsTo (withCode ({ start with halted := true, haltReason := .hlt }) [0x40#8])
      (fun t => t.ip == 0x0100#16 && t.reg .ax == 0x0000#16 && t.halted && t.haltReason == .hlt) = true := by decide +kernel

-- 2.8 line 12
theorem test_esc :
    stepsTo (withCode ({ start with flags := 0x0AD7#16 }) [0xD9#8, 0x46#8, 0x04#8])
      (fun t => t.ip == 0x0103#16 && t.flags == 0x0AD7#16 && t.reg .ax == 0x0000#16 && t.trace == [⟨[0xD9#8], 0x0000#16, 0x0100#16⟩]) = true := by decide +kernel

-- 2.8 line 15, the first step
theorem test_unknown_66 :
    stepsTo (withCode start [0x66#8, 0xB8#8, 0x34#8, 0x12#8])
      (fun t => t.ip == 0x0101#16 && t.reg .ax == 0x0000#16 && t.trace == [⟨[0x66#8], 0x0000#16, 0x0100#16⟩]) = true := by decide +kernel

-- 2.8 line 16
theorem test_unknown_0F05 :
    stepsTo (withCode start [0x0F#8, 0x05#8])
      (fun t => t.ip == 0x0102#16 && t.trace == [⟨[0x0F#8, 0x05#8], 0x0000#16, 0x0100#16⟩]) = true := by decide +kernel

-- 2.8 line 17
theorem test_lock_cs_inc :
    stepsTo (withCode (start.setReg .ax 0x0001#16) [0xF0#8, 0x2E#8, 0x40#8])
      (fun t => t.reg .ax == 0x0002#16 && t.ip == 0x0103#16) = true := by decide +kernel

-- 2.8 line 18
theorem test_nop :
    stepsTo (withCode start [0x90#8])
      (fun t => t.ip == 0x0101#16) = true := by decide +kernel

-- 2.8 line 18
theorem test_wait :
    stepsTo (withCode start [0x9B#8])
      (fun t => t.ip == 0x0101#16) = true := by decide +kernel

-- 2.9 line 1
theorem test_pusha :
    stepsTo (withCode ((((((((start.setReg .sp 0x0100#16).setReg .ax 0x0001#16).setReg .cx 0x0002#16).setReg .dx 0x0003#16).setReg .bx 0x0004#16).setReg .bp 0x0005#16).setReg .si 0x0006#16).setReg .di 0x0007#16) [0x60#8])
      (fun t => t.reg .sp == 0x00F0#16 && bytesAt t 0x000F0#20 [0x07#8, 0x00#8, 0x06#8, 0x00#8, 0x05#8, 0x00#8, 0x00#8, 0x01#8, 0x04#8, 0x00#8, 0x03#8, 0x00#8, 0x02#8, 0x00#8, 0x01#8, 0x00#8]) = true := by decide +kernel

-- 2.9 line 2
theorem test_popa :
    stepsTo (withCode ((start.setReg .sp 0x00F0#16).load 0x000F0#20 [0x07#8, 0x00#8, 0x06#8, 0x00#8, 0x05#8, 0x00#8, 0xEE#8, 0xEE#8, 0x04#8, 0x00#8, 0x03#8, 0x00#8, 0x02#8, 0x00#8, 0x01#8, 0x00#8]) [0x61#8])
      (fun t => t.reg .di == 0x0007#16 && t.reg .si == 0x0006#16 && t.reg .bp == 0x0005#16 && t.reg .bx == 0x0004#16 && t.reg .dx == 0x0003#16 && t.reg .cx == 0x0002#16 && t.reg .ax == 0x0001#16 && t.reg .sp == 0x0100#16) = true := by decide +kernel

-- 2.9 line 4
theorem test_enter_zero :
    stepsTo (withCode ((start.setReg .sp 0x0100#16).setReg .bp 0x0200#16) [0xC8#8, 0x08#8, 0x00#8, 0x00#8])
      (fun t => bytesAt t 0x000FE#20 [0x00#8, 0x02#8] && t.reg .bp == 0x00FE#16 && t.reg .sp == 0x00F6#16 && t.ip == 0x0104#16) = true := by decide +kernel

-- 2.9 line 7
theorem test_enter_two :
    stepsTo (withCode (((start.setReg .sp 0x0100#16).setReg .bp 0x0200#16).load 0x001FE#20 [0xAA#8, 0x55#8]) [0xC8#8, 0x04#8, 0x00#8, 0x02#8])
      (fun t => bytesAt t 0x000F6#20 [0x00#8, 0x00#8, 0x00#8, 0x00#8, 0xFE#8, 0x00#8, 0xAA#8, 0x55#8, 0x00#8, 0x02#8] && t.reg .bp == 0x00FE#16 && t.reg .sp == 0x00F6#16) = true := by decide +kernel

-- 2.9 line 5
theorem test_leave :
    stepsTo (withCode (((start.setReg .sp 0x00F6#16).setReg .bp 0x00FE#16).load 0x000FE#20 [0x00#8, 0x02#8]) [0xC9#8])
      (fun t => t.reg .sp == 0x0100#16 && t.reg .bp == 0x0200#16) = true := by decide +kernel

-- 2.9 line 8
theorem test_movzx :
    stepsTo (withCode (start.setReg .bx 0x12F0#16) [0x0F#8, 0xB6#8, 0xC3#8])
      (fun t => t.reg .ax == 0x00F0#16 && t.ip == 0x0103#16) = true := by decide +kernel

-- 2.9 line 9
theorem test_movsx :
    stepsTo (withCode (start.setReg .bx 0x12F0#16) [0x0F#8, 0xBE#8, 0xC3#8])
      (fun t => t.reg .ax == 0xFFF0#16 && t.ip == 0x0103#16) = true := by decide +kernel

-- 2.9 line 11
theorem test_fs_override :
    stepsTo (withCode (((((start.setSeg .fs 0x4000#16).setSeg .ds 0x2000#16).setReg .bx 0x0010#16).load 0x40010#20 [0x77#8]).load 0x20010#20 [0x11#8]) [0x64#8, 0x8A#8, 0x07#8])
      (fun t => t.half .al == 0x77#8 && t.ip == 0x0103#16) = true := by decide +kernel

-- 2.9 line 12
theorem test_push_simm8 :
    stepsTo (withCode (start.setReg .sp 0x0100#16) [0x6A#8, 0xFF#8])
      (fun t => bytesAt t 0x000FE#20 [0xFF#8, 0xFF#8] && t.reg .sp == 0x00FE#16) = true := by decide +kernel

-- 2.9 line 13
theorem test_simm8_push_absent :
    stepsTo (withCode ({ start with ext186 := .absent }) [0x6A#8, 0xFF#8])
      (fun t => t.ip == 0x0101#16 && t.reg .sp == 0x0200#16 && t.trace == [⟨[0x6A#8], 0x0000#16, 0x0100#16⟩]) = true := by decide +kernel

-- 2.9 line 15
theorem test_imul_three_operands :
    stepsTo (withCode (start.setReg .bx 0x0003#16) [0x6B#8, 0xC3#8, 0xFE#8])
      (fun t => t.reg .ax == 0xFFFA#16) = true := by decide +kernel

-- 47_post8086_ext R491
theorem test_imul_imm16 :
    stepsTo (withCode (start.setReg .bx 0x0064#16) [0x69#8, 0xC3#8, 0x2C#8, 0x01#8])
      (fun t => t.reg .ax == 0x7530#16 && t.ip == 0x0104#16) = true := by decide +kernel

-- 47_post8086_ext R495
theorem test_push_fs :
    stepsTo (withCode (start.setSeg .fs 0x1234#16) [0x0F#8, 0xA0#8])
      (fun t => bytesAt t 0x001FE#20 [0x34#8, 0x12#8] && t.reg .sp == 0x01FE#16 && t.ip == 0x0102#16) = true := by decide +kernel

-- 47_post8086_ext R495
theorem test_pop_gs :
    stepsTo (withCode (start.load 0x00200#20 [0x34#8, 0x12#8]) [0x0F#8, 0xA9#8])
      (fun t => t.seg .gs == 0x1234#16 && t.reg .sp == 0x0202#16 && t.ip == 0x0102#16) = true := by decide +kernel

-- 2.7 line 6, the second step
theorem test_push_cs :
    stepsTo (withCode (start.setSeg .cs 0x1000#16) [0x0E#8])
      (fun t => bytesAt t 0x001FE#20 [0x00#8, 0x10#8] && t.reg .sp == 0x01FE#16) = true := by decide +kernel

-- 40_data_transfer R212
theorem test_pop_ss :
    stepsTo (withCode (start.load 0x00200#20 [0x00#8, 0x30#8]) [0x17#8])
      (fun t => t.seg .ss == 0x3000#16 && t.reg .sp == 0x0202#16) = true := by decide +kernel

-- 40_data_transfer R208, FF /6
theorem test_push_memory :
    stepsTo (withCode (start.load 0x00300#20 [0x34#8, 0x12#8]) [0xFF#8, 0x36#8, 0x00#8, 0x03#8])
      (fun t => bytesAt t 0x001FE#20 [0x34#8, 0x12#8] && t.reg .sp == 0x01FE#16) = true := by decide +kernel

/-! ## Shifts: the arithmetic of the vectors whose flags are free in part -/

theorem test_shift_carries :
    shiftSteps .shl 9 0xFF#8 false = (0x00#8, false) ∧ shiftSteps .shl 1 0xC0#8 false = (0x80#8, true) ∧
    shiftSteps .shr 1 0x8001#16 false = (0x4000#16, true) ∧ shiftSteps .sar 16 0x8000#16 false = (0xFFFF#16, true) ∧
    shiftSteps .rol 8 0xA5#8 false = (0xA5#8, true) ∧ shiftSteps .ror 4 0x1234#16 false = (0x4123#16, false) ∧
    shiftSteps .rcl 9 0xA5#8 true = (0xA5#8, true) ∧ shiftSteps .rcr 1 0x0002#16 true = (0x8001#16, false) := by decide +kernel

theorem test_decimal_adjusts :
    daaAdjust 0x9A#8 false false = (0x00#8, true, true) ∧ daaAdjust 0x3C#8 false false = (0x42#8, false, true) ∧
    dasAdjust 0x00#8 true false = (0xFA#8, true, true) ∧ dasAdjust 0x2D#8 true false = (0x27#8, false, true) := by decide +kernel

/-! ## The translator: the worked example R573, and what R551 and R562 ask of it -/

/-- "A.TXT". -/
def aTxt : List Byte := [0x41#8, 0x2E#8, 0x54#8, 0x58#8, 0x54#8]

/-- R573: the disk formatted, and "A.TXT" written. -/
def exampleDisk : FatState := ((State.reset.fat.format [] 0#32 []).writeFile [] aTxt [0x41#8, 0x42#8, 0x43#8] ⟨0#16, 0#16⟩).2

theorem test_fat_example_listing : (exampleDisk.listDir []).1 = .ok [⟨aTxt, 0x20#8, ⟨0#16, 0#16⟩, 2#16, 3#32⟩] := by
  decide +kernel

theorem test_fat_example_contents :
    (exampleDisk.readFile [] aTxt).1 = .ok [0x41#8, 0x42#8, 0x43#8] ∧ exampleDisk.freeClusters.1 = 2846 ∧
    (exampleDisk.view 1).take 6 = [0xF0#8, 0xFF#8, 0xFF#8, 0xFF#8, 0x0F#8, 0x00#8] := by decide +kernel

/-- R562: a file "SUB" and, after it, a directory "SUB": the path walk takes the entry with attribute bit 4. -/
def maskedDisk : FatState :=
  let f := ((State.reset.fat.format [] 0#32 []).mkdir [] [0x53#8, 0x55#8, 0x42#8] ⟨0#16, 0#16⟩).2
  let entry : List Byte := ((f.view 19).take 32)
  f.writeSector 19 ((entry.set 11 0x20#8) ++ entry ++ List.replicate 448 0x00#8)

theorem test_path_walk_passes_over_a_file :
    (maskedDisk.directory [[0x53#8, 0x55#8, 0x42#8]]).1.map Dir.cluster = .ok 2#16 := by decide +kernel

/-- R551, R562, R567: on a path a broken chain is `not-found`; a missing directory leaves `deleteEntry` without an entry. -/
theorem test_delete_on_a_broken_path :
    ((maskedDisk.fatSet 2 0x001#12).deleteEntry [[0x53#8, 0x55#8, 0x42#8]] aTxt).1 = .error .notFound ∧
    (maskedDisk.deleteEntry [aTxt] aTxt).1 = .ok false ∧
    (maskedDisk.deleteEntry [[0x53#8, 0x55#8, 0x42#8]] aTxt).1 = .ok false := by decide +kernel

/-- R551, R554: a chain through a free cluster. FreeChain frees what was collected and reports `not-found`. -/
theorem test_free_of_a_broken_chain :
    let r := (State.reset.fat.fatSet 2 0x003#12).freeChain 2
    r.1 = .error .notFound ∧ (r.2.fatGet 2).1 = 0#12 := by decide +kernel

/-! ## Witnesses: a state and operands that meet the hypotheses of each statement, clause by clause

A statement without hypotheses has none here. -/

/-- The meaning of the instruction goes on from the state. -/
def goes (i : Instr) (s : State) : Bool :=
  match exec i s with
  | .next _ => true
  | .fault _ | .refused _ => false

theorem next_of_goes {i : Instr} {s : State} (h : goes i s = true) : ∃ t, exec i s = .next t := by
  unfold goes at h
  split at h
  · exact ⟨_, ‹_›⟩
  · exact absurd h (by decide)
  · exact absurd h (by decide)

theorem next_of_stepsTo {s : State} (h : stepsTo s (fun _ => true) = true) : ∃ t, step s = .next t := by
  unfold stepsTo at h
  split at h
  · exact ⟨_, ‹_›⟩
  · exact absurd h (by decide)
  · exact absurd h (by decide)

/-- The bytes at CS:IP of a state, IP wrapping. -/
def codeIs (s : State) (bs : List Byte) : Bool :=
  (List.range bs.length).all fun k => s.memRead8 (phys (s.seg .cs) (s.ip + BitVec.ofNat 16 k)) == bs.getD k 0#8

theorem code_of_codeIs {s : State} {bs : List Byte} (h : codeIs s bs = true) :
    ∀ k b, bs[k]? = some b → s.memRead8 (phys (s.seg .cs) (s.ip + BitVec.ofNat 16 k)) = b := by
  intro k b hk
  have hlt := (List.getElem?_eq_some_iff.1 hk).1
  have hd : bs.getD k 0#8 = b := by rw [List.getD_eq_getElem?_getD, hk]; rfl
  rw [codeIs, List.all_eq_true] at h
  rw [← hd]
  exact eq_of_beq (h k (List.mem_range.2 hlt))

theorem witness_DecodeOfEncodeIsTheInstruction :
    Instr.wf .present (.add (.rm8Imm true (.mem (.based .bp (.d8 0xFF#8))) 0xFF#8)) = true ∧
    Instr.wf .absent (.unknown 0x6C#8) = true ∧ Instr.wf .refuse (.reserved 0xFF#8 0xFF#8) = true := by decide +kernel

theorem witness_SixBytesBeginWithOneEncoding :
    6 ≤ [0x90#8, 0xCC#8, 0x00#8, 0x00#8, 0x00#8, 0x00#8].length ∧ Instr.wf .present .nop = true ∧
    encode .nop ++ [0xCC#8, 0x00#8, 0x00#8, 0x00#8, 0x00#8] = [0x90#8, 0xCC#8, 0x00#8, 0x00#8, 0x00#8, 0x00#8] := by
  decide +kernel

/-- MOV AX, BX with its second byte past the end of the segment. -/
def codeAtTheEnd : State := ((start.load 0x0FFFF#20 [0x89#8]).load 0x00000#20 [0xD8#8]).setIp 0xFFFF#16

theorem witness_StepRunsTheDecodedInstruction :
    codeAtTheEnd.halted = false ∧ (Instr.movRmReg .word (.reg .n0) .n3).wf codeAtTheEnd.ext186 = true ∧
    (Instr.movRmReg .word (.reg .n0) .n3).isPrefix = false ∧
    ∀ k b, (encode (.movRmReg .word (.reg .n0) .n3))[k]? = some b →
      codeAtTheEnd.memRead8 (phys (codeAtTheEnd.seg .cs) (codeAtTheEnd.ip + BitVec.ofNat 16 k)) = b :=
  ⟨by decide +kernel, by decide +kernel, by decide +kernel, code_of_codeIs (by decide +kernel)⟩

/-- ES: REP MOVSB at CS:0100. -/
def prefixedCode : State := withCode start [0x26#8, 0xF3#8, 0xA4#8]

theorem witness_PrefixesAttachToOneInstruction :
    prefixedCode.halted = false ∧ Instr.movsb.wf prefixedCode.ext186 = true ∧ Instr.movsb.isPrefix = false ∧
    (∀ p ∈ [Instr.segES, .rep], p.isPrefix = true) ∧ [Instr.segES, .rep].length < 65536 ∧
    ∀ k b, ([Instr.segES, .rep].flatMap encode ++ encode .movsb)[k]? = some b →
      prefixedCode.memRead8 (phys (prefixedCode.seg .cs) (prefixedCode.ip + BitVec.ofNat 16 k)) = b :=
  ⟨by decide +kernel, by decide +kernel, by decide +kernel, by decide +kernel, by decide, code_of_codeIs (by decide +kernel)⟩

theorem read_run (b : Byte) (n lo a : Nat) (h1 : lo ≤ a) (h2 : a < lo + n) :
    Memory.read ((List.range' lo n).map fun k => (k, b)) a = b := by
  induction n generalizing lo with
  | zero => omega
  | succ n ih =>
    rw [List.range'_succ, List.map_cons, Memory.read]
    split
    · rfl
    · exact ih (lo + 1) (by omega) (by omega)

/-- A code segment of ES prefixes. -/
def prefixesOnly : State := { start with mem := (List.range' 0 (2 ^ 20)).map fun k => (k, 0x26#8) }

theorem witness_PrefixRunIsStuck :
    prefixesOnly.halted = false ∧
    ∀ off : Word, isPrefixByte (prefixesOnly.memRead8 (phys (prefixesOnly.seg .cs) off)) = true := by
  refine ⟨rfl, fun off => ?_⟩
  have h : prefixesOnly.memRead8 (phys (prefixesOnly.seg .cs) off) = 0x26#8 :=
    read_run _ _ _ _ (Nat.zero_le _) (by have := (phys (prefixesOnly.seg .cs) off).isLt; omega)
  rw [h]
  decide

theorem witness_EveryStepKeepsTheInvariant : (withCode start [0x50#8]).Inv ∧ ∃ t, step (withCode start [0x50#8]) = .next t :=
  ⟨⟨by decide +kernel, by decide +kernel, by decide +kernel⟩, next_of_stepsTo (by decide +kernel)⟩

theorem witness_NoStepChangesTheTables : ∃ t, step (withCode start [0xEC#8]) = .next t := next_of_stepsTo (by decide +kernel)

theorem witness_SegmentRegistersHaveFewWriters :
    Instr.mayWriteSegment (.popReg .n4) = false ∧ ∃ t, exec (.popReg .n4) start = .next t :=
  ⟨rfl, next_of_goes (by decide +kernel)⟩

theorem witness_FlagsAreLeftAlone :
    Instr.leavesFlags (.not .byte (.reg .n4)) = true ∧ ∃ t, exec (.not .byte (.reg .n4)) start = .next t :=
  ⟨rfl, next_of_goes (by decide +kernel)⟩

/-- A machine whose vectors 00h, 16h, 20h, 21h have handlers, with AH = 4Ch. -/
def serviced : State :=
  { start.setHalf .ah 0x4C#8 with
    handlers := [(0x00#8, .programExit), (0x16#8, .keyboard), (0x20#8, .programExit), (0x21#8, .dos)] }

theorem witness_OnlyHltAndHandlersHalt :
    start.halted = false ∧ (∃ t, exec .hlt start = .next t ∧ t.halted = true) ∧
    serviced.halted = false ∧ (∃ t, exec (.int 0x20#8) serviced = .next t ∧ t.halted = true) :=
  ⟨rfl, ⟨_, rfl, rfl⟩, rfl, ⟨_, rfl, rfl⟩⟩

theorem witness_Pushes : start.ext186 = .present := rfl

theorem witness_Pops :
    start.ext186 = .present ∧ RegNum.n3 ≠ .n4 ∧ RegNum.n5 ≠ .n4 ∧ Rm.reg .n3 ≠ .reg .n4 ∧
    Rm.mem (.direct 0xFFFF#16) ≠ .reg .n4 := by decide

/-- SP and BP far apart. -/
def framed : State := (start.setReg .sp 0x8000#16).setReg .bp 0x2000#16

theorem apart_of_all {l m : List Addr} (h : l.all (fun b => !m.contains b) = true) : ∀ b ∈ l, b ∉ m := by
  simpa using h

theorem witness_EnterAndLeave :
    0 < (0x21#8).toNat % 32 ∧ 1 ≤ 30 ∧ 30 < (0xFF#8).toNat % 32 ∧
    (∀ b ∈ storedBytes .word (framed.seg .ss) (framed.reg .bp - BitVec.ofNat 16 (2 * 30)),
      b ∉ pushedBytes framed ((0xFF#8).toNat % 32 + 1)) :=
  ⟨by decide, by decide, by decide, apart_of_all (by decide +kernel)⟩

theorem witness_MulAndImul : start.ext186 = .present := rfl

/-- Division by BL = 1, BX = 1 at the largest dividends whose quotient fits. -/
def dividesWord (dx ax bx : Word) : State := ((start.setReg .dx dx).setReg .ax ax).setReg .bx bx

theorem witness_DivAndIdiv :
    (let s := dividesWord 0x0000#16 0x00FF#16 0x0001#16
     (s.readRm .byte (.reg .n3)).toNat ≠ 0 ∧ (s.reg .ax).toNat / (s.readRm .byte (.reg .n3)).toNat < 256) ∧
    (let s := dividesWord 0x0000#16 0xFFFF#16 0x0001#16
     (s.readRm .word (.reg .n3)).toNat ≠ 0 ∧
      ((s.reg .dx).toNat * 65536 + (s.reg .ax).toNat) / (s.readRm .word (.reg .n3)).toNat < 65536) ∧
    (let s := dividesWord 0x0000#16 0xFF80#16 0x0001#16
     (s.readRm .byte (.reg .n3)).toInt ≠ 0 ∧
      ¬((s.reg .ax).toInt.tdiv (s.readRm .byte (.reg .n3)).toInt < -128 ∨
        128 ≤ (s.reg .ax).toInt.tdiv (s.readRm .byte (.reg .n3)).toInt)) ∧
    (let s := dividesWord 0xFFFF#16 0x8000#16 0x0001#16
     (s.readRm .word (.reg .n3)).toInt ≠ 0 ∧
      ¬((s.reg .dx ++ s.reg .ax).toInt.tdiv (s.readRm .word (.reg .n3)).toInt < -32768 ∨
        32768 ≤ (s.reg .dx ++ s.reg .ax).toInt.tdiv (s.readRm .word (.reg .n3)).toInt)) := by decide +kernel

theorem witness_SignedOverflow :
    ¬SignedOverflow 8 (-128) ∧ SignedOverflow 8 128 ∧ ¬SignedOverflow 16 (-32768) ∧ SignedOverflow 16 32768 := by
  simp only [SignedOverflow]
  decide

theorem witness_TrapsEnterTheirVectors_division :
    (let s := dividesWord 0x0000#16 0x0100#16 0x0001#16
     256 ≤ (s.reg .ax).toNat / (s.readRm .byte (.reg .n3)).toNat) ∧
    (start.readRm .byte (.reg .n3)).toNat = 0 ∧
    (let s := dividesWord 0x0001#16 0x0000#16 0x0001#16
     65536 ≤ ((s.reg .dx).toNat * 65536 + (s.reg .ax).toNat) / (s.readRm .word (.reg .n3)).toNat) ∧
    (let s := dividesWord 0x0000#16 0x0080#16 0x0001#16
     128 ≤ (s.reg .ax).toInt.tdiv (s.readRm .byte (.reg .n3)).toInt) ∧
    (let s := dividesWord 0xFFFF#16 0x7FFF#16 0x0001#16
     (s.reg .dx ++ s.reg .ax).toInt.tdiv (s.readRm .word (.reg .n3)).toInt < -32768) := by decide +kernel

/-- BX and the bounds 0000, 0004 at DS:0300. -/
def bounded (bx : Word) : State := ((start.setReg .bx bx).load 0x00302#20 [0x04#8])

theorem witness_TrapsEnterTheirVectors_others :
    ({ start with flags := 0x0802#16 } : State).flag .of = true ∧ start.flag .of = false ∧
    ((bounded 0xFFFF#16).reg .bx).toInt
      < ((bounded 0xFFFF#16).readMem .word ((bounded 0xFFFF#16).effSeg (.direct 0x0300#16)) 0x0300#16).toInt ∧
    ((bounded 0x0005#16).readMem .word ((bounded 0x0005#16).effSeg (.direct 0x0300#16)) 0x0302#16).toInt
      < ((bounded 0x0005#16).reg .bx).toInt ∧
    ((bounded 0x0004#16).readMem .word ((bounded 0x0004#16).effSeg (.direct 0x0300#16)) 0x0300#16).toInt
      ≤ ((bounded 0x0004#16).reg .bx).toInt ∧
    ((bounded 0x0004#16).reg .bx).toInt
      ≤ ((bounded 0x0004#16).readMem .word ((bounded 0x0004#16).effSeg (.direct 0x0300#16)) 0x0302#16).toInt := by
  decide +kernel

theorem witness_AsciiAdjusts : (0x01#8) ≠ 0#8 ∧ (0xFF#8) ≠ 0#8 := by decide

theorem witness_Shifts :
    ShiftForm.available (.imm .word (.reg .n0) 0x21#8) start ∧ shiftCount (.imm .word (.reg .n0) 0x21#8) start = 1 ∧
    shiftCount (.imm .word (.reg .n0) 0x20#8) start = 0 ∧
    ShiftForm.available (.cl .byte (.reg .n0)) (start.setHalf .cl 0xFF#8) ∧
    shiftCount (.cl .byte (.reg .n0)) (start.setHalf .cl 0xFF#8) ≠ 0 ∧ shiftCount (.cl .byte (.reg .n0)) start = 0 ∧
    ShiftForm.available (.one .byte (.reg .n0)) start ∧ shiftCount (.one .byte (.reg .n0)) start ≠ 0 :=
  ⟨rfl, by decide +kernel, by decide +kernel, trivial, by decide +kernel, by decide +kernel, trivial, by decide +kernel⟩

theorem witness_Rotates :
    ShiftForm.available (.imm .byte (.reg .n0) 0xFF#8) start ∧ shiftCount (.imm .byte (.reg .n0) 0xFF#8) start ≠ 0 :=
  ⟨rfl, by decide +kernel⟩

theorem witness_StringMoves : start.rep = none ∧ start.ext186 = .present := ⟨rfl, rfl⟩

theorem witness_StringCompares : start.rep = none := rfl

/-- A repeat prefix and CX. -/
def repeating (r : Rep) (cx : Word) : State := { start.setReg .cx cx with rep := some r }

theorem witness_RepeatedMovesRunToZero :
    (repeating .repne 0xFFFF#16).rep = some .repne ∧ (repeating .repne 0xFFFF#16).ext186 = .present ∧
    (repeating .repe 0x0000#16).flag .df = false := ⟨rfl, rfl, by decide +kernel⟩

theorem witness_RepeatUnfolds :
    (repeating .repe 0x0000#16).rep = some .repe ∧ (repeating .repe 0x0000#16).reg .cx = 0#16 ∧
    (repeating .repe 0xFFFF#16).reg .cx ≠ 0#16 ∧ start.ext186 = .present ∧
    (∀ i ∈ [Instr.movsb, .stosw, .lodsb, .cmpsb, .scasw, .insb, .outsw],
      ∃ t, exec i { repeating .repe 0xFFFF#16 with rep := none } = .next t) := by
  refine ⟨rfl, rfl, by decide, rfl, ?_⟩
  intro i hi
  have h : ∀ i ∈ [Instr.movsb, .stosw, .lodsb, .cmpsb, .scasw, .insb, .outsw],
      goes i { repeating .repe 0xFFFF#16 with rep := none } = true := by decide +kernel
  exact next_of_goes (h i hi)

theorem witness_Loops :
    start.reg .cx ≠ 1#16 ∧ ¬(start.setReg .cx 0x0001#16).reg .cx ≠ 1#16 ∧
    (start.reg .cx ≠ 1#16 ∧ start.flag .zf = false) ∧
    ({ start with flags := 0x0042#16 } : State).flag .zf = true := by decide +kernel

theorem witness_InterruptsEnterThroughTheVectorTable :
    lookupHandler start.handlers 0x00#8 = none ∧ lookupHandler start.handlers 0xFF#8 = none ∧
    lookupHandler start.handlers 3#8 = none ∧ lookupHandler start.handlers 4#8 = none ∧
    ({ start with flags := 0x0802#16 } : State).flag .of = true := by decide +kernel

theorem witness_RegisteredHandlers :
    lookupHandler serviced.handlers 0x00#8 = some .programExit ∧
    (lookupHandler serviced.handlers 0x21#8 = some .dos ∧ serviced.half .ah = 0x4C#8) ∧
    lookupHandler (serviced.setHalf .ah 0x10#8).handlers 0x16#8 = some .keyboard ∧
    (serviced.setHalf .ah 0x10#8).half .ah = 0x10#8 ∧ (serviced.setHalf .ah 0x10#8).keyBuffer = [] ∧
    (serviced.setHalf .ah 0x00#8).half .ah = 0x00#8 ∧
    ({ serviced.setHalf .ah 0x00#8 with keyBuffer := [0x1E61#16] } : State).keyBuffer = 0x1E61#16 :: [] := by decide +kernel

theorem witness_IretUndoesAFrame :
    flagsNormal start.flags = true ∧
    (∃ a b c, exec .pushf start = .next a ∧ exec (.pushSeg .cs) a = .next b ∧ exec (.pushImm16 0x1234#16) b = .next c) ∧
    lookupHandler start.handlers 0xFF#8 = none ∧ ∃ t, exec (.int 0xFF#8) start = .next t :=
  ⟨by decide +kernel, ⟨_, _, _, rfl, rfl, rfl⟩, rfl, next_of_goes (by decide +kernel)⟩

/-- A registered port FFFF, and DX there. -/
def ported : State := { start.setReg .dx 0xFFFF#16 with ports := [0xFFFF#16, 0x0000#16] }

theorem witness_PortInstructions :
    ((∃ port : Byte, 0x00FF#16 = port.setWidth 16 ∧ (fun w => Instr.inImm w 0xFF#8) = (fun w => Instr.inImm w port) ∧
        (fun w => Instr.outImm w 0xFF#8) = fun w => Instr.outImm w port) ∧
      0x00FF#16 ∉ ported.ports) ∧ ported.reg .dx = 0xFFFF#16 ∧ ported.reg .dx ∈ ported.ports :=
  ⟨⟨⟨0xFF#8, by decide, rfl, rfl⟩, by decide +kernel⟩, by decide +kernel, by decide +kernel⟩

theorem witness_FlagInstructions : flagsNormal ({ start with flags := 0x0FD7#16 } : State).flags = true := by decide +kernel

theorem witness_RefusedEncodings :
    Instr.isX186 .insb = true ∧ Instr.isX186 .popGs = true ∧ Instr.isX186 (.shl (.imm .byte (.reg .n0) 0x00#8)) = true ∧
    ({ start with ext186 := .refuse } : State).ext186 = .refuse ∧ start.ext186 = .present := by decide +kernel

theorem witness_ComLaunchState :
    (List.replicate 126 0x20#8).length ≤ 126 ∧ (List.replicate 0xFEFE 0x90#8).length ≤ 0xFEFE ∧
    (List.replicate 126 0x20#8)[125]? = some 0x20#8 ∧ (List.replicate 0xFEFE 0x90#8)[0xFEFD]? = some 0x90#8 :=
  ⟨Nat.le_of_eq List.length_replicate, Nat.le_of_eq List.length_replicate, rfl,
    by rw [List.getElem?_replicate, if_pos (by decide)]⟩

theorem witness_HaltedUntilWoken :
    ({ start with halted := true, haltReason := .keyWait } : State).halted = true ∧
    ({ start with halted := true, haltReason := .keyWait } : State).haltReason = .keyWait ∧ start.haltReason ≠ .keyWait := by
  decide

/-- A translator with a sector in the store and another one dirty. -/
def oneDirty : FatState :=
  { store := [(1, List.replicate 512 0xAA#8)], cache := [(2879, List.replicate 512 0x55#8)], dirty := [2879] }

/-- A malformed value in the store reads as zeros (93_implementation_defined U23). -/
theorem test_malformed_store_value :
    let f : FatState := { store := [(7, [0xAA#8])], cache := [], dirty := [] }
    f.wf = true ∧ (f.readSector 7).1 = List.replicate 512 0x00#8 := by decide +kernel

/-- A failing `get` reads as zeros; a failing `put` is dropped, and the sector stays in the cache (93_implementation_defined U23,
U24). -/
theorem test_store_failures :
    ({ oneDirty with failsGet := [1] }.readSector 1).1 = List.replicate 512 0x00#8 ∧
    (let f := { oneDirty with failsPut := [2879] }.flush
     f.dirty = [] ∧ f.store.get 2879 = none ∧ (f.readSector 2879).1 = List.replicate 512 0x55#8) ∧
    (let f := { oneDirty with failsPut := [1] }.format [] 0#32 []
     f.dirty = [] ∧ f.store.get 1 = some (List.replicate 512 0xAA#8) ∧ (f.readSector 1).1 = freshFatSector) := by decide +kernel

theorem witness_SectorCache :
    2879 ∈ ({ oneDirty with failsGet := [1], failsPut := [2879] } : FatState).failsPut ∧
    ({ oneDirty with failsGet := [1], failsPut := [2879] } : FatState).wf = true ∧
    oneDirty.wf = true ∧ 2879 < 2880 ∧ (List.replicate 512 0x11#8).length = 512 ∧ 2879 ∈ oneDirty.dirty ∧ 1 ∉ oneDirty.dirty := by
  decide +kernel

theorem witness_FatEntryWrites :
    State.reset.fat.wf = true ∧ 3071 < 3072 ∧ 3071 ≠ 2 ∧ 4607 < 4608 ∧ 4607 ≠ 3 + 3 / 2 ∧ 4607 ≠ 3 + 3 / 2 + 1 ∧
    State.reset.fat.fatsAgree :=
  ⟨by decide, by decide, by decide, by decide, by decide, by decide, fun _ _ => rfl⟩

/-- A disk on which no cluster is free. -/
def fullDisk : FatState :=
  { store := (List.range' 1 9).map fun n => (n, List.replicate 512 0xFF#8), cache := [], dirty := [] }

theorem view_fullDisk (n : Nat) (h : n < 9) : fullDisk.view (1 + n) = List.replicate 512 0xFF#8 := by
  refine FatState.stored_of_get (f := fullDisk) List.not_mem_nil ?_ List.length_replicate
  interval_cases n <;> rfl

theorem entry_fullDisk (c : Nat) (h : c < 3072) : fullDisk.entry c = 0xFFF#12 := by
  have hb := fatOffset_bound h
  have hv (o : Nat) (ho : o < 4608) : fullDisk.fatView 1 o = 0xFF#8 := by
    unfold FatState.fatView
    rw [view_fullDisk _ (by omega), List.getD_replicate _ (Nat.mod_lt _ (by decide))]
  unfold FatState.entry
  rw [hv _ hb, hv _ (by omega)]
  unfold entryOfWord
  split <;> rfl

theorem witness_AllocateFindsTheLowestFreeCluster : State.reset.fat.allocate.1 = some 2 ∧ fullDisk.allocate.1 = none := by
  refine ⟨by decide +kernel, ?_⟩
  cases h : fullDisk.allocate.1 with
  | none => rfl
  | some c =>
    obtain ⟨-, hlt, h0, -⟩ := (allocateFrom_spec 2847 2 fullDisk (by decide)).2.1 c h
    rw [entry_fullDisk c (by omega)] at h0
    exact absurd h0 (by decide)

/-- The chain 2848, 2 on an empty disk. -/
def twoClusters : FatState := (State.reset.fat.fatSet 2848 0x002#12).fatSet 2 0xFF8#12

/-- The chain is whole. -/
def whole (f : FatState) (first : Nat) : Bool :=
  match (f.chain first).1 with
  | .whole _ => true
  | .broken _ => false

theorem not_whole {f : FatState} {first : Nat} (h : whole f first = false) : ∀ cs, (f.chain first).1 ≠ .whole cs := by
  intro cs hc
  rw [whole, hc] at h
  exact Bool.noConfusion h

theorem witness_ChainsFollowTheFat_whole : 2848 ≠ 0 ∧ (twoClusters.chain 2848).1 = .whole [2848, 2] := by decide +kernel

theorem witness_ChainsFollowTheFat_converse :
    [2848, 2].head? = some 2848 ∧ [2848, 2].Nodup ∧ (∀ c ∈ [2848, 2], 2 ≤ c ∧ c < 2849) ∧
    (∀ k a b, [2848, 2][k]? = some a → [2848, 2][k + 1]? = some b → (twoClusters.fatGet a).1.toNat = b) ∧
    (∀ a, [2848, 2].getLast? = some a → 0xFF8 ≤ (twoClusters.fatGet a).1.toNat) := by
  have h1 : (twoClusters.fatGet 2848).1.toNat = 2 := by decide +kernel
  have h2 : 0xFF8 ≤ (twoClusters.fatGet 2).1.toNat := by decide +kernel
  refine ⟨rfl, by decide, by decide, ?_, ?_⟩
  · intro k a b ha hb
    match k with
    | 0 =>
      cases Option.some.inj ha
      cases Option.some.inj hb
      exact h1
    | k + 1 => exact absurd hb (by simp)
  · intro a ha
    cases Option.some.inj ha
    exact h2

/-- Broken at once (a first cluster that does not exist), and at a free cluster inside the chain. -/
theorem witness_ChainsFollowTheFat_broken :
    (∀ cs, (twoClusters.chain 1).1 ≠ .whole cs) ∧ (∀ cs, (twoClusters.chain 2849).1 ≠ .whole cs) ∧
    ∀ cs, ((State.reset.fat.fatSet 2848 0x002#12).chain 2848).1 ≠ .whole cs :=
  ⟨not_whole (by decide +kernel), not_whole (by decide +kernel), not_whole (by decide +kernel)⟩

theorem witness_MutationsFlushAndKeepTheFatsIdentical :
    FatRequest.isMutating (.mkdir [] [0x41#8] default) = true ∧ State.reset.fat.wf = true ∧ State.reset.fat.fatsAgree ∧
    State.reset.fat.cacheAgrees :=
  ⟨rfl, by decide, fun _ _ => rfl, fun _ _ _ _ _ h => absurd h (by simp [State.reset, SectorMap.get])⟩

end Sys2Proof.Tests
end

/-! # The state (10_state): byte halves -/

section

namespace Sys2Proof.Machine

/-- A byte half written: its 16-bit register with that half replaced (10_state R34). -/
theorem State.reg_setHalf_parent (s : State) (h : Reg8) (v : Byte) :
    (s.setHalf h v).reg h.parent = withHalf h.isHigh (s.reg h.parent) v :=
  State.reg_setReg_same ..

/-- AX written: its two halves together are the new word. -/
theorem State.halves_setReg_ax (s : State) (x : Word) : (s.setReg .ax x).half .ah ++ (s.setReg .ax x).half .al = x := by
  rw [← State.ax_eq_halves, State.reg_setReg_same]

/-- Settles O15: each half by the rule for the register it is part of, AX by its two halves, the frame of each write by the rule
for `setHalf`. -/
theorem byteHalvesAliasTheirRegister : Obligations.ByteHalvesAliasTheirRegister := by
  intro s v x
  exact ⟨s.reg_setHalf_parent .al v, s.reg_setHalf_parent .ah v, s.reg_setHalf_parent .cl v, s.reg_setHalf_parent .ch v,
    s.reg_setHalf_parent .dl v, s.reg_setHalf_parent .dh v, s.reg_setHalf_parent .bl v, s.reg_setHalf_parent .bh v,
    s.halves_setReg_ax x, fun h => onlyChanges_setHalf s h v⟩

end Sys2Proof.Machine
end

/-! # Memory (20_memory): words as two bytes, physical addresses -/

section

namespace Sys2Proof.Machine

/-- The next byte address, masked to 20 bits, is the sum of 20-bit words (20_memory R85). -/
theorem Addr.ofNat_succ_mod (a : Addr) : BitVec.ofNat 20 ((a.toNat + 1) % 2 ^ 20) = a + 1#20 :=
  BitVec.eq_of_toNat_eq (by simp [BitVec.toNat_add])

theorem State.toNat_memRead16 (s : State) (a : Addr) :
    (s.memRead16 a).toNat = (s.memRead8 a).toNat + 256 * (s.memRead8 (a + 1#20)).toNat := by
  rw [State.memRead16, toNat_append_eq]
  omega

/-- After a word is written, its low byte is at the address (20_memory R85). -/
theorem State.toNat_memRead8_memWrite16_low (s : State) (a : Addr) (v : Word) :
    ((s.memWrite16 a v).memRead8 a).toNat = v.toNat % 256 := by
  rw [State.memRead8_memWrite16, if_neg (Addr.succ_ne a).symm, if_pos rfl, toNat_extract_low]

/-- After a word is written, its high byte is at the next address (20_memory R85). -/
theorem State.toNat_memRead8_memWrite16_high (s : State) (a : Addr) (v : Word) :
    ((s.memWrite16 a v).memRead8 (a + 1#20)).toNat = v.toNat / 256 := by
  rw [State.memRead8_memWrite16, if_pos rfl, toNat_extract_high]

/-- Settles O17: the next address masked to 20 bits is `a + 1#20`, so every clause is the rule for a byte or a word read, written
or framed there. -/
theorem memoryIsLittleEndianBytes : Obligations.MemoryIsLittleEndianBytes := by
  intro s a b v a1
  have ha1 : a1 = a + 1#20 := Addr.ofNat_succ_mod a
  rw [ha1]
  exact ⟨s.memRead8_memWrite8_same a b, onlyChanges_memWrite8 s a b, s.toNat_memRead16 a,
    s.toNat_memRead8_memWrite16_low a v, s.toNat_memRead8_memWrite16_high a v, onlyChanges_memWrite16 s a v⟩

/-- Settles O16, by the closed form of `phys`. -/
theorem physicalAddressesWrap : Obligations.PhysicalAddressesWrap := by
  intro seg off
  rw [phys_eq_ofNat, BitVec.toNat_ofNat]

end Sys2Proof.Machine
end

/-! # The FAT (48_fat12_translator R540-R544): one entry written, the scan for a free cluster -/

section

namespace Sys2Proof.Machine

/-- A byte of a FAT written makes its sector dirty and no other (48_fat12_translator R524). -/
theorem mem_dirty_setFatByte (f : FatState) {start o : Nat} (h : start + o / 512 < 2880) (b : Byte) (m : Nat) :
    m ∈ (f.setFatByte start o b).dirty ↔ m = start + o / 512 ∨ m ∈ f.dirty := by
  rw [FatState.setFatByte_eq, FatState.writeSector, mem_insertIndex, (quiet_readSector f h).dirty]

/-- An entry written makes dirty the sectors of its two bytes, in both FATs. -/
theorem mem_dirty_fatSet (f : FatState) {c : Nat} (hc : c < 3072) (v : BitVec 12) (m : Nat) :
    m ∈ (f.fatSet c v).dirty ↔ m ∈ f.dirty ∨
      m ∈ [1 + fatOffset c / 512, 1 + (fatOffset c + 1) / 512, 10 + fatOffset c / 512, 10 + (fatOffset c + 1) / 512] := by
  have ho := fatOffset_bound hc
  rw [FatState.fatSet_eq, mem_dirty_setFatByte _ (by omega), mem_dirty_setFatByte _ (by omega), mem_dirty_setFatByte _ (by omega),
    mem_dirty_setFatByte _ (by omega), (quiet_fatWord f hc).dirty]
  simp only [List.mem_cons, List.not_mem_nil, or_false]
  tauto

section
variable {f : FatState} (hw : f.wf = true) {c : Nat} (hc : c < 3072) (v : BitVec 12)
include hw hc

/-- After a write of an entry, what `FatGet` reads of any entry. -/
theorem fatGet_fatSet {d : Nat} (hd : d < 3072) : ((f.fatSet c v).fatGet d).1 = if d = c then v else (f.fatGet d).1 := by
  rw [FatState.fatGet_entry, FatState.fatGet_entry, entry_fatSet hw hc hd]

/-- The two bytes of the entry written are the same in both FATs. -/
theorem fatView_fatSet_alike {k : Nat} (hk : k = fatOffset c ∨ k = fatOffset c + 1) :
    (f.fatSet c v).fatView 10 k = (f.fatSet c v).fatView 1 k := by
  have hv := (fatSet_spec hw hc v).1
  have hb : k < 4608 := by
    have := fatOffset_bound hc
    omega
  rw [hv 1 (.inl rfl) k hb, hv 10 (.inr rfl) k hb]
  rcases hk with rfl | rfl
  · rw [if_pos rfl, if_pos rfl]
  · rw [if_neg (Nat.succ_ne_self _), if_pos rfl, if_neg (Nat.succ_ne_self _), if_pos rfl]

/-- The other bytes of both FATs are as before a write of an entry. -/
theorem fatView_fatSet_other {start k : Nat} (hs : start = 1 ∨ start = 10) (hk : k < 4608) (h0 : k ≠ fatOffset c)
    (h1 : k ≠ fatOffset c + 1) : (f.fatSet c v).fatView start k = f.fatView start k := by
  rw [(fatSet_spec hw hc v).1 start hs k hk, if_neg h0, if_neg h1]

end

/-- Settles O57: the entries by `fatGet_fatSet`, the bytes and the other sectors by what a write does to both FATs, the dirty set
by the four bytes written. -/
theorem fatEntryWrites : Obligations.FatEntryWrites := by
  intro f c v hw hc g o
  obtain ⟨-, hview, hstore, hwf, -⟩ := fatSet_spec hw hc v
  have hentry : (g.fatGet c).1 = v := by rw [fatGet_fatSet hw hc v hc, if_pos rfl]
  have hothers (d : Nat) (hd : d < 3072) (hne : d ≠ c) : (g.fatGet d).1 = (f.fatGet d).1 := by
    rw [fatGet_fatSet hw hc v hd, if_neg hne]
  simp only [FatState.fatByte_view]
  exact ⟨hentry, hothers, fatView_fatSet_alike hw hc v (.inl rfl), fatView_fatSet_alike hw hc v (.inr rfl),
    fun k hk h0 h1 => ⟨fatView_fatSet_other hw hc v (.inl rfl) hk h0 h1, fatView_fatSet_other hw hc v (.inr rfl) hk h0 h1⟩,
    hview, hstore, mem_dirty_fatSet f hc v, hwf, (keeps_fatSet f hc v).fats hw⟩

/-- Settles O58: `Allocate` is the scan of the 2847 clusters from 2, which only reads. -/
theorem allocateFindsTheLowestFreeCluster : Obligations.AllocateFindsTheLowestFreeCluster := by
  intro f
  obtain ⟨quiet, hsome, hnone⟩ := allocateFrom_spec 2847 2 f (by decide)
  simp only [FatState.fatGet_entry]
  exact ⟨hsome, hnone, quiet.view, quiet.dirty, quiet.store⟩

end Sys2Proof.Machine
end

/-! # Encoding (30_encoding): the decoder after the encoder -/

section

namespace Sys2Proof

/-! ## One opcode and its operands, by the shape of what follows the opcode byte -/

section
variable {x : Ext186} {op : Byte} (rest : List Byte)

/-- An opcode followed by a ModR/M operand (30_encoding R130). -/
theorem decode_modrm (mk : RegNum → Rm → Instr) (r : RegNum) {e : Rm} (he : e.wf = true)
    (hd : ∀ bs, decodeOpcode x op bs = modrm bs fun reg e r => .ok (mk reg e, r)) :
    decode x (op :: encodeRm r e ++ rest) = .ok (mk r e, rest) :=
  (hd _).trans (modrm_encodeRm r e he rest _)

/-- An opcode followed by a ModR/M operand and a byte (30_encoding R138). -/
theorem decode_modrm_imm8 (mk : RegNum → Rm → Byte → Instr) (r : RegNum) {e : Rm} (he : e.wf = true) (v : Byte)
    (hd : ∀ bs, decodeOpcode x op bs = modrm bs fun reg e r => imm8 r fun v r => .ok (mk reg e v, r)) :
    decode x (op :: (encodeRm r e ++ [v]) ++ rest) = .ok (mk r e v, rest) := by
  rw [List.cons_append, List.append_assoc]
  exact (hd _).trans (modrm_encodeRm r e he ([v] ++ rest) _)

/-- An opcode followed by a ModR/M operand and a word (30_encoding R138). -/
theorem decode_modrm_imm16 (mk : RegNum → Rm → Word → Instr) (r : RegNum) {e : Rm} (he : e.wf = true) (v : Word)
    (hd : ∀ bs, decodeOpcode x op bs = modrm bs fun reg e r => imm16 r fun v r => .ok (mk reg e v, r)) :
    decode x (op :: (encodeRm r e ++ bytes16 v) ++ rest) = .ok (mk r e v, rest) := by
  rw [List.cons_append, List.append_assoc]
  exact (hd _).trans ((modrm_encodeRm r e he (bytes16 v ++ rest) _).trans (imm16_bytes16 v rest _))

/-- An opcode followed by a word (30_encoding R140). -/
theorem decode_imm16 (mk : Word → Instr) (v : Word)
    (hd : ∀ bs, decodeOpcode x op bs = imm16 bs fun v r => .ok (mk v, r)) :
    decode x (op :: bytes16 v ++ rest) = .ok (mk v, rest) :=
  (hd _).trans (imm16_bytes16 v rest _)

/-- An opcode followed by a far pointer, its offset first (30_encoding R140). -/
theorem decode_far (mk : Word → Word → Instr) (off seg : Word)
    (hd : ∀ bs, decodeOpcode x op bs = imm16 bs fun off r => imm16 r fun seg r => .ok (mk off seg, r)) :
    decode x (op :: (bytes16 off ++ bytes16 seg) ++ rest) = .ok (mk off seg, rest) := by
  rw [List.cons_append, List.append_assoc]
  exact (hd _).trans ((imm16_bytes16 off (bytes16 seg ++ rest) _).trans (imm16_bytes16 seg rest _))

/-- An opcode followed by a memory operand (30_encoding R150, letter M). -/
theorem decode_modrmMem (mk : RegNum → MemOp → Instr) (r : RegNum) {m : MemOp} (hm : m.wf = true)
    (hd : ∀ bs, decodeOpcode x op bs = modrmMem op bs fun reg a r => .ok (mk reg a, r)) :
    decode x (op :: encodeMem r m ++ rest) = .ok (mk r m, rest) :=
  (hd _).trans (modrmMem_encodeMem op r m hm rest _)

/-- An opcode followed by a ModR/M operand and a segment register (30_encoding R139). -/
theorem decode_modrmSeg (mk : SReg → Rm → Instr) (sr : SReg) {e : Rm} (he : e.wf = true)
    (hd : ∀ bs, decodeOpcode x op bs = modrmSeg op bs fun sr e r => .ok (mk sr e, r)) :
    decode x (op :: encodeRm sr.num e ++ rest) = .ok (mk sr e, rest) :=
  (hd _).trans (modrmSeg_encodeRm op sr e he rest _)

/-- A group opcode and one of its sub-opcodes (30_encoding R152). -/
theorem decode_group {g : Group} (mk : Rm → Instr) (n : RegNum) {e : Rm} (he : e.wf = true)
    (hd : ∀ bs, decodeOpcode x op bs = group op bs g)
    (hg : ∀ m, regField m = n → g m = some fun r => operand m r fun e r => .ok (mk e, r)) :
    decode x (op :: encodeRm n e ++ rest) = .ok (mk e, rest) :=
  (hd _).trans (group_encodeRm op n e he rest g _ hg)

/-- A group opcode, one of its sub-opcodes, and a byte. -/
theorem decode_group_imm8 {g : Group} (mk : Rm → Byte → Instr) (n : RegNum) {e : Rm} (he : e.wf = true) (v : Byte)
    (hd : ∀ bs, decodeOpcode x op bs = group op bs g)
    (hg : ∀ m, regField m = n → g m = some fun r => operand m r fun e r => imm8 r fun v r => .ok (mk e v, r)) :
    decode x (op :: (encodeRm n e ++ [v]) ++ rest) = .ok (mk e v, rest) := by
  rw [List.cons_append, List.append_assoc]
  exact (hd _).trans (group_encodeRm op n e he ([v] ++ rest) g _ hg)

/-- A group opcode, one of its sub-opcodes, and a word. -/
theorem decode_group_imm16 {g : Group} (mk : Rm → Word → Instr) (n : RegNum) {e : Rm} (he : e.wf = true) (v : Word)
    (hd : ∀ bs, decodeOpcode x op bs = group op bs g)
    (hg : ∀ m, regField m = n → g m = some fun r => operand m r fun e r => imm16 r fun v r => .ok (mk e v, r)) :
    decode x (op :: (encodeRm n e ++ bytes16 v) ++ rest) = .ok (mk e v, rest) := by
  rw [List.cons_append, List.append_assoc]
  exact (hd _).trans ((group_encodeRm op n e he (bytes16 v ++ rest) g _ hg).trans (imm16_bytes16 v rest _))

/-- A group opcode and one of its memory-only sub-opcodes (`FF /3`, `FF /5`). -/
theorem decode_group_mem {g : Group} (mk : MemOp → Instr) (n : RegNum) {m : MemOp} (hm : m.wf = true)
    (hd : ∀ bs, decodeOpcode x op bs = group op bs g)
    (hg : ∀ b, regField b = n → isRegisterForm b = false → g b = some fun r => memOperand b r fun a r => .ok (mk a, r)) :
    decode x (op :: encodeMem n m ++ rest) = .ok (mk m, rest) :=
  (hd _).trans (group_encodeMem op n m hm rest g _ hg)

end

/-! ## The operand forms -/

section
variable {x : Ext186} (rest : List Byte)

/-- The base opcode of group 1 number `n`: eight opcodes for each (41_arithmetic, table at its head). -/
def aluBase (n : RegNum) : Byte := n.bits.setWidth 8 <<< 3

theorem decode_encodeAlu (n : RegNum) (f : AluForm) (hf : f.wf = true) :
    decode x (encodeAlu (aluBase n) n f ++ rest) = .ok (aluOf n f, rest) := by
  cases f with
  | rmReg w e r => cases n <;> cases w <;> exact decode_modrm rest (fun r e => aluOf _ (.rmReg _ e r)) r hf fun _ => rfl
  | regRm w r e => cases n <;> cases w <;> exact decode_modrm rest (fun r e => aluOf _ (.regRm _ r e)) r hf fun _ => rfl
  | alImm v => cases n <;> rfl
  | axImm v => cases n <;> exact decode_imm16 rest (fun v => aluOf _ (.axImm v)) v fun _ => rfl
  | rm8Imm alt e v => cases alt <;> exact decode_modrm_imm8 rest (fun n e v => aluOf n (.rm8Imm _ e v)) n hf v fun _ => rfl
  | rm16Imm e v => exact decode_modrm_imm16 rest (fun n e v => aluOf n (.rm16Imm e v)) n hf v fun _ => rfl
  | rm16Simm e v => exact decode_modrm_imm8 rest (fun n e v => aluOf n (.rm16Simm e v)) n hf v fun _ => rfl

theorem decode_encodeTest (f : TestForm) (hf : f.wf = true) : decode x (encodeTest f ++ rest) = .ok (.test f, rest) := by
  cases f with
  | rmReg w e r => cases w <;> exact decode_modrm rest (fun r e => .test (.rmReg _ e r)) r hf fun _ => rfl
  | alImm v => rfl
  | axImm v => exact decode_imm16 rest (fun v => .test (.axImm v)) v fun _ => rfl
  | rm8Imm e v =>
    exact decode_group_imm8 (g := decodeF6) rest (fun e v => .test (.rm8Imm e v)) .n0 hf v (fun _ => rfl)
      fun m hm => by simp only [decodeF6, hm]
  | rm16Imm e v =>
    exact decode_group_imm16 (g := decodeF7) rest (fun e v => .test (.rm16Imm e v)) .n0 hf v (fun _ => rfl)
      fun m hm => by simp only [decodeF7, hm]

theorem x186_of_ne_absent {op : Byte} {bs : List Byte} {k : DecodeResult} (hx : (x != .absent) = true) : x186 x op bs k = k := by
  cases x with
  | refuse | present => rfl
  | absent => exact absurd hx (by decide)

theorem decode_encodeShift (n : RegNum) (f : ShiftForm) (hf : f.wf x = true) :
    decode x (encodeShift n f ++ rest) = .ok (shiftOf n f, rest) := by
  cases f with
  | one w e => cases w <;> exact decode_modrm rest (fun n e => shiftOf n (.one _ e)) n hf fun _ => rfl
  | cl w e => cases w <;> exact decode_modrm rest (fun n e => shiftOf n (.cl _ e)) n hf fun _ => rfl
  | imm w e v =>
    obtain ⟨hx, he⟩ : (x != .absent) = true ∧ e.wf = true := (Bool.and_eq_true _ _).mp hf
    cases w <;> exact decode_modrm_imm8 rest (fun n e v => shiftOf n (.imm _ e v)) n he v fun _ => x186_of_ne_absent hx

theorem decode_encodeCond (cc : Byte) (mk : CondDisp → Instr) (d : CondDisp)
    (h8 : ∀ bs, decodeOpcode x (0x70#8 + cc) bs = imm8 bs fun d r => .ok (mk (.rel8 d), r))
    (h16 : ∀ bs, decodeSecond x (0x80#8 + cc) bs = imm16 bs fun d r => .ok (mk (.rel16 d), r)) :
    decode x (encodeCond cc d ++ rest) = .ok (mk d, rest) := by
  cases d with
  | rel8 d => exact h8 _
  | rel16 d => exact (h16 _).trans (imm16_bytes16 d rest _)

/-- Group 3, its byte and its word opcode. -/
theorem decode_group3 (mk : Width → Rm → Instr) (w : Width) (n : RegNum) {e : Rm} (he : e.wf = true)
    (h8 : ∀ m, regField m = n → decodeF6 m = some fun r => operand m r fun e r => .ok (mk .byte e, r))
    (h16 : ∀ m, regField m = n → decodeF7 m = some fun r => operand m r fun e r => .ok (mk .word e, r)) :
    decode x (opcodeW 0xF6#8 w :: encodeRm n e ++ rest) = .ok (mk w e, rest) := by
  cases w with
  | byte => exact decode_group rest (mk .byte) n he (fun _ => rfl) h8
  | word => exact decode_group rest (mk .word) n he (fun _ => rfl) h16

/-- Groups 4 and 5, the byte and the word form of INC and DEC. -/
theorem decode_group45 (mk : Width → Rm → Instr) (w : Width) (n : RegNum) {e : Rm} (he : e.wf = true)
    (h8 : ∀ m, regField m = n → decodeFE m = some fun r => operand m r fun e r => .ok (mk .byte e, r))
    (h16 : ∀ m, regField m = n → decodeFF m = some fun r => operand m r fun e r => .ok (mk .word e, r)) :
    decode x (opcodeW 0xFE#8 w :: encodeRm n e ++ rest) = .ok (mk w e, rest) := by
  cases w with
  | byte => exact decode_group rest (mk .byte) n he (fun _ => rfl) h8
  | word => exact decode_group rest (mk .word) n he (fun _ => rfl) h16

end

/-! ## Encodings without an instruction -/

theorem byte_of_toNat {op : Byte} {n : Nat} (h : op.toNat = n) : op = BitVec.ofNat 8 n := by
  rw [← h, BitVec.ofNat_toNat, BitVec.setWidth_eq]

section
variable {x : Ext186} {op m : Byte}

/-- An unknown primary opcode is read as itself (30_encoding R155, R156, R160). -/
theorem decodeOpcode_unknown (h : unknownPrimary x op = true) (bs : List Byte) :
    decodeOpcode x op bs = .ok (.unknown op, bs) := by
  simp only [unknownPrimary, x186Primary, Bool.or_eq_true, Bool.and_eq_true, decide_eq_true_eq, beq_iff_eq, List.mem_cons,
    List.not_mem_nil, or_false] at h
  rcases h with (rfl | rfl | rfl | rfl | rfl) | ⟨rfl, rfl | rfl | rfl | rfl | rfl | rfl | rfl | rfl | rfl⟩ <;> rfl

/-- An unlisted second byte is read as itself: a listed one is not unknown, but for class x186 where EXT186 is `absent`
(30_encoding R157, R160). -/
theorem decodeSecond_unknown (h : unknownSecond x op = true) (bs : List Byte) :
    decodeSecond x op bs = .ok (.unknown0F op, bs) := by
  unfold decodeSecond
  split
  case h_17 hop | h_18 hop | h_19 hop | h_20 hop =>
    obtain rfl := byte_of_toNat hop
    cases x with
    | absent => rfl
    | refuse | present => exact absurd h Bool.false_ne_true
  case h_25 => rfl
  all_goals
    rename_i hop
    obtain rfl := byte_of_toNat hop
    exact absurd h Bool.false_ne_true

/-! ### The reserved encodings, opcode by opcode (30_encoding R139, R152, R159) -/

theorem isRegisterForm_eq_reserved (m : Byte) : isRegisterForm m = reservedEncoding 0x8D#8 m := rfl
theorem sregNum_isNone : ∀ m : Byte, (SReg.ofNum (regField m)).isNone = reservedEncoding 0x8C#8 m := by decide
theorem decode8F_isNone : ∀ m : Byte, (decode8F m).isNone = reservedEncoding 0x8F#8 m := by decide
theorem decodeC6_isNone : ∀ m : Byte, (decodeC6 m).isNone = reservedEncoding 0xC6#8 m := by decide
theorem decodeC7_isNone : ∀ m : Byte, (decodeC7 m).isNone = reservedEncoding 0xC7#8 m := by decide
theorem decodeF6_isNone : ∀ m : Byte, (decodeF6 m).isNone = reservedEncoding 0xF6#8 m := by decide
theorem decodeF7_isNone : ∀ m : Byte, (decodeF7 m).isNone = reservedEncoding 0xF7#8 m := by decide
theorem decodeFE_isNone : ∀ m : Byte, (decodeFE m).isNone = reservedEncoding 0xFE#8 m := by decide
theorem decodeFF_isNone : ∀ m : Byte, (decodeFF m).isNone = reservedEncoding 0xFF#8 m := by decide

theorem group_reserved {g : Group} (hg : ∀ m, (g m).isNone = reservedEncoding op m) (h : reservedEncoding op m = true)
    (bs : List Byte) : group op (m :: bs) g = .ok (.reserved op m, bs) := by
  rw [group, imm8_cons, Option.isNone_iff_eq_none.mp ((hg m).trans h)]

theorem modrmMem_reserved (h : isRegisterForm m = true) (bs : List Byte) (k : RegNum → MemOp → List Byte → DecodeResult) :
    modrmMem op (m :: bs) k = .ok (.reserved op m, bs) := if_pos h

theorem modrmSeg_reserved (h : (SReg.ofNum (regField m)).isNone = true) (bs : List Byte)
    (k : SReg → Rm → List Byte → DecodeResult) : modrmSeg op (m :: bs) k = .ok (.reserved op m, bs) := by
  rw [modrmSeg, imm8_cons, Option.isNone_iff_eq_none.mp h]

/-- The opcodes with reserved encodings. -/
theorem opcode_of_reserved (h : reservedEncoding op m = true) :
    op ∈ [0x8F#8, 0xC6#8, 0xC7#8, 0xF6#8, 0xF7#8, 0xFE#8, 0xFF#8, 0x8D#8, 0xC4#8, 0xC5#8, 0x62#8, 0x8C#8, 0x8E#8] := by
  unfold reservedEncoding at h
  dsimp only at h
  split at h
  case h_14 => cases h
  all_goals
    rename_i hop
    obtain rfl := byte_of_toNat hop
    decide

/-- A reserved encoding is read as itself. -/
theorem decodeOpcode_reserved (h : reservedEncoding op m = true) (bs : List Byte) :
    decodeOpcode x op (m :: bs) = .ok (.reserved op m, bs) := by
  have hop := opcode_of_reserved h
  simp only [List.mem_cons, List.not_mem_nil, or_false] at hop
  rcases hop with rfl | rfl | rfl | rfl | rfl | rfl | rfl | rfl | rfl | rfl | rfl | rfl | rfl
  · exact group_reserved decode8F_isNone h bs
  · exact group_reserved decodeC6_isNone h bs
  · exact group_reserved decodeC7_isNone h bs
  · exact group_reserved decodeF6_isNone h bs
  · exact group_reserved decodeF7_isNone h bs
  · exact group_reserved decodeFE_isNone h bs
  · exact group_reserved decodeFF_isNone h bs
  · exact modrmMem_reserved h bs fun reg a r => .ok (.lea reg a, r)
  · exact modrmMem_reserved h bs fun reg a r => .ok (.les reg a, r)
  · exact modrmMem_reserved h bs fun reg a r => .ok (.lds reg a, r)
  · exact modrmMem_reserved h bs fun reg a r => .ok (.bound reg a, r)
  · exact modrmSeg_reserved ((sregNum_isNone m).trans h) bs _
  · exact modrmSeg_reserved ((sregNum_isNone m).trans h) bs _

end

/-! ## Every instruction -/

/-- Settles O1: the case split over the instructions; each is read back by the rule for its shape. -/
theorem decodeOfEncodeIsTheInstruction : Obligations.DecodeOfEncodeIsTheInstruction := by
  intro x i rest h
  cases i with
  | add f => exact decode_encodeAlu rest .n0 f h
  | or f => exact decode_encodeAlu rest .n1 f h
  | adc f => exact decode_encodeAlu rest .n2 f h
  | sbb f => exact decode_encodeAlu rest .n3 f h
  | and f => exact decode_encodeAlu rest .n4 f h
  | sub f => exact decode_encodeAlu rest .n5 f h
  | xor f => exact decode_encodeAlu rest .n6 f h
  | cmp f => exact decode_encodeAlu rest .n7 f h
  | incReg r | decReg r | pushReg r | popReg r => cases r <;> rfl
  | xchgAx r =>
    cases r with
    | n0 => exact absurd h Bool.false_ne_true
    | _ => rfl
  | movRegImm8 r v => cases r <;> rfl
  | movRegImm16 r v => cases r <;> exact decode_imm16 rest (fun v => .movRegImm16 _ v) v fun _ => rfl
  | incRm w e =>
    exact decode_group45 rest .incRm w .n0 h (fun m hm => by simp only [decodeFE, hm]) fun m hm => by simp only [decodeFF, hm]
  | decRm w e =>
    exact decode_group45 rest .decRm w .n1 h (fun m hm => by simp only [decodeFE, hm]) fun m hm => by simp only [decodeFF, hm]
  | not w e =>
    exact decode_group3 rest .not w .n2 h (fun m hm => by simp only [decodeF6, hm]) fun m hm => by simp only [decodeF7, hm]
  | neg w e =>
    exact decode_group3 rest .neg w .n3 h (fun m hm => by simp only [decodeF6, hm]) fun m hm => by simp only [decodeF7, hm]
  | mul w e =>
    exact decode_group3 rest .mul w .n4 h (fun m hm => by simp only [decodeF6, hm]) fun m hm => by simp only [decodeF7, hm]
  | imul w e =>
    exact decode_group3 rest .imul w .n5 h (fun m hm => by simp only [decodeF6, hm]) fun m hm => by simp only [decodeF7, hm]
  | div w e =>
    exact decode_group3 rest .div w .n6 h (fun m hm => by simp only [decodeF6, hm]) fun m hm => by simp only [decodeF7, hm]
  | idiv w e =>
    exact decode_group3 rest .idiv w .n7 h (fun m hm => by simp only [decodeF6, hm]) fun m hm => by simp only [decodeF7, hm]
  | imulImm16 r e v =>
    obtain ⟨hx, he⟩ : (x != .absent) = true ∧ e.wf = true := (Bool.and_eq_true _ _).mp h
    exact decode_modrm_imm16 rest .imulImm16 r he v fun _ => x186_of_ne_absent hx
  | imulSimm8 r e v =>
    obtain ⟨hx, he⟩ : (x != .absent) = true ∧ e.wf = true := (Bool.and_eq_true _ _).mp h
    exact decode_modrm_imm8 rest .imulSimm8 r he v fun _ => x186_of_ne_absent hx
  | test f => exact decode_encodeTest rest f h
  | rol f => exact decode_encodeShift rest .n0 f h
  | ror f => exact decode_encodeShift rest .n1 f h
  | rcl f => exact decode_encodeShift rest .n2 f h
  | rcr f => exact decode_encodeShift rest .n3 f h
  | shl f => exact decode_encodeShift rest .n4 f h
  | shr f => exact decode_encodeShift rest .n5 f h
  | sal f => exact decode_encodeShift rest .n6 f h
  | sar f => exact decode_encodeShift rest .n7 f h
  | movRmReg w e r => cases w <;> exact decode_modrm rest (fun r e => .movRmReg _ e r) r h fun _ => rfl
  | movRegRm w r e => cases w <;> exact decode_modrm rest (.movRegRm _) r h fun _ => rfl
  | movRmImm8 e v =>
    exact decode_group_imm8 (g := decodeC6) rest .movRmImm8 .n0 h v (fun _ => rfl) fun m hm => by simp only [decodeC6, hm]
  | movRmImm16 e v =>
    exact decode_group_imm16 (g := decodeC7) rest .movRmImm16 .n0 h v (fun _ => rfl) fun m hm => by simp only [decodeC7, hm]
  | movAccMoffs w off => cases w <;> exact decode_imm16 rest (.movAccMoffs _) off fun _ => rfl
  | movMoffsAcc w off => cases w <;> exact decode_imm16 rest (.movMoffsAcc _) off fun _ => rfl
  | movRmSeg e sr => exact decode_modrmSeg rest (fun sr e => .movRmSeg e sr) sr h fun _ => rfl
  | movSegRm sr e => exact decode_modrmSeg rest .movSegRm sr h fun _ => rfl
  | pushRm e => exact decode_group (g := decodeFF) rest .pushRm .n6 h (fun _ => rfl) fun m hm => by simp only [decodeFF, hm]
  | popRm e => exact decode_group (g := decode8F) rest .popRm .n0 h (fun _ => rfl) fun m hm => by simp only [decode8F, hm]
  | pushSeg sr =>
    cases sr with
    | fs | gs => exact absurd h Bool.false_ne_true
    | _ => rfl
  | popSeg sr =>
    cases sr with
    | cs | fs | gs => exact absurd h Bool.false_ne_true
    | _ => rfl
  | pushImm16 v => exact decode_imm16 rest .pushImm16 v fun _ => rfl
  | pushSimm8 v => exact x186_of_ne_absent h
  | pushFs | pushGs | popFs | popGs | insb | insw | outsb | outsw =>
    cases x with
    | absent => exact absurd h Bool.false_ne_true
    | _ => rfl
  | xchgRm w e r => cases w <;> exact decode_modrm rest (fun r e => .xchgRm _ e r) r h fun _ => rfl
  | lea r m => exact decode_modrmMem rest .lea r h fun _ => rfl
  | lds r m => exact decode_modrmMem rest .lds r h fun _ => rfl
  | les r m => exact decode_modrmMem rest .les r h fun _ => rfl
  | bound r m => exact decode_modrmMem rest .bound r h fun _ => rfl
  | jmpNear d => exact decode_imm16 rest .jmpNear d fun _ => rfl
  | callNear d => exact decode_imm16 rest .callNear d fun _ => rfl
  | retImm n => exact decode_imm16 rest .retImm n fun _ => rfl
  | retfImm n => exact decode_imm16 rest .retfImm n fun _ => rfl
  | jmpFar off seg => exact decode_far rest .jmpFar off seg fun _ => rfl
  | callFar off seg => exact decode_far rest .callFar off seg fun _ => rfl
  | jmpRm e => exact decode_group (g := decodeFF) rest .jmpRm .n4 h (fun _ => rfl) fun m hm => by simp only [decodeFF, hm]
  | callRm e => exact decode_group (g := decodeFF) rest .callRm .n2 h (fun _ => rfl) fun m hm => by simp only [decodeFF, hm]
  | jmpFarMem m =>
    exact decode_group_mem (g := decodeFF) rest .jmpFarMem .n5 h (fun _ => rfl) fun b hb hr => by simp [decodeFF, hb, hr]
  | callFarMem m =>
    exact decode_group_mem (g := decodeFF) rest .callFarMem .n3 h (fun _ => rfl) fun b hb hr => by simp [decodeFF, hb, hr]
  | jo d => exact decode_encodeCond rest 0#8 .jo d (fun _ => rfl) fun _ => rfl
  | jno d => exact decode_encodeCond rest 1#8 .jno d (fun _ => rfl) fun _ => rfl
  | jb d => exact decode_encodeCond rest 2#8 .jb d (fun _ => rfl) fun _ => rfl
  | jae d => exact decode_encodeCond rest 3#8 .jae d (fun _ => rfl) fun _ => rfl
  | je d => exact decode_encodeCond rest 4#8 .je d (fun _ => rfl) fun _ => rfl
  | jne d => exact decode_encodeCond rest 5#8 .jne d (fun _ => rfl) fun _ => rfl
  | jbe d => exact decode_encodeCond rest 6#8 .jbe d (fun _ => rfl) fun _ => rfl
  | ja d => exact decode_encodeCond rest 7#8 .ja d (fun _ => rfl) fun _ => rfl
  | js d => exact decode_encodeCond rest 8#8 .js d (fun _ => rfl) fun _ => rfl
  | jns d => exact decode_encodeCond rest 9#8 .jns d (fun _ => rfl) fun _ => rfl
  | jp d => exact decode_encodeCond rest 10#8 .jp d (fun _ => rfl) fun _ => rfl
  | jnp d => exact decode_encodeCond rest 11#8 .jnp d (fun _ => rfl) fun _ => rfl
  | jl d => exact decode_encodeCond rest 12#8 .jl d (fun _ => rfl) fun _ => rfl
  | jge d => exact decode_encodeCond rest 13#8 .jge d (fun _ => rfl) fun _ => rfl
  | jle d => exact decode_encodeCond rest 14#8 .jle d (fun _ => rfl) fun _ => rfl
  | jg d => exact decode_encodeCond rest 15#8 .jg d (fun _ => rfl) fun _ => rfl
  | inImm w p | outImm w p => cases w <;> rfl
  | inDx w | outDx w => cases w <;> rfl
  | esc op reg e => cases op <;> exact decode_modrm rest (.esc _) reg h fun _ => rfl
  | enter size level => exact imm16_bytes16 size (level :: rest) fun size r => imm8 r fun level r => .ok (.enter size level, r)
  | movzx w r e => cases w <;> exact modrm_encodeRm r e h rest fun reg e r => .ok (.movzx _ reg e, r)
  | movsx w r e => cases w <;> exact modrm_encodeRm r e h rest fun reg e r => .ok (.movsx _ reg e, r)
  | unknown op => exact decodeOpcode_unknown h rest
  | unknown0F op => exact decodeSecond_unknown h rest
  | reserved op m => exact decodeOpcode_reserved h rest
  | _ => rfl

end Sys2Proof
end

/-! # Encoding (30_encoding): every six bytes begin with an encoding -/

section

namespace Sys2Proof

/-! ## Fields and readers, from bytes -/

/-- A ModR/M byte is the byte of its three fields (30_encoding R130). -/
theorem modrmByte_fields : ∀ m : Byte, modrmByte (m.extractLsb' 6 2) (regField m) (rmField m) = m := by decide

theorem Base.num_ofNum (r : RegNum) : (Base.ofNum r).num = r := by cases r <;> rfl

theorem SReg.num_ofNum {n : RegNum} {sr : SReg} (h : SReg.ofNum n = some sr) : sr.num = n := by
  cases n <;> cases h <;> rfl

theorem bytes16_append (hi lo : Byte) : bytes16 (hi ++ lo) = [lo, hi] := by
  rw [bytes16, Machine.append_low, Machine.append_high]

theorem imm8_sound {bs : List Byte} (h : 1 ≤ bs.length) :
    ∃ v r, bs = v :: r ∧ ∀ k, imm8 bs k = k v r := by
  cases bs with
  | nil => exact absurd h (by decide)
  | cons v r => exact ⟨v, r, rfl, fun _ => rfl⟩

theorem imm16_sound {bs : List Byte} (h : 2 ≤ bs.length) :
    ∃ v r, bs = bytes16 v ++ r ∧ ∀ k, imm16 bs k = k v r := by
  match bs, h with
  | lo :: hi :: r, _ => exact ⟨hi ++ lo, r, by rw [bytes16_append]; rfl, fun _ => rfl⟩

/-- The two bits of `mod`, by number. -/
theorem modBits_of_modField {m : Byte} {n : Nat} (h : modField m = n) : m.extractLsb' 6 2 = BitVec.ofNat 2 n := by
  rw [← h, modField, BitVec.ofNat_toNat, BitVec.setWidth_eq]

/-- A memory operand read is a well-formed one whose encoding stood there (30_encoding R132, R133). -/
theorem memOperand_sound {m : Byte} {bs : List Byte} (hm : isRegisterForm m = false) (h : 2 ≤ bs.length) :
    ∃ a r, a.wf = true ∧ m :: bs = encodeMem (regField m) a ++ r ∧ bs.length ≤ r.length + 2 ∧
      ∀ k, memOperand m bs k = k a r := by
  obtain ⟨d, r16, hbs, hk⟩ := imm16_sound h
  obtain ⟨v, r8, hbs8, hk8⟩ := imm8_sound (Nat.le_of_succ_le h)
  have hmod : modField m < 4 := (m.extractLsb' 6 2).isLt
  have hne : modField m ≠ 3 := by simpa [isRegisterForm] using hm
  have hm := modrmByte_fields m
  have hlen : bs.length = r16.length + 2 := by simp [hbs, length_bytes16]; omega
  have hlen8 : bs.length = r8.length + 1 := by simp [hbs8]
  unfold memOperand
  obtain h0 | h1 | h2 : modField m = 0 ∨ modField m = 1 ∨ modField m = 2 := by omega
  · rw [modBits_of_modField h0] at hm
    simp only [h0]
    split
    case h_1 hr => exact ⟨.direct d, r16, rfl, by rw [encodeMem, ← hr]; simp [hm, ← hbs], by omega, fun _ => hk _⟩
    case h_2 b hr =>
      refine ⟨.based (Base.ofNum (rmField m)) .none, bs, ?_, ?_, by omega, fun _ => rfl⟩
      · revert hr
        cases rmField m with
        | n6 => exact fun hr => absurd rfl hr
        | _ => exact fun _ => rfl
      · rw [encodeMem, Base.num_ofNum, hm]
        rfl
  · rw [modBits_of_modField h1] at hm
    simp only [h1]
    exact ⟨.based (Base.ofNum (rmField m)) (.d8 v), r8, by cases rmField m <;> rfl,
      by rw [encodeMem, Base.num_ofNum, hm, hbs8]; rfl, by omega, fun _ => hk8 _⟩
  · rw [modBits_of_modField h2] at hm
    simp only [h2]
    exact ⟨.based (Base.ofNum (rmField m)) (.d16 d), r16, by cases rmField m <;> rfl,
      by rw [encodeMem, Base.num_ofNum, hm, hbs]; rfl, by omega, fun _ => hk _⟩

/-- An operand read is a well-formed one whose encoding stood there (30_encoding R130, R131). -/
theorem operand_sound (m : Byte) {bs : List Byte} (h : 2 ≤ bs.length) :
    ∃ e r, e.wf = true ∧ m :: bs = encodeRm (regField m) e ++ r ∧ bs.length ≤ r.length + 2 ∧
      ∀ k, operand m bs k = k e r := by
  unfold operand
  by_cases hm : isRegisterForm m = true
  · have hf := modrmByte_fields m
    rw [modBits_of_modField (beq_iff_eq.mp hm)] at hf
    exact ⟨.reg (rmField m), bs, rfl, by rw [encodeRm, hf]; rfl, by omega, fun k => if_pos hm⟩
  · obtain ⟨a, r, hw, hbs, hlen, hk⟩ := memOperand_sound (Bool.not_eq_true _ ▸ hm) h
    exact ⟨.mem a, r, hw, hbs, hlen, fun k => by rw [if_neg hm, hk]⟩

/-! ## What an opcode reads, by the shape of what follows it -/

/-- A reading of `bs` after the opcode bytes `pre` is a well-formed instruction whose encoding begins `pre ++ bs`. -/
def Sound (x : Ext186) (pre bs : List Byte) (res : DecodeResult) : Prop :=
  ∃ i rest, res = .ok (i, rest) ∧ i.wf x = true ∧ encode i ++ rest = pre ++ bs

section
variable {x : Ext186} {pre bs : List Byte} (hl : 4 ≤ bs.length)

theorem sound_plain {i : Instr} (henc : encode i = pre) (hwf : i.wf x = true) : Sound x pre bs (.ok (i, bs)) :=
  ⟨i, bs, rfl, hwf, by rw [henc]⟩

include hl

theorem sound_imm8 {mk : Byte → Instr} (henc : ∀ v, encode (mk v) = pre ++ [v]) (hwf : ∀ v, (mk v).wf x = true) :
    Sound x pre bs (imm8 bs fun v r => .ok (mk v, r)) := by
  obtain ⟨v, r, hbs, hk⟩ := imm8_sound (bs := bs) (by omega)
  exact ⟨mk v, r, hk _, hwf v, by rw [henc, hbs, List.append_assoc]; rfl⟩

theorem sound_imm16 {mk : Word → Instr} (henc : ∀ v, encode (mk v) = pre ++ bytes16 v) (hwf : ∀ v, (mk v).wf x = true) :
    Sound x pre bs (imm16 bs fun v r => .ok (mk v, r)) := by
  obtain ⟨v, r, hbs, hk⟩ := imm16_sound (bs := bs) (by omega)
  exact ⟨mk v, r, hk _, hwf v, by rw [henc, hbs, List.append_assoc]⟩

theorem sound_far {mk : Word → Word → Instr} (henc : ∀ v u, encode (mk v u) = pre ++ (bytes16 v ++ bytes16 u))
    (hwf : ∀ v u, (mk v u).wf x = true) :
    Sound x pre bs (imm16 bs fun v r => imm16 r fun u r => .ok (mk v u, r)) := by
  obtain ⟨v, r, rfl, hk⟩ := imm16_sound (bs := bs) (by omega)
  obtain ⟨u, r', rfl, hk'⟩ := imm16_sound (bs := r) (by simp [length_bytes16] at hl; omega)
  exact ⟨mk v u, r', (hk _).trans (hk' _), hwf v u, by simp [henc]⟩

theorem sound_enter : Sound x [0xC8#8] bs (imm16 bs fun v r => imm8 r fun u r => .ok (.enter v u, r)) := by
  obtain ⟨v, r, rfl, hk⟩ := imm16_sound (bs := bs) (by omega)
  obtain ⟨u, r', rfl, hk'⟩ := imm8_sound (bs := r) (by simp [length_bytes16] at hl; omega)
  exact ⟨.enter v u, r', (hk _).trans (hk' _), rfl, by simp [encode]⟩

/-- A ModR/M operand, with enough bytes left for an immediate. -/
theorem modrm_sound : ∃ reg e r, e.wf = true ∧ bs = encodeRm reg e ++ r ∧ bs.length ≤ r.length + 3 ∧
    ∀ k, modrm bs k = k reg e r := by
  obtain ⟨m, r, rfl, -⟩ := imm8_sound (bs := bs) (by omega)
  obtain ⟨e, r', he, hbs, hlen, hk⟩ := operand_sound m (bs := r) (by simp at hl; omega)
  exact ⟨regField m, e, r', he, hbs, by simp; omega, fun k => hk _⟩

theorem sound_modrm {mk : RegNum → Rm → Instr} (henc : ∀ reg e, encode (mk reg e) = pre ++ encodeRm reg e)
    (hwf : ∀ reg e, e.wf = true → (mk reg e).wf x = true) :
    Sound x pre bs (modrm bs fun reg e r => .ok (mk reg e, r)) := by
  obtain ⟨reg, e, r, he, hbs, -, hk⟩ := modrm_sound hl
  exact ⟨mk reg e, r, hk _, hwf reg e he, by rw [henc, hbs, List.append_assoc]⟩

end

section
variable {x : Ext186} {pre bs : List Byte} (hl : 5 ≤ bs.length)
include hl

theorem sound_modrm_imm8 {mk : RegNum → Rm → Byte → Instr}
    (henc : ∀ reg e v, encode (mk reg e v) = pre ++ (encodeRm reg e ++ [v]))
    (hwf : ∀ reg e v, e.wf = true → (mk reg e v).wf x = true) :
    Sound x pre bs (modrm bs fun reg e r => imm8 r fun v r => .ok (mk reg e v, r)) := by
  obtain ⟨reg, e, r, he, hbs, hlen, hk⟩ := modrm_sound (bs := bs) (by omega)
  obtain ⟨v, r', rfl, hk'⟩ := imm8_sound (bs := r) (by omega)
  exact ⟨mk reg e v, r', (hk _).trans (hk' _), hwf reg e v he, by simp [henc, hbs]⟩

theorem sound_modrm_imm16 {mk : RegNum → Rm → Word → Instr}
    (henc : ∀ reg e v, encode (mk reg e v) = pre ++ (encodeRm reg e ++ bytes16 v))
    (hwf : ∀ reg e v, e.wf = true → (mk reg e v).wf x = true) :
    Sound x pre bs (modrm bs fun reg e r => imm16 r fun v r => .ok (mk reg e v, r)) := by
  obtain ⟨reg, e, r, he, hbs, hlen, hk⟩ := modrm_sound (bs := bs) (by omega)
  obtain ⟨v, r', rfl, hk'⟩ := imm16_sound (bs := r) (by omega)
  exact ⟨mk reg e v, r', (hk _).trans (hk' _), hwf reg e v he, by simp [henc, hbs]⟩

/-- A memory-only operand: its register form is a reserved encoding (30_encoding R159). -/
theorem sound_modrmMem {op : Byte} {mk : RegNum → MemOp → Instr}
    (hres : ∀ m, isRegisterForm m = reservedEncoding op m) (henc : ∀ reg a, encode (mk reg a) = op :: encodeMem reg a)
    (hwf : ∀ reg a, a.wf = true → (mk reg a).wf x = true) :
    Sound x [op] bs (modrmMem op bs fun reg a r => .ok (mk reg a, r)) := by
  obtain ⟨m, r, rfl, -⟩ := imm8_sound (bs := bs) (by omega)
  by_cases hm : isRegisterForm m = true
  · exact ⟨.reserved op m, r, if_pos hm, (hres m).symm.trans hm, rfl⟩
  · obtain ⟨a, r', ha, hbs, -, hk⟩ := memOperand_sound (bs := r) (Bool.not_eq_true _ ▸ hm) (by simp at hl; omega)
    exact ⟨mk (regField m) a, r', (if_neg hm).trans (hk _), hwf _ a ha, by simp [henc, hbs]⟩

/-- An operand with a segment register: the numbers 6 and 7 are reserved encodings (30_encoding R139). -/
theorem sound_modrmSeg {op : Byte} {mk : SReg → Rm → Instr}
    (hres : ∀ m, (SReg.ofNum (regField m)).isNone = reservedEncoding op m)
    (henc : ∀ sr e, encode (mk sr e) = op :: encodeRm sr.num e) (hwf : ∀ sr e, e.wf = true → (mk sr e).wf x = true) :
    Sound x [op] bs (modrmSeg op bs fun sr e r => .ok (mk sr e, r)) := by
  obtain ⟨m, r, rfl, -⟩ := imm8_sound (bs := bs) (by omega)
  cases hm : SReg.ofNum (regField m) with
  | none =>
    refine ⟨.reserved op m, r, ?_, (hres m).symm.trans (by rw [hm]; rfl), rfl⟩
    simp only [modrmSeg, imm8_cons, hm]
  | some sr =>
    obtain ⟨e, r', he, hbs, -, hk⟩ := operand_sound m (bs := r) (by simp at hl; omega)
    refine ⟨mk sr e, r', ?_, hwf sr e he, ?_⟩
    · simp only [modrmSeg, imm8_cons, hm, hk]
    · rw [henc, SReg.num_ofNum hm, List.cons_append, ← hbs]
      rfl

/-- A group opcode: a sub-opcode without an instruction is a reserved encoding (30_encoding R152, R159). -/
theorem sound_group {op : Byte} {g : Group} (hres : ∀ m, (g m).isNone = reservedEncoding op m)
    (hk : ∀ m k r, g m = some k → 4 ≤ r.length → Sound x [op] (m :: r) (k r)) : Sound x [op] bs (group op bs g) := by
  obtain ⟨m, r, rfl, -⟩ := imm8_sound (bs := bs) (by omega)
  cases hm : g m with
  | none =>
    refine ⟨.reserved op m, r, ?_, (hres m).symm.trans (by rw [hm]; rfl), rfl⟩
    simp only [group, imm8_cons, hm]
  | some k =>
    have h := hk m k r hm (by simp at hl; omega)
    simpa only [group, imm8_cons, hm] using h

end

/-! ## Sub-opcodes of a group -/

section
variable {x : Ext186} {op m : Byte} {n : RegNum} {r : List Byte} (hn : regField m = n) (hl : 4 ≤ r.length)
include hn hl

theorem sound_sub {mk : Rm → Instr} (henc : ∀ e, encode (mk e) = op :: encodeRm n e)
    (hwf : ∀ e, e.wf = true → (mk e).wf x = true) : Sound x [op] (m :: r) (operand m r fun e r => .ok (mk e, r)) := by
  obtain ⟨e, r', he, hbs, -, hk⟩ := operand_sound m (bs := r) (by omega)
  exact ⟨mk e, r', hk _, hwf e he, by rw [henc, ← hn, List.cons_append, ← hbs]; rfl⟩

theorem sound_sub_imm8 {mk : Rm → Byte → Instr} (henc : ∀ e v, encode (mk e v) = op :: (encodeRm n e ++ [v]))
    (hwf : ∀ e v, e.wf = true → (mk e v).wf x = true) :
    Sound x [op] (m :: r) (operand m r fun e r => imm8 r fun v r => .ok (mk e v, r)) := by
  obtain ⟨e, r', he, hbs, hlen, hk⟩ := operand_sound m (bs := r) (by omega)
  obtain ⟨v, r'', rfl, hk'⟩ := imm8_sound (bs := r') (by omega)
  exact ⟨mk e v, r'', (hk _).trans (hk' _), hwf e v he, by simp [henc, ← hn, hbs]⟩

theorem sound_sub_imm16 {mk : Rm → Word → Instr} (henc : ∀ e v, encode (mk e v) = op :: (encodeRm n e ++ bytes16 v))
    (hwf : ∀ e v, e.wf = true → (mk e v).wf x = true) :
    Sound x [op] (m :: r) (operand m r fun e r => imm16 r fun v r => .ok (mk e v, r)) := by
  obtain ⟨e, r', he, hbs, hlen, hk⟩ := operand_sound m (bs := r) (by omega)
  obtain ⟨v, r'', rfl, hk'⟩ := imm16_sound (bs := r') (by omega)
  exact ⟨mk e v, r'', (hk _).trans (hk' _), hwf e v he, by simp [henc, ← hn, hbs]⟩

theorem sound_sub_mem {mk : MemOp → Instr} (hm : isRegisterForm m = false) (henc : ∀ a, encode (mk a) = op :: encodeMem n a)
    (hwf : ∀ a, a.wf = true → (mk a).wf x = true) : Sound x [op] (m :: r) (memOperand m r fun a r => .ok (mk a, r)) := by
  obtain ⟨a, r', ha, hbs, -, hk⟩ := memOperand_sound (bs := r) hm (by omega)
  exact ⟨mk a, r', hk _, hwf a ha, by rw [henc, ← hn, List.cons_append, ← hbs]; rfl⟩

end

section
variable {x : Ext186} (m : Byte) (k : List Byte → DecodeResult) (r : List Byte)

theorem sound_decode8F (h : decode8F m = some k) (hl : 4 ≤ r.length) : Sound x [0x8F#8] (m :: r) (k r) := by
  unfold decode8F at h
  split at h <;> cases h
  case h_1 hn => exact sound_sub hn hl (fun _ => rfl) fun _ he => he

theorem sound_decodeC6 (h : decodeC6 m = some k) (hl : 4 ≤ r.length) : Sound x [0xC6#8] (m :: r) (k r) := by
  unfold decodeC6 at h
  split at h <;> cases h
  case h_1 hn => exact sound_sub_imm8 hn hl (fun _ _ => rfl) fun _ _ he => he

theorem sound_decodeC7 (h : decodeC7 m = some k) (hl : 4 ≤ r.length) : Sound x [0xC7#8] (m :: r) (k r) := by
  unfold decodeC7 at h
  split at h <;> cases h
  case h_1 hn => exact sound_sub_imm16 hn hl (fun _ _ => rfl) fun _ _ he => he

theorem sound_decodeF6 (h : decodeF6 m = some k) (hl : 4 ≤ r.length) : Sound x [0xF6#8] (m :: r) (k r) := by
  unfold decodeF6 at h
  split at h <;> cases h
  case h_1 hn => exact sound_sub_imm8 hn hl (fun _ _ => rfl) fun _ _ he => he
  case h_3 hn | h_4 hn | h_5 hn | h_6 hn | h_7 hn | h_8 hn => exact sound_sub hn hl (fun _ => rfl) fun _ he => he

theorem sound_decodeF7 (h : decodeF7 m = some k) (hl : 4 ≤ r.length) : Sound x [0xF7#8] (m :: r) (k r) := by
  unfold decodeF7 at h
  split at h <;> cases h
  case h_1 hn => exact sound_sub_imm16 hn hl (fun _ _ => rfl) fun _ _ he => he
  case h_3 hn | h_4 hn | h_5 hn | h_6 hn | h_7 hn | h_8 hn => exact sound_sub hn hl (fun _ => rfl) fun _ he => he

theorem sound_decodeFE (h : decodeFE m = some k) (hl : 4 ≤ r.length) : Sound x [0xFE#8] (m :: r) (k r) := by
  unfold decodeFE at h
  split at h <;> cases h
  case h_1 hn | h_2 hn => exact sound_sub hn hl (fun _ => rfl) fun _ he => he

theorem sound_decodeFF (h : decodeFF m = some k) (hl : 4 ≤ r.length) : Sound x [0xFF#8] (m :: r) (k r) := by
  unfold decodeFF at h
  split at h
  case h_1 hn | h_2 hn | h_3 hn | h_5 hn | h_7 hn =>
    cases h
    exact sound_sub hn hl (fun _ => rfl) fun _ he => he
  case h_4 hn | h_6 hn =>
    split at h <;> cases h
    next hm => exact sound_sub_mem hn hl (Bool.not_eq_true _ ▸ hm) (fun _ => rfl) fun _ ha => ha
  case h_8 => cases h

end

/-! ## The opcode map -/

section
variable {x : Ext186} {op : Byte} {bs : List Byte}

theorem and_true_of {a b : Bool} (ha : a = true) (hb : b = true) : (a && b) = true := by rw [ha, hb]; rfl

/-- An opcode of class x186, unknown where EXT186 is `absent` (30_encoding R160). -/
theorem sound_x186 {k : DecodeResult} (hu : x186Primary op = true) (hk : (x != .absent) = true → Sound x [op] bs k) :
    Sound x [op] bs (x186 x op bs k) := by
  cases x with
  | absent => exact sound_plain rfl (by rw [Instr.wf, unknownPrimary, hu]; exact Bool.or_true _)
  | refuse | present => exact hk rfl

/-- An opcode of class x186 behind `0F` (30_encoding R160). -/
theorem sound_x186Escape {i : Instr} (hu : unknownSecond .absent op = true) (henc : encode i = [0x0F#8, op])
    (hwf : i.wf x = (x != .absent)) : Sound x [0x0F#8, op] bs (x186Escape x op bs i) := by
  cases x with
  | absent => exact sound_plain rfl hu
  | refuse | present => exact sound_plain henc hwf

theorem sound_decodeSecond (hl : 4 ≤ bs.length) : Sound x [0x0F#8, op] bs (decodeSecond x op bs) := by
  unfold decodeSecond
  split
  case h_1 h | h_2 h | h_3 h | h_4 h | h_5 h | h_6 h | h_7 h | h_8 h | h_9 h | h_10 h | h_11 h | h_12 h | h_13 h | h_14 h |
      h_15 h | h_16 h =>
    obtain rfl := byte_of_toNat h
    exact sound_imm16 hl (fun _ => rfl) fun _ => rfl
  case h_17 h | h_18 h | h_19 h | h_20 h =>
    obtain rfl := byte_of_toNat h
    exact sound_x186Escape rfl rfl rfl
  case h_21 h | h_22 h | h_23 h | h_24 h =>
    obtain rfl := byte_of_toNat h
    exact sound_modrm hl (fun _ _ => rfl) fun _ _ he => he
  case h_25 =>
    refine sound_plain rfl ?_
    simp only [imp_false] at *
    simp only [Instr.wf, unknownSecond, x186Second, ← BitVec.toNat_inj, List.mem_cons, List.not_mem_nil]
    simp
    omega

theorem sound_decode0F (hl : 5 ≤ bs.length) : Sound x [0x0F#8] bs (decode0F x bs) := by
  obtain ⟨b, r, rfl, -⟩ := imm8_sound (bs := bs) (by omega)
  exact sound_decodeSecond (by simp at hl; omega)

theorem sound_decode00to1F (hl : 5 ≤ bs.length) (hop : op.toNat / 32 = 0) : Sound x [op] bs (decode00to1F x op bs) := by
  unfold decode00to1F
  have hl' := Nat.le_of_succ_le hl
  split
  case h_1 h | h_2 h | h_3 h | h_4 h | h_9 h | h_10 h | h_11 h | h_12 h | h_17 h | h_18 h | h_19 h | h_20 h | h_25 h |
      h_26 h | h_27 h | h_28 h =>
    obtain rfl := byte_of_toNat h
    exact sound_modrm hl' (fun _ _ => rfl) fun _ _ he => he
  case h_5 h | h_13 h | h_21 h | h_29 h =>
    obtain rfl := byte_of_toNat h
    exact sound_imm8 hl' (fun _ => rfl) fun _ => rfl
  case h_6 h | h_14 h | h_22 h | h_30 h =>
    obtain rfl := byte_of_toNat h
    exact sound_imm16 hl' (fun _ => rfl) fun _ => rfl
  case h_7 h | h_8 h | h_15 h | h_23 h | h_24 h | h_31 h =>
    obtain rfl := byte_of_toNat h
    exact sound_plain rfl rfl
  case h_32 =>
    have h : op.toNat = 0x1F := by
      simp only [imp_false] at *
      omega
    obtain rfl := byte_of_toNat h
    exact sound_plain rfl rfl
  case h_16 h =>
    obtain rfl := byte_of_toNat h
    exact sound_decode0F hl

theorem sound_decode20to3F (hl : 5 ≤ bs.length) (hop : op.toNat / 32 = 1) : Sound x [op] bs (decode20to3F op bs) := by
  unfold decode20to3F
  have hl' := Nat.le_of_succ_le hl
  split
  case h_1 h | h_2 h | h_3 h | h_4 h | h_9 h | h_10 h | h_11 h | h_12 h | h_17 h | h_18 h | h_19 h | h_20 h | h_25 h |
      h_26 h | h_27 h | h_28 h =>
    obtain rfl := byte_of_toNat h
    exact sound_modrm hl' (fun _ _ => rfl) fun _ _ he => he
  case h_5 h | h_13 h | h_21 h | h_29 h =>
    obtain rfl := byte_of_toNat h
    exact sound_imm8 hl' (fun _ => rfl) fun _ => rfl
  case h_6 h | h_14 h | h_22 h | h_30 h =>
    obtain rfl := byte_of_toNat h
    exact sound_imm16 hl' (fun _ => rfl) fun _ => rfl
  case h_7 h | h_8 h | h_15 h | h_16 h | h_23 h | h_24 h | h_31 h =>
    obtain rfl := byte_of_toNat h
    exact sound_plain rfl rfl
  case h_32 =>
    have h : op.toNat = 0x3F := by
      simp only [imp_false] at *
      omega
    obtain rfl := byte_of_toNat h
    exact sound_plain rfl rfl

theorem sound_decode40to5F (hl : 5 ≤ bs.length) (hop : op.toNat / 32 = 2) : Sound x [op] bs (decode40to5F op bs) := by
  unfold decode40to5F
  have hl' := Nat.le_of_succ_le hl
  split
  case h_1 h | h_2 h | h_3 h | h_4 h | h_5 h | h_6 h | h_7 h | h_8 h | h_9 h | h_10 h | h_11 h | h_12 h | h_13 h | h_14
      h | h_15 h | h_16 h | h_17 h | h_18 h | h_19 h | h_20 h | h_21 h | h_22 h | h_23 h | h_24 h | h_25 h | h_26 h | h_27 h
      | h_28 h | h_29 h | h_30 h | h_31 h =>
    obtain rfl := byte_of_toNat h
    exact sound_plain rfl rfl
  case h_32 =>
    have h : op.toNat = 0x5F := by
      simp only [imp_false] at *
      omega
    obtain rfl := byte_of_toNat h
    exact sound_plain rfl rfl

theorem sound_decode60to7F (hl : 5 ≤ bs.length) (hop : op.toNat / 32 = 3) : Sound x [op] bs (decode60to7F x op bs) := by
  unfold decode60to7F
  have hl' := Nat.le_of_succ_le hl
  split
  case h_1 h | h_2 h | h_5 h | h_6 h =>
    obtain rfl := byte_of_toNat h
    exact sound_plain rfl rfl
  case h_3 h =>
    obtain rfl := byte_of_toNat h
    exact sound_modrmMem hl isRegisterForm_eq_reserved (fun _ _ => rfl) fun _ _ hm => hm
  case h_4 h | h_7 h | h_8 h =>
    obtain rfl := byte_of_toNat h
    exact sound_plain rfl rfl
  case h_9 h =>
    obtain rfl := byte_of_toNat h
    exact sound_imm16 hl' (fun _ => rfl) fun _ => rfl
  case h_10 h =>
    obtain rfl := byte_of_toNat h
    exact sound_x186 rfl fun hx => sound_modrm_imm16 hl (fun _ _ _ => rfl) fun _ _ _ he => and_true_of hx he
  case h_11 h =>
    obtain rfl := byte_of_toNat h
    exact sound_x186 rfl fun hx => sound_imm8 hl' (fun _ => rfl) fun _ => hx
  case h_12 h =>
    obtain rfl := byte_of_toNat h
    exact sound_x186 rfl fun hx => sound_modrm_imm8 hl (fun _ _ _ => rfl) fun _ _ _ he => and_true_of hx he
  case h_13 h =>
    obtain rfl := byte_of_toNat h
    exact sound_x186 rfl fun hx => sound_plain rfl hx
  case h_14 h =>
    obtain rfl := byte_of_toNat h
    exact sound_x186 rfl fun hx => sound_plain rfl hx
  case h_15 h =>
    obtain rfl := byte_of_toNat h
    exact sound_x186 rfl fun hx => sound_plain rfl hx
  case h_16 h =>
    obtain rfl := byte_of_toNat h
    exact sound_x186 rfl fun hx => sound_plain rfl hx
  case h_17 h | h_18 h | h_19 h | h_20 h | h_21 h | h_22 h | h_23 h | h_24 h | h_25 h | h_26 h | h_27 h | h_28 h | h_29
      h | h_30 h | h_31 h =>
    obtain rfl := byte_of_toNat h
    exact sound_imm8 hl' (fun _ => rfl) fun _ => rfl
  case h_32 =>
    have h : op.toNat = 0x7F := by
      simp only [imp_false] at *
      omega
    obtain rfl := byte_of_toNat h
    exact sound_imm8 hl' (fun _ => rfl) fun _ => rfl

theorem sound_decode80to9F (hl : 5 ≤ bs.length) (hop : op.toNat / 32 = 4) : Sound x [op] bs (decode80to9F op bs) := by
  unfold decode80to9F
  have hl' := Nat.le_of_succ_le hl
  split
  case h_1 h | h_3 h | h_4 h =>
    obtain rfl := byte_of_toNat h
    exact sound_modrm_imm8 hl (fun n _ _ => by cases n <;> rfl) fun n _ _ he => by cases n <;> exact he
  case h_2 h =>
    obtain rfl := byte_of_toNat h
    exact sound_modrm_imm16 hl (fun n _ _ => by cases n <;> rfl) fun n _ _ he => by cases n <;> exact he
  case h_5 h | h_6 h | h_7 h | h_8 h | h_9 h | h_10 h | h_11 h | h_12 h =>
    obtain rfl := byte_of_toNat h
    exact sound_modrm hl' (fun _ _ => rfl) fun _ _ he => he
  case h_13 h =>
    obtain rfl := byte_of_toNat h
    exact sound_modrmSeg hl sregNum_isNone (fun _ _ => rfl) fun _ _ he => he
  case h_15 h =>
    obtain rfl := byte_of_toNat h
    exact sound_modrmSeg hl sregNum_isNone (fun _ _ => rfl) fun _ _ he => he
  case h_14 h =>
    obtain rfl := byte_of_toNat h
    exact sound_modrmMem hl isRegisterForm_eq_reserved (fun _ _ => rfl) fun _ _ hm => hm
  case h_16 h =>
    obtain rfl := byte_of_toNat h
    exact sound_group hl decode8F_isNone sound_decode8F
  case h_17 h | h_18 h | h_19 h | h_20 h | h_21 h | h_22 h | h_23 h | h_24 h | h_25 h | h_26 h | h_28 h | h_29 h | h_30
      h | h_31 h =>
    obtain rfl := byte_of_toNat h
    exact sound_plain rfl rfl
  case h_32 =>
    have h : op.toNat = 0x9F := by
      simp only [imp_false] at *
      omega
    obtain rfl := byte_of_toNat h
    exact sound_plain rfl rfl
  case h_27 h =>
    obtain rfl := byte_of_toNat h
    exact sound_far hl' (fun _ _ => rfl) fun _ _ => rfl

theorem sound_decodeA0toBF (hl : 5 ≤ bs.length) (hop : op.toNat / 32 = 5) : Sound x [op] bs (decodeA0toBF op bs) := by
  unfold decodeA0toBF
  have hl' := Nat.le_of_succ_le hl
  split
  case h_1 h | h_2 h | h_3 h | h_4 h | h_10 h | h_25 h | h_26 h | h_27 h | h_28 h | h_29 h | h_30 h | h_31 h =>
    obtain rfl := byte_of_toNat h
    exact sound_imm16 hl' (fun _ => rfl) fun _ => rfl
  case h_32 =>
    have h : op.toNat = 0xBF := by
      simp only [imp_false] at *
      omega
    obtain rfl := byte_of_toNat h
    exact sound_imm16 hl' (fun _ => rfl) fun _ => rfl
  case h_5 h | h_6 h | h_7 h | h_8 h | h_11 h | h_12 h | h_13 h | h_14 h | h_15 h | h_16 h =>
    obtain rfl := byte_of_toNat h
    exact sound_plain rfl rfl
  case h_9 h | h_17 h | h_18 h | h_19 h | h_20 h | h_21 h | h_22 h | h_23 h | h_24 h =>
    obtain rfl := byte_of_toNat h
    exact sound_imm8 hl' (fun _ => rfl) fun _ => rfl

theorem sound_decodeC0toDF (hl : 5 ≤ bs.length) (hop : op.toNat / 32 = 6) : Sound x [op] bs (decodeC0toDF x op bs) := by
  unfold decodeC0toDF
  have hl' := Nat.le_of_succ_le hl
  split
  case h_1 h =>
    obtain rfl := byte_of_toNat h
    exact sound_x186 rfl fun hx => sound_modrm_imm8 hl (fun n _ _ => by cases n <;> rfl)
      fun n _ _ he => by cases n <;> exact and_true_of hx he
  case h_2 h =>
    obtain rfl := byte_of_toNat h
    exact sound_x186 rfl fun hx => sound_modrm_imm8 hl (fun n _ _ => by cases n <;> rfl)
      fun n _ _ he => by cases n <;> exact and_true_of hx he
  case h_3 h | h_11 h =>
    obtain rfl := byte_of_toNat h
    exact sound_imm16 hl' (fun _ => rfl) fun _ => rfl
  case h_4 h | h_10 h | h_12 h | h_13 h | h_15 h | h_16 h | h_24 h =>
    obtain rfl := byte_of_toNat h
    exact sound_plain rfl rfl
  case h_5 h | h_6 h =>
    obtain rfl := byte_of_toNat h
    exact sound_modrmMem hl isRegisterForm_eq_reserved (fun _ _ => rfl) fun _ _ hm => hm
  case h_7 h =>
    obtain rfl := byte_of_toNat h
    exact sound_group hl decodeC6_isNone sound_decodeC6
  case h_8 h =>
    obtain rfl := byte_of_toNat h
    exact sound_group hl decodeC7_isNone sound_decodeC7
  case h_9 h =>
    obtain rfl := byte_of_toNat h
    exact sound_enter hl'
  case h_14 h | h_21 h | h_22 h =>
    obtain rfl := byte_of_toNat h
    exact sound_imm8 hl' (fun _ => rfl) fun _ => rfl
  case h_17 h | h_18 h | h_19 h | h_20 h =>
    obtain rfl := byte_of_toNat h
    exact sound_modrm hl' (fun n _ => by cases n <;> rfl) fun n _ he => by cases n <;> exact he
  case h_23 h =>
    obtain rfl := byte_of_toNat h
    exact sound_plain rfl rfl
  case h_25 h | h_26 h | h_27 h | h_28 h | h_29 h | h_30 h | h_31 h =>
    obtain rfl := byte_of_toNat h
    exact sound_modrm hl' (fun _ _ => rfl) fun _ _ he => he
  case h_32 =>
    have h : op.toNat = 0xDF := by
      simp only [imp_false] at *
      omega
    obtain rfl := byte_of_toNat h
    exact sound_modrm hl' (fun _ _ => rfl) fun _ _ he => he

theorem sound_decodeE0toFF (hl : 5 ≤ bs.length) (hop : op.toNat / 32 = 7) : Sound x [op] bs (decodeE0toFF op bs) := by
  unfold decodeE0toFF
  have hl' := Nat.le_of_succ_le hl
  split
  case h_1 h | h_2 h | h_3 h | h_4 h | h_5 h | h_6 h | h_7 h | h_8 h | h_12 h =>
    obtain rfl := byte_of_toNat h
    exact sound_imm8 hl' (fun _ => rfl) fun _ => rfl
  case h_9 h | h_10 h =>
    obtain rfl := byte_of_toNat h
    exact sound_imm16 hl' (fun _ => rfl) fun _ => rfl
  case h_11 h =>
    obtain rfl := byte_of_toNat h
    exact sound_far hl' (fun _ _ => rfl) fun _ _ => rfl
  case h_13 h | h_14 h | h_15 h | h_16 h | h_17 h | h_19 h | h_20 h | h_21 h | h_22 h | h_25 h | h_26 h | h_27 h | h_28
      h | h_29 h | h_30 h =>
    obtain rfl := byte_of_toNat h
    exact sound_plain rfl rfl
  case h_18 h =>
    obtain rfl := byte_of_toNat h
    exact sound_plain rfl rfl
  case h_23 h =>
    obtain rfl := byte_of_toNat h
    exact sound_group hl decodeF6_isNone sound_decodeF6
  case h_24 h =>
    obtain rfl := byte_of_toNat h
    exact sound_group hl decodeF7_isNone sound_decodeF7
  case h_31 h =>
    obtain rfl := byte_of_toNat h
    exact sound_group hl decodeFE_isNone sound_decodeFE
  case h_32 =>
    have h : op.toNat = 0xFF := by
      simp only [imp_false] at *
      omega
    obtain rfl := byte_of_toNat h
    exact sound_group hl decodeFF_isNone sound_decodeFF

theorem sound_decodeOpcode (hl : 5 ≤ bs.length) : Sound x [op] bs (decodeOpcode x op bs) := by
  unfold decodeOpcode
  split
  case h_1 h => exact sound_decode00to1F hl h
  case h_2 h => exact sound_decode20to3F hl h
  case h_3 h => exact sound_decode40to5F hl h
  case h_4 h => exact sound_decode60to7F hl h
  case h_5 h => exact sound_decode80to9F hl h
  case h_6 h => exact sound_decodeA0toBF hl h
  case h_7 h => exact sound_decodeC0toDF hl h
  case h_8 =>
    simp only [imp_false] at *
    exact sound_decodeE0toFF hl (by omega)

end

/-- Settles O2: the decoder answers an encoding that begins the bytes, and by `decodeOfEncodeIsTheInstruction` it answers every
encoding that does. -/
theorem sixBytesBeginWithOneEncoding : Obligations.SixBytesBeginWithOneEncoding := by
  intro x bs hl
  obtain ⟨op, r, rfl, -⟩ := imm8_sound (bs := bs) (by omega)
  obtain ⟨i, rest, hdec, hwf, henc⟩ := sound_decodeOpcode (x := x) (op := op) (bs := r) (by simp at hl; omega)
  refine ⟨i, rest, hdec, hwf, henc, fun j rest' hj hbs => ?_⟩
  have hdec' := decodeOfEncodeIsTheInstruction x j rest' hj
  rw [hbs] at hdec'
  obtain ⟨rfl, rfl⟩ : j = i ∧ rest' = rest := by simpa using hdec'.symm.trans hdec
  exact ⟨rfl, rfl⟩

end Sys2Proof
end

/-! # Encoding (30_encoding): words of the spec, lengths, class x186 where it is absent -/

section

namespace Sys2Proof

/-- Settles O3: each word is read by evaluation. -/
theorem wordsOfTheSpecDecode : Obligations.WordsOfTheSpecDecode :=
  ⟨rfl, rfl, rfl, rfl, rfl, rfl, rfl, rfl, rfl, rfl, rfl, rfl⟩

/-- Every encoding has one to six bytes (30_encoding R120). -/
theorem length_encode {i : Instr} {x : Ext186} (h : i.wf x = true) : 1 ≤ (encode i).length ∧ (encode i).length ≤ 6 :=
  match i with
  | .add f => Laws.EncodeLength.add f x h
  | .or f => Laws.EncodeLength.or f x h
  | .adc f => Laws.EncodeLength.adc f x h
  | .sbb f => Laws.EncodeLength.sbb f x h
  | .and f => Laws.EncodeLength.and f x h
  | .sub f => Laws.EncodeLength.sub f x h
  | .xor f => Laws.EncodeLength.xor f x h
  | .cmp f => Laws.EncodeLength.cmp f x h
  | .incReg r => Laws.EncodeLength.incReg r x h
  | .incRm w e => Laws.EncodeLength.incRm w e x h
  | .decReg r => Laws.EncodeLength.decReg r x h
  | .decRm w e => Laws.EncodeLength.decRm w e x h
  | .not w e => Laws.EncodeLength.not w e x h
  | .neg w e => Laws.EncodeLength.neg w e x h
  | .mul w e => Laws.EncodeLength.mul w e x h
  | .imul w e => Laws.EncodeLength.imul w e x h
  | .div w e => Laws.EncodeLength.div w e x h
  | .idiv w e => Laws.EncodeLength.idiv w e x h
  | .imulImm16 r e imm => Laws.EncodeLength.imulImm16 r e imm x h
  | .imulSimm8 r e imm => Laws.EncodeLength.imulSimm8 r e imm x h
  | .cbw => Laws.EncodeLength.cbw x h
  | .cwd => Laws.EncodeLength.cwd x h
  | .daa => Laws.EncodeLength.daa x h
  | .das => Laws.EncodeLength.das x h
  | .aaa => Laws.EncodeLength.aaa x h
  | .aas => Laws.EncodeLength.aas x h
  | .aam base => Laws.EncodeLength.aam base x h
  | .aad base => Laws.EncodeLength.aad base x h
  | .test f => Laws.EncodeLength.test f x h
  | .rol f => Laws.EncodeLength.rol f x h
  | .ror f => Laws.EncodeLength.ror f x h
  | .rcl f => Laws.EncodeLength.rcl f x h
  | .rcr f => Laws.EncodeLength.rcr f x h
  | .shl f => Laws.EncodeLength.shl f x h
  | .shr f => Laws.EncodeLength.shr f x h
  | .sal f => Laws.EncodeLength.sal f x h
  | .sar f => Laws.EncodeLength.sar f x h
  | .movRmReg w e r => Laws.EncodeLength.movRmReg w e r x h
  | .movRegRm w r e => Laws.EncodeLength.movRegRm w r e x h
  | .movRegImm8 r imm => Laws.EncodeLength.movRegImm8 r imm x h
  | .movRegImm16 r imm => Laws.EncodeLength.movRegImm16 r imm x h
  | .movRmImm8 e imm => Laws.EncodeLength.movRmImm8 e imm x h
  | .movRmImm16 e imm => Laws.EncodeLength.movRmImm16 e imm x h
  | .movAccMoffs w off => Laws.EncodeLength.movAccMoffs w off x h
  | .movMoffsAcc w off => Laws.EncodeLength.movMoffsAcc w off x h
  | .movRmSeg e sr => Laws.EncodeLength.movRmSeg e sr x h
  | .movSegRm sr e => Laws.EncodeLength.movSegRm sr e x h
  | .pushReg r => Laws.EncodeLength.pushReg r x h
  | .pushRm e => Laws.EncodeLength.pushRm e x h
  | .pushSeg sr => Laws.EncodeLength.pushSeg sr x h
  | .pushImm16 imm => Laws.EncodeLength.pushImm16 imm x h
  | .pushSimm8 imm => Laws.EncodeLength.pushSimm8 imm x h
  | .pushFs => Laws.EncodeLength.pushFs x h
  | .pushGs => Laws.EncodeLength.pushGs x h
  | .popReg r => Laws.EncodeLength.popReg r x h
  | .popRm e => Laws.EncodeLength.popRm e x h
  | .popSeg sr => Laws.EncodeLength.popSeg sr x h
  | .popFs => Laws.EncodeLength.popFs x h
  | .popGs => Laws.EncodeLength.popGs x h
  | .xchgRm w e r => Laws.EncodeLength.xchgRm w e r x h
  | .xchgAx r => Laws.EncodeLength.xchgAx r x h
  | .xlat => Laws.EncodeLength.xlat x h
  | .lea r m => Laws.EncodeLength.lea r m x h
  | .lds r m => Laws.EncodeLength.lds r m x h
  | .les r m => Laws.EncodeLength.les r m x h
  | .lahf => Laws.EncodeLength.lahf x h
  | .sahf => Laws.EncodeLength.sahf x h
  | .pushf => Laws.EncodeLength.pushf x h
  | .popf => Laws.EncodeLength.popf x h
  | .movsb => Laws.EncodeLength.movsb x h
  | .movsw => Laws.EncodeLength.movsw x h
  | .cmpsb => Laws.EncodeLength.cmpsb x h
  | .cmpsw => Laws.EncodeLength.cmpsw x h
  | .stosb => Laws.EncodeLength.stosb x h
  | .stosw => Laws.EncodeLength.stosw x h
  | .lodsb => Laws.EncodeLength.lodsb x h
  | .lodsw => Laws.EncodeLength.lodsw x h
  | .scasb => Laws.EncodeLength.scasb x h
  | .scasw => Laws.EncodeLength.scasw x h
  | .insb => Laws.EncodeLength.insb x h
  | .insw => Laws.EncodeLength.insw x h
  | .outsb => Laws.EncodeLength.outsb x h
  | .outsw => Laws.EncodeLength.outsw x h
  | .jmpShort d => Laws.EncodeLength.jmpShort d x h
  | .jmpNear d => Laws.EncodeLength.jmpNear d x h
  | .jmpRm e => Laws.EncodeLength.jmpRm e x h
  | .jmpFar off seg => Laws.EncodeLength.jmpFar off seg x h
  | .jmpFarMem m => Laws.EncodeLength.jmpFarMem m x h
  | .callNear d => Laws.EncodeLength.callNear d x h
  | .callRm e => Laws.EncodeLength.callRm e x h
  | .callFar off seg => Laws.EncodeLength.callFar off seg x h
  | .callFarMem m => Laws.EncodeLength.callFarMem m x h
  | .ret => Laws.EncodeLength.ret x h
  | .retImm n => Laws.EncodeLength.retImm n x h
  | .retf => Laws.EncodeLength.retf x h
  | .retfImm n => Laws.EncodeLength.retfImm n x h
  | .jo d => Laws.EncodeLength.jo d x h
  | .jno d => Laws.EncodeLength.jno d x h
  | .jb d => Laws.EncodeLength.jb d x h
  | .jae d => Laws.EncodeLength.jae d x h
  | .je d => Laws.EncodeLength.je d x h
  | .jne d => Laws.EncodeLength.jne d x h
  | .jbe d => Laws.EncodeLength.jbe d x h
  | .ja d => Laws.EncodeLength.ja d x h
  | .js d => Laws.EncodeLength.js d x h
  | .jns d => Laws.EncodeLength.jns d x h
  | .jp d => Laws.EncodeLength.jp d x h
  | .jnp d => Laws.EncodeLength.jnp d x h
  | .jl d => Laws.EncodeLength.jl d x h
  | .jge d => Laws.EncodeLength.jge d x h
  | .jle d => Laws.EncodeLength.jle d x h
  | .jg d => Laws.EncodeLength.jg d x h
  | .loopne d => Laws.EncodeLength.loopne d x h
  | .loope d => Laws.EncodeLength.loope d x h
  | .loop d => Laws.EncodeLength.loop d x h
  | .jcxz d => Laws.EncodeLength.jcxz d x h
  | .int n => Laws.EncodeLength.int n x h
  | .int3 => Laws.EncodeLength.int3 x h
  | .into => Laws.EncodeLength.into x h
  | .iret => Laws.EncodeLength.iret x h
  | .inImm w port => Laws.EncodeLength.inImm w port x h
  | .inDx w => Laws.EncodeLength.inDx w x h
  | .outImm w port => Laws.EncodeLength.outImm w port x h
  | .outDx w => Laws.EncodeLength.outDx w x h
  | .clc => Laws.EncodeLength.clc x h
  | .stc => Laws.EncodeLength.stc x h
  | .cmc => Laws.EncodeLength.cmc x h
  | .cld => Laws.EncodeLength.cld x h
  | .std => Laws.EncodeLength.std x h
  | .cli => Laws.EncodeLength.cli x h
  | .sti => Laws.EncodeLength.sti x h
  | .hlt => Laws.EncodeLength.hlt x h
  | .nop => Laws.EncodeLength.nop x h
  | .wait => Laws.EncodeLength.wait x h
  | .esc op reg e => Laws.EncodeLength.esc op reg e x h
  | .pusha => Laws.EncodeLength.pusha x h
  | .popa => Laws.EncodeLength.popa x h
  | .bound r m => Laws.EncodeLength.bound r m x h
  | .enter size level => Laws.EncodeLength.enter size level x h
  | .leave => Laws.EncodeLength.leave x h
  | .movzx w r e => Laws.EncodeLength.movzx w r e x h
  | .movsx w r e => Laws.EncodeLength.movsx w r e x h
  | .segES => Laws.EncodeLength.segES x h
  | .segCS => Laws.EncodeLength.segCS x h
  | .segSS => Laws.EncodeLength.segSS x h
  | .segDS => Laws.EncodeLength.segDS x h
  | .segFS => Laws.EncodeLength.segFS x h
  | .segGS => Laws.EncodeLength.segGS x h
  | .lock => Laws.EncodeLength.lock x h
  | .repne => Laws.EncodeLength.repne x h
  | .rep => Laws.EncodeLength.rep x h
  | .unknown op => Laws.EncodeLength.unknown op x h
  | .unknown0F op => Laws.EncodeLength.unknown0F op x h
  | .reserved op modrm => Laws.EncodeLength.reserved op modrm x h
/-- The bytes of an instruction of class x186 where EXT186 is `absent`: an unknown opcode of one byte of the list of 30_encoding
R160, or of two, and the bytes after it. -/
def ReadsAsUnknown (i : Instr) (rest : List Byte) : Prop :=
  (∃ b ∈ [0x6A#8, 0x69#8, 0x6B#8, 0x6C#8, 0x6D#8, 0x6E#8, 0x6F#8, 0xC0#8, 0xC1#8], ∃ bs,
    encode i = b :: bs ∧ decode .absent (encode i ++ rest) = .ok (.unknown b, bs ++ rest)) ∨
  (∃ b ∈ [0xA0#8, 0xA1#8, 0xA8#8, 0xA9#8], ∃ bs,
    encode i = 0x0F#8 :: b :: bs ∧ decode .absent (encode i ++ rest) = .ok (.unknown0F b, bs ++ rest))

theorem readsAsUnknown_shift {i : Instr} {n : RegNum} {w : Width} {e : Rm} {v : Byte}
    (henc : encode i = encodeShift n (.imm w e v)) (rest : List Byte) : ReadsAsUnknown i rest := by
  cases w with
  | byte => exact .inl ⟨0xC0#8, by decide, _, henc, by rw [henc]; rfl⟩
  | word => exact .inl ⟨0xC1#8, by decide, _, henc, by rw [henc]; rfl⟩

/-- Class x186 does not exist where EXT186 is `absent`: no such instruction is well-formed, and its bytes are unknown opcodes. -/
theorem x186_absent {i : Instr} (h : i.isX186 = true) (rest : List Byte) :
    i.wf .absent = false ∧ ReadsAsUnknown i rest := by
  cases i with
  | imulImm16 r e v => exact ⟨rfl, .inl ⟨0x69#8, by decide, _, rfl, rfl⟩⟩
  | imulSimm8 r e v => exact ⟨rfl, .inl ⟨0x6B#8, by decide, _, rfl, rfl⟩⟩
  | pushSimm8 v => exact ⟨rfl, .inl ⟨0x6A#8, by decide, _, rfl, rfl⟩⟩
  | insb => exact ⟨rfl, .inl ⟨0x6C#8, by decide, _, rfl, rfl⟩⟩
  | insw => exact ⟨rfl, .inl ⟨0x6D#8, by decide, _, rfl, rfl⟩⟩
  | outsb => exact ⟨rfl, .inl ⟨0x6E#8, by decide, _, rfl, rfl⟩⟩
  | outsw => exact ⟨rfl, .inl ⟨0x6F#8, by decide, _, rfl, rfl⟩⟩
  | pushFs => exact ⟨rfl, .inr ⟨0xA0#8, by decide, _, rfl, rfl⟩⟩
  | popFs => exact ⟨rfl, .inr ⟨0xA1#8, by decide, _, rfl, rfl⟩⟩
  | pushGs => exact ⟨rfl, .inr ⟨0xA8#8, by decide, _, rfl, rfl⟩⟩
  | popGs => exact ⟨rfl, .inr ⟨0xA9#8, by decide, _, rfl, rfl⟩⟩
  | rol f | ror f | rcl f | rcr f | shl f | shr f | sal f | sar f =>
    cases f with
    | imm w e v => exact ⟨rfl, readsAsUnknown_shift rfl rest⟩
    | one | cl => exact absurd h Bool.false_ne_true
  | _ => exact absurd h Bool.false_ne_true

end Sys2Proof
end

/-! # The step (30_encoding R120-R124, R128): the fetch, the prefixes, the stops -/

section

namespace Sys2Proof.Machine

/-! ## The fetch -/

/-- The fetch window begins with the bytes that stand at `CS:IP`. -/
theorem prefix_fetchWindow {s : State} {bs : List Byte} (hl : bs.length ≤ 6) (hb : ∀ k b, bs[k]? = some b → s.codeByte k = b) :
    bs <+: s.fetchWindow := by
  refine List.prefix_iff_getElem?.mpr fun k hk => ?_
  rw [State.fetchWindow, List.getElem?_map, List.getElem?_range (show k < maxLength by rw [maxLength]; omega), Option.map_some,
    hb k bs[k] (List.getElem?_eq_getElem hk)]

theorem length_fetchWindow (s : State) : s.fetchWindow.length = 6 := by
  rw [State.fetchWindow, List.length_map, List.length_range, maxLength]

/-- The fetch finds the instruction whose bytes stand at `CS:IP`. -/
theorem fetched_of_bytes {s : State} {i : Instr} (hwf : i.wf s.ext186 = true)
    (hb : ∀ k b, (encode i)[k]? = some b → s.codeByte k = b) : s.fetched = .ok (i, (encode i).length) := by
  obtain ⟨rest, hrest⟩ := prefix_fetchWindow (length_encode hwf).2 hb
  have hlen : (encode i).length + rest.length = 6 := by rw [← List.length_append, hrest, length_fetchWindow]
  rw [State.fetched, ← hrest, decodeOfEncodeIsTheInstruction s.ext186 i rest hwf]
  simp only [maxLength, ← hlen, Nat.add_sub_cancel]

/-- Every fetch finds a well-formed instruction, whose bytes stand at `CS:IP`. -/
theorem fetched_total (s : State) : ∃ i, s.fetched = .ok (i, (encode i).length) ∧ i.wf s.ext186 = true ∧
    ∀ k b, (encode i)[k]? = some b → s.codeByte k = b := by
  obtain ⟨i, rest, -, hwf, henc, -⟩ := sixBytesBeginWithOneEncoding s.ext186 s.fetchWindow (length_fetchWindow s).ge
  have hb (k : Nat) (b : Byte) (hk : (encode i)[k]? = some b) : s.codeByte k = b := by
    have hlt : k < 6 := ((List.getElem?_eq_some_iff.mp hk).1).trans_le (length_encode hwf).2
    have h : (encode i ++ rest)[k]? = some b := by
      rw [List.getElem?_append_left (List.getElem?_eq_some_iff.mp hk).1, hk]
    rw [henc, State.fetchWindow, List.getElem?_map, List.getElem?_range (show k < maxLength from hlt)] at h
    exact Option.some.inj h
  exact ⟨i, fetched_of_bytes hwf hb, hwf, hb⟩

/-! ## The fetch loop -/

theorem stepLoop_instruction {s : State} {i : Instr} {len : Nat} (hf : s.fetched = .ok (i, len)) (hp : i.isPrefix = false)
    (n : Nat) : stepLoop (n + 1) s = exec i (s.advance len) := by
  simp only [stepLoop, hf, hp, Bool.false_eq_true, if_false]

theorem stepLoop_prefix {s t : State} {i : Instr} {len : Nat} (hf : s.fetched = .ok (i, len)) (hp : i.isPrefix = true)
    (he : exec i (s.advance len) = .next t) (n : Nat) : stepLoop (n + 1) s = stepLoop n t := by
  simp only [stepLoop, hf, hp, he, if_true]

theorem step_of_running {s : State} (h : s.halted = false) : step s = stepLoop 65536 s.clearPrefixes := by
  rw [step, h]
  rfl

/-- Settles O4: the fetch finds the instruction, which is none of the prefixes. -/
theorem stepRunsTheDecodedInstruction : Obligations.StepRunsTheDecodedInstruction := by
  intro s i hrun hwf hp hb
  rw [step_of_running hrun]
  exact stepLoop_instruction (s := s.clearPrefixes) (fetched_of_bytes hwf hb) hp _

/-! ## Prefixes -/

/-- Prefixes are well-formed instructions of one byte, and set the fields of 10_state R61 as `applyPrefixes` says (30_encoding R123, R124). -/
theorem prefix_spec {p : Instr} (hp : p.isPrefix = true) (s : State) :
    p.wf s.ext186 = true ∧ (encode p).length = 1 ∧ exec p s = .next (applyPrefixes [p] s) := by
  cases p with
  | segES | segCS | segSS | segDS | segFS | segGS | lock | repne | rep => exact ⟨rfl, rfl, rfl⟩
  | _ => exact absurd hp Bool.false_ne_true

theorem applyPrefixes_cons {p : Instr} (hp : p.isPrefix = true) (ps : List Instr) (s : State) :
    applyPrefixes (p :: ps) s = applyPrefixes ps (applyPrefixes [p] s) := by
  cases p with
  | segES | segCS | segSS | segDS | segFS | segGS | lock | repne | rep => rfl
  | _ => exact absurd hp Bool.false_ne_true

/-- Prefixes touch nothing but their own fields: IP, for one, can be set before them or after them. -/
theorem applyPrefixes_one {p : Instr} (hp : p.isPrefix = true) (s : State) :
    (applyPrefixes [p] s).ip = s.ip ∧ (applyPrefixes [p] s).segs = s.segs ∧ (applyPrefixes [p] s).mem = s.mem ∧
    (applyPrefixes [p] s).ext186 = s.ext186 ∧ ∀ v, applyPrefixes [p] (s.setIp v) = (applyPrefixes [p] s).setIp v := by
  cases p with
  | segES | segCS | segSS | segDS | segFS | segGS | lock | repne | rep => exact ⟨rfl, rfl, rfl, rfl, fun _ => rfl⟩
  | _ => exact absurd hp Bool.false_ne_true

/-- The byte at a place in the code segment depends on CS, IP and memory only. -/
theorem codeByte_of_moved {s t : State} {n : Nat} (hs : t.segs = s.segs) (hm : t.mem = s.mem)
    (hip : t.ip = s.ip + BitVec.ofNat 16 n) (k : Nat) : t.codeByte k = s.codeByte (n + k) := by
  rw [State.codeByte, State.codeByte, State.memRead8_congr hm, State.seg_congr hs, hip, BitVec.ofNat_add, BitVec.add_assoc]

/-- One of the prefixes at `CS:IP` is executed and the loop goes on one byte later. -/
theorem stepLoop_of_prefix {s : State} {p : Instr} (hp : p.isPrefix = true)
    (hb : ∀ k b, (encode p)[k]? = some b → s.codeByte k = b) (n : Nat) :
    stepLoop (n + 1) s = stepLoop n (applyPrefixes [p] (s.advance 1)) := by
  obtain ⟨hwf, hlen, -⟩ := prefix_spec hp s
  have hf := fetched_of_bytes hwf hb
  rw [hlen] at hf
  exact stepLoop_prefix hf hp (prefix_spec hp _).2.2 n

theorem codeByte_after_prefix (s : State) {p : Instr} (hp : p.isPrefix = true) (k : Nat) :
    (applyPrefixes [p] (s.advance 1)).codeByte k = s.codeByte (1 + k) := by
  obtain ⟨hip, hs, hm, -, -⟩ := applyPrefixes_one hp (s.advance 1)
  exact codeByte_of_moved (s := s) (n := 1) hs hm hip k

/-- The fetch loop over a run of prefixes and the instruction after them. -/
theorem stepLoop_prefixes {i : Instr} (hi : i.isPrefix = false) (ps : List Instr) (n : Nat) (s : State)
    (hn : ps.length < n) (hps : ∀ p ∈ ps, p.isPrefix = true) (hwf : i.wf s.ext186 = true)
    (hb : ∀ k b, (ps.flatMap encode ++ encode i)[k]? = some b → s.codeByte k = b) :
    stepLoop n s
      = exec i (applyPrefixes ps (s.setIp (s.ip + BitVec.ofNat 16 (ps.length + (encode i).length)))) := by
  induction ps generalizing n s with
  | nil =>
    obtain ⟨n, rfl⟩ : ∃ m, n = m + 1 := Nat.exists_eq_add_one.mpr hn
    rw [stepLoop_instruction (fetched_of_bytes hwf hb) hi, List.length_nil, Nat.zero_add]
    rfl
  | cons p ps ih =>
    obtain ⟨n, rfl⟩ : ∃ m, n = m + 1 := Nat.exists_eq_add_one.mpr (Nat.zero_lt_of_lt hn)
    have hp := hps p List.mem_cons_self
    have hone := (prefix_spec hp s).2.1
    obtain ⟨c, hc⟩ := List.length_eq_one_iff.mp hone
    rw [List.flatMap_cons, hc] at hb
    have hfirst (k : Nat) (b : Byte) (hk : (encode p)[k]? = some b) : s.codeByte k = b := by
      rw [hc] at hk
      obtain ⟨rfl, rfl⟩ : k = 0 ∧ c = b := by
        cases k with
        | zero => exact ⟨rfl, Option.some.inj hk⟩
        | succ k => cases hk
      exact hb 0 _ rfl
    obtain ⟨hip, -, -, hx, hset⟩ := applyPrefixes_one hp (s.advance 1)
    rw [stepLoop_of_prefix hp hfirst, ih n _ (by simpa using hn) (fun q hq => hps q (List.mem_cons_of_mem p hq)) (by rw [hx]; exact hwf)
      (fun k b hk => by rw [codeByte_after_prefix s hp, Nat.add_comm]; exact hb (k + 1) b hk), ← hset, hip,
      applyPrefixes_cons hp ps]
    have hsum : s.ip + BitVec.ofNat 16 1 + BitVec.ofNat 16 (ps.length + (encode i).length)
        = s.ip + BitVec.ofNat 16 ((p :: ps).length + (encode i).length) := by
      rw [BitVec.add_assoc, ← BitVec.ofNat_add, List.length_cons, Nat.add_right_comm, Nat.add_comm 1]
    rw [← hsum]
    rfl

/-- Settles O5, by induction on the prefixes. -/
theorem prefixesAttachToOneInstruction : Obligations.PrefixesAttachToOneInstruction := by
  intro s ps i hrun hwf hi hps hn hb
  rw [step_of_running hrun]
  exact stepLoop_prefixes hi ps 65536 s.clearPrefixes hn hps hwf hb

/-- The bytes of 30_encoding R123 are the encodings of the prefixes. -/
theorem prefix_of_byte {b : Byte} (h : isPrefixByte b = true) : ∃ p : Instr, p.isPrefix = true ∧ encode p = [b] := by
  simp only [isPrefixByte, decide_eq_true_eq, List.mem_cons, List.not_mem_nil, or_false] at h
  rcases h with rfl | rfl | rfl | rfl | rfl | rfl | rfl | rfl | rfl
  · exact ⟨.segES, rfl, rfl⟩
  · exact ⟨.segCS, rfl, rfl⟩
  · exact ⟨.segSS, rfl, rfl⟩
  · exact ⟨.segDS, rfl, rfl⟩
  · exact ⟨.segFS, rfl, rfl⟩
  · exact ⟨.segGS, rfl, rfl⟩
  · exact ⟨.lock, rfl, rfl⟩
  · exact ⟨.repne, rfl, rfl⟩
  · exact ⟨.rep, rfl, rfl⟩

/-- Prefixes are encoded in one of those bytes. -/
theorem byte_of_prefix {p : Instr} (hp : p.isPrefix = true) : ∃ b, encode p = [b] ∧ isPrefixByte b = true := by
  cases p with
  | segES | segCS | segSS | segDS | segFS | segGS | lock | repne | rep => exact ⟨_, rfl, by decide⟩
  | _ => exact absurd hp Bool.false_ne_true

/-- Where the next `n` bytes are prefixes, `n` rounds of the fetch loop end in the fault. -/
theorem stepLoop_prefixBytes (n : Nat) (s : State) (h : ∀ k < n, isPrefixByte (s.codeByte k) = true) :
    stepLoop n s = .fault .prefixRun := by
  induction n generalizing s with
  | zero => rfl
  | succ n ih =>
    obtain ⟨p, hp, hc⟩ := prefix_of_byte (h 0 n.succ_pos)
    rw [stepLoop_of_prefix hp fun k b hk => ?_]
    · exact ih _ fun k hk => by rw [codeByte_after_prefix s hp]; exact h (1 + k) (by omega)
    · rw [hc] at hk
      cases k with
      | zero => exact Option.some.inj hk
      | succ k => cases hk

/-- Settles O6, by induction on the rounds of the fetch loop. -/
theorem prefixRunIsStuck : Obligations.PrefixRunIsStuck := by
  intro s hrun h
  rw [step_of_running hrun]
  exact stepLoop_prefixBytes 65536 s.clearPrefixes fun k _ => h _

end Sys2Proof.Machine
end

/-! # What an instruction can do at most (10_state R42, R47, R60, R63) -/

section

namespace Sys2Proof.Machine

/-! ## The meanings that branch, as one next state -/

theorem jumpIf_eq (c : Cond) (d : CondDisp) (s : State) :
    jumpIf c d s = .next (if s.cond c = true then s.jumpRel d.value else s) := (apply_ite _ _ _ _).symm

theorem execJcxz_eq (d : Byte) (s : State) :
    execJcxz d s = .next (if s.reg .cx = 0#16 then s.jumpRel (d.signExtend 16) else s) := (apply_ite _ _ _ _).symm

theorem loopWhile_eq (test : Bool → Bool) (d : Byte) (s : State) :
    loopWhile test d s = .next (if s.reg .cx - 1#16 ≠ 0#16 ∧ test (s.flag .zf) = true
      then s.decCx.jumpRel (d.signExtend 16) else s.decCx) := by
  have hcx : s.decCx.reg .cx = s.reg .cx - 1#16 := reg_decCx s
  have hzf : s.decCx.flag .zf = s.flag .zf := State.flag_congr (State.setReg_flags ..) _
  rw [← hcx, ← hzf]
  exact (apply_ite _ _ _ _).symm

/-- The state after a shift or rotate (43_shift_rotate R320). -/
def shifted (op : ShiftOp) (f : ShiftForm) (s : State) : State :=
  let x := f.args s
  let p := shiftSteps op x.count (s.readPlace x.w x.dst) (s.flag .cf)
  if x.count = 0 then s
  else (s.writePlace x.w x.dst p.1).setShiftFlags op x.count (s.readPlace x.w x.dst) p.1 p.2

theorem shiftRun_eq (op : ShiftOp) (f : ShiftForm) (s : State) : shiftRun op f s = .next (shifted op f s) :=
  (apply_ite _ _ _ _).symm

/-- The state after a string instruction (44_string R360). -/
def strung (once : State → State) (stop : State → Bool) (s : State) : State :=
  match s.rep with
  | none => once s
  | some _ => repeatLoop once stop (s.reg .cx).toNat s

theorem stringMeaning_eq (once : State → State) (stop : State → Bool) (s : State) :
    stringMeaning once stop s = .next (strung once stop s) := by
  unfold stringMeaning strung
  cases s.rep <;> rfl

theorem execAaa_eq (s : State) :
    execAaa s = .next (if asciiAdjusts (s.half .al) (s.flag .af) = true then s.setAscii (s.half .al + 6#8) (s.half .ah + 1#8) true
      else s.setAscii (s.half .al) (s.half .ah) false) := (apply_ite _ _ _ _).symm

theorem execAas_eq (s : State) :
    execAas s = .next (if asciiAdjusts (s.half .al) (s.flag .af) = true then s.setAscii (s.half .al - 6#8) (s.half .ah - 1#8) true
      else s.setAscii (s.half .al) (s.half .ah) false) := (apply_ite _ _ _ _).symm

theorem ifExt186_present {s : State} (h : s.ext186 = .present) (o : Outcome) : s.ifExt186 o = o := by
  rw [State.ifExt186, h]

theorem ifExt186_refused {s : State} (h : s.ext186 ≠ .present) (o : Outcome) : s.ifExt186 o = .refused .ext186NotPresent := by
  unfold State.ifExt186
  split
  · exact absurd ‹_› h
  all_goals rfl

/-! ## The bound -/

/-- No more than an instruction may do that neither halts nor takes an interrupt: the tables and the halt state stay, the segment
registers stay if `P`, FLAGS stays if `Q`, and the invariant is kept. -/
structure Tame (P Q : Prop) (s t : State) : Prop where
  tables : t.handlers = s.handlers ∧ t.ports = s.ports ∧ t.ext186 = s.ext186
  halt : t.halted = s.halted ∧ t.haltReason = s.haltReason
  segs : P → t.segs = s.segs
  flags : Q → t.flags = s.flags
  inv : s.Inv → t.Inv

section
variable {P Q : Prop} {s t u : State}

theorem Tame.refl (s : State) : Tame P Q s s := ⟨⟨rfl, rfl, rfl⟩, ⟨rfl, rfl⟩, fun _ => rfl, fun _ => rfl, id⟩

theorem Tame.trans (h : Tame P Q s t) (k : Tame P Q t u) : Tame P Q s u where
  tables := ⟨k.tables.1.trans h.tables.1, k.tables.2.1.trans h.tables.2.1, k.tables.2.2.trans h.tables.2.2⟩
  halt := ⟨k.halt.1.trans h.halt.1, k.halt.2.trans h.halt.2⟩
  segs p := (k.segs p).trans (h.segs p)
  flags q := (k.flags q).trans (h.flags q)
  inv i := k.inv (h.inv i)

theorem Tame.ite {c : Prop} [Decidable c] (h : Tame P Q s t) (k : Tame P Q s u) : Tame P Q s (if c then t else u) := by
  split <;> assumption

/-- A frame without a segment register and without a flag. -/
theorem Tame.of_frame {x : Touched} (h : OnlyChanges x s t) (hp : P → x.segs = []) (hq : Q → x.flags = []) (hi : s.Inv → t.Inv) :
    Tame P Q s t := by
  obtain ⟨hh, hr, -, -, hx, hn, hpo, -⟩ := h.rest
  exact ⟨⟨hn, hpo, hx⟩, ⟨hh, hr⟩, fun p => h.segs_eq (hp p), fun q => h.flags_eq (hq q), hi⟩

/-- A change of none of the fields that `Tame` speaks of. -/
theorem Tame.of_same (ht : t.handlers = s.handlers ∧ t.ports = s.ports ∧ t.ext186 = s.ext186)
    (hh : t.halted = s.halted ∧ t.haltReason = s.haltReason) (hs : t.segs = s.segs) (hf : t.flags = s.flags)
    (hm : t.mem = s.mem) : Tame P Q s t :=
  ⟨ht, hh, fun _ => hs, fun _ => hf, fun i => i.of_same hm hf hh.1 hh.2⟩

end

/-! ## The operations within the bound -/

section
variable {P Q : Prop} (s : State)

theorem tame_setReg (r : Reg16) (v : Word) : Tame P Q s (s.setReg r v) :=
  .of_same ⟨rfl, rfl, rfl⟩ ⟨rfl, rfl⟩ rfl rfl rfl

theorem tame_setHalf (h : Reg8) (v : Byte) : Tame P Q s (s.setHalf h v) := tame_setReg s _ _

theorem tame_setRegW (w : Width) (i : RegNum) (v : BitVec w.bits) : Tame P Q s (s.setRegW w i v) := by
  cases w <;> exact tame_setReg s _ _

theorem tame_setIp (v : Word) : Tame P Q s (s.setIp v) := .of_same ⟨rfl, rfl, rfl⟩ ⟨rfl, rfl⟩ rfl rfl rfl

theorem tame_release (n : Word) : Tame P Q s (s.release n) := tame_setReg s _ _

theorem tame_writeMem (w : Width) (seg off : Word) (v : BitVec w.bits) : Tame P Q s (s.writeMem w seg off v) :=
  .of_frame (onlyChanges_writeMem w s seg off v) (fun _ => rfl) (fun _ => rfl) fun h => h.writeMem w seg off v

theorem tame_writePlace (w : Width) (p : Place) (v : BitVec w.bits) : Tame P Q s (s.writePlace w p v) := by
  cases p with
  | reg i => exact tame_setRegW s w i v
  | mem seg off => exact tame_writeMem s w seg off v

theorem tame_push16 (v : Word) : Tame P Q s (s.push16 v) := (tame_setReg s .sp (s.reg .sp - 2#16)).trans (tame_writeMem _ .word _ _ v)

theorem tame_popInto (r : Reg16) : Tame P Q s (s.popInto r) := (tame_release s _).trans (tame_setReg _ _ _)

theorem tame_portRead (w : Width) (p : Word) : Tame P Q s (s.portRead w p).2 := by
  obtain ⟨hh, hr, -, -, hx, hn, hp, -⟩ := (onlyChanges_portRead w s p).rest
  exact .of_same ⟨hn, hp, hx⟩ ⟨hh, hr⟩ (State.portRead_segs w s p) (State.portRead_flags w s p) (State.portRead_mem w s p)

theorem tame_portWrite (w : Width) (p : Word) (v : BitVec w.bits) : Tame P Q s (s.portWrite w p v) := by
  rw [portWrite_eq]
  exact .of_same ⟨rfl, rfl, rfl⟩ ⟨rfl, rfl⟩ rfl rfl rfl

theorem tame_setProduct (w : Width) (p : Int) : Tame P Q s (s.setProduct w p) := by
  cases w with
  | byte => exact tame_setReg s _ _
  | word => exact (tame_setReg s _ _).trans (tame_setReg _ _ _)

theorem tame_setQuotRem (w : Width) (q r : Int) : Tame P Q s (s.setQuotRem w q r) := by
  cases w with
  | byte => exact (tame_setHalf s _ _).trans (tame_setHalf _ _ _)
  | word => exact (tame_setReg s _ _).trans (tame_setReg _ _ _)

theorem tame_copyDisplay (n : Nat) : Tame P Q s (copyDisplay n s) := by
  induction n generalizing s with
  | zero => exact .refl s
  | succ n ih => exact ((tame_setReg s _ _).trans (tame_push16 _ _)).trans (ih _)

theorem tame_repeatLoop {once : State → State} (stop : State → Bool) (h : ∀ s, Tame P Q s (once s)) (n : Nat) :
    Tame P Q s (repeatLoop once stop n s) :=
  repeatLoop_induct (Tame P Q) Tame.refl (fun s _ k => ((h s).trans (tame_setReg _ _ _)).trans k) n s

theorem tame_strung {once : State → State} (stop : State → Bool) (h : ∀ s, Tame P Q s (once s)) :
    Tame P Q s (strung once stop s) := by
  unfold strung
  split
  · exact h s
  · exact tame_repeatLoop s stop h _

section
variable (hp : ¬P)
include hp

theorem tame_setSeg (r : SReg) (v : Word) : Tame P Q s (s.setSeg r v) :=
  .of_frame (onlyChanges_setSeg s r v) (fun p => absurd p hp) (fun _ => rfl) fun h => h.setSeg r v

theorem tame_jumpFar (seg off : Word) : Tame P Q s (s.jumpFar seg off) := (tame_setSeg s hp _ _).trans (tame_setIp _ _)

theorem tame_popSegInto (r : SReg) : Tame P Q s (s.popSegInto r) := (tame_release s _).trans (tame_setSeg _ hp _ _)

theorem tame_retFar : Tame P Q s s.retFar :=
  ((tame_release s _).trans (tame_release _ _)).trans (tame_jumpFar _ hp _ _)

theorem tame_callFar (seg off : Word) : Tame P Q s (s.callFar seg off) :=
  ((tame_push16 s _).trans (tame_push16 _ _)).trans (tame_jumpFar _ hp _ _)

end

section
variable (hq : ¬Q)
include hq

theorem tame_setFlag (f : Flag) (v : Bool) : Tame P Q s (s.setFlag f v) :=
  .of_frame (onlyChanges_setFlag s f v) (fun _ => rfl) (fun q => absurd q hq) fun h => h.setFlag f v

theorem tame_freeFlags (fs : List Flag) : Tame P Q s (s.freeFlags fs) :=
  .of_frame (onlyChanges_freeFlags s fs) (fun _ => rfl) (fun q => absurd q hq) fun h => h.freeFlags fs

theorem tame_freeFlag (f : Flag) : Tame P Q s (s.freeFlag f) := tame_freeFlags s hq [f]

theorem tame_setFlags (v : Word) : Tame P Q s (s.setFlags v) :=
  ⟨⟨rfl, rfl, rfl⟩, ⟨rfl, rfl⟩, fun _ => rfl, fun q => absurd q hq, fun h => h.setFlags v⟩

theorem tame_setSZP {w : Nat} (r : BitVec w) : Tame P Q s (s.setSZP r) :=
  .of_frame (onlyChanges_setSZP s r) (fun _ => rfl) (fun q => absurd q hq) fun h => h.setSZP r

theorem tame_setArithKeepCF {w : Nat} (o : Arith w) : Tame P Q s (s.setArithKeepCF o) :=
  .of_frame (onlyChanges_setArithKeepCF s o) (fun _ => rfl) (fun q => absurd q hq) fun h => h.setArithKeepCF o

theorem tame_setArith {w : Nat} (o : Arith w) : Tame P Q s (s.setArith o) :=
  .of_frame (onlyChanges_setArith s o) (fun _ => rfl) (fun q => absurd q hq) fun h => h.setArith o

theorem tame_setLogic {w : Nat} (r : BitVec w) : Tame P Q s (s.setLogic r) :=
  .of_frame (onlyChanges_setLogic s r) (fun _ => rfl) (fun q => absurd q hq) fun h => h.setLogic r

theorem tame_setMulFlags (v : Bool) : Tame P Q s (s.setMulFlags v) :=
  ((tame_setFlag s hq _ _).trans (tame_setFlag _ hq _ _)).trans (tame_freeFlags _ hq _)

theorem tame_setShiftFlags {w : Nat} (op : ShiftOp) (n : Nat) (a r : BitVec w) (cf : Bool) :
    Tame P Q s (s.setShiftFlags op n a r cf) :=
  ((tame_setFlag s hq _ _).trans (.ite (tame_setFlag _ hq _ _) (tame_freeFlag _ hq _))).trans
    (.ite (.refl _) ((tame_setSZP _ hq _).trans (tame_freeFlag _ hq _)))

theorem tame_shifted (op : ShiftOp) (f : ShiftForm) : Tame P Q s (shifted op f s) :=
  .ite (.refl s) ((tame_writePlace s _ _ _).trans (tame_setShiftFlags _ hq _ _ _ _ _))

theorem tame_setDecimal (x : Byte × Bool × Bool) : Tame P Q s (s.setDecimal x) :=
  ((((tame_setHalf s _ _).trans (tame_setFlag _ hq _ _)).trans (tame_setFlag _ hq _ _)).trans (tame_setSZP _ hq _)).trans
    (tame_freeFlag _ hq _)

theorem tame_setAscii (al ah : Byte) (v : Bool) : Tame P Q s (s.setAscii al ah v) :=
  ((((tame_setHalf s _ _).trans (tame_setHalf _ _ _)).trans (tame_setFlag _ hq _ _)).trans (tame_setFlag _ hq _ _)).trans
    (tame_freeFlags _ hq _)

end

end

end Sys2Proof.Machine
end

/-! # What an instruction can do: one case split, and the statements that follow from it -/

section

namespace Sys2Proof.Machine

/-- The instruction goes on to `t`, on a machine that has it (30_encoding R160). -/
def Runs (i : Instr) (s t : State) : Prop := exec i s = if i.isX186 = true then s.ifExt186 (.next t) else .next t

section
variable {i : Instr} {s t : State}

theorem runs_of_next (hx : i.isX186 = false) (h : exec i s = .next t) : Runs i s t := by
  rw [Runs, hx, h]
  rfl

theorem runs_of_x186 (hx : i.isX186 = true) (h : exec i s = s.ifExt186 (.next t)) : Runs i s t := by
  rw [Runs, if_pos hx, h]

theorem Runs.eq_of_next {u : State} (h : Runs i s t) (hu : exec i s = .next u) : u = t := by
  rw [Runs, hu] at h
  split at h
  · by_cases hx : s.ext186 = .present
    · rw [ifExt186_present hx] at h
      exact Host.Outcome.next.inj h
    · rw [ifExt186_refused hx] at h
      cases h
  · exact Host.Outcome.next.inj h

end

/-- What an instruction may change, by the families of the spec (10_state R42, R47). -/
abbrev TameFor (i : Instr) (s t : State) : Prop := Tame (i.mayWriteSegment = false) (i.leavesFlags = true) s t

theorem runs_shift {i : Instr} {op : ShiftOp} {f : ShiftForm} {s : State} (hi : ∀ s, exec i s = shiftMeaning op f s)
    (hx : i.isX186 = match f with | .imm _ _ _ => true | _ => false) : Runs i s (shifted op f s) := by
  cases f with
  | one w e => exact runs_of_next hx ((hi s).trans (shiftRun_eq op (.one w e) s))
  | cl w e => exact runs_of_next hx ((hi s).trans (shiftRun_eq op (.cl w e) s))
  | imm w e v => exact runs_of_x186 hx ((hi s).trans (congrArg s.ifExt186 (shiftRun_eq op (.imm w e v) s)))

theorem flagsNormal_sahf {w : Word} (h : flagsNormal w = true) (b : Byte) :
    flagsNormal ((w &&& 0xFF00#16) ||| (b.setWidth 16 &&& 0x00D5#16) ||| 0x0002#16) = true := by
  rw [flagsNormal_iff] at h ⊢
  obtain ⟨-, h⟩ := h
  simp only [List.forall_mem_cons, List.not_mem_nil, false_implies, implies_true, and_true] at h ⊢
  obtain ⟨-, -, h12, h13, h14, h15⟩ := h
  simpa using ⟨h12, h13, h14, h15⟩

/-! ## One iteration of a string instruction -/

section
variable {P Q : Prop} (w : Width) (s : State)

theorem tame_stepSi : Tame P Q s (s.stepSi w) := tame_setReg s _ _
theorem tame_stepDi : Tame P Q s (s.stepDi w) := tame_setReg s _ _
theorem tame_setDestElem (v : BitVec w.bits) : Tame P Q s (s.setDestElem w v) := tame_writeMem s _ _ _ _

theorem tame_movsOnce : Tame P Q s (movsOnce w s) :=
  ((tame_setDestElem w s _).trans (tame_stepSi w _)).trans (tame_stepDi w _)

theorem tame_stosOnce : Tame P Q s (stosOnce w s) := (tame_setDestElem w s _).trans (tame_stepDi w _)

theorem tame_lodsOnce : Tame P Q s (lodsOnce w s) := (tame_setRegW s w _ _).trans (tame_stepSi w _)

theorem tame_insOnce : Tame P Q s (insOnce w s) :=
  ((tame_portRead s w _).trans (tame_setDestElem w _ _)).trans (tame_stepDi w _)

theorem tame_outsOnce : Tame P Q s (outsOnce w s) := (tame_portWrite s w _ _).trans (tame_stepSi w _)

variable (hq : ¬Q)
include hq

theorem tame_cmpsOnce : Tame P Q s (cmpsOnce w s) :=
  ((tame_setArith s hq _).trans (tame_stepSi w _)).trans (tame_stepDi w _)

theorem tame_scasOnce : Tame P Q s (scasOnce w s) := (tame_setArith s hq _).trans (tame_stepDi w _)

end

theorem tame_looped {P Q : Prop} (s : State) (c : Prop) [Decidable c] (d : Word) :
    Tame P Q s (if c then s.decCx.jumpRel d else s.decCx) :=
  .ite ((tame_setReg s _ _).trans (tame_setIp _ _)) (tame_setReg s _ _)

/-! ## The case split -/

/-- Every instruction but HLT, the causes of an interrupt and the reserved encodings goes on, and stays within the bound. -/
theorem exec_runs (i : Instr) (s : State) (hh : i ≠ .hlt) (hv : i.vector = none) (hr : ∀ op m, i ≠ .reserved op m) :
    ∃ t, Runs i s t ∧ TameFor i s t := by
  cases i with
  | hlt => exact absurd rfl hh
  | reserved op m => exact absurd rfl (hr op m)
  | int | int3 | into | bound | div | idiv | aam => cases hv
  | add f | adc f | sub f | sbb f =>
    exact ⟨_, rfl, (tame_writePlace s _ _ _).trans (tame_setArith _ Bool.false_ne_true _)⟩
  | cmp f => exact ⟨_, rfl, tame_setArith s Bool.false_ne_true _⟩
  | and f | or f | xor f => exact ⟨_, rfl, (tame_writePlace s _ _ _).trans (tame_setLogic _ Bool.false_ne_true _)⟩
  | test f => exact ⟨_, rfl, tame_setLogic s Bool.false_ne_true _⟩
  | incReg | incRm | decReg | decRm =>
    exact ⟨_, rfl, (tame_writePlace s _ _ _).trans (tame_setArithKeepCF _ Bool.false_ne_true _)⟩
  | neg w e => exact ⟨_, rfl, (tame_writePlace s _ _ _).trans (tame_setArith _ Bool.false_ne_true _)⟩
  | not w e => exact ⟨_, rfl, tame_writePlace s _ _ _⟩
  | mul w e => exact ⟨_, rfl, (tame_setProduct s _ _).trans (tame_setMulFlags _ Bool.false_ne_true _)⟩
  | imul w e => exact ⟨_, rfl, (tame_setProduct s _ _).trans (tame_setMulFlags _ Bool.false_ne_true _)⟩
  | imulImm16 | imulSimm8 => exact ⟨_, rfl, (tame_setReg s _ _).trans (tame_setMulFlags _ Bool.false_ne_true _)⟩
  | cbw | cwd | lea | movzx | movsx => exact ⟨_, rfl, tame_setReg s _ _⟩
  | daa | das => exact ⟨_, rfl, tame_setDecimal s Bool.false_ne_true _⟩
  | aaa =>
    exact ⟨_, execAaa_eq s, .ite (tame_setAscii s Bool.false_ne_true _ _ _) (tame_setAscii s Bool.false_ne_true _ _ _)⟩
  | aas =>
    exact ⟨_, execAas_eq s, .ite (tame_setAscii s Bool.false_ne_true _ _ _) (tame_setAscii s Bool.false_ne_true _ _ _)⟩
  | aad b =>
    exact ⟨_, rfl, (((tame_setHalf s _ _).trans (tame_setHalf _ _ _)).trans (tame_setSZP _ Bool.false_ne_true _)).trans
      (tame_freeFlags _ Bool.false_ne_true _)⟩
  | rol f => exact ⟨_, runs_shift (fun _ => rfl) (by cases f <;> rfl), tame_shifted s Bool.false_ne_true _ f⟩
  | ror f => exact ⟨_, runs_shift (fun _ => rfl) (by cases f <;> rfl), tame_shifted s Bool.false_ne_true _ f⟩
  | rcl f => exact ⟨_, runs_shift (fun _ => rfl) (by cases f <;> rfl), tame_shifted s Bool.false_ne_true _ f⟩
  | rcr f => exact ⟨_, runs_shift (fun _ => rfl) (by cases f <;> rfl), tame_shifted s Bool.false_ne_true _ f⟩
  | shl f => exact ⟨_, runs_shift (fun _ => rfl) (by cases f <;> rfl), tame_shifted s Bool.false_ne_true _ f⟩
  | shr f => exact ⟨_, runs_shift (fun _ => rfl) (by cases f <;> rfl), tame_shifted s Bool.false_ne_true _ f⟩
  | sal f => exact ⟨_, runs_shift (fun _ => rfl) (by cases f <;> rfl), tame_shifted s Bool.false_ne_true _ f⟩
  | sar f => exact ⟨_, runs_shift (fun _ => rfl) (by cases f <;> rfl), tame_shifted s Bool.false_ne_true _ f⟩
  | movRmReg | movRmImm8 | movRmImm16 | movRmSeg => exact ⟨_, rfl, tame_writePlace s _ _ _⟩
  | movRegRm | movRegImm8 | movRegImm16 | movAccMoffs => exact ⟨_, rfl, tame_setRegW s _ _ _⟩
  | movMoffsAcc => exact ⟨_, rfl, tame_writeMem s _ _ _ _⟩
  | movSegRm sr e => exact ⟨_, rfl, tame_setSeg s nofun _ _⟩
  | pushReg | pushRm | pushSeg | pushImm16 | pushSimm8 | pushFs | pushGs | pushf => exact ⟨_, rfl, tame_push16 s _⟩
  | popReg r => exact ⟨_, rfl, tame_popInto s _⟩
  | popRm e => exact ⟨_, rfl, (tame_release s _).trans (tame_writePlace _ _ _ _)⟩
  | popSeg | popFs | popGs => exact ⟨_, rfl, tame_popSegInto s nofun _⟩
  | popf => exact ⟨_, rfl, (tame_release s _).trans (tame_setFlags _ Bool.false_ne_true _)⟩
  | xchgRm w e r => exact ⟨_, rfl, (tame_writePlace s _ _ _).trans (tame_setRegW _ _ _ _)⟩
  | xchgAx r => exact ⟨_, rfl, (tame_setReg s _ _).trans (tame_setReg _ _ _)⟩
  | xlat | lahf => exact ⟨_, rfl, tame_setHalf s _ _⟩
  | lds | les => exact ⟨_, rfl, (tame_setReg s _ _).trans (tame_setSeg _ nofun _ _)⟩
  | sahf => exact ⟨_, rfl, ⟨rfl, rfl, rfl⟩, ⟨rfl, rfl⟩, fun _ => rfl, nofun, fun ⟨hm, hf, hh⟩ => ⟨hm, flagsNormal_sahf hf _, hh⟩⟩
  | movsb | movsw => exact ⟨_, stringMeaning_eq .., tame_strung s _ (tame_movsOnce _)⟩
  | stosb | stosw => exact ⟨_, stringMeaning_eq .., tame_strung s _ (tame_stosOnce _)⟩
  | lodsb | lodsw => exact ⟨_, stringMeaning_eq .., tame_strung s _ (tame_lodsOnce _)⟩
  | cmpsb | cmpsw => exact ⟨_, stringMeaning_eq .., tame_strung s _ fun u => tame_cmpsOnce _ u Bool.false_ne_true⟩
  | scasb | scasw => exact ⟨_, stringMeaning_eq .., tame_strung s _ fun u => tame_scasOnce _ u Bool.false_ne_true⟩
  | insb | insw => exact ⟨_, congrArg s.ifExt186 (stringMeaning_eq ..), tame_strung s _ (tame_insOnce _)⟩
  | outsb | outsw => exact ⟨_, congrArg s.ifExt186 (stringMeaning_eq ..), tame_strung s _ (tame_outsOnce _)⟩
  | jmpShort | jmpNear | jmpRm => exact ⟨_, rfl, tame_setIp s _⟩
  | jmpFar | jmpFarMem => exact ⟨_, rfl, tame_jumpFar s nofun _ _⟩
  | callNear | callRm => exact ⟨_, rfl, (tame_push16 s _).trans (tame_setIp _ _)⟩
  | callFar | callFarMem => exact ⟨_, rfl, tame_callFar s nofun _ _⟩
  | ret => exact ⟨_, rfl, (tame_release s _).trans (tame_setIp _ _)⟩
  | retImm n => exact ⟨_, rfl, ((tame_release s _).trans (tame_setIp _ _)).trans (tame_release _ _)⟩
  | retf => exact ⟨_, rfl, tame_retFar s nofun⟩
  | retfImm n => exact ⟨_, rfl, (tame_retFar s nofun).trans (tame_release _ _)⟩
  | jo | jno | jb | jae | je | jne | jbe | ja | js | jns | jp | jnp | jl | jge | jle | jg =>
    exact ⟨_, jumpIf_eq .., .ite (tame_setIp s _) (.refl s)⟩
  | jcxz d => exact ⟨_, execJcxz_eq .., .ite (tame_setIp s _) (.refl s)⟩
  | loop d => exact ⟨_, loopWhile_eq (fun _ => true) d s, tame_looped s _ _⟩
  | loope d => exact ⟨_, loopWhile_eq (fun z => z) d s, tame_looped s _ _⟩
  | loopne d => exact ⟨_, loopWhile_eq (fun z => !z) d s, tame_looped s _ _⟩
  | iret => exact ⟨_, rfl, ((((tame_release s _).trans (tame_release _ _)).trans (tame_release _ _)).trans
      (tame_jumpFar _ nofun _ _)).trans (tame_setFlags _ Bool.false_ne_true _)⟩
  | inImm | inDx => exact ⟨_, rfl, (tame_portRead s _ _).trans (tame_setRegW _ _ _ _)⟩
  | outImm | outDx => exact ⟨_, rfl, tame_portWrite s _ _ _⟩
  | clc | stc | cmc | cld | std | cli | sti => exact ⟨_, rfl, tame_setFlag s Bool.false_ne_true _ _⟩
  | nop | wait | lock => exact ⟨_, rfl, .refl s⟩
  | esc | unknown | unknown0F | segES | segCS | segSS | segDS | segFS | segGS | repne | rep =>
    exact ⟨_, rfl, .of_same ⟨rfl, rfl, rfl⟩ ⟨rfl, rfl⟩ rfl rfl rfl⟩
  | pusha =>
    exact ⟨_, rfl, (((((((tame_push16 s _).trans (tame_push16 _ _)).trans (tame_push16 _ _)).trans (tame_push16 _ _)).trans
      (tame_push16 _ _)).trans (tame_push16 _ _)).trans (tame_push16 _ _)).trans (tame_push16 _ _)⟩
  | popa =>
    exact ⟨_, rfl, (((((((tame_popInto s _).trans (tame_popInto _ _)).trans (tame_popInto _ _)).trans (tame_release _ _)).trans
      (tame_popInto _ _)).trans (tame_popInto _ _)).trans (tame_popInto _ _)).trans (tame_popInto _ _)⟩
  | enter size level =>
    exact ⟨_, rfl, (((tame_push16 s _).trans (.ite (.refl _) ((tame_copyDisplay _ _).trans (tame_push16 _ _)))).trans
      (tame_setReg _ _ _)).trans (tame_setReg _ _ _)⟩
  | leave => exact ⟨_, rfl, (tame_setReg s _ _).trans (tame_popInto _ _)⟩

/-- A cause of an interrupt either takes it or stays within the bound. -/
theorem exec_vector {i : Instr} {n : Byte} (hv : i.vector = some n) (s : State) :
    ∃ t, exec i s = .next t ∧ (t = s.interrupt n ∨ TameFor i s t) := by
  cases i with
  | int m | int3 => cases hv; exact ⟨_, rfl, .inl rfl⟩
  | into =>
    cases hv
    refine ⟨_, (apply_ite Host.Outcome.next _ _ _).symm, ?_⟩
    split
    · exact .inl rfl
    · exact .inr (.refl s)
  | bound r m =>
    cases hv
    refine ⟨_, (apply_ite Host.Outcome.next _ _ _).symm, ?_⟩
    split
    · exact .inl rfl
    · exact .inr (.refl s)
  | div w e =>
    cases hv
    refine ⟨_, (apply_ite Host.Outcome.next _ _ _).symm, ?_⟩
    split
    · exact .inl rfl
    · exact .inr ((tame_setQuotRem s _ _ _).trans (tame_freeFlags _ Bool.false_ne_true _))
  | idiv w e =>
    cases hv
    unfold exec execIdiv
    dsimp only
    split
    · exact ⟨_, rfl, .inl rfl⟩
    · split
      · exact ⟨_, rfl, .inl rfl⟩
      · exact ⟨_, rfl, .inr ((tame_setQuotRem s _ _ _).trans (tame_freeFlags _ Bool.false_ne_true _))⟩
  | aam b =>
    cases hv
    refine ⟨_, (apply_ite Host.Outcome.next _ _ _).symm, ?_⟩
    split
    · exact .inl rfl
    · exact .inr ((((tame_setHalf s _ _).trans (tame_setHalf _ _ _)).trans (tame_setSZP _ Bool.false_ne_true _)).trans
        (tame_freeFlags _ Bool.false_ne_true _))
  | _ => cases hv

end Sys2Proof.Machine
end

section

namespace Sys2Proof.Machine

/-! ## What a registered handler can do (60_exceptions R610-R622) -/

/-- A handler leaves the tables alone, keeps the invariant, and halts with one of its two reasons only. -/
structure HandlerMay (s t : State) : Prop where
  tables : t.handlers = s.handlers ∧ t.ports = s.ports ∧ t.ext186 = s.ext186
  inv : s.Inv → t.Inv
  halt : s.halted = false → t.halted = true → t.haltReason = .programExit ∨ t.haltReason = .keyWait

theorem HandlerMay.of_tame {s t : State} (h : Tame True True s t) : HandlerMay s t :=
  ⟨h.tables, h.inv, fun hs ht => by rw [h.halt.1, hs] at ht; cases ht⟩

theorem HandlerMay.of_halt {s t : State} {r : HaltReason} (h : Tame True True s t) (hr : r = .programExit ∨ r = .keyWait) :
    HandlerMay s (t.halt r) := by
  refine ⟨h.tables, fun hi => ?_, fun _ _ => hr⟩
  obtain ⟨hm, hf, -⟩ := h.inv hi
  exact ⟨hm, hf, by rcases hr with rfl | rfl <;> rfl⟩

theorem writeBytes_eq (ws : List (Addr × Byte)) (s : State) :
    ∃ m, s.writeBytes ws = { s with mem := m } ∧ (s.mem.wf = true → m.wf = true) := by
  induction ws generalizing s with
  | nil => exact ⟨s.mem, rfl, id⟩
  | cons w ws ih =>
    obtain ⟨m, hm, hwf⟩ := ih (s.memWrite8 w.1 w.2)
    exact ⟨m, hm, fun h => hwf (State.wf_memWrite8 _ _ h)⟩

theorem handlerMay_afterService (s : State) (r : ServiceResult) : HandlerMay s (s.afterService r) := by
  obtain ⟨m, hm, hwf⟩ := writeBytes_eq r.writes s
  unfold State.afterService
  rw [hm]
  cases r.halt with
  | running => exact ⟨⟨rfl, rfl, rfl⟩, fun h => ⟨hwf h.1, flagsNormal_norm _, rfl⟩, fun _ => nofun⟩
  | programExit => exact ⟨⟨rfl, rfl, rfl⟩, fun h => ⟨hwf h.1, flagsNormal_norm _, rfl⟩, fun _ _ => .inl rfl⟩
  | keyWait => exact ⟨⟨rfl, rfl, rfl⟩, fun h => ⟨hwf h.1, flagsNormal_norm _, rfl⟩, fun _ _ => .inr rfl⟩

theorem handlerMay_runService (s : State) (n : Byte) : HandlerMay s (s.runService n) := by
  obtain ⟨ht, hi, hh⟩ := handlerMay_afterService { s with draws := s.draws + 1 } (Config.service s.draws n s.seenByHandler)
  exact ⟨ht, fun h => hi (h.of_same rfl rfl rfl rfl), hh⟩

theorem handlerMay_runHandler (s : State) (h : Handler) (n : Byte) : HandlerMay s (s.runHandler h n) := by
  cases h with
  | programExit => exact .of_halt (.refl s) (.inl rfl)
  | dos =>
    unfold State.runHandler
    dsimp only
    split
    · exact .of_halt (.refl s) (.inl rfl)
    · exact handlerMay_runService s n
  | keyboard =>
    unfold State.runHandler
    dsimp only
    split
    · split
      · exact .of_halt (tame_setIp s _) (.inr rfl)
      · exact .of_tame (.of_same ⟨rfl, rfl, rfl⟩ ⟨rfl, rfl⟩ rfl rfl rfl)
    · exact handlerMay_runService s n
  | service => exact handlerMay_runService s n

/-! ## What an interrupt can do (60_exceptions R601-R604) -/

theorem tame_pushFrame (s : State) : Tame True False s s.pushFrame := by
  rw [pushFrame_eq]
  exact ((((tame_push16 s _).trans (tame_setFlag _ id _ _)).trans (tame_setFlag _ id _ _)).trans (tame_push16 _ _)).trans
    (tame_push16 _ _)

theorem tame_enterVector (s : State) (n : Byte) : Tame False True s (s.enterVector n) := tame_jumpFar s id _ _

/-- An interrupt leaves the tables alone, keeps the invariant, and halts a machine only where a handler is registered, with a
reason of its own. -/
theorem interrupt_may (s : State) (n : Byte) :
    ((s.interrupt n).handlers = s.handlers ∧ (s.interrupt n).ports = s.ports ∧ (s.interrupt n).ext186 = s.ext186) ∧
    (s.Inv → (s.interrupt n).Inv) ∧
    (s.halted = false → (s.interrupt n).halted = true → (∃ h, lookupHandler s.handlers n = some h) ∧
      ((s.interrupt n).haltReason = .programExit ∨ (s.interrupt n).haltReason = .keyWait)) := by
  have hf := tame_pushFrame s
  have hrun : s.halted = false → s.pushFrame.halted = false := hf.halt.1.trans
  obtain ⟨hn, hp, hx⟩ := hf.tables
  cases hl : lookupHandler s.handlers n with
  | none =>
    rw [interrupt_unregistered hl]
    have hv := tame_enterVector s.pushFrame n
    obtain ⟨hn', hp', hx'⟩ := hv.tables
    refine ⟨⟨hn'.trans hn, hp'.trans hp, hx'.trans hx⟩, fun h => hv.inv (hf.inv h), fun hs ht => ?_⟩
    rw [hv.halt.1, hrun hs] at ht
    cases ht
  | some h =>
    rw [interrupt_registered hl]
    obtain ⟨⟨hn', hp', hx'⟩, hi, hh⟩ := handlerMay_runHandler s.pushFrame h n
    exact ⟨⟨hn'.trans hn, hp'.trans hp, hx'.trans hx⟩, fun k => (hi (hf.inv k)).setReg _ _,
      fun hs ht => ⟨⟨h, rfl⟩, hh (hrun hs) ht⟩⟩

/-! ## The statements about what a step may change -/

/-- What an instruction that goes on has done: HLT, an interrupt, or something within the bound. -/
theorem exec_next {i : Instr} {s t : State} (h : exec i s = .next t) :
    (i = .hlt ∧ t = s.halt .hlt) ∨ (∃ n, i.vector = some n ∧ t = s.interrupt n) ∨ TameFor i s t := by
  by_cases hh : i = .hlt
  · subst hh
    exact .inl ⟨rfl, (Host.Outcome.next.inj h).symm⟩
  cases hv : i.vector with
  | some n =>
    obtain ⟨u, hu, hc⟩ := exec_vector hv s
    obtain rfl : t = u := Host.Outcome.next.inj (h.symm.trans hu)
    exact .inr (hc.imp (fun e => ⟨n, rfl, e⟩) id)
  | none =>
    have hr (op m : Byte) : i ≠ .reserved op m := by rintro rfl; cases h
    obtain ⟨u, hu, hc⟩ := exec_runs i s hh hv hr
    obtain rfl : t = u := hu.eq_of_next h
    exact .inr (.inr hc)

/-- An instruction keeps the tables and the invariant. -/
theorem exec_keeps {i : Instr} {s t : State} (h : exec i s = .next t) :
    (t.handlers = s.handlers ∧ t.ports = s.ports ∧ t.ext186 = s.ext186) ∧ (s.Inv → t.Inv) := by
  rcases exec_next h with ⟨-, rfl⟩ | ⟨n, -, rfl⟩ | ht
  · exact ⟨⟨rfl, rfl, rfl⟩, fun ⟨hm, hf, _⟩ => ⟨hm, hf, rfl⟩⟩
  · exact ⟨(interrupt_may s n).1, (interrupt_may s n).2.1⟩
  · exact ⟨ht.tables, ht.inv⟩

/-- What every instruction keeps, a step keeps: a relation of the states, reflexive and transitive, that clearing the fields of the prefixes
and moving IP respect. -/
theorem step_induct {R : State → State → Prop} (hrefl : ∀ s, R s s) (htrans : ∀ s t u, R s t → R t u → R s u)
    (hclear : ∀ s : State, R s s.clearPrefixes) (hip : ∀ (s : State) v, R s (s.setIp v))
    (hexec : ∀ i s t, exec i s = .next t → R s t) {s t : State} (h : step s = .next t) : R s t := by
  have hloop (n : Nat) (s : State) (h : stepLoop n s = .next t) : R s t := by
    induction n generalizing s with
    | zero => cases h
    | succ n ih =>
      obtain ⟨i, hf, -, -⟩ := fetched_total s
      have hadv : R s (s.advance (encode i).length) := hip s _
      cases hp : i.isPrefix with
      | false => exact htrans _ _ _ hadv (hexec i _ t ((stepLoop_instruction hf hp n).symm.trans h))
      | true =>
        have he := (prefix_spec hp (s.advance (encode i).length)).2.2
        exact htrans _ _ _ (htrans _ _ _ hadv (hexec i _ _ he)) (ih _ ((stepLoop_prefix hf hp he n).symm.trans h))
  cases hs : s.halted with
  | true =>
    rw [step, hs] at h
    obtain rfl : s = t := Host.Outcome.next.inj h
    exact hrefl s
  | false => exact htrans _ _ _ (hclear s) (hloop _ _ ((step_of_running hs).symm.trans h))

/-- Settles O7: every instruction keeps the invariant, so a step does. -/
theorem everyStepKeepsTheInvariant : Obligations.EveryStepKeepsTheInvariant := by
  intro s t hi h
  exact step_induct (R := fun s t => s.Inv → t.Inv) (fun _ => id) (fun _ _ _ h k => k ∘ h)
    (fun _ h => h.of_same rfl rfl rfl rfl) (fun _ _ h => h.setIp _) (fun _ _ _ h => (exec_keeps h).2) h hi

/-- Settles O11: no instruction changes a table, so no step does. -/
theorem noStepChangesTheTables : Obligations.NoStepChangesTheTables := by
  intro s t h
  exact step_induct (R := fun s t => t.handlers = s.handlers ∧ t.ports = s.ports ∧ t.ext186 = s.ext186)
    (fun _ => ⟨rfl, rfl, rfl⟩) (fun _ _ _ h k => ⟨k.1.trans h.1, k.2.1.trans h.2.1, k.2.2.trans h.2.2⟩)
    (fun _ => ⟨rfl, rfl, rfl⟩) (fun _ _ => ⟨rfl, rfl, rfl⟩) (fun _ _ _ h => (exec_keeps h).1) h

/-- The causes of an interrupt are among the instructions that may write a segment register, and FLAGS. -/
theorem writers_of_vector {i : Instr} {n : Byte} (h : i.vector = some n) :
    i.mayWriteSegment = true ∧ i.leavesFlags = false := by
  cases i with
  | int | int3 | into | bound | div | idiv | aam => exact ⟨rfl, rfl⟩
  | _ => cases h

/-- Settles O12, by what an instruction can do. -/
theorem segmentRegistersHaveFewWriters : Obligations.SegmentRegistersHaveFewWriters := by
  intro i s t hw h
  rcases exec_next h with ⟨-, rfl⟩ | ⟨n, hv, -⟩ | ht
  · rfl
  · rw [(writers_of_vector hv).1] at hw
    cases hw
  · exact ht.segs hw

/-- Settles O13, by what an instruction can do. -/
theorem flagsAreLeftAlone : Obligations.FlagsAreLeftAlone := by
  intro i s t hl h
  rcases exec_next h with ⟨-, rfl⟩ | ⟨n, hv, -⟩ | ht
  · rfl
  · rw [(writers_of_vector hv).2] at hl
    cases hl
  · exact ht.flags hl

/-- Settles O14, by what an instruction can do: within the bound the halt state stays. -/
theorem onlyHltAndHandlersHalt : Obligations.OnlyHltAndHandlersHalt := by
  intro i s t h hs hhalt
  rcases exec_next h with ⟨rfl, rfl⟩ | ⟨n, hv, rfl⟩ | ht
  · exact .inl ⟨rfl, rfl⟩
  · obtain ⟨⟨k, hk⟩, hr⟩ := (interrupt_may s n).2.2 hs hhalt
    exact .inr ⟨⟨n, k, hv, hk⟩, hr⟩
  · rw [ht.halt.1, hs] at hhalt
    cases hhalt

/-! ## Reset, the halted machine -/

/-- Settles O8. -/
theorem resetMeetsTheInvariant : Obligations.ResetMeetsTheInvariant := ⟨rfl, rfl, rfl⟩

/-- Settles O9: the register values by the case split over the registers. -/
theorem resetValues : Obligations.ResetValues :=
  ⟨fun r => by cases r <;> rfl, fun r => by cases r <;> rfl, rfl, rfl, rfl, rfl, rfl, rfl, rfl, rfl⟩

/-- Settles O55: a step and Wake each look at the halt state first. -/
theorem haltedUntilWoken : Obligations.HaltedUntilWoken := by
  intro s
  refine ⟨fun h => if_pos h, fun h => by rw [State.wake, h], fun h => ?_⟩
  unfold State.wake
  split
  · exact absurd ‹_› h
  all_goals rfl

/-! ## The stops of a step (30_encoding R128, R159, R160) -/

/-- An instruction goes on, but for a reserved encoding, and for class x186 on a machine that has not got it. -/
theorem exec_stops (i : Instr) (s : State) :
    (∃ t, exec i s = .next t) ∨ (exec i s = .refused .reservedEncoding ∧ ∃ op m, i = .reserved op m) ∨
    (exec i s = .refused .ext186NotPresent ∧ i.isX186 = true ∧ s.ext186 ≠ .present) := by
  by_cases hh : i = .hlt
  · subst hh
    exact .inl ⟨_, rfl⟩
  by_cases hr : ∃ op m, i = .reserved op m
  · obtain ⟨op, m, rfl⟩ := hr
    exact .inr (.inl ⟨rfl, op, m, rfl⟩)
  cases hv : i.vector with
  | some n =>
    obtain ⟨u, hu, -⟩ := exec_vector hv s
    exact .inl ⟨u, hu⟩
  | none =>
    obtain ⟨u, hu, -⟩ := exec_runs i s hh hv fun op m h => hr ⟨op, m, h⟩
    rw [Runs] at hu
    split at hu
    next hx =>
      by_cases hp : s.ext186 = .present
      · exact .inl ⟨u, hu.trans (ifExt186_present hp _)⟩
      · exact .inr (.inr ⟨hu.trans (ifExt186_refused hp _), hx, hp⟩)
    next => exact .inl ⟨u, hu⟩

/-- How the fetch loop can end, by what stands at `CS:IP`. -/
theorem stepLoop_stops (n : Nat) (s : State) :
    (∃ t, stepLoop n s = .next t) ∨
    (stepLoop n s = .fault .prefixRun ∧ ∀ k < n, isPrefixByte (s.codeByte k) = true) ∨
    (∃ m i, m < n ∧ (∀ k < m, isPrefixByte (s.codeByte k) = true) ∧ i.wf s.ext186 = true ∧
      (∀ k b, (encode i)[k]? = some b → s.codeByte (m + k) = b) ∧
      ((stepLoop n s = .refused .reservedEncoding ∧ ∃ op m, i = .reserved op m) ∨
        (stepLoop n s = .refused .ext186NotPresent ∧ i.isX186 = true ∧ s.ext186 = .refuse))) := by
  induction n generalizing s with
  | zero => exact .inr (.inl ⟨rfl, fun _ h => absurd h (Nat.not_lt_zero _)⟩)
  | succ n ih =>
    obtain ⟨i, hf, hwf, hb⟩ := fetched_total s
    cases hp : i.isPrefix with
    | false =>
      rw [stepLoop_instruction hf hp]
      rcases exec_stops i (s.advance (encode i).length) with ⟨t, ht⟩ | hr | ⟨hr, hx, hne⟩
      · exact .inl ⟨t, ht⟩
      · exact .inr (.inr ⟨0, i, n.succ_pos, fun _ h => absurd h (Nat.not_lt_zero _), hwf,
          fun k b h => by rw [Nat.zero_add]; exact hb k b h, .inl hr⟩)
      · have hrefuse : s.ext186 = .refuse := by
          cases hs : s.ext186 with
          | refuse => rfl
          | present => exact absurd hs hne
          | absent => rw [hs, (x186_absent hx []).1] at hwf; cases hwf
        exact .inr (.inr ⟨0, i, n.succ_pos, fun _ h => absurd h (Nat.not_lt_zero _), hwf,
          fun k b h => by rw [Nat.zero_add]; exact hb k b h, .inr ⟨hr, hx, hrefuse⟩⟩)
    | true =>
      obtain ⟨c, hc, hcp⟩ := byte_of_prefix hp
      have hfirst : isPrefixByte (s.codeByte 0) = true := by rw [hb 0 c (by rw [hc]; rfl), hcp]
      have hrest {m : Nat} (h : ∀ k < m, isPrefixByte ((applyPrefixes [i] (s.advance 1)).codeByte k) = true) :
          ∀ k < m + 1, isPrefixByte (s.codeByte k) = true := by
        rintro (_ | k) hk
        · exact hfirst
        · rw [Nat.add_comm, ← codeByte_after_prefix s hp]
          exact h k (by omega)
      have hx : (applyPrefixes [i] (s.advance 1)).ext186 = s.ext186 := (applyPrefixes_one hp _).2.2.2.1
      rw [stepLoop_of_prefix hp hb]
      rcases ih (applyPrefixes [i] (s.advance 1)) with ht | ⟨hr, hall⟩ | ⟨m, j, hm, hall, hj, hbj, hr⟩
      · exact .inl ht
      · exact .inr (.inl ⟨hr, hrest hall⟩)
      · rw [hx] at hj hr
        exact .inr (.inr ⟨m + 1, j, by omega, hrest hall, hj,
          fun k b h => by rw [Nat.add_comm m, Nat.add_assoc, ← codeByte_after_prefix s hp]; exact hbj k b h, hr⟩)

/-- Settles O10, by the ends of the fetch loop: 65536 offsets from IP are all the offsets of the segment. -/
theorem stepStopsOnlyWhereTheSpecSays : Obligations.StepStopsOnlyWhereTheSpecSays := by
  intro s byteAt
  cases hs : s.halted with
  | true => exact .inl ⟨s, if_pos hs⟩
  | false =>
    rw [step_of_running hs]
    rcases stepLoop_stops 65536 s.clearPrefixes with ht | ⟨hr, hall⟩ | h
    · exact .inl ht
    · refine .inr (.inl ⟨hr, fun off => ?_⟩)
      have h := hall (off - s.ip).toNat (off - s.ip).isLt
      have hoff : s.ip + BitVec.ofNat 16 (off - s.ip).toNat = off := by
        rw [BitVec.ofNat_toNat, BitVec.setWidth_eq, BitVec.add_comm, BitVec.sub_add_cancel]
      rw [State.codeByte, show s.clearPrefixes.ip = s.ip from rfl, hoff] at h
      exact h
    · exact .inr (.inr h)

end Sys2Proof.Machine
end

/-! # Operands (30_encoding R130-R140): effective addresses, the operand forms -/

section

namespace Sys2Proof.Machine

/-- An offset and a signed displacement: the sum modulo 2^16 (30_encoding R134). -/
theorem toNat_add_toInt (x v : Word) : ((x + v).toNat : Int) = (x.toNat + v.toInt) % 65536 := by
  rw [BitVec.toNat_add, BitVec.toInt_eq_toNat_cond]
  split <;> omega

theorem toNat_add_add_toInt (x y v : Word) : ((x + y + v).toNat : Int) = (x.toNat + y.toNat + v.toInt) % 65536 := by
  rw [toNat_add_toInt, BitVec.toNat_add]
  omega

theorem toInt_signExtend_byte (b : Byte) : (b.signExtend 16).toInt = b.toInt :=
  BitVec.toInt_signExtend_of_le (by decide)

theorem signExtend_byte (b : Byte) : b.signExtend 16 = BitVec.ofInt 16 b.toInt := by
  rw [← toInt_signExtend_byte, BitVec.ofInt_toInt]

/-- The count of a shift, masked to five bits (43_shift_rotate R320). -/
theorem maskCount_eq (v : Byte) : maskCount v = v.toNat % 32 := by
  rw [maskCount, BitVec.toNat_and]
  exact Nat.and_two_pow_sub_one_eq_mod v.toNat 5

theorem effSeg_based (s : State) (b : Base) (d : Disp) :
    s.effSeg (.based b d) = s.overrideSeg (if b = .bpsi ∨ b = .bpdi ∨ b = .bp then .ss else .ds) := by
  cases b <;> rfl

/-- Settles O18: the offsets by the sum modulo 2^16 of one or two registers and the displacement, the forms by evaluation. -/
theorem effectiveAddressesAndOperands : Obligations.EffectiveAddressesAndOperands := by
  refine ⟨?_, rfl, rfl, ?_⟩
  · intro s d off n disp seg ea
    have hdisp : disp = d.value.toInt := by
      cases d with
      | none => rfl
      | d8 b => exact (toInt_signExtend_byte b).symm
      | d16 v => rfl
    have hseg (r : SReg) : s.overrideSeg r = seg r := by
      unfold State.overrideSeg seg
      cases s.segov <;> rfl
    have one (x : Reg16) : ((s.reg x + d.value).toNat : Int) = (n x + disp) % 65536 := by rw [hdisp, toNat_add_toInt]
    have two (x y : Reg16) : ((s.reg x + s.reg y + d.value).toNat : Int) = (n x + n y + disp) % 65536 := by
      rw [hdisp, toNat_add_add_toInt]
    exact ⟨two .bx .si, two .bx .di, two .bp .si, two .bp .di, one .si, one .di, one .bp, one .bx, rfl, hseg .ds,
      fun b => (effSeg_based s b d).trans (hseg _)⟩
  · intro s w e r m alt b v
    refine ⟨rfl, rfl, rfl, rfl, rfl, rfl, rfl, rfl, rfl, rfl, rfl, rfl, rfl, rfl, rfl, ?_, rfl, rfl, rfl, rfl, rfl, rfl, ?_, ?_⟩
    · rw [AluForm.operands, signExtend_byte]
    · rw [ShiftForm.args, maskCount_eq]
    · rw [ShiftForm.args, maskCount_eq]

end Sys2Proof.Machine
end

/-! # Data transfer (40_data_transfer): the moves, the loads, the exchanges -/

section

namespace Sys2Proof.Machine

/-! ## What a move to a place, a register or a segment register does -/

/-- A value written to a place: it is read back there, and nothing else changed. -/
theorem writePlace_spec (w : Width) (s : State) (p : Place) (v : BitVec w.bits) :
    (s.writePlace w p v).readPlace w p = v ∧ (s.writePlace w p v).ip = s.ip ∧
    OnlyChanges (p.touched w []) s (s.writePlace w p v) :=
  ⟨State.readPlace_writePlace_same w s p v, State.writePlace_ip .., onlyChanges_writePlace w s p v⟩

/-- A value written to a register by width. -/
theorem setRegW_spec (w : Width) (s : State) (r : RegNum) (v : BitVec w.bits) :
    (s.setRegW w r v).regW w r = v ∧ (s.setRegW w r v).ip = s.ip ∧ OnlyChanges (touchedReg w r []) s (s.setRegW w r v) :=
  ⟨State.regW_setRegW_same w s r v, State.setRegW_ip .., onlyChanges_setRegW w s r v⟩

/-- A register written, in terms of any property of its value. -/
theorem setReg_spec {P : Word → Prop} (s : State) (r : Reg16) {v : Word} (h : P v) :
    P ((s.setReg r v).reg r) ∧ (s.setReg r v).ip = s.ip ∧ OnlyChanges { regs := [r] } s (s.setReg r v) :=
  ⟨by rw [State.reg_setReg_same]; exact h, rfl, onlyChanges_setReg s r v⟩

/-- A byte half written, in terms of any property of its value. -/
theorem setHalf_spec {P : Byte → Prop} (s : State) (r : Reg8) {v : Byte} (h : P v) :
    P ((s.setHalf r v).half r) ∧ (s.setHalf r v).ip = s.ip ∧ OnlyChanges { halves := [r] } s (s.setHalf r v) :=
  ⟨by rw [State.half_setHalf_same]; exact h, rfl, onlyChanges_setHalf s r v⟩

/-- Settles O19: every one of these moves writes its source to a place. -/
theorem movesToAnOperand : Obligations.MovesToAnOperand := by
  intro s e
  exact ⟨fun w r => ⟨_, rfl, writePlace_spec w s _ _⟩, fun v => ⟨_, rfl, writePlace_spec .byte s _ v⟩,
    fun v => ⟨_, rfl, writePlace_spec .word s _ v⟩, fun sr => ⟨_, rfl, writePlace_spec .word s _ _⟩,
    fun w off => ⟨_, rfl, writePlace_spec w s (.mem _ off) _⟩⟩

/-- DX:AX after CWD has the signed value of AX (41_arithmetic R266). -/
theorem toInt_signWord_append (x : Word) :
    ((if x.msb then 0xFFFF#16 else 0x0000#16) ++ x).toInt = x.toInt := by
  have hx := x.isLt
  rw [BitVec.msb_eq_decide]
  simp only [BitVec.toInt_eq_toNat_cond, toNat_append_eq, decide_eq_true_eq]
  split <;> simp <;> omega

theorem cwd_spec (s : State) :
    ((s.setReg .dx (if (s.reg .ax).msb then 0xFFFF#16 else 0x0000#16)).reg .dx
      ++ (s.setReg .dx (if (s.reg .ax).msb then 0xFFFF#16 else 0x0000#16)).reg .ax).toInt = (s.reg .ax).toInt := by
  rw [State.reg_setReg_same, State.reg_setReg_ne s (by decide), toInt_signWord_append]

/-- Settles O20: every one of these moves writes a register. -/
theorem movesToARegister : Obligations.MovesToARegister := by
  intro s r e m
  refine ⟨fun w => ⟨_, rfl, setRegW_spec w s r _⟩, fun v => ⟨_, rfl, setRegW_spec .byte s r v⟩,
    fun v => ⟨_, rfl, setRegW_spec .word s r v⟩, fun w off => ⟨_, rfl, setRegW_spec w s .n0 _⟩,
    ⟨_, rfl, setHalf_spec (P := (· = s.readMem .byte s.dataSeg _)) s .al rfl⟩, ⟨_, rfl, setReg_spec (P := (· = s.effAddr m)) s r.r16 rfl⟩,
    ⟨_, rfl, setHalf_spec (P := fun v => v.toNat = _) s .ah (toNat_extract_low s.flags)⟩,
    ⟨_, rfl, setReg_spec (P := fun v => v.toInt = _) s .ax (toInt_signExtend_byte _)⟩,
    ⟨_, rfl, cwd_spec s, rfl, onlyChanges_setReg s .dx _⟩,
    fun w => ⟨_, rfl, setReg_spec (P := fun v => v.toNat = _) s r.r16 ?_⟩,
    fun w => ⟨_, rfl, setReg_spec (P := fun v => v.toInt = _) s r.r16 ?_⟩⟩
  · exact BitVec.toNat_setWidth_of_le (by cases w <;> decide)
  · exact BitVec.toInt_signExtend_of_le (by cases w <;> decide)

/-- A register and a segment register loaded from a far pointer (40_data_transfer R221, R222). -/
theorem loadFar_spec (s : State) (r : Reg16) (sr : SReg) (off seg : Word) :
    ((s.setReg r off).setSeg sr seg).reg r = off ∧ ((s.setReg r off).setSeg sr seg).seg sr = seg ∧
    ((s.setReg r off).setSeg sr seg).ip = s.ip ∧
    OnlyChanges { regs := [r], segs := [sr] } s ((s.setReg r off).setSeg sr seg) :=
  ⟨State.reg_setReg_same s r off, State.seg_setSeg_same _ sr seg, rfl,
    (onlyChanges_setReg s r off).trans (onlyChanges_setSeg _ sr seg)⟩

/-- An operand and a register exchanged: the register is written last, the place keeps what it got unless it is that register,
which then holds the same value (40_data_transfer R213). -/
theorem readPlace_exchanged (w : Width) (s : State) (p : Place) (r : RegNum) :
    ((s.writePlace w p (s.regW w r)).setRegW w r (s.readPlace w p)).readPlace w p = s.regW w r := by
  cases p with
  | reg i =>
    by_cases h : i = r
    · subst h
      exact State.regW_setRegW_same ..
    · exact (State.regW_setRegW_ne w _ h _).trans (State.regW_setRegW_same ..)
  | mem seg off =>
    exact (State.readMem_congr_mem (State.setRegW_mem ..) w seg off).trans (State.readMem_writeMem_same ..)

/-- AX and a register exchanged (40_data_transfer R214). -/
theorem exchangedAx (s : State) (r : Reg16) :
    ((s.setReg .ax (s.reg r)).setReg r (s.reg .ax)).reg .ax = s.reg r := by
  by_cases h : Reg16.ax = r
  · subst h
    exact State.reg_setReg_same ..
  · rw [State.reg_setReg_ne _ h, State.reg_setReg_same]

/-- Settles O21. -/
theorem segmentRegisterLoadsAndExchanges : Obligations.SegmentRegisterLoadsAndExchanges := by
  intro s r e m
  exact ⟨fun sr => ⟨_, rfl, State.seg_setSeg_same .., rfl, onlyChanges_setSeg ..⟩,
    ⟨_, rfl, loadFar_spec s r.r16 .ds _ _⟩, ⟨_, rfl, loadFar_spec s r.r16 .es _ _⟩,
    fun w => ⟨_, rfl, readPlace_exchanged w s _ r, State.regW_setRegW_same .., by simp [State.writeRm],
      (onlyChanges_writePlace w s _ _).trans (onlyChanges_setRegW w _ r _)⟩,
    ⟨_, rfl, exchangedAx s r.r16, State.reg_setReg_same .., rfl,
      (onlyChanges_setReg s .ax _).trans (onlyChanges_setReg _ r.r16 _)⟩⟩

end Sys2Proof.Machine
end

/-! # Data transfer (40_data_transfer, 47_post8086_ext): the stack -/

section

namespace Sys2Proof.Machine

/-! ## PUSH and POP -/

theorem push_spec (s : State) (v : Word) : PushesWord v s (s.push16 v) ∧ (s.push16 v).ip = s.ip :=
  ⟨pushesWord_push16 s v, State.push16_ip ..⟩

/-- Settles O22: every form pushes one word. -/
theorem pushes : Obligations.Pushes := by
  intro s
  exact ⟨fun r => ⟨_, rfl, push_spec s _⟩, fun e => ⟨_, rfl, push_spec s _⟩, fun sr => ⟨_, rfl, push_spec s _⟩,
    fun v => ⟨_, rfl, push_spec s v⟩, ⟨_, rfl, push_spec s _⟩,
    fun hx => ⟨fun v => ⟨_, ifExt186_present hx _, push_spec s _⟩, ⟨_, ifExt186_present hx _, push_spec s _⟩,
      ⟨_, ifExt186_present hx _, push_spec s _⟩⟩⟩

theorem popSeg_spec (s : State) (sr : SReg) :
    (s.popSegInto sr).seg sr = stackWord s 0#16 ∧ (s.popSegInto sr).reg .sp = s.reg .sp + 2#16 ∧
    (s.popSegInto sr).ip = s.ip ∧ OnlyChanges { regs := [.sp], segs := [sr] } s (s.popSegInto sr) :=
  ⟨(State.seg_setSeg_same _ sr _).trans s.top_eq_stackWord, State.reg_setReg_same s .sp _, rfl, onlyChanges_popSegInto s sr⟩

/-- SP after a pop into a place: two higher, unless the place is SP itself (40_data_transfer R210). -/
theorem sp_writePlace (s : State) {e : Rm} (he : e ≠ .reg .n4) (v : Word) :
    ((s.release 2#16).writePlace .word (s.resolve e) v).reg .sp = s.reg .sp + 2#16 := by
  cases e with
  | reg i =>
    have hi : Reg16.sp ≠ i.r16 := fun h => he (congrArg Rm.reg (RegNum.r16_injective (i := i) (j := .n4) h.symm))
    exact (State.reg_setReg_ne (s.release 2#16) hi v).trans (State.reg_setReg_same s .sp _)
  | mem m => exact (State.reg_congr (State.writeMem_regs ..) .sp).trans (State.reg_setReg_same s .sp _)

/-- Settles O23: every form takes the word on top of the stack and writes it to its destination. -/
theorem pops : Obligations.Pops := by
  intro s
  refine ⟨fun r => ⟨_, rfl, ?_, fun hr => ?_, rfl, onlyChanges_popInto s r.r16⟩,
    fun e => ⟨_, rfl, ?_, fun he => sp_writePlace s he _, State.writePlace_ip .., ?_⟩,
    fun sr => ⟨_, rfl, popSeg_spec s sr⟩, ⟨_, rfl, ?_, State.reg_setReg_same s .sp _, rfl, ?_⟩,
    fun hx => ⟨⟨_, ifExt186_present hx _, popSeg_spec s .fs⟩, ⟨_, ifExt186_present hx _, popSeg_spec s .gs⟩⟩⟩
  · rw [State.reg_popInto, if_pos rfl]
  · have hne : Reg16.sp ≠ r.r16 := fun h => hr (RegNum.r16_injective (i := r) (j := .n4) h.symm)
    rw [State.reg_popInto, if_neg hne, if_pos rfl]
  · exact (State.readPlace_writePlace_same ..).trans s.top_eq_stackWord
  · exact (onlyChanges_release s 2#16).trans (onlyChanges_writePlace .word _ _ _)
  · rw [← s.top_eq_stackWord]
    rfl
  · exact onlyChanges_release s 2#16

/-! ## PUSHA and POPA (47_post8086_ext R470, R471) -/

/-- The eight words PUSHA stores, in order. -/
def pushaWords (s : State) : List Word := [Reg16.ax, .cx, .dx, .bx, .sp, .bp, .si, .di].map s.reg

theorem execPusha_eq (s : State) : execPusha s = .next (s.pushAll (pushaWords s)) := rfl

theorem State.reg_release (s : State) (n : Word) (q : Reg16) :
    (s.release n).reg q = if q = .sp then s.reg .sp + n else s.reg q := State.reg_setReg ..

theorem State.popInto_ip (s : State) (r : Reg16) : (s.popInto r).ip = s.ip := rfl

/-- What POPA leaves in a register: each pop reads two bytes higher than the one before it. -/
theorem execPopa_spec (s : State) : ∃ t, execPopa s = .next t ∧ t.reg .di = stackWord s 0#16 ∧ t.reg .si = stackWord s 2#16 ∧
    t.reg .bp = stackWord s 4#16 ∧ t.reg .bx = stackWord s 8#16 ∧ t.reg .dx = stackWord s 10#16 ∧
    t.reg .cx = stackWord s 12#16 ∧ t.reg .ax = stackWord s 14#16 ∧ t.reg .sp = s.reg .sp + 16#16 ∧ t.ip = s.ip := by
  refine ⟨_, rfl, ?_⟩
  simp only [State.reg_popInto, State.reg_release, stackWord_popInto, stackWord_of_release, BitVec.add_assoc, reduceIte,
    reduceCtorEq, ne_eq, not_false_eq_true, BitVec.reduceAdd, State.popInto_ip, State.release_ip, and_self]

theorem onlyChanges_popa (s : State) {t : State} (h : execPopa s = .next t) :
    OnlyChanges { regs := [.di, .si, .bp, .bx, .dx, .cx, .ax, .sp] } s t := by
  obtain rfl := Host.Outcome.next.inj h
  have pop (u : State) (r : Reg16) (hr : r ∈ [Reg16.di, .si, .bp, .bx, .dx, .cx, .ax, .sp]) :
      OnlyChanges { regs := [.di, .si, .bp, .bx, .dx, .cx, .ax, .sp] } u (u.popInto r) :=
    (onlyChanges_popInto u r).mono ⟨by simpa using hr, nofun, nofun, nofun, nofun⟩
  have skip (u : State) : OnlyChanges { regs := [.di, .si, .bp, .bx, .dx, .cx, .ax, .sp] } u (u.release 2#16) :=
    (onlyChanges_release u 2#16).mono ⟨by simp, nofun, nofun, nofun, nofun⟩
  exact (((((((pop s .di (by decide)).trans_same (pop _ .si (by decide))).trans_same (pop _ .bp (by decide))).trans_same
    (skip _)).trans_same (pop _ .bx (by decide))).trans_same (pop _ .dx (by decide))).trans_same
    (pop _ .cx (by decide))).trans_same (pop _ .ax (by decide))

/-- Settles O24: PUSHA is eight pushes, POPA seven pops and a skip. -/
theorem pushaAndPopa : Obligations.PushaAndPopa := by
  intro s
  obtain ⟨hsp, hwords, honly, hip⟩ := pushAll_spec s (pushaWords s) (show 8 ≤ 32767 by decide)
  refine ⟨⟨_, execPusha_eq s, hsp, fun k r hk => hwords k _ ?_, hip, honly⟩, ?_⟩
  · rw [pushaWords, List.getElem?_map, hk]
    rfl
  · obtain ⟨t, ht, hdi, hsi, hbp, hbx, hdx, hcx, hax, hsp, hip⟩ := execPopa_spec s
    exact ⟨t, ht, hdi, hsi, hbp, hbx, hdx, hcx, hax, hsp, hip, onlyChanges_popa s ht⟩

/-! ## ENTER and LEAVE (47_post8086_ext R474, R475) -/

/-- The pushes of ENTER at level `n`: BP, the display, the frame pointer. -/
def enterPushes (n : Nat) (s : State) : State :=
  if n = 0 then s.push16 (s.reg .bp)
  else (copyDisplay (n - 1) (s.push16 (s.reg .bp))).push16 ((s.push16 (s.reg .bp)).reg .sp)

theorem execEnter_eq (size : Word) (level : Byte) (s : State) :
    execEnter size level s = .next (((enterPushes (level.toNat % 32) s).setReg .bp (s.reg .sp - 2#16)).setReg .sp
      ((enterPushes (level.toNat % 32) s).reg .sp - size)) := by
  rw [← State.reg_push16_sp s (s.reg .bp)]
  rfl

theorem pushed_offset_last (sp : Word) (m : Nat) :
    sp - BitVec.ofNat 16 (2 * m) - 2#16 = sp - BitVec.ofNat 16 (2 * (m + 1)) := by
  rw [BitVec.sub_sub]
  exact congrArg (sp - ·) (by apply BitVec.eq_of_toNat_eq; simp; omega)

/-- Two words of the stack at different even distances below a top share no byte. -/
theorem pushed_words_disjoint (seg sp : Word) {k m : Nat} (hkm : k < m) (hm : m ≤ 32767) :
    ∀ a ∈ storedBytes .word seg (sp - BitVec.ofNat 16 (2 * k)), a ∉ storedBytes .word seg (sp - BitVec.ofNat 16 (2 * m)) := by
  have hdiff : (sp - BitVec.ofNat 16 (2 * k) - (sp - BitVec.ofNat 16 (2 * m))).toNat = 2 * (m - k) := by
    have := sp.isLt
    simp only [BitVec.toNat_sub, BitVec.toNat_ofNat]
    omega
  exact storedBytes_disjoint (le_of_le_of_eq (by omega) hdiff.symm) (hdiff.trans_le (by omega))

theorem pushedBytes_mono {s : State} {m n : Nat} (h : m ≤ n) {a : Addr} (ha : a ∈ pushedBytes s m) : a ∈ pushedBytes s n := by
  obtain ⟨k, hk, hka⟩ := mem_pushedBytes.mp ha
  exact mem_pushedBytes.mpr ⟨k, hk.trans_le h, hka⟩

/-- A push after `m` others stores the bytes of the word `m + 1` below the old top. -/
theorem onlyChanges_last_push {s c : State} {m : Nat} (hsp : c.reg .sp = s.reg .sp - BitVec.ofNat 16 (2 * m))
    (hc : OnlyChanges { regs := [.bp, .sp], stored := pushedBytes s m } s c) (v : Word) :
    OnlyChanges { regs := [.bp, .sp], stored := pushedBytes s (m + 1) } s (c.push16 v) := by
  have hlast : OnlyChanges { regs := [.bp, .sp], stored := pushedBytes s (m + 1) } c (c.push16 v) := by
    refine (onlyChanges_push16 c v).mono ⟨by simp, nofun, nofun, nofun, fun a ha => ?_⟩
    rw [hsp, hc.segs .ss (by simp), pushed_offset_last] at ha
    exact mem_pushedBytes.mpr ⟨m, m.lt_succ_self, ha⟩
  have hfirst : OnlyChanges { regs := [.bp, .sp], stored := pushedBytes s (m + 1) } s c :=
    hc.mono ⟨fun _ h => h, nofun, nofun, nofun, fun _ => pushedBytes_mono m.le_succ⟩
  exact hfirst.trans_same hlast

/-- What the pushes of ENTER at a level other than 0 leave. -/
theorem enterPushes_succ (s : State) (m : Nat) (hm : m ≤ 32765) :
    (enterPushes (m + 1) s).reg .sp = s.reg .sp - BitVec.ofNat 16 (2 * (m + 1 + 1)) ∧ (enterPushes (m + 1) s).ip = s.ip ∧
    (enterPushes (m + 1) s).readMem .word (s.seg .ss) (s.reg .sp - 2#16) = s.reg .bp ∧
    (enterPushes (m + 1) s).readMem .word (s.seg .ss) (s.reg .sp - BitVec.ofNat 16 (2 * (m + 1 + 1))) = s.reg .sp - 2#16 ∧
    (∀ k, 1 ≤ k → k < m + 1 →
      (∀ b ∈ storedBytes .word (s.seg .ss) (s.reg .bp - BitVec.ofNat 16 (2 * k)), b ∉ pushedBytes s (m + 1 + 1)) →
      (enterPushes (m + 1) s).readMem .word (s.seg .ss) (s.reg .sp - BitVec.ofNat 16 (2 * (k + 1)))
        = s.readMem .word (s.seg .ss) (s.reg .bp - BitVec.ofNat 16 (2 * k))) ∧
    OnlyChanges { regs := [.bp, .sp], stored := pushedBytes s (m + 1 + 1) } s (enterPushes (m + 1) s) := by
  obtain ⟨s1, hs1⟩ : ∃ s1, s1 = s.push16 (s.reg .bp) := ⟨_, rfl⟩
  have hsp1 : s1.reg .sp = s.reg .sp - 2#16 := hs1 ▸ State.reg_push16_sp s _
  have honly1 := onlyChanges_push16 s (s.reg .bp)
  rw [← hs1] at honly1
  have hss1 : s1.seg .ss = s.seg .ss := honly1.segs .ss (by simp)
  have hbp1 : s1.reg .bp = s.reg .bp := honly1.regs .bp (by simp) nofun
  obtain ⟨hspc, hipc, hcopy, honlyc⟩ := copyDisplay_spec m s1 (by omega)
  have hssc : (copyDisplay m s1).seg .ss = s.seg .ss := (honlyc.segs .ss (by simp)).trans hss1
  have hu : enterPushes (m + 1) s = (copyDisplay m s1).push16 (s.reg .sp - 2#16) := by
    rw [← hsp1, hs1]
    rfl
  have honlyu := onlyChanges_last_push hspc honlyc (s.reg .sp - 2#16)
  rw [← hu] at honlyu
  have hlast : (copyDisplay m s1).reg .sp - 2#16 = s.reg .sp - BitVec.ofNat 16 (2 * (m + 1 + 1)) := by
    rw [hspc, hsp1, pushed_offset_last, pushed_offset_succ]
  refine ⟨?_, ?_, ?_, ?_, fun k hk1 hk hdisj => ?_, ?_⟩
  · rw [hu, State.reg_push16_sp, hlast]
  · rw [hu, State.push16_ip, hipc, hs1, State.push16_ip]
  · rw [honlyu.readMem (pushed_disjoint (n := m + 1) hsp1 hss1 (by omega)), hs1]
    exact State.readMem_push16 s _
  · rw [hu, ← hlast, ← hssc]
    exact State.readMem_push16 _ _
  · obtain ⟨j, rfl⟩ : ∃ j, k = j + 1 := ⟨k - 1, by omega⟩
    have hold : s1.readMem .word (s.seg .ss) (s.reg .bp - BitVec.ofNat 16 (2 * (j + 1)))
        = s.readMem .word (s.seg .ss) (s.reg .bp - BitVec.ofNat 16 (2 * (j + 1))) :=
      honly1.readMem fun b hb hb' => hdisj b hb ((mem_pushedBytes_succ hsp1 hss1 _ b).mpr (.inl hb'))
    have hcopied := hcopy j (by omega) fun b hb hb' => hdisj b (by rwa [hss1, hbp1] at hb)
      ((mem_pushedBytes_succ hsp1 hss1 _ b).mpr (.inr (pushedBytes_mono m.le_succ hb')))
    rw [hss1, hbp1, hold, hsp1, pushed_offset_succ] at hcopied
    rw [← hcopied, hu]
    refine (onlyChanges_push16 _ _).readMem fun a ha => ?_
    rw [hssc, hlast]
    exact pushed_words_disjoint (s.seg .ss) (s.reg .sp) (by omega) (by omega) a ha
  · have hfirst : OnlyChanges { regs := [.bp, .sp], stored := pushedBytes s (m + 1 + 1) } s s1 :=
      honly1.mono ⟨by simp, nofun, nofun, nofun, fun a ha => (mem_pushedBytes_succ hsp1 hss1 _ a).mpr (.inl ha)⟩
    exact hfirst.trans_same (honlyu.mono
      ⟨fun _ h => h, nofun, nofun, nofun, fun a ha => (mem_pushedBytes_succ hsp1 hss1 _ a).mpr (.inr ha)⟩)

/-- Setting BP and SP after the pushes of ENTER moves nothing else. -/
theorem onlyChanges_frame {x : List Addr} {s u : State} (h : OnlyChanges { regs := [.bp, .sp], stored := x } s u) (v w : Word) :
    OnlyChanges { regs := [.bp, .sp], stored := x } s ((u.setReg .bp v).setReg .sp w) :=
  (h.trans_same ((onlyChanges_setReg u .bp v).mono ⟨by simp, nofun, nofun, nofun, nofun⟩)).trans_same
    ((onlyChanges_setReg _ .sp w).mono ⟨by simp, nofun, nofun, nofun, nofun⟩)

/-- Settles O25: at level 0 one push, at another the pushes of `enterPushes_succ`. -/
theorem enterAndLeave : Obligations.EnterAndLeave := by
  intro s
  refine ⟨fun size level => ⟨_, execEnter_eq size level s, ?_⟩, ⟨_, rfl, ?_⟩⟩
  · have hn : level.toNat % 32 < 32 := Nat.mod_lt _ (by decide)
    cases hlevel : level.toNat % 32 with
    | zero =>
      refine ⟨rfl, ?_, State.readMem_push16 s _, nofun, rfl, fun k _ hk => absurd hk (Nat.not_lt_zero k), ?_⟩
      · exact congrArg (· - size) (State.reg_push16_sp s _)
      · exact onlyChanges_frame ((onlyChanges_push16 s _).mono
          ⟨by simp, nofun, nofun, nofun, fun a ha => mem_pushedBytes.mpr ⟨0, Nat.one_pos, ha⟩⟩) _ _
    | succ m =>
      obtain ⟨hsp, hip, hbp, hframe, hcopy, honly⟩ := enterPushes_succ s m (by omega)
      refine ⟨rfl, ?_, hbp, fun _ => hframe, hip, hcopy, onlyChanges_frame honly _ _⟩
      rw [State.reg_setReg_same, hsp]
  · refine ⟨?_, ?_, rfl, ?_⟩
    · rfl
    · rfl
    · exact ((onlyChanges_setReg s .sp _).mono ⟨by simp, nofun, nofun, nofun, nofun⟩).trans_same (onlyChanges_popInto _ .bp)

end Sys2Proof.Machine
end

/-! # Control transfer (45_control_transfer, 47_post8086_ext): jumps, loops, calls, returns -/

section

namespace Sys2Proof.Machine

/-- Two changes, one after the other, inside one frame. -/
theorem OnlyChanges.andThen {x y z : Touched} {s t u : State} (h : OnlyChanges x s t) (k : OnlyChanges y t u) (hx : x.le z)
    (hy : y.le z) : OnlyChanges z s u := (h.mono hx).trans_same (k.mono hy)

/-! ## Jumps -/

/-- Settles O41: each jump is one assignment of IP, or of CS and IP. -/
theorem jumps : Obligations.Jumps := fun _ _ _ _ _ _ => ⟨rfl, rfl, rfl, rfl, rfl⟩

/-- A conditional jump whose condition is the proposition `P`. -/
theorem jumpIf_of_iff {c : Cond} {s : State} {P : Prop} [Decidable P] (d : CondDisp) (h : s.cond c = true ↔ P) :
    jumpIf c d s = .next (if P then { s with ip := s.ip + (match d with | .rel8 b => b.signExtend 16 | .rel16 v => v) } else s) := by
  rw [jumpIf_eq]
  cases d <;> exact congrArg Host.Outcome.next (if_congr h rfl rfl)

/-- Settles O42: each instruction is `jumpIf` of its condition. -/
theorem conditionalJumps : Obligations.ConditionalJumps := by
  intro s d d8 go f
  exact ⟨jumpIf_of_iff d Iff.rfl, jumpIf_of_iff d (by simp [State.cond, f]), jumpIf_of_iff d Iff.rfl,
    jumpIf_of_iff d (by simp [State.cond, f]), jumpIf_of_iff d Iff.rfl, jumpIf_of_iff d (by simp [State.cond, f]),
    jumpIf_of_iff d (by simp [State.cond, f]), jumpIf_of_iff d (by simp [State.cond, f]), jumpIf_of_iff d Iff.rfl,
    jumpIf_of_iff d (by simp [State.cond, f]), jumpIf_of_iff d Iff.rfl, jumpIf_of_iff d (by simp [State.cond, f]),
    jumpIf_of_iff d (by simp [State.cond, f]), jumpIf_of_iff d (by simp [State.cond, f]),
    jumpIf_of_iff d (by simp [State.cond, f]), jumpIf_of_iff d (by simp [State.cond, f]), execJcxz_eq d8 s⟩

/-- CX one lower and the jump when it is not 0 and the test holds (R391-R393). -/
theorem loopWhile_spec {test : Bool → Bool} {s : State} {P : Prop} (d : Byte) (h : P ↔ s.reg .cx ≠ 1#16 ∧ test (s.flag .zf) = true) :
    ∃ t, loopWhile test d s = .next t ∧ ((t.reg .cx).toNat : Int) = ((s.reg .cx).toNat - 1) % 65536 ∧
      (P → t.ip = s.ip + d.signExtend 16) ∧ (¬P → t.ip = s.ip) ∧ OnlyChanges { regs := [.cx] } s t := by
  have hcx : ((s.decCx.reg .cx).toNat : Int) = ((s.reg .cx).toNat - 1) % 65536 := by
    have := (s.reg .cx).isLt
    rw [reg_decCx]
    simp only [BitVec.toNat_sub, BitVec.toNat_ofNat]
    omega
  have honly : OnlyChanges { regs := [.cx] } s s.decCx := onlyChanges_setReg s .cx _
  have htaken : (s.reg .cx - 1#16 ≠ 0#16 ∧ test (s.flag .zf) = true) ↔ P := by
    rw [h]
    exact and_congr_left' (not_congr ⟨fun h0 => by bv_omega, fun h0 => by bv_omega⟩)
  refine ⟨_, loopWhile_eq test d s, ?_⟩
  by_cases hP : P
  · rw [if_pos (htaken.mpr hP)]
    exact ⟨hcx, fun _ => rfl, fun hn => absurd hP hn, honly.andThen (onlyChanges_jumpRel _ _) (Touched.le_refl _) (by simp [Touched.le])⟩
  · rw [if_neg (htaken.not.mpr hP)]
    exact ⟨hcx, fun hp => absurd hp hP, fun _ => rfl, honly⟩

/-- Settles O43: the three loops are `loopWhile` with their tests of ZF. -/
theorem loops : Obligations.Loops := by
  intro s d
  exact ⟨loopWhile_spec (test := fun _ => true) d (by simp), loopWhile_spec (test := fun z => z) d Iff.rfl,
    loopWhile_spec (test := fun z => !z) d (by simp)⟩

/-! ## Calls and returns -/

theorem PushesWord.setIp {v : Word} {s t : State} (h : PushesWord v s t) (x : Word) : PushesWord v s (t.setIp x) := by
  obtain ⟨hsp, hword, honly⟩ := h
  exact ⟨hsp, hword, honly.andThen (onlyChanges_setIp t x) (Touched.le_refl _) (by simp [Touched.le])⟩

theorem callFar_spec (s : State) (seg off : Word) :
    (s.callFar seg off).reg .sp = s.reg .sp - 4#16 ∧
    (s.callFar seg off).readMem .word (s.seg .ss) (s.reg .sp - 2#16) = s.seg .cs ∧
    (s.callFar seg off).readMem .word (s.seg .ss) (s.reg .sp - 4#16) = s.ip ∧ (s.callFar seg off).seg .cs = seg ∧
    (s.callFar seg off).ip = off ∧
    OnlyChanges { regs := [.sp], segs := [.cs], stored := pushedBytes s 2 } s (s.callFar seg off) := by
  obtain ⟨hsp, hwords, honly, -⟩ := pushAll_spec s [s.seg .cs, s.ip] (by simp)
  exact ⟨hsp, hwords 0 _ rfl, hwords 1 _ rfl, State.seg_setSeg_same (s.pushAll [s.seg .cs, s.ip]) .cs seg, rfl,
    honly.andThen (onlyChanges_jumpFar _ seg off) (by simp [Touched.le]) (by simp [Touched.le])⟩

/-- Settles O44: the near calls push one word and jump, the far ones are `callFar`. -/
theorem calls : Obligations.Calls := by
  intro s
  exact ⟨fun d => ⟨_, rfl, (pushesWord_push16 s s.ip).setIp _, congrArg (· + d) (State.push16_ip ..)⟩,
    fun e => ⟨_, rfl, (pushesWord_push16 s s.ip).setIp _, rfl⟩,
    fun off seg => ⟨_, rfl, callFar_spec s seg off⟩, fun m => ⟨_, rfl, callFar_spec s _ _⟩⟩

theorem retNear_spec (s : State) : s.retNear.ip = stackWord s 0#16 ∧ s.retNear.reg .sp = s.reg .sp + 2#16 ∧
    OnlyChanges { regs := [.sp] } s s.retNear :=
  ⟨s.top_eq_stackWord, State.reg_setReg_same s .sp _,
    (onlyChanges_release s 2#16).andThen (onlyChanges_setIp _ _) (Touched.le_refl _) (by simp [Touched.le])⟩

theorem retFar_spec (s : State) : s.retFar.ip = stackWord s 0#16 ∧ s.retFar.seg .cs = stackWord s 2#16 ∧
    s.retFar.reg .sp = s.reg .sp + 4#16 ∧ OnlyChanges { regs := [.sp], segs := [.cs] } s s.retFar := by
  have hsp : ((s.release 2#16).release 2#16).reg .sp = s.reg .sp + 4#16 := by
    rw [State.reg_release, if_pos rfl, State.reg_release, if_pos rfl, BitVec.add_assoc]
    rfl
  have hcs : (s.release 2#16).top = stackWord s 2#16 := by
    rw [State.top_eq_stackWord, stackWord_of_release]
    rfl
  exact ⟨s.top_eq_stackWord, (State.seg_setSeg_same _ .cs _).trans hcs, hsp,
    ((onlyChanges_release s 2#16).trans_same (onlyChanges_release _ _)).andThen (onlyChanges_jumpFar _ _ _)
      (by simp [Touched.le]) (by simp [Touched.le])⟩

/-- More bytes released after a return. -/
theorem sp_release {t : State} {x : Word} (h : t.reg .sp = x) (n : Word) : (t.release n).reg .sp = x + n := by
  rw [State.reg_release, if_pos rfl, h]

/-- Settles O45: the near and the far return, and the bytes released after them. -/
theorem returns : Obligations.Returns := by
  intro s n
  obtain ⟨hip, hsp, honly⟩ := retNear_spec s
  obtain ⟨hipf, hcsf, hspf, honlyf⟩ := retFar_spec s
  exact ⟨⟨_, rfl, hip, hsp, honly⟩, ⟨_, rfl, hip, sp_release hsp n, honly.trans_same (onlyChanges_release _ n)⟩,
    ⟨_, rfl, hipf, hcsf, hspf, honlyf⟩, ⟨_, rfl, hipf, hcsf, sp_release hspf n,
      honlyf.andThen (onlyChanges_release _ n) (Touched.le_refl _) (by simp [Touched.le])⟩⟩

end Sys2Proof.Machine
end

/-! # Interrupts (60_exceptions) -/

section

namespace Sys2Proof.Machine

/-! ## The vector table -/

/-- An interrupt without a handler (60_exceptions R601, R604). -/
theorem interrupt_enters {s : State} {n : Byte} (h : lookupHandler s.handlers n = none) :
    FrameStands s (s.interrupt n) ∧ (s.interrupt n).reg .sp = s.reg .sp - 6#16 ∧ (s.interrupt n).flag .if_ = false ∧
    (s.interrupt n).flag .tf = false ∧ (s.interrupt n).ip = (s.interrupt n).memRead16 (BitVec.ofNat 20 (4 * n.toNat)) ∧
    (s.interrupt n).seg .cs = (s.interrupt n).memRead16 (BitVec.ofNat 20 (4 * n.toNat + 2)) ∧
    OnlyChanges { regs := [.sp], segs := [.cs], flags := [.if_, .tf], stored := pushedBytes s 3 } s (s.interrupt n) := by
  obtain ⟨hsp, hframe, hif, htf, -, honly⟩ := pushFrame_spec s
  obtain ⟨hip, hcs⟩ := vector_address n
  rw [interrupt_unregistered h, ← hip, ← hcs]
  exact ⟨hframe, hsp, hif, htf, rfl, State.seg_setSeg_same s.pushFrame .cs _,
    honly.andThen (onlyChanges_jumpFar s.pushFrame _ _) (by simp [Touched.le]) (by simp [Touched.le])⟩

/-- Settles O46: INT3 and INTO are the interrupts of vectors 3 and 4. -/
theorem interruptsEnterThroughTheVectorTable : Obligations.InterruptsEnterThroughTheVectorTable := by
  intro s
  exact ⟨fun n h => ⟨_, rfl, interrupt_enters h⟩, fun h => ⟨_, rfl, interrupt_enters h⟩,
    fun h hof => ⟨_, if_pos hof, interrupt_enters h⟩⟩

/-! ## Registered handlers -/

theorem half_pushFrame (s : State) (h : Reg8) : s.pushFrame.half h = s.half h := by
  obtain ⟨-, -, -, -, -, honly⟩ := pushFrame_spec s
  exact honly.halves h List.not_mem_nil (by cases h <;> simp [Reg8.parent])

/-- A registered handler that halts for program exit (60_exceptions R621). -/
theorem interrupt_exits {s : State} {n : Byte} {k : Handler} (h : lookupHandler s.handlers n = some k)
    (hk : s.pushFrame.runHandler k n = s.pushFrame.halt .programExit) :
    ∃ t, exec (.int n) s = .next t ∧ t.halted = true ∧ t.haltReason = .programExit ∧ FrameStands s t ∧
      t.flag .if_ = false ∧ t.flag .tf = false ∧ t.ip = s.ip ∧
      OnlyChanges { flags := [.if_, .tf], stored := pushedBytes s 3 } s { t with halted := s.halted, haltReason := s.haltReason } := by
  obtain ⟨hsp, hframe, hif, htf, hip, honly⟩ := pushFrame_spec s
  refine ⟨_, rfl, ?_⟩
  rw [interrupt_registered h, hk]
  obtain ⟨hhalted, hreason, -⟩ := honly.rest
  have hkeep := onlyChanges_frame_released hsp honly (OnlyChanges.refl {} s.pushFrame) rfl
  refine ⟨rfl, rfl, hframe, hif, htf, hip, ?_⟩
  rw [← hhalted, ← hreason]
  exact hkeep.mono (by simp [Touched.le])

/-- A blocking key read without a key (60_exceptions R614, R622). -/
theorem interrupt_waits {s : State} {n : Byte} (h : lookupHandler s.handlers n = some .keyboard)
    (hah : s.half .ah = 0x00#8 ∨ s.half .ah = 0x10#8) (hkeys : s.keyBuffer = []) :
    ∃ t, exec (.int n) s = .next t ∧ t.halted = true ∧ t.haltReason = .keyWait ∧ t.ip = s.ip - 2#16 ∧
      t.flag .if_ = false ∧ t.flag .tf = false ∧
      OnlyChanges { flags := [.if_, .tf], stored := pushedBytes s 3 } s { t with halted := s.halted, haltReason := s.haltReason } := by
  obtain ⟨hsp, -, hif, htf, hip, honly⟩ := pushFrame_spec s
  have hrun : s.pushFrame.runHandler .keyboard n = (s.pushFrame.setIp (s.pushFrame.ip - 2#16)).halt .keyWait := by
    rw [State.runHandler, half_pushFrame, if_pos hah, State.pushFrame_keyBuffer, hkeys]
  refine ⟨_, rfl, ?_⟩
  rw [interrupt_registered h, hrun]
  obtain ⟨hhalted, hreason, -⟩ := honly.rest
  have hkeep := onlyChanges_frame_released hsp honly (onlyChanges_setIp s.pushFrame (s.pushFrame.ip - 2#16)) rfl
  refine ⟨rfl, rfl, congrArg (· - 2#16) hip, hif, htf, ?_⟩
  rw [← hhalted, ← hreason]
  exact hkeep.mono (by simp [Touched.le])

/-- A blocking key read with a key (the model's choice, log 6). -/
theorem interrupt_reads {s : State} {n : Byte} (h : lookupHandler s.handlers n = some .keyboard)
    (hah : s.half .ah = 0x00#8 ∨ s.half .ah = 0x10#8) {k : Word} {ks : List Word} (hkeys : s.keyBuffer = k :: ks) :
    ∃ t, exec (.int n) s = .next t ∧ t.reg .ax = k ∧ t.keyBuffer = ks ∧ t.ip = s.ip ∧ t.flag .if_ = false ∧ t.flag .tf = false ∧
      OnlyChanges { regs := [.ax], flags := [.if_, .tf], stored := pushedBytes s 3 } s { t with keyBuffer := s.keyBuffer } := by
  obtain ⟨hsp, -, hif, htf, hip, honly⟩ := pushFrame_spec s
  have hrun : s.pushFrame.runHandler .keyboard n = { s.pushFrame.setReg .ax k with keyBuffer := ks } := by
    rw [State.runHandler, half_pushFrame, if_pos hah, State.pushFrame_keyBuffer, hkeys]
  refine ⟨_, rfl, ?_⟩
  rw [interrupt_registered h, hrun]
  have hkeep := onlyChanges_frame_released hsp honly (onlyChanges_setReg s.pushFrame .ax k)
    (State.reg_setReg_ne s.pushFrame (by decide) k)
  refine ⟨State.reg_setReg_same s.pushFrame .ax k, rfl, hip, hif, htf, ?_⟩
  rw [← State.pushFrame_keyBuffer]
  exact hkeep.mono (by simp [Touched.le])

/-- Settles O47: SP by `runHandler_sp`, the exits and the key reads by their own lemmas. -/
theorem registeredHandlers : Obligations.RegisteredHandlers := by
  intro s n
  refine ⟨fun k h => ⟨_, rfl, ?_⟩, ?_, fun h hah => ⟨interrupt_waits h hah, fun k ks => interrupt_reads h hah⟩⟩
  · obtain ⟨hsp, -⟩ := pushFrame_spec s
    rw [interrupt_registered h, State.reg_release, if_pos rfl, runHandler_sp, hsp, release_frame]
  · rintro (h | ⟨h, hah⟩)
    · exact interrupt_exits h rfl
    · exact interrupt_exits h (if_pos ((half_pushFrame s .ah).trans hah))

/-! ## IRET -/

/-- Settles O48 by `returnFromInterrupt_spec`. -/
theorem iretPopsTheFrame : Obligations.IretPopsTheFrame := fun s => ⟨_, rfl, returnFromInterrupt_spec s⟩

/-- IRET on the frame FLAGS, CS, `v` of `s`, in a state that differs from `s` in SP, CS, FLAGS and memory only. -/
theorem iret_undoes {s c : State} {v : Word} {fs : List Flag} {stored : List Addr} (hf : flagsNormal s.flags = true)
    (hsp : c.reg .sp = s.reg .sp - 6#16) (hflags : c.readMem .word (s.seg .ss) (s.reg .sp - 2#16) = s.flags)
    (hcs : c.readMem .word (s.seg .ss) (s.reg .sp - 4#16) = s.seg .cs)
    (hip : c.readMem .word (s.seg .ss) (s.reg .sp - 6#16) = v)
    (honly : OnlyChanges { regs := [.sp], segs := [.cs], flags := fs, stored := stored } s c) :
    ∃ u, exec .iret c = .next u ∧ u.ip = v ∧ u.segs = s.segs ∧ u.flags = s.flags ∧ u.regs = s.regs := by
  obtain ⟨hip', hcs', hflags', hsp', honly'⟩ := returnFromInterrupt_spec c
  have hss : c.seg .ss = s.seg .ss := honly.segs .ss (by simp)
  have htop (m : Word) : stackWord c m = c.readMem .word (s.seg .ss) (s.reg .sp - 6#16 + m) := by rw [stackWord, hss, hsp]
  have h2 : s.reg .sp - 6#16 + 2#16 = s.reg .sp - 4#16 := by bv_omega
  have h4 : s.reg .sp - 6#16 + 4#16 = s.reg .sp - 2#16 := by bv_omega
  refine ⟨_, rfl, ?_, Segs.ext_get fun r => ?_, ?_, State.regs_eq fun r => ?_⟩
  · rw [hip', htop, BitVec.add_zero, hip]
  · by_cases hr : r = .cs
    · subst hr
      exact hcs'.trans ((htop _).trans (by rw [h2, hcs]; rfl))
    · exact (honly'.segs r (by simp [hr])).trans (honly.segs r (by simp [hr]))
  · rw [hflags', htop, h4, hflags, norm_of_flagsNormal hf]
  · by_cases hr : r = .sp
    · subst hr
      rw [hsp', hsp, release_frame]
    · exact (honly'.regs r (by simp [hr]) nofun).trans (honly.regs r (by simp [hr]) nofun)

/-- Settles O49: the three pushes and the entry of an interrupt leave the same frame. -/
theorem iretUndoesAFrame : Obligations.IretUndoesAFrame := by
  intro s hf
  refine ⟨fun a b c v ha hb hc => ?_, fun t n hn ht => ?_⟩
  · obtain rfl := Host.Outcome.next.inj ha
    obtain rfl := Host.Outcome.next.inj hb
    obtain rfl := Host.Outcome.next.inj hc
    have hcs : (s.push16 s.flags).seg .cs = s.seg .cs := (onlyChanges_push16 s s.flags).segs .cs List.not_mem_nil
    obtain ⟨hsp, hwords, honly, -⟩ := pushAll_spec s [s.flags, s.seg .cs, v] (by simp)
    rw [← hcs] at hsp hwords honly
    exact iret_undoes hf hsp (hwords 0 _ rfl) ((hwords 1 _ rfl).trans hcs) (hwords 2 _ rfl)
      (honly.mono (y := { regs := [.sp], segs := [.cs], flags := [], stored := pushedBytes s 3 }) (by simp [Touched.le]))
  · obtain rfl := Host.Outcome.next.inj ht
    obtain ⟨⟨hflags, hcs, hip⟩, hsp, -, -, -, -, honly⟩ := interrupt_enters hn
    exact iret_undoes hf hsp hflags hcs hip honly

/-! # Ports and processor control (46_io_processor_control) -/

/-! ## IN and OUT -/

/-- IN of a byte at `p` (R431, R434). -/
theorem portIn_byte_spec (s : State) (p : Word) : ∃ t, portIn .byte p s = .next t ∧ t.half .al = portValue s s.draws p ∧
    t.portLog = s.portLog ++ portReads s s.draws p ∧ t.ip = s.ip ∧
    OnlyChanges { halves := [.al] } s { t with portLog := s.portLog } := by
  obtain ⟨hvalue, hlog, -⟩ := s.portRead8_spec p
  refine ⟨_, rfl, ?_, hlog, State.portRead8_ip s p, ?_⟩
  · exact (State.half_setHalf_same (s.portRead8 p).2 .al _).trans hvalue
  · exact (onlyChanges_portRead8 s p).andThen (onlyChanges_setHalf { (s.portRead8 p).2 with portLog := s.portLog } .al _)
      (by simp [Touched.le]) (Touched.le_refl _)

/-- What a port read yields depends on the port table only. -/
theorem portValue_congr {s t : State} (h : t.ports = s.ports) (k : Nat) (p : Word) :
    portValue t k p = portValue s k p ∧ portReads t k p = portReads s k p := by
  rw [portValue, portReads, h]
  exact ⟨rfl, rfl⟩

/-- IN of a word at `p`: the low byte at `p`, then the high one at `p + 1` (R433, R434). -/
theorem portIn_word_spec (s : State) (p : Word) : ∃ t, portIn .word p s = .next t ∧ t.half .al = portValue s s.draws p ∧
    t.half .ah = portValue s (if p ∈ s.ports then s.draws + 1 else s.draws) (p + 1#16) ∧
    t.portLog = s.portLog ++ portReads s s.draws p ++
      portReads s (if p ∈ s.ports then s.draws + 1 else s.draws) (p + 1#16) ∧ t.ip = s.ip ∧
    OnlyChanges { regs := [.ax] } s { t with portLog := s.portLog } := by
  obtain ⟨hlow, hlog1, hdraws⟩ := s.portRead8_spec p
  obtain ⟨hhigh, hlog2, -⟩ := (s.portRead8 p).2.portRead8_spec (p + 1#16)
  obtain ⟨hv, hr⟩ := portValue_congr (State.portRead8_ports s p) (s.portRead8 p).2.draws (p + 1#16)
  rw [hv, hdraws] at hhigh
  rw [hr, hlog1, hdraws] at hlog2
  refine ⟨_, rfl, ?_, ?_, hlog2, (State.portRead8_ip _ _).trans (State.portRead8_ip s p), ?_⟩
  · exact (State.half_setReg_same _ rfl _).trans ((append_low _ _).trans hlow)
  · exact (State.half_setReg_same _ rfl _).trans ((append_high _ _).trans hhigh)
  · exact (onlyChanges_portRead .word s p).andThen
      (onlyChanges_setReg { (s.portRead .word p).2 with portLog := s.portLog } .ax _) (by simp [Touched.le]) (Touched.le_refl _)

theorem portWrite_word_eq (s : State) (p : Word) : s.portWrite .word p (s.acc .word)
    = { s with portLog := s.portLog ++ portWrites s p (s.half .al) ++ portWrites s (p + 1#16) (s.half .ah) } := by
  rw [State.portWrite, State.portWrite8_eq, State.portWrite8_eq]
  rfl

/-- Settles O50: both addressings are `portIn` and `portWrite` at their port. -/
theorem portInstructions : Obligations.PortInstructions := by
  intro s p read write h
  have heq : (∀ w, exec (read w) s = portIn w p s) ∧ ∀ w, exec (write w) s = .next (s.portWrite w p (s.acc w)) := by
    rcases h with ⟨port, rfl, rfl, rfl⟩ | ⟨rfl, rfl, rfl⟩ <;> exact ⟨fun _ => rfl, fun _ => rfl⟩
  rw [heq.1, heq.1, heq.2, heq.2]
  exact ⟨portIn_byte_spec s p, portIn_word_spec s p, congrArg Host.Outcome.next (State.portWrite8_eq ..),
    congrArg Host.Outcome.next (portWrite_word_eq s p)⟩

/-! ## Flag instructions -/

theorem setFlag_spec (s : State) (f : Flag) (v : Bool) :
    (s.setFlag f v).flag f = v ∧ (s.setFlag f v).ip = s.ip ∧ OnlyChanges { flags := [f] } s (s.setFlag f v) :=
  ⟨State.flag_setFlag_same s f v, rfl, onlyChanges_setFlag s f v⟩

/-- The word SAHF makes of FLAGS and AH (40_data_transfer R224). -/
def sahfFlags (w : Word) (b : Byte) : Word := (w &&& 0xFF00#16) ||| (b.setWidth 16 &&& 0x00D5#16) ||| 0x0002#16

theorem execSahf_eq (s : State) : execSahf s = .next { s with flags := sahfFlags s.flags (s.half .ah) } := rfl

theorem getLsbD_sahfFlags (w : Word) (b : Byte) {k : Nat} (hk : k ∈ [7, 6, 4, 2, 0]) : (sahfFlags w b).getLsbD k = b.getLsbD k := by
  simp only [List.mem_cons, List.not_mem_nil, or_false] at hk
  rcases hk with rfl | rfl | rfl | rfl | rfl <;> simp [sahfFlags]

/-- The other bits of a normal FLAGS stay (10_state R46). -/
theorem getLsbD_sahfFlags_other {w : Word} (hw : flagsNormal w = true) (b : Byte) {k : Nat} (hk : k ∉ [7, 6, 4, 2, 0]) :
    (sahfFlags w b).getLsbD k = w.getLsbD k := by
  obtain ⟨h1, h0⟩ := (flagsNormal_iff w).mp hw
  by_cases hlt : k < 16
  · have h3 := h0 3 (by simp)
    have h5 := h0 5 (by simp)
    interval_cases k <;> simp_all [sahfFlags]
  · rw [BitVec.getLsbD_of_ge _ _ (by omega), BitVec.getLsbD_of_ge _ _ (by omega)]

/-- Settles O51: seven instructions set one flag; SAHF bit by bit. -/
theorem flagInstructions : Obligations.FlagInstructions := by
  intro s sets
  refine ⟨⟨_, rfl, setFlag_spec s .cf _⟩, ⟨_, rfl, setFlag_spec s .cf _⟩, ⟨_, rfl, setFlag_spec s .cf _⟩,
    ⟨_, rfl, setFlag_spec s .df _⟩, ⟨_, rfl, setFlag_spec s .df _⟩, ⟨_, rfl, setFlag_spec s .if_ _⟩,
    ⟨_, rfl, setFlag_spec s .if_ _⟩, fun hf => ⟨_, execSahf_eq s, getLsbD_sahfFlags _ _ (by decide),
      getLsbD_sahfFlags _ _ (by decide), getLsbD_sahfFlags _ _ (by decide), getLsbD_sahfFlags _ _ (by decide),
      getLsbD_sahfFlags _ _ (by decide), rfl, ?_⟩⟩
  refine ⟨fun _ _ _ => rfl, fun _ _ _ => rfl, fun _ _ => rfl, fun k hk => getLsbD_sahfFlags_other hf _ ?_, fun _ _ => rfl, SameRest.refl s⟩
  simpa [Flag.pos, eq_comm] using hk

/-! ## Processor control and refused encodings -/

/-- Settles O52 by the meaning of each instruction. -/
theorem processorControl : Obligations.ProcessorControl := fun _ =>
  ⟨rfl, rfl, rfl, rfl, fun _ _ _ => rfl, fun _ => rfl, fun _ => rfl, rfl, rfl, rfl, rfl, rfl, rfl, rfl, rfl⟩

/-- An instruction of class x186 is no cause of an interrupt. -/
theorem vector_of_isX186 {i : Instr} (h : i.isX186 = true) : i.vector = none := by
  cases i with
  | int n | int3 | into | bound r m | div w e | idiv w e | aam b => cases h
  | _ => rfl

/-- An instruction of class x186 goes on exactly when the machine has the class. -/
theorem exec_x186 {i : Instr} (h : i.isX186 = true) (s : State) : ∃ t, exec i s = s.ifExt186 (.next t) := by
  obtain ⟨t, ht, -⟩ := exec_runs i s (fun hi => by subst hi; cases h) (vector_of_isX186 h) (fun op m hi => by subst hi; cases h)
  exact ⟨t, ht.trans (if_pos h)⟩

/-- Settles O53. -/
theorem refusedEncodings : Obligations.RefusedEncodings := by
  refine ⟨fun _ _ _ => rfl, fun i s hi hs => ?_, fun i s hi hs => ?_, fun i rest hi => x186_absent hi rest,
    fun _ _ => ⟨⟨_, rfl⟩, ⟨_, rfl⟩⟩⟩
  · obtain ⟨t, ht⟩ := exec_x186 hi s
    rw [ht, ifExt186_refused (by rw [hs]; decide)]
  · obtain ⟨t, ht⟩ := exec_x186 hi s
    exact ⟨t, ht.trans (ifExt186_present hs _)⟩

end Sys2Proof.Machine
end

/-! # Addition, subtraction, logic (41_arithmetic, 42_logic) -/

section

namespace Sys2Proof.Machine

/-! ## A result written with all six flags -/

/-- What an instruction leaves that writes a result and its flags, with any property `F` of those flags. -/
theorem setArith_spec {w : Width} {F : State → Prop} (s : State) (p : Place) {x : Arith w.bits} {r : BitVec w.bits} (hr : x.r = r)
    (hF : ∀ t : State, F (t.setArith x)) :
    ((s.writePlace w p x.r).setArith x).readPlace w p = r ∧ F ((s.writePlace w p x.r).setArith x) ∧
    ResultFlags r ((s.writePlace w p x.r).setArith x) ∧ ((s.writePlace w p x.r).setArith x).ip = s.ip ∧
    OnlyChanges (p.touched w arithFlags) s ((s.writePlace w p x.r).setArith x) := by
  subst hr
  exact ⟨by simp, hF _, resultFlags_setArith x _, by simp, onlyChanges_writePlace_flags (onlyChanges_setArith _ x)⟩

/-- Settles O26: the flags by `addFlags_setArith`. -/
theorem addAndAdc : Obligations.AddAndAdc := fun _ s =>
  ⟨⟨_, rfl, setArith_spec s _ (addArith_r _ _) (addFlags_setArith _ _ _ false)⟩,
    ⟨_, rfl, setArith_spec s _ rfl (addFlags_setArith _ _ _ _)⟩⟩

/-- Settles O27: the flags by `subFlags_setArith`. -/
theorem subSbbAndCmp : Obligations.SubSbbAndCmp := by
  intro f s o a
  have hr : (subArith a o.src false).r = a - o.src := subArith_r a o.src
  refine ⟨⟨_, rfl, setArith_spec s _ hr (subFlags_setArith _ _ _ false)⟩,
    ⟨_, rfl, setArith_spec s _ rfl (subFlags_setArith _ _ _ _)⟩, ⟨_, rfl, subFlags_setArith o.w a o.src false s, ?_, ?_⟩⟩
  · rw [← hr]
    exact resultFlags_setArith _ s
  · exact ⟨State.setArith_ip .., onlyChanges_setArith s _⟩

/-! ## INC, DEC, NEG -/

section
variable (n : Nat) (hn : n = 8 ∨ n = 16) (a : BitVec n)
include hn

theorem addArith_one_of : (addArith a 1 false).of = decide (a.toNat + 1 = 2 ^ (n - 1)) := by
  have ha := a.isLt
  rw [Bool.eq_iff_iff, addArith_of_lit n hn, decide_eq_true_eq]
  rcases hn with rfl | rfl <;> simp [SignedOverflow, BitVec.toInt_eq_toNat_cond] <;> split <;> omega

theorem addArith_one_af : (addArith a 1 false).af = decide (a.toNat % 16 = 15) := by
  rcases hn with rfl | rfl <;> simp [addArith] <;> omega

theorem subArith_one_of : (subArith a 1 false).of = decide (a.toNat = 2 ^ (n - 1)) := by
  have ha := a.isLt
  rw [Bool.eq_iff_iff, subArith_of_lit n hn, decide_eq_true_eq]
  rcases hn with rfl | rfl <;> simp [SignedOverflow, BitVec.toInt_eq_toNat_cond] <;> split <;> omega

theorem subArith_one_af : (subArith a 1 false).af = decide (a.toNat % 16 = 0) := by
  rcases hn with rfl | rfl <;> simp [subArith]

theorem subArith_neg_of : (subArith 0 a false).of = decide (a.toNat = 2 ^ (n - 1)) := by
  have ha := a.isLt
  rw [Bool.eq_iff_iff, subArith_of_lit n hn, decide_eq_true_eq]
  rcases hn with rfl | rfl <;> simp [SignedOverflow, BitVec.toInt_eq_toNat_cond] <;> split <;> omega

omit hn

theorem subArith_neg_cf : (subArith 0 a false).cf = decide (a.toNat ≠ 0) := by
  simp [subArith, Nat.pos_iff_ne_zero]

theorem subArith_neg_af : (subArith 0 a false).af = decide (a.toNat % 16 ≠ 0) := by
  simp [subArith, Nat.pos_iff_ne_zero]

end

/-- INC and DEC write their place and every flag of the result but CF. -/
theorem setArithKeepCF_spec {w : Width} (s : State) (p : Place) {x : Arith w.bits} {r : BitVec w.bits} {o f : Bool} (hr : x.r = r)
    (ho : x.of = o) (hf : x.af = f) :
    ((s.writePlace w p x.r).setArithKeepCF x).readPlace w p = r ∧ ResultFlags r ((s.writePlace w p x.r).setArithKeepCF x) ∧
    ((s.writePlace w p x.r).setArithKeepCF x).flag .of = o ∧ ((s.writePlace w p x.r).setArithKeepCF x).flag .af = f ∧
    ((s.writePlace w p x.r).setArithKeepCF x).ip = s.ip ∧
    OnlyChanges (p.touched w flagsButCF) s ((s.writePlace w p x.r).setArithKeepCF x) := by
  subst hr ho hf
  exact ⟨by simp, resultFlags_setArithKeepCF x _, by simp, by simp, by simp,
    onlyChanges_writePlace_flags (onlyChanges_setArithKeepCF _ x)⟩

/-- NEG writes its place and all six flags. -/
theorem setArith_neg_spec (w : Width) (s : State) (p : Place) (a : BitVec w.bits) :
    let x := subArith 0 a false
    let t := (s.writePlace w p x.r).setArith x
    t.readPlace w p = -a ∧ ResultFlags (-a) t ∧ t.flag .cf = decide (a.toNat ≠ 0) ∧ t.flag .of = decide (a.toNat = 2 ^ (w.bits - 1)) ∧
      t.flag .af = decide (a.toNat % 16 ≠ 0) ∧ t.ip = s.ip ∧ OnlyChanges (p.touched w arithFlags) s t := by
  intro x t
  have hr : x.r = -a := (subArith_r 0 a).trans (BitVec.zero_sub a)
  obtain ⟨hread, -, hflags, hip, honly⟩ := setArith_spec (F := fun _ => True) s p hr fun _ => trivial
  exact ⟨hread, hflags, (State.flag_setArith_cf _ x).trans (subArith_neg_cf _ a),
    (State.flag_setArith_of _ x).trans (subArith_neg_of _ w.bits_cases a),
    (State.flag_setArith_af _ x).trans (subArith_neg_af _ a), hip, honly⟩

/-- Settles O28: INC and DEC by `setArithKeepCF_spec`, NEG by `setArith_neg_spec`. -/
theorem incDecAndNeg : Obligations.IncDecAndNeg := by
  intro s w e r a x top
  refine ⟨⟨_, rfl, setArithKeepCF_spec s _ (addArith_r a 1) (addArith_one_of _ w.bits_cases a) (addArith_one_af _ w.bits_cases a)⟩,
    ⟨_, rfl, setArithKeepCF_spec (w := .word) s (.reg r) (addArith_r x 1) ?_ (addArith_one_af 16 (.inr rfl) x)⟩,
    ⟨_, rfl, setArithKeepCF_spec s _ (subArith_r a 1) (subArith_one_of _ w.bits_cases a) (subArith_one_af _ w.bits_cases a)⟩,
    ⟨_, rfl, setArithKeepCF_spec (w := .word) s (.reg r) (subArith_r x 1) (subArith_one_of 16 (.inr rfl) x)
      (subArith_one_af 16 (.inr rfl) x)⟩,
    ⟨_, rfl, setArith_neg_spec w s _ a⟩⟩
  exact (addArith_one_of 16 (.inr rfl) x).trans (decide_eq_decide.mpr (by omega))

/-! ## Logic -/

/-- AND, OR and XOR write a result with the flags of 10_state R54. -/
theorem setLogic_spec {w : Width} (s : State) (p : Place) (r : BitVec w.bits) :
    ((s.writePlace w p r).setLogic r).readPlace w p = r ∧ ResultFlags r ((s.writePlace w p r).setLogic r) ∧
    ((s.writePlace w p r).setLogic r).flag .cf = false ∧ ((s.writePlace w p r).setLogic r).flag .of = false ∧
    ((s.writePlace w p r).setLogic r).ip = s.ip ∧ OnlyChanges (p.touched w arithFlags) s ((s.writePlace w p r).setLogic r) :=
  ⟨by simp, resultFlags_setLogic r _, by simp, by simp, by simp, onlyChanges_writePlace_flags (onlyChanges_setLogic _ r)⟩

/-- Settles O34. -/
theorem logicalOperations : Obligations.LogicalOperations := fun s _ _ w _ =>
  ⟨⟨_, rfl, setLogic_spec s _ _⟩, ⟨_, rfl, setLogic_spec s _ _⟩, ⟨_, rfl, setLogic_spec s _ _⟩,
    ⟨_, rfl, resultFlags_setLogic _ s, State.flag_setLogic_cf .., State.flag_setLogic_of .., State.setLogic_ip ..,
      onlyChanges_setLogic s _⟩,
    ⟨_, rfl, writePlace_spec w s _ _⟩⟩

end Sys2Proof.Machine
end

/-! # Multiplication and division (41_arithmetic, 47_post8086_ext R491) -/

section

namespace Sys2Proof.Machine

/-! ## Numbers -/

/-- A signed number of `n` bits survives as one. -/
theorem toInt_ofInt_eq_iff {n : Nat} (hn : n = 8 ∨ n = 16 ∨ n = 32) (p : Int) :
    (BitVec.ofInt n p).toInt = p ↔ ¬SignedOverflow n p := by
  rw [BitVec.toInt_ofInt]
  rcases hn with rfl | rfl | rfl <;> simp only [SignedOverflow, Int.bmod] <;> split <;> omega

theorem toNat_ofInt_natCast {n k : Nat} (h : k < 2 ^ n) : (BitVec.ofInt n (k : Int)).toNat = k := by
  rw [BitVec.ofInt_natCast, BitVec.toNat_ofNat, Nat.mod_eq_of_lt h]

/-- A product of two factors inside the bounds `[-m, m]`. -/
theorem mul_bounds {a b m : Int} (ha : -m ≤ a ∧ a ≤ m) (hb : -m ≤ b ∧ b ≤ m) : -(m * m) ≤ a * b ∧ a * b ≤ m * m := by
  rw [← abs_le] at ha hb ⊢
  rw [abs_mul]
  exact mul_le_mul ha hb (abs_nonneg b) ((abs_nonneg a).trans ha)

theorem toInt_bounds_byte (b : Byte) : -128 ≤ b.toInt ∧ b.toInt ≤ 128 := by
  have := b.isLt
  rw [BitVec.toInt_eq_toNat_cond]
  split <;> omega

theorem toInt_bounds_word (v : Word) : -32768 ≤ v.toInt ∧ v.toInt ≤ 32768 := by
  have := v.isLt
  rw [BitVec.toInt_eq_toNat_cond]
  split <;> omega

/-- The two words of a double word, the high one first. -/
theorem extract_append (q : BitVec 32) : q.extractLsb' 16 16 ++ q.extractLsb' 0 16 = q := by
  apply BitVec.eq_of_toNat_eq
  have := q.isLt
  rw [toNat_append_eq]
  simp only [BitVec.extractLsb'_toNat, Nat.shiftRight_eq_div_pow]
  omega

/-! ## MUL and IMUL -/

theorem setMulFlags_spec (s : State) (v : Bool) : (s.setMulFlags v).flag .cf = v ∧ (s.setMulFlags v).flag .of = v ∧
    OnlyChanges { flags := arithFlags } s (s.setMulFlags v) := by
  refine ⟨?_, ?_, ?_⟩
  · rw [State.setMulFlags, State.flag_freeFlags_ne _ (by decide), State.flag_setFlag_ne _ (by decide), State.flag_setFlag_same]
  · rw [State.setMulFlags, State.flag_freeFlags_ne _ (by decide), State.flag_setFlag_same]
  · exact ((onlyChanges_setFlag s .cf v).andThen (onlyChanges_setFlag _ .of v) (z := { flags := arithFlags })
      (by simp [Touched.le, arithFlags]) (by simp [Touched.le, arithFlags])).andThen (onlyChanges_freeFlags _ _)
      (Touched.le_refl _) (by simp [Touched.le, arithFlags])

/-- The flags of a product leave the registers. -/
theorem reg_setMulFlags (s : State) (v : Bool) (r : Reg16) : (s.setMulFlags v).reg r = s.reg r :=
  State.reg_congr (State.setMulFlags_regs s v) r

theorem mulByte_spec (s : State) (p : Int) (v : Bool) :
    ((s.setProduct .byte p).setMulFlags v).reg .ax = BitVec.ofInt 16 p ∧ ((s.setProduct .byte p).setMulFlags v).flag .cf = v ∧
    ((s.setProduct .byte p).setMulFlags v).flag .of = v ∧ ((s.setProduct .byte p).setMulFlags v).ip = s.ip ∧
    OnlyChanges { regs := [.ax], flags := arithFlags } s ((s.setProduct .byte p).setMulFlags v) := by
  obtain ⟨hcf, hof, honly⟩ := setMulFlags_spec (s.setProduct .byte p) v
  exact ⟨(reg_setMulFlags _ v .ax).trans (State.reg_setReg_same ..), hcf, hof, (State.setMulFlags_ip ..).trans rfl,
    (onlyChanges_setReg s .ax _).andThen honly (by simp [Touched.le]) (by simp [Touched.le])⟩

theorem mulWord_spec (s : State) (p : Int) (v : Bool) :
    ((s.setProduct .word p).setMulFlags v).reg .dx ++ ((s.setProduct .word p).setMulFlags v).reg .ax = BitVec.ofInt 32 p ∧
    ((s.setProduct .word p).setMulFlags v).flag .cf = v ∧
    ((s.setProduct .word p).setMulFlags v).flag .of = v ∧ ((s.setProduct .word p).setMulFlags v).ip = s.ip ∧
    OnlyChanges { regs := [.ax, .dx], flags := arithFlags } s ((s.setProduct .word p).setMulFlags v) := by
  obtain ⟨hcf, hof, honly⟩ := setMulFlags_spec (s.setProduct .word p) v
  have hprod : OnlyChanges { regs := [.ax, .dx] } s (s.setProduct .word p) :=
    (onlyChanges_setReg s .dx _).andThen (onlyChanges_setReg _ .ax _) (by simp [Touched.le]) (by simp [Touched.le])
  refine ⟨?_, hcf, hof, (State.setMulFlags_ip ..).trans rfl, hprod.andThen honly (by simp [Touched.le]) (by simp [Touched.le])⟩
  rw [reg_setMulFlags, reg_setMulFlags, ← extract_append (BitVec.ofInt 32 p)]
  rfl

/-- IMUL with three operands (47_post8086_ext R491). -/
theorem imulInto_spec (r : RegNum) (e : Rm) (b : Word) (s : State) :
    ∃ t, imulInto r e b s = .next t ∧ t.reg r.r16 = BitVec.ofInt 16 ((s.readRm .word e).toInt * b.toInt) ∧
      (t.flag .cf = true ↔ SignedOverflow 16 ((s.readRm .word e).toInt * b.toInt)) ∧ t.flag .of = t.flag .cf ∧ t.ip = s.ip ∧
      OnlyChanges { regs := [r.r16], flags := arithFlags } s t := by
  refine ⟨_, rfl, ?_⟩
  generalize (s.readRm .word e).toInt * b.toInt = p
  obtain ⟨hcf, hof, honly⟩ := setMulFlags_spec (s.setReg r.r16 (BitVec.ofInt 16 p)) (decide (p < -32768) || decide (32767 < p))
  refine ⟨(reg_setMulFlags ..).trans (State.reg_setReg_same ..), ?_, hof.trans hcf.symm, (State.setMulFlags_ip ..).trans rfl,
    (onlyChanges_setReg s r.r16 _).andThen honly (by simp [Touched.le]) (by simp [Touched.le])⟩
  rw [hcf, Bool.or_eq_true, decide_eq_true_eq, decide_eq_true_eq, SignedOverflow]
  omega

/-- The overflow test of IMUL. -/
theorem imul_overflow_iff {n : Nat} (hn : n = 8 ∨ n = 16 ∨ n = 32) {p : Int} {c : Bool}
    (hc : c = decide (p ≠ (BitVec.ofInt n p).toInt)) : c = true ↔ SignedOverflow n p := by
  rw [hc, decide_eq_true_eq, ne_eq, eq_comm, toInt_ofInt_eq_iff hn, not_not]

/-- Settles O29: the products by their bounds, the flags by `setMulFlags_spec`. -/
theorem mulAndImul : Obligations.MulAndImul := by
  intro s e
  refine ⟨⟨_, rfl, ?_⟩, ⟨_, rfl, ?_⟩, ⟨_, rfl, ?_⟩, ⟨_, rfl, ?_⟩, fun hx r v => ⟨?_, fun b => ?_⟩⟩
  · obtain ⟨hax, hcf, hof, hip, honly⟩ := mulByte_spec s (((s.half .al).toNat * (s.readRm .byte e).toNat : Nat) : Int)
      (decide (256 ≤ (s.half .al).toNat * (s.readRm .byte e).toNat))
    refine ⟨(congrArg BitVec.toNat hax).trans (toNat_ofInt_natCast ?_), hcf, hof, hip, honly⟩
    exact (Nat.mul_lt_mul'' (s.half .al).isLt (s.readRm .byte e).isLt).trans_le (by decide)
  · obtain ⟨hax, hcf, hof, hip, honly⟩ := mulWord_spec s (((s.reg .ax).toNat * (s.readRm .word e).toNat : Nat) : Int)
      (decide (65536 ≤ (s.reg .ax).toNat * (s.readRm .word e).toNat))
    refine ⟨(toNat_append_eq _ _).symm.trans ((congrArg BitVec.toNat hax).trans (toNat_ofInt_natCast ?_)), hcf, hof, hip, honly⟩
    exact (Nat.mul_lt_mul'' (s.reg .ax).isLt (s.readRm .word e).isLt).trans_le (by decide)
  · obtain ⟨hax, hcf, hof, hip, honly⟩ := mulByte_spec s ((s.half .al).toInt * (s.readRm .byte e).toInt) _
    refine ⟨(congrArg BitVec.toInt hax).trans ((toInt_ofInt_eq_iff (by simp) _).mpr ?_), imul_overflow_iff (by simp) hcf,
      hof.trans hcf.symm, hip, honly⟩
    have := mul_bounds (toInt_bounds_byte (s.half .al)) (toInt_bounds_byte (s.readRm .byte e))
    unfold SignedOverflow
    omega
  · obtain ⟨hax, hcf, hof, hip, honly⟩ := mulWord_spec s ((s.reg .ax).toInt * (s.readRm .word e).toInt) _
    refine ⟨(congrArg BitVec.toInt hax).trans ((toInt_ofInt_eq_iff (by simp) _).mpr ?_), imul_overflow_iff (by simp) hcf,
      hof.trans hcf.symm, hip, honly⟩
    have := mul_bounds (toInt_bounds_word (s.reg .ax)) (toInt_bounds_word (s.readRm .word e))
    unfold SignedOverflow
    omega
  · obtain ⟨t, ht, hspec⟩ := imulInto_spec r e v s
    exact ⟨t, (ifExt186_present hx _).trans ht, hspec⟩
  · obtain ⟨t, ht, hspec⟩ := imulInto_spec r e (b.signExtend 16) s
    rw [toInt_signExtend_byte] at hspec
    exact ⟨t, (ifExt186_present hx _).trans ht, hspec⟩

/-! ## DIV and IDIV -/

theorem onlyChanges_freeDivFlags (s : State) : OnlyChanges { flags := arithFlags } s s.freeDivFlags :=
  (onlyChanges_freeFlags s _).mono (by simp [Touched.le, arithFlags])

theorem setQuotRem_byte_spec (s : State) (q r : Int) :
    ((s.setQuotRem .byte q r).freeDivFlags).half .al = BitVec.ofInt 8 q ∧
    ((s.setQuotRem .byte q r).freeDivFlags).half .ah = BitVec.ofInt 8 r ∧ ((s.setQuotRem .byte q r).freeDivFlags).ip = s.ip ∧
    OnlyChanges { regs := [.ax], flags := arithFlags } s (s.setQuotRem .byte q r).freeDivFlags := by
  have hregs := (onlyChanges_freeDivFlags (s.setQuotRem .byte q r)).regs_eq rfl rfl
  have hquot : OnlyChanges { regs := [.ax], flags := arithFlags } s (s.setQuotRem .byte q r) :=
    (onlyChanges_setHalf s .al _).andThen (onlyChanges_setHalf _ .ah _) (by simp [Touched.le, Reg8.parent])
      (by simp [Touched.le, Reg8.parent])
  refine ⟨(State.half_congr hregs .al).trans ?_, (State.half_congr hregs .ah).trans ?_, State.freeFlags_ip .., ?_⟩
  · exact (State.half_setHalf_ne _ (by decide) _).trans (State.half_setHalf_same ..)
  · exact State.half_setHalf_same ..
  · exact hquot.andThen (onlyChanges_freeDivFlags _) (Touched.le_refl _) (by simp [Touched.le])

theorem setQuotRem_word_spec (s : State) (q r : Int) :
    ((s.setQuotRem .word q r).freeDivFlags).reg .ax = BitVec.ofInt 16 q ∧
    ((s.setQuotRem .word q r).freeDivFlags).reg .dx = BitVec.ofInt 16 r ∧ ((s.setQuotRem .word q r).freeDivFlags).ip = s.ip ∧
    OnlyChanges { regs := [.ax, .dx], flags := arithFlags } s (s.setQuotRem .word q r).freeDivFlags := by
  have hregs := (onlyChanges_freeDivFlags (s.setQuotRem .word q r)).regs_eq rfl rfl
  have hquot : OnlyChanges { regs := [.ax, .dx], flags := arithFlags } s (s.setQuotRem .word q r) :=
    (onlyChanges_setReg s .ax _).andThen (onlyChanges_setReg _ .dx _) (by simp [Touched.le]) (by simp [Touched.le])
  exact ⟨(State.reg_congr hregs .ax).trans rfl, (State.reg_congr hregs .dx).trans rfl, State.freeFlags_ip ..,
    hquot.andThen (onlyChanges_freeDivFlags _) (Touched.le_refl _) (by simp [Touched.le])⟩

theorem execDiv_fits {w : Width} {e : Rm} {s : State} (hd : (s.readRm w e).toNat ≠ 0)
    (hq : s.dividend w / (s.readRm w e).toNat < 2 ^ w.bits) :
    execDiv w e s = .next (s.setQuotRem w (s.dividend w / (s.readRm w e).toNat : Nat)
      (s.dividend w % (s.readRm w e).toNat : Nat)).freeDivFlags :=
  if_neg (not_or.mpr ⟨hd, by omega⟩)

theorem execDiv_traps {w : Width} {e : Rm} {s : State}
    (h : (s.readRm w e).toNat = 0 ∨ 2 ^ w.bits ≤ s.dividend w / (s.readRm w e).toNat) : execDiv w e s = exec (.int 0#8) s :=
  if_pos (h.imp id fun h => by have := Nat.two_pow_pos w.bits; omega)

theorem execIdiv_fits {w : Width} {e : Rm} {s : State} (hd : (s.readRm w e).toInt ≠ 0)
    (hq : ¬SignedOverflow w.bits ((s.signedDividend w).tdiv (s.readRm w e).toInt)) :
    execIdiv w e s = .next (s.setQuotRem w ((s.signedDividend w).tdiv (s.readRm w e).toInt)
      ((s.signedDividend w).tmod (s.readRm w e).toInt)).freeDivFlags := by
  have hr : (s.signedDividend w).tmod (s.readRm w e).toInt
      = s.signedDividend w - (s.signedDividend w).tdiv (s.readRm w e).toInt * (s.readRm w e).toInt := by
    rw [Int.tmod_def, mul_comm]
  rw [hr]
  refine (if_neg hd).trans (if_neg fun h => hq (h.imp id fun h => ?_))
  omega

theorem execIdiv_traps {w : Width} {e : Rm} {s : State}
    (h : (s.readRm w e).toInt = 0 ∨ SignedOverflow w.bits ((s.signedDividend w).tdiv (s.readRm w e).toInt)) :
    execIdiv w e s = exec (.int 0#8) s := by
  by_cases hd : (s.readRm w e).toInt = 0
  · exact if_pos hd
  · refine (if_neg hd).trans (if_pos ((h.resolve_left hd).imp id fun h => ?_))
    omega

/-- The remainder of a signed division is smaller than the divisor. -/
theorem tmod_fits {n : Nat} {a d : Int} (hd : d ≠ 0) (h : -2 ^ (n - 1) ≤ d ∧ d ≤ 2 ^ (n - 1)) : ¬SignedOverflow n (a.tmod d) := by
  have hlt : (a.tmod d).natAbs < d.natAbs := by
    rw [Int.natAbs_tmod]
    exact Nat.mod_lt _ (Int.natAbs_pos.mpr hd)
  unfold SignedOverflow
  omega

theorem dividend_word (s : State) : s.dividend .word = (s.reg .dx).toNat * 65536 + (s.reg .ax).toNat := toNat_append_eq _ _

/-- Settles O30. -/
theorem divAndIdiv : Obligations.DivAndIdiv := by
  intro s e
  refine ⟨fun hd hq => ⟨_, execDiv_fits hd hq, ?_⟩, fun hd hq => ⟨_, execDiv_fits hd ((dividend_word s).symm ▸ hq), ?_⟩,
    fun hd hq => ⟨_, execIdiv_fits hd hq, ?_⟩, fun hd hq => ⟨_, execIdiv_fits hd hq, ?_⟩⟩
  · obtain ⟨hal, hah, hrest⟩ := setQuotRem_byte_spec s _ _
    refine ⟨(congrArg BitVec.toNat hal).trans (toNat_ofInt_natCast hq), (congrArg BitVec.toNat hah).trans (toNat_ofInt_natCast ?_), hrest⟩
    exact (Nat.mod_lt _ (Nat.pos_of_ne_zero hd)).trans (s.readRm .byte e).isLt
  · rw [dividend_word]
    obtain ⟨hax, hdx, hrest⟩ := setQuotRem_word_spec s _ _
    refine ⟨(congrArg BitVec.toNat hax).trans (toNat_ofInt_natCast hq), (congrArg BitVec.toNat hdx).trans (toNat_ofInt_natCast ?_), hrest⟩
    exact (Nat.mod_lt _ (Nat.pos_of_ne_zero hd)).trans (s.readRm .word e).isLt
  · obtain ⟨hal, hah, hrest⟩ := setQuotRem_byte_spec s _ _
    exact ⟨(congrArg BitVec.toInt hal).trans ((toInt_ofInt_eq_iff (by simp) _).mpr hq),
      (congrArg BitVec.toInt hah).trans ((toInt_ofInt_eq_iff (by simp) _).mpr (tmod_fits hd (toInt_bounds_byte _))), hrest⟩
  · obtain ⟨hax, hdx, hrest⟩ := setQuotRem_word_spec s _ _
    exact ⟨(congrArg BitVec.toInt hax).trans ((toInt_ofInt_eq_iff (by simp) _).mpr hq),
      (congrArg BitVec.toInt hdx).trans ((toInt_ofInt_eq_iff (by simp) _).mpr (tmod_fits hd (toInt_bounds_word _))), hrest⟩

/-- Settles O31: each trap is the branch of its instruction that takes the interrupt. -/
theorem trapsEnterTheirVectors : Obligations.TrapsEnterTheirVectors := by
  intro s e
  refine ⟨execDiv_traps, fun h => execDiv_traps ((dividend_word s).symm ▸ h), execIdiv_traps, execIdiv_traps, rfl, rfl,
    fun h => if_pos h, fun r m h => if_pos h, fun h => if_neg (by simp [h]), fun r m hlo hhi => if_neg ?_⟩
  exact not_or.mpr ⟨hlo.not_gt, hhi.not_gt⟩

end Sys2Proof.Machine
end

/-! # The decimal and ASCII adjusts (41_arithmetic) -/

section

namespace Sys2Proof.Machine

/-! ## DAA and DAS -/

theorem setDecimal_spec (s : State) (x : Byte × Bool × Bool) :
    (s.setDecimal x).half .al = x.1 ∧ (s.setDecimal x).flag .cf = x.2.1 ∧ (s.setDecimal x).flag .af = x.2.2 ∧
    ResultFlags x.1 (s.setDecimal x) ∧ (s.setDecimal x).ip = s.ip ∧
    OnlyChanges { halves := [.al], flags := arithFlags } s (s.setDecimal x) := by
  refine ⟨State.half_setHalf_same s .al x.1, ?_, ?_, resultFlags_freeFlags (fs := [.of]) (by decide) (by decide) (by decide)
    (resultFlags_setSZP ..), State.setDecimal_ip .., ?_⟩
  · rw [State.setDecimal, State.flag_freeFlag_ne _ (by decide), State.flag_setSZP_ne _ _ (by decide),
      State.flag_setFlag_ne _ (by decide), State.flag_setFlag_same]
  · rw [State.setDecimal, State.flag_freeFlag_ne _ (by decide), State.flag_setSZP_ne _ _ (by decide), State.flag_setFlag_same]
  · have hflags (u : State) : OnlyChanges { flags := arithFlags } u
        ((((u.setFlag .cf x.2.1).setFlag .af x.2.2).setSZP x.1).freeFlag .of) :=
      ((((onlyChanges_setFlag u .cf _).trans (onlyChanges_setFlag _ .af _)).trans (onlyChanges_setSZP _ x.1)).trans
        (onlyChanges_freeFlag _ .of)).mono (by simp [Touched.le, Touched.add, arithFlags])
    exact (onlyChanges_setHalf s .al x.1).andThen (hflags _) (by simp [Touched.le]) (by simp [Touched.le])

/-- DAA in numbers (R270). -/
theorem daaAdjust_spec (al : Byte) (af cf : Bool) :
    ((daaAdjust al af cf).1.toNat : Int) = (al.toNat + (if 9 < al.toNat % 16 ∨ af = true then 6 else 0)
      + (if 0x99 < al.toNat ∨ cf = true then 0x60 else 0)) % 256 ∧
    ((daaAdjust al af cf).2.1 = true ↔ 0x99 < al.toNat ∨ cf = true) ∧
    ((daaAdjust al af cf).2.2 = true ↔ 9 < al.toNat % 16 ∨ af = true) := by
  have := al.isLt
  refine ⟨?_, by simp [daaAdjust], by simp [daaAdjust]⟩
  by_cases hl : 9 < al.toNat % 16 ∨ af = true <;> by_cases hh : 0x99 < al.toNat ∨ cf = true <;>
    simp [daaAdjust, hl, hh]
  omega

/-- DAS in numbers (R271): the second cause of CF is a borrow of the low digit's adjustment. -/
theorem dasAdjust_spec (al : Byte) (af cf : Bool) :
    ((dasAdjust al af cf).1.toNat : Int) = ((al.toNat : Int) - (if 9 < al.toNat % 16 ∨ af = true then 6 else 0)
      - (if 0x99 < al.toNat ∨ cf = true then 0x60 else 0)) % 256 ∧
    ((dasAdjust al af cf).2.1 = true ↔ (0x99 < al.toNat ∨ cf = true) ∨
      ((9 < al.toNat % 16 ∨ af = true) ∧ al.toNat < 6)) ∧
    ((dasAdjust al af cf).2.2 = true ↔ 9 < al.toNat % 16 ∨ af = true) := by
  have := al.isLt
  refine ⟨?_, ?_, by simp [dasAdjust]⟩
  · by_cases hl : 9 < al.toNat % 16 ∨ af = true <;> by_cases hh : 0x99 < al.toNat ∨ cf = true <;>
      simp [dasAdjust, hl, hh, BitVec.toNat_sub] <;> omega
  · cases cf <;> simp [dasAdjust]

/-- Settles O32. -/
theorem decimalAdjusts : Obligations.DecimalAdjusts := by
  intro s al low high
  obtain ⟨haDaa, hcDaa, hfDaa⟩ := daaAdjust_spec (s.half .al) (s.flag .af) (s.flag .cf)
  obtain ⟨haDas, hcDas, hfDas⟩ := dasAdjust_spec (s.half .al) (s.flag .af) (s.flag .cf)
  refine ⟨⟨_, rfl, ?_⟩, ⟨_, rfl, ?_⟩⟩
  · obtain ⟨hal, hcf, haf, hflags, hip, honly⟩ := setDecimal_spec s (daaAdjust (s.half .al) (s.flag .af) (s.flag .cf))
    rw [hal, hcf, haf]
    exact ⟨haDaa, hcDaa, hfDaa, hflags, hip, honly⟩
  · obtain ⟨hal, hcf, haf, hflags, hip, honly⟩ := setDecimal_spec s (dasAdjust (s.half .al) (s.flag .af) (s.flag .cf))
    rw [hal, hcf, haf]
    exact ⟨haDas, hcDas, hfDas, hflags, hip, honly⟩

/-! ## AAA, AAS, AAM, AAD -/

theorem onlyChanges_setAlAh (s : State) (h k : Reg8) (hh : h.parent = .ax) (hk : k.parent = .ax) (v w : Byte) :
    OnlyChanges { regs := [.ax] } s ((s.setHalf h v).setHalf k w) :=
  (onlyChanges_setHalf s h v).andThen (onlyChanges_setHalf _ k w) (by simp [Touched.le, hh]) (by simp [Touched.le, hk])

theorem setAscii_spec (s : State) (al ah : Byte) (adjusted : Bool) :
    ((s.setAscii al ah adjusted).half .al).toNat = al.toNat % 16 ∧ (s.setAscii al ah adjusted).half .ah = ah ∧
    (s.setAscii al ah adjusted).flag .af = adjusted ∧ (s.setAscii al ah adjusted).flag .cf = adjusted ∧
    (s.setAscii al ah adjusted).ip = s.ip ∧ OnlyChanges { regs := [.ax], flags := arithFlags } s (s.setAscii al ah adjusted) := by
  have hregs : (s.setAscii al ah adjusted).regs = ((s.setHalf .al (al &&& 0x0F#8)).setHalf .ah ah).regs :=
    (State.freeFlags_regs ..).trans rfl
  refine ⟨?_, ?_, ?_, ?_, State.setAscii_ip .., ?_⟩
  · rw [State.half_congr hregs, State.half_setHalf_ne _ (by decide), State.half_setHalf_same, BitVec.toNat_and]
    exact Nat.and_two_pow_sub_one_eq_mod al.toNat 4
  · rw [State.half_congr hregs, State.half_setHalf_same]
  · rw [State.setAscii, State.flag_freeFlags_ne _ (by decide), State.flag_setFlag_ne _ (by decide), State.flag_setFlag_same]
  · rw [State.setAscii, State.flag_freeFlags_ne _ (by decide), State.flag_setFlag_same]
  · have hflags (u : State) : OnlyChanges { flags := arithFlags } u
        (((u.setFlag .af adjusted).setFlag .cf adjusted).freeFlags [.of, .sf, .zf, .pf]) :=
      (((onlyChanges_setFlag u .af _).trans (onlyChanges_setFlag _ .cf _)).trans (onlyChanges_freeFlags _ _)).mono
        (by simp [Touched.le, Touched.add, arithFlags])
    exact (onlyChanges_setAlAh s .al .ah rfl rfl _ _).andThen (hflags _) (by simp [Touched.le]) (by simp [Touched.le])

theorem asciiAdjusts_iff (al : Byte) (af : Bool) : asciiAdjusts al af = true ↔ 9 < al.toNat % 16 ∨ af = true := by
  simp [asciiAdjusts]

/-- AAA in numbers (R272). -/
theorem aaa_spec (s : State) :
    let adjust : Prop := 9 < (s.half .al).toNat % 16 ∨ s.flag .af = true
    ∃ t, exec .aaa s = .next t ∧ (t.half .al).toNat = ((s.half .al).toNat + (if adjust then 6 else 0)) % 16 ∧
      (t.half .ah).toNat = ((s.half .ah).toNat + (if adjust then 1 else 0)) % 256 ∧ (t.flag .af = true ↔ adjust) ∧
      (t.flag .cf = true ↔ adjust) ∧ t.ip = s.ip ∧ OnlyChanges { regs := [.ax], flags := arithFlags } s t := by
  intro adjust
  refine ⟨_, execAaa_eq s, ?_⟩
  by_cases h : adjust
  · rw [if_pos ((asciiAdjusts_iff ..).mpr h), if_pos h, if_pos h]
    obtain ⟨hal, hah, haf, hcf, hip, honly⟩ := setAscii_spec s (s.half .al + 6#8) (s.half .ah + 1#8) true
    refine ⟨hal.trans ?_, ?_, iff_of_true haf h, iff_of_true hcf h, hip, honly⟩
    · rw [BitVec.toNat_add]
      simp only [BitVec.toNat_ofNat]
      omega
    · rw [hah, BitVec.toNat_add]
      rfl
  · rw [if_neg (mt (asciiAdjusts_iff ..).mp h), if_neg h, if_neg h]
    obtain ⟨hal, hah, haf, hcf, hip, honly⟩ := setAscii_spec s (s.half .al) (s.half .ah) false
    refine ⟨hal, ?_, iff_of_false (by simp [haf]) h, iff_of_false (by simp [hcf]) h, hip, honly⟩
    rw [hah, Nat.add_zero, Nat.mod_eq_of_lt (s.half .ah).isLt]

/-- AAS in numbers (R273). -/
theorem aas_spec (s : State) :
    let adjust : Prop := 9 < (s.half .al).toNat % 16 ∨ s.flag .af = true
    ∃ t, exec .aas s = .next t ∧ ((t.half .al).toNat : Int) = (((s.half .al).toNat : Int) - (if adjust then 6 else 0)) % 16 ∧
      ((t.half .ah).toNat : Int) = (((s.half .ah).toNat : Int) - (if adjust then 1 else 0)) % 256 ∧ (t.flag .af = true ↔ adjust) ∧
      (t.flag .cf = true ↔ adjust) ∧ t.ip = s.ip ∧ OnlyChanges { regs := [.ax], flags := arithFlags } s t := by
  intro adjust
  refine ⟨_, execAas_eq s, ?_⟩
  by_cases h : adjust
  · rw [if_pos ((asciiAdjusts_iff ..).mpr h), if_pos h, if_pos h]
    obtain ⟨hal, hah, haf, hcf, hip, honly⟩ := setAscii_spec s (s.half .al - 6#8) (s.half .ah - 1#8) true
    refine ⟨?_, ?_, iff_of_true haf h, iff_of_true hcf h, hip, honly⟩
    · rw [hal, BitVec.toNat_sub]
      simp only [BitVec.toNat_ofNat]
      omega
    · rw [hah, BitVec.toNat_sub]
      simp only [BitVec.toNat_ofNat]
      omega
  · rw [if_neg (mt (asciiAdjusts_iff ..).mp h), if_neg h, if_neg h]
    obtain ⟨hal, hah, haf, hcf, hip, honly⟩ := setAscii_spec s (s.half .al) (s.half .ah) false
    have := (s.half .ah).isLt
    refine ⟨?_, ?_, iff_of_false (by simp [haf]) h, iff_of_false (by simp [hcf]) h, hip, honly⟩
    · rw [hal]
      omega
    · rw [hah]
      omega

/-- The flags of AAM and AAD: SF, ZF, PF of the new AL, the others free. -/
theorem setResult_spec (s : State) (al : Byte) : ((s.setSZP al).freeFlags [.of, .af, .cf]).regs = s.regs ∧
    ResultFlags al ((s.setSZP al).freeFlags [.of, .af, .cf]) ∧ ((s.setSZP al).freeFlags [.of, .af, .cf]).ip = s.ip ∧
    OnlyChanges { flags := arithFlags } s ((s.setSZP al).freeFlags [.of, .af, .cf]) :=
  ⟨(State.freeFlags_regs ..).trans (State.setSZP_regs ..),
    resultFlags_freeFlags (by decide) (by decide) (by decide) (resultFlags_setSZP al s),
    (State.freeFlags_ip ..).trans (State.setSZP_ip ..),
    ((onlyChanges_setSZP s al).trans (onlyChanges_freeFlags _ _)).mono (by simp [Touched.le, Touched.add, arithFlags])⟩

theorem aam_spec (s : State) {b : Byte} (hb : b ≠ 0#8) : ∃ t, exec (.aam b) s = .next t ∧
    (t.half .ah).toNat = (s.half .al).toNat / b.toNat ∧ (t.half .al).toNat = (s.half .al).toNat % b.toNat ∧
    ResultFlags (t.half .al) t ∧ t.ip = s.ip ∧ OnlyChanges { regs := [.ax], flags := arithFlags } s t := by
  refine ⟨_, if_neg hb, ?_⟩
  obtain ⟨hregs, hflags, hip, honly⟩ :=
    setResult_spec ((s.setHalf .ah (s.half .al / b)).setHalf .al (s.half .al % b)) (s.half .al % b)
  rw [State.half_congr hregs, State.half_congr hregs, State.half_setHalf_same, State.half_setHalf_ne _ (by decide),
    State.half_setHalf_same]
  exact ⟨BitVec.toNat_udiv, BitVec.toNat_umod, hflags, hip,
    (onlyChanges_setAlAh s .ah .al rfl rfl _ _).andThen honly (by simp [Touched.le]) (by simp [Touched.le])⟩

theorem aad_spec (s : State) (b : Byte) : ∃ t, exec (.aad b) s = .next t ∧
    (t.half .al).toNat = ((s.half .al).toNat + (s.half .ah).toNat * b.toNat) % 256 ∧ t.half .ah = 0#8 ∧
    ResultFlags (t.half .al) t ∧ t.ip = s.ip ∧ OnlyChanges { regs := [.ax], flags := arithFlags } s t := by
  refine ⟨_, rfl, ?_⟩
  obtain ⟨hregs, hflags, hip, honly⟩ :=
    setResult_spec ((s.setHalf .al (s.half .al + s.half .ah * b)).setHalf .ah 0#8) (s.half .al + s.half .ah * b)
  rw [State.half_congr hregs, State.half_congr hregs, State.half_setHalf_same, State.half_setHalf_ne _ (by decide),
    State.half_setHalf_same]
  refine ⟨?_, rfl, hflags, hip, (onlyChanges_setAlAh s .al .ah rfl rfl _ _).andThen honly (by simp [Touched.le]) (by simp [Touched.le])⟩
  rw [BitVec.toNat_add, BitVec.toNat_mul, Nat.add_mod_mod]

end Sys2Proof.Machine

namespace Sys2Proof

/-- Settles O33 (`asciiAdjusts` of the model's own namespace is the test of AAA and AAS). -/
theorem asciiAdjusts : Obligations.AsciiAdjusts := fun s =>
  ⟨Machine.aaa_spec s, Machine.aas_spec s, fun _ hb => Machine.aam_spec s hb, Machine.aad_spec s⟩

end Sys2Proof

namespace Sys2Proof.Machine

/-! # Shifts and rotates (43_shift_rotate) -/

theorem args_count (f : ShiftForm) (s : State) : (f.args s).count = shiftCount f s := by
  cases f with
  | one w e => rfl
  | cl w e => exact maskCount_eq (s.half .cl)
  | imm w e v => exact maskCount_eq v

theorem shiftMeaning_eq {f : ShiftForm} {s : State} (h : f.available s) (op : ShiftOp) :
    shiftMeaning op f s = .next (shifted op f s) := by
  cases f with
  | one w e => exact shiftRun_eq op (.one w e) s
  | cl w e => exact shiftRun_eq op (.cl w e) s
  | imm w e v => exact (ifExt186_present h _).trans (shiftRun_eq op _ s)

/-- A masked count of 0 changes nothing (decision D39). -/
theorem shiftMeaning_zero {f : ShiftForm} {s : State} (h : f.available s) (h0 : shiftCount f s = 0) (op : ShiftOp) :
    shiftMeaning op f s = .next s :=
  (shiftMeaning_eq h op).trans (congrArg Host.Outcome.next (if_pos ((args_count f s).trans h0)))

/-- Another count writes the operand and the flags. -/
theorem shiftMeaning_steps {f : ShiftForm} {s : State} (h : f.available s) (hn : shiftCount f s ≠ 0) {op : ShiftOp}
    {r : BitVec (f.args s).w.bits} {cf : Bool}
    (hsteps : shiftSteps op (shiftCount f s) (s.readPlace (f.args s).w (f.args s).dst) (s.flag .cf) = (r, cf)) :
    shiftMeaning op f s = .next ((s.writePlace (f.args s).w (f.args s).dst r).setShiftFlags op (shiftCount f s)
      (s.readPlace (f.args s).w (f.args s).dst) r cf) := by
  rw [shiftMeaning_eq h]
  refine congrArg Host.Outcome.next ((if_neg (mt (args_count f s).symm.trans hn)).trans ?_)
  rw [args_count, hsteps]

/-! ## The flags -/

section
variable {n : Nat} (s : State) (op : ShiftOp) (k : Nat) (a r : BitVec n) (cf : Bool)

/-- CF and OF, which every shift and rotate writes. -/
def State.setShiftCarry (s : State) (op : ShiftOp) (k : Nat) (a r : BitVec n) (cf : Bool) : State :=
  if k = 1 then (s.setFlag .cf cf).setFlag .of (shiftOF op a r cf) else (s.setFlag .cf cf).freeFlag .of

theorem setShiftFlags_eq : s.setShiftFlags op k a r cf
    = if op.isRotate = true then s.setShiftCarry op k a r cf else ((s.setShiftCarry op k a r cf).setSZP r).freeFlag .af := rfl

theorem setShiftCarry_spec : (s.setShiftCarry op k a r cf).flag .cf = cf ∧
    (k = 1 → (s.setShiftCarry op k a r cf).flag .of = shiftOF op a r cf) ∧
    OnlyChanges { flags := [.cf, .of] } s (s.setShiftCarry op k a r cf) := by
  by_cases hk : k = 1
  · rw [State.setShiftCarry, if_pos hk]
    refine ⟨?_, fun _ => State.flag_setFlag_same .., (onlyChanges_setFlag s .cf cf).andThen (onlyChanges_setFlag _ .of _)
      (by simp [Touched.le]) (by simp [Touched.le])⟩
    rw [State.flag_setFlag_ne _ (by decide), State.flag_setFlag_same]
  · rw [State.setShiftCarry, if_neg hk]
    refine ⟨?_, fun h => absurd h hk, (onlyChanges_setFlag s .cf cf).andThen (onlyChanges_freeFlag _ .of)
      (by simp [Touched.le]) (by simp [Touched.le])⟩
    rw [State.flag_freeFlag_ne _ (by decide), State.flag_setFlag_same]

end

/-- A shift by a count other than 0. -/
theorem shift_spec {f : ShiftForm} {s : State} (h : f.available s) (hn : shiftCount f s ≠ 0) {op : ShiftOp}
    (hop : op.isRotate = false) {r : BitVec (f.args s).w.bits} {cf of : Bool}
    (hsteps : shiftSteps op (shiftCount f s) (s.readPlace (f.args s).w (f.args s).dst) (s.flag .cf) = (r, cf))
    (hof : shiftOF op (s.readPlace (f.args s).w (f.args s).dst) r cf = of) :
    ∃ t, shiftMeaning op f s = .next t ∧ t.readPlace (f.args s).w (f.args s).dst = r ∧ t.flag .cf = cf ∧
      (shiftCount f s = 1 → t.flag .of = of) ∧ ResultFlags r t ∧ t.ip = s.ip ∧
      OnlyChanges ((f.args s).dst.touched (f.args s).w arithFlags) s t := by
  refine ⟨_, shiftMeaning_steps h hn hsteps, ?_⟩
  obtain ⟨hcf, hof', honly⟩ := setShiftCarry_spec (s.writePlace (f.args s).w (f.args s).dst r) op (shiftCount f s)
    (s.readPlace (f.args s).w (f.args s).dst) r cf
  refine ⟨?_, ?_, fun h1 => ?_, ?_, by simp, onlyChanges_writePlace_flags (v := r) ?_⟩
  · rw [State.readPlace_congr (State.setShiftFlags_regs ..) (State.setShiftFlags_mem ..), State.readPlace_writePlace_same]
  all_goals rw [setShiftFlags_eq, if_neg (by simp [hop])]
  · rw [State.flag_freeFlag_ne _ (by decide), State.flag_setSZP_ne _ _ (by decide), hcf]
  · rw [State.flag_freeFlag_ne _ (by decide), State.flag_setSZP_ne _ _ (by decide), hof' h1, hof]
  · exact resultFlags_freeFlags (fs := [.af]) (by decide) (by decide) (by decide) (resultFlags_setSZP r _)
  · exact (honly.andThen (onlyChanges_setSZP _ r) (z := { flags := arithFlags }) (by simp [Touched.le, arithFlags])
      (by simp [Touched.le, arithFlags])).andThen (onlyChanges_freeFlag _ .af) (Touched.le_refl _)
      (by simp [Touched.le, arithFlags])

/-- A rotate by a count other than 0. -/
theorem rotate_spec {f : ShiftForm} {s : State} (h : f.available s) (hn : shiftCount f s ≠ 0) {op : ShiftOp}
    (hop : op.isRotate = true) {r : BitVec (f.args s).w.bits} {cf : Bool}
    (hsteps : shiftSteps op (shiftCount f s) (s.readPlace (f.args s).w (f.args s).dst) (s.flag .cf) = (r, cf)) :
    ∃ t, shiftMeaning op f s = .next t ∧ t.readPlace (f.args s).w (f.args s).dst = r ∧ t.flag .cf = cf ∧
      (shiftCount f s = 1 → t.flag .of = (cf ^^ r.getLsbD ((f.args s).w.bits - 1))) ∧ t.ip = s.ip ∧
      OnlyChanges ((f.args s).dst.touched (f.args s).w [.cf, .of]) s t := by
  refine ⟨_, shiftMeaning_steps h hn hsteps, ?_⟩
  obtain ⟨hcf, hof, honly⟩ := setShiftCarry_spec (s.writePlace (f.args s).w (f.args s).dst r) op (shiftCount f s)
    (s.readPlace (f.args s).w (f.args s).dst) r cf
  have hbits : shiftOF op (s.readPlace (f.args s).w (f.args s).dst) r cf = (cf ^^ r.getLsbD ((f.args s).w.bits - 1)) := by
    rw [← BitVec.msb_eq_getLsbD_last]
    cases op with
    | rol | ror | rcl | rcr => rfl
    | shl | shr | sar => cases hop
  refine ⟨?_, ?_, fun h1 => ?_, by simp, onlyChanges_writePlace_flags (v := r) ?_⟩
  · rw [State.readPlace_congr (State.setShiftFlags_regs ..) (State.setShiftFlags_mem ..), State.readPlace_writePlace_same]
  all_goals rw [setShiftFlags_eq, if_pos hop]
  · exact hcf
  · exact (hof h1).trans hbits
  · exact honly

/-! ## The results -/

theorem shiftLeft_eq_ofNat {w : Nat} (a : BitVec w) (n : Nat) : a <<< n = BitVec.ofNat w (a.toNat * 2 ^ n) := by
  apply BitVec.eq_of_toNat_eq
  rw [BitVec.toNat_shiftLeft, BitVec.toNat_ofNat, Nat.shiftLeft_eq]

theorem ushiftRight_eq_ofNat {w : Nat} (a : BitVec w) (n : Nat) : a >>> n = BitVec.ofNat w (a.toNat / 2 ^ n) := by
  apply BitVec.eq_of_toNat_eq
  rw [BitVec.toNat_ushiftRight, BitVec.toNat_ofNat, Nat.shiftRight_eq_div_pow,
    Nat.mod_eq_of_lt ((Nat.div_le_self ..).trans_lt a.isLt)]

theorem Width.one_lt_bits (w : Width) : 1 < w.bits := by cases w <;> decide

/-- Settles O35: the closed forms of the steps, `shiftSteps_shl` and its like. -/
theorem shifts : Obligations.Shifts := by
  intro f s h
  refine ⟨fun h0 => ⟨shiftMeaning_zero h h0 .rol, shiftMeaning_zero h h0 .ror, shiftMeaning_zero h h0 .rcl,
    shiftMeaning_zero h h0 .rcr, shiftMeaning_zero h h0 .shl, shiftMeaning_zero h h0 .shr, shiftMeaning_zero h h0 .shl,
    shiftMeaning_zero h h0 .sar⟩, fun hn => ?_⟩
  have hw : 0 < (f.args s).w.bits := Nat.zero_lt_of_lt (Width.one_lt_bits _)
  intro n x w a ends left leftCarry
  have hshl : shiftSteps .shl n a (s.flag .cf) = (left, leftCarry) := by
    rw [shiftSteps_shl hw, if_neg hn, shiftLeft_eq_ofNat]
  have hshr : shiftSteps .shr n a (s.flag .cf) = (BitVec.ofNat w (a.toNat / 2 ^ n), a.getLsbD (n - 1)) := by
    rw [shiftSteps_shr, if_neg hn, ushiftRight_eq_ofNat]
  have hsar : shiftSteps .sar n a (s.flag .cf) = (a.sshiftRight n, a.getLsbD (min n w - 1)) := by
    rw [shiftSteps_sar hw, if_neg hn]
  have hleft : shiftOF .shl a left leftCarry = (leftCarry ^^ left.getLsbD (w - 1)) :=
    congrArg (leftCarry ^^ ·) (BitVec.msb_eq_getLsbD_last left)
  exact ⟨shift_spec h hn rfl hshl hleft, shift_spec h hn rfl hshl hleft,
    shift_spec h hn rfl hshr (BitVec.msb_eq_getLsbD_last a), shift_spec h hn rfl hsar rfl⟩

/-- Settles O36: the rotations of `w` bits, and of `w + 1` bits through CF. -/
theorem rotates : Obligations.Rotates := by
  intro f s h hn n x w a ends
  have hw : 1 < (f.args s).w.bits := Width.one_lt_bits _
  have hrol : shiftSteps .rol n a (s.flag .cf) = (a.rotateLeft n, (a.rotateLeft n).getLsbD 0) := by
    rw [shiftSteps_rol hw, if_neg hn]
  have hror : shiftSteps .ror n a (s.flag .cf) = (a.rotateRight n, (a.rotateRight n).getLsbD (w - 1)) := by
    rw [shiftSteps_ror hw, if_neg hn]
  exact ⟨rotate_spec h hn rfl hrol, rotate_spec h hn rfl hror,
    ⟨_, _, shiftSteps_rcl hw n a (s.flag .cf), rotate_spec h hn rfl rfl⟩,
    ⟨_, _, shiftSteps_rcr hw n a (s.flag .cf), rotate_spec h hn rfl rfl⟩⟩

end Sys2Proof.Machine
end

/-! # String instructions (44_string, 47_post8086_ext R493, R494) -/

section

namespace Sys2Proof.Machine

/-! ## Without repetition -/

theorem stringMeaning_none {s : State} (h : s.rep = none) (once : State → State) (stop : State → Bool) :
    stringMeaning once stop s = .next (once s) := by
  rw [stringMeaning, h]

/-- Settles O37: one iteration of each, by the lemma about it. -/
theorem stringMoves : Obligations.StringMoves := by
  intro s w hrep src pick
  have hmovs : exec (pick .movsb .movsw) s = .next (movsOnce w s) := by cases w <;> exact stringMeaning_none hrep _ _
  have hstos : exec (pick .stosb .stosw) s = .next (stosOnce w s) := by cases w <;> exact stringMeaning_none hrep _ _
  have hlods : exec (pick .lodsb .lodsw) s = .next (lodsOnce w s) := by cases w <;> exact stringMeaning_none hrep _ _
  refine ⟨⟨_, hmovs, movsOnce_spec w s⟩, ⟨_, hstos, stosOnce_spec w s⟩, ⟨_, hlods, lodsOnce_spec w s⟩, fun hx => ?_⟩
  have hins : exec (pick .insb .insw) s = .next (insOnce w s) := by
    cases w <;> exact (ifExt186_present hx _).trans (stringMeaning_none hrep _ _)
  have houts : exec (pick .outsb .outsw) s = .next (outsOnce w s) := by
    cases w <;> exact (ifExt186_present hx _).trans (stringMeaning_none hrep _ _)
  exact ⟨⟨_, hins, insOnce_spec w s⟩, ⟨_, houts, outsOnce_spec w s⟩⟩

/-- Settles O38: one iteration of each, by the lemma about it. -/
theorem stringCompares : Obligations.StringCompares := by
  intro s w hrep src dst acc pick
  have hcmps : exec (pick .cmpsb .cmpsw) s = .next (cmpsOnce w s) := by cases w <;> exact stringMeaning_none hrep _ _
  have hscas : exec (pick .scasb .scasw) s = .next (scasOnce w s) := by cases w <;> exact stringMeaning_none hrep _ _
  exact ⟨⟨_, hcmps, cmpsOnce_spec w s⟩, ⟨_, hscas, scasOnce_spec w s⟩⟩

/-! ## With repetition -/

theorem stringMeaning_some {s : State} {r : Rep} (h : s.rep = some r) (once : State → State) (stop : State → Bool) :
    stringMeaning once stop s = .next (repeatLoop once stop (s.reg .cx).toNat s) := by
  rw [stringMeaning, h]

/-- What an iteration never touches: it does not look at `rep`, and leaves CX and EXT186 alone. -/
structure Iterates (once : State → State) : Prop where
  rep : ∀ s x, once { s with rep := x } = { once s with rep := x }
  cx : ∀ s, (once s).reg .cx = s.reg .cx
  ext186 : ∀ s, (once s).ext186 = s.ext186

section
variable (w : Width)

theorem iterates_movs : Iterates (movsOnce w) where
  rep s x := by cases w <;> rfl
  cx s := by
    obtain ⟨-, -, -, -, honly⟩ := movsOnce_spec w s
    exact honly.regs .cx (by simp) nofun
  ext186 s := (tame_movsOnce (P := True) (Q := True) w s).tables.2.2

theorem iterates_stos : Iterates (stosOnce w) where
  rep s x := by cases w <;> rfl
  cx s := by
    obtain ⟨-, -, -, honly⟩ := stosOnce_spec w s
    exact honly.regs .cx (by simp) nofun
  ext186 s := (tame_stosOnce (P := True) (Q := True) w s).tables.2.2

theorem lodsOnce_reg {s : State} {r : Reg16} (hsi : r ≠ .si) (hax : r ≠ .ax) : (lodsOnce w s).reg r = s.reg r := by
  obtain ⟨-, -, -, honly⟩ := lodsOnce_spec w s
  refine honly.regs r ?_ ?_ <;> cases w <;> simp [Touched.add, touchedReg, RegNum.r16, RegNum.r8, Reg8.parent, hsi, hax, Ne.symm hax]

theorem iterates_lods : Iterates (lodsOnce w) where
  rep s x := by cases w <;> rfl
  cx s := lodsOnce_reg w (by decide) (by decide)
  ext186 s := (tame_lodsOnce (P := True) (Q := True) w s).tables.2.2

theorem portRead8_rep (s : State) (p : Word) (x : Option Rep) :
    State.portRead8 { s with rep := x } p = ((s.portRead8 p).1, { (s.portRead8 p).2 with rep := x }) := by
  unfold State.portRead8
  split <;> rfl

theorem portRead_rep (s : State) (p : Word) (x : Option Rep) :
    State.portRead w { s with rep := x } p = ((s.portRead w p).1, { (s.portRead w p).2 with rep := x }) := by
  cases w with
  | byte => exact portRead8_rep s p x
  | word => simp only [State.portRead, portRead8_rep]

theorem iterates_ins : Iterates (insOnce w) where
  rep s x := by
    unfold insOnce
    rw [portRead_rep]
    cases w <;> rfl
  cx s := by
    obtain ⟨-, -, -, -, honly⟩ := insOnce_spec w s
    exact honly.regs .cx (by simp) nofun
  ext186 s := (tame_insOnce (P := True) (Q := True) w s).tables.2.2

theorem portWrite_rep (s : State) (p : Word) (v : BitVec w.bits) (x : Option Rep) :
    State.portWrite w { s with rep := x } p v = { s.portWrite w p v with rep := x } := by
  cases w <;> simp only [State.portWrite, State.portWrite8_eq] <;> rfl

theorem iterates_outs : Iterates (outsOnce w) where
  rep s x := by
    have hlog := portWrite_rep w s (s.reg .dx) (s.sourceElem w) x
    exact congrArg (State.stepSi w) hlog
  cx s := by
    obtain ⟨-, -, -, honly⟩ := outsOnce_spec w s
    exact honly.regs .cx (by simp) nofun
  ext186 s := (tame_outsOnce (P := True) (Q := True) w s).tables.2.2

theorem iterates_cmps : Iterates (cmpsOnce w) where
  rep s x := rfl
  cx s := by
    obtain ⟨-, -, -, -, -, honly⟩ := cmpsOnce_spec w s
    exact honly.regs .cx (by simp) nofun
  ext186 s := (tame_cmpsOnce (P := True) (Q := False) w s id).tables.2.2

theorem iterates_scas : Iterates (scasOnce w) where
  rep s x := rfl
  cx s := by
    obtain ⟨-, -, -, -, honly⟩ := scasOnce_spec w s
    exact honly.regs .cx (by simp) nofun
  ext186 s := (tame_scasOnce (P := True) (Q := False) w s id).tables.2.2

end

/-! ## The index registers of a repeated move -/

/-- `k` iterations that move SI, DI or both by the stride. -/
def Strides (w : Width) (k : Word) (movesSi movesDi : Bool) (s t : State) : Prop :=
  t.reg .si = (if movesSi then s.reg .si + k * strideOf w s else s.reg .si) ∧
  t.reg .di = (if movesDi then s.reg .di + k * strideOf w s else s.reg .di) ∧ t.flags = s.flags ∧ t.segs = s.segs ∧ t.ip = s.ip

theorem Strides.trans {w : Width} {j k : Word} {a b : Bool} {s t u : State} (h : Strides w j a b s t) (h' : Strides w k a b t u) :
    Strides w (j + k) a b s u := by
  obtain ⟨hsi, hdi, hf, hs, hip⟩ := h
  obtain ⟨hsi', hdi', hf', hs', hip'⟩ := h'
  have hstride : strideOf w t = strideOf w s := strideOf_congr (State.flag_congr hf .df) w
  refine ⟨?_, ?_, hf'.trans hf, hs'.trans hs, hip'.trans hip⟩
  · rw [hsi', hsi, hstride, add_mul]
    cases a <;> simp [BitVec.add_assoc]
  · rw [hdi', hdi, hstride, add_mul]
    cases b <;> simp [BitVec.add_assoc]

section
variable (w : Width) (s : State)

theorem strides_movs : Strides w 1#16 true true s (movsOnce w s) := by
  obtain ⟨-, hsi, hdi, hip, honly⟩ := movsOnce_spec w s
  exact ⟨by simp [hsi], by simp [hdi], honly.flags_eq rfl, honly.segs_eq rfl, hip⟩

theorem strides_stos : Strides w 1#16 false true s (stosOnce w s) := by
  obtain ⟨-, hdi, hip, honly⟩ := stosOnce_spec w s
  exact ⟨honly.regs .si (by simp) nofun, by simp [hdi], honly.flags_eq rfl, honly.segs_eq rfl, hip⟩

theorem strides_lods : Strides w 1#16 true false s (lodsOnce w s) := by
  obtain ⟨-, hsi, hip, honly⟩ := lodsOnce_spec w s
  exact ⟨by simp [hsi], lodsOnce_reg w (by decide) (by decide), honly.flags_eq (by cases w <;> rfl),
    honly.segs_eq (by cases w <;> rfl), hip⟩

theorem strides_ins : Strides w 1#16 false true s (insOnce w s) := by
  obtain ⟨-, -, hdi, hip, honly⟩ := insOnce_spec w s
  exact ⟨honly.regs .si (by simp) nofun, by simp [hdi], honly.flags_eq rfl, honly.segs_eq rfl, hip⟩

theorem strides_outs : Strides w 1#16 true false s (outsOnce w s) := by
  obtain ⟨-, hsi, hip, honly⟩ := outsOnce_spec w s
  exact ⟨by simp [hsi], honly.regs .di (by simp) nofun, honly.flags_eq rfl, honly.segs_eq rfl, hip⟩

end

/-- A loop without a stop test runs until CX is 0. -/
theorem repeatLoop_strides {w : Width} {a b : Bool} {once : State → State} (hi : Iterates once)
    (h : ∀ s, Strides w 1#16 a b s (once s)) (n : Nat) (s : State) (hn : (s.reg .cx).toNat = n) :
    (repeatLoop once neverStops n s).reg .cx = 0#16 ∧ Strides w (s.reg .cx) a b s (repeatLoop once neverStops n s) := by
  induction n generalizing s with
  | zero =>
    have h0 : s.reg .cx = 0#16 := BitVec.eq_of_toNat_eq hn
    rw [repeatLoop_zero, h0]
    exact ⟨rfl, by simp, by simp, rfl, rfl, rfl⟩
  | succ n ih =>
    have hcx : (once s).decCx.reg .cx = s.reg .cx - 1#16 := by rw [reg_decCx, hi.cx]
    have hdec : (s.reg .cx - 1#16).toNat = n := by
      have := (s.reg .cx).isLt
      simp only [BitVec.toNat_sub, BitVec.toNat_ofNat]
      omega
    obtain ⟨hsi, hdi, hf, hs, hip⟩ := h s
    have hone : Strides w 1#16 a b s (once s).decCx := ⟨hsi, hdi, hf, hs, hip⟩
    obtain ⟨hend, hrest⟩ := ih (once s).decCx (by rw [hcx, hdec])
    rw [hcx] at hrest
    have hsum : s.reg .cx = 1#16 + (s.reg .cx - 1#16) := by bv_omega
    rw [repeatLoop_succ, if_neg (by simp [neverStops]), hsum]
    exact ⟨hend, hone.trans hrest⟩

/-- A repeated move ends with CX 0 and its index registers moved (44_string R360). -/
theorem repeated_ends {w : Width} {a b : Bool} {once : State → State} {i : Instr} {s : State} {r : Rep} (hr : s.rep = some r)
    (hi : Iterates once) (h : ∀ s, Strides w 1#16 a b s (once s)) (hexec : exec i s = stringMeaning once neverStops s) :
    ∃ t, exec i s = .next t ∧ t.reg .cx = 0#16 ∧ Strides w (s.reg .cx) a b s t :=
  ⟨_, hexec.trans (stringMeaning_some hr _ _), repeatLoop_strides hi h _ s rfl⟩

/-! ## REP STOSB -/

/-- The bytes `n` iterations of STOSB store with DF clear. -/
def filledBytes (s : State) (n : Nat) : List Addr := (List.range n).map fun k => phys (s.seg .es) (s.reg .di + BitVec.ofNat 16 k)

/-- The first byte and the `n` after it. -/
theorem mem_filledBytes_succ {s t : State} (hdi : t.reg .di = s.reg .di + 1#16) (hes : t.seg .es = s.seg .es) (n : Nat) (a : Addr) :
    a ∈ filledBytes s (n + 1) ↔ a = phys (s.seg .es) (s.reg .di) ∨ a ∈ filledBytes t n := by
  have hoff (k : Nat) : s.reg .di + 1#16 + BitVec.ofNat 16 k = s.reg .di + BitVec.ofNat 16 (k + 1) := by
    rw [BitVec.add_assoc, BitVec.add_comm 1#16, BitVec.ofNat_add]
  simp only [filledBytes, hdi, hes, List.range_succ_eq_map, List.map_cons, List.map_map, List.mem_cons, hoff]
  simp only [BitVec.add_zero]
  rfl

theorem not_mem_filledBytes {s t : State} (hdi : t.reg .di = s.reg .di + 1#16) (hes : t.seg .es = s.seg .es) {n : Nat}
    (hn : n < 65536) : phys (s.seg .es) (s.reg .di) ∉ filledBytes t n := by
  intro hmem
  obtain ⟨k, hk, heq⟩ := List.mem_map.mp hmem
  rw [hdi, hes] at heq
  have := congrArg BitVec.toNat (phys_injective heq)
  have := (s.reg .di).isLt
  have := List.mem_range.mp hk
  simp only [BitVec.toNat_add, BitVec.toNat_ofNat] at *
  omega

theorem repeatLoop_fills (n : Nat) (s : State) (hdf : s.flag .df = false) (hn : n ≤ 65536) :
    (∀ k < n, (repeatLoop (stosOnce .byte) neverStops n s).memRead8 (phys (s.seg .es) (s.reg .di + BitVec.ofNat 16 k)) = s.half .al) ∧
    OnlyChanges { regs := [.cx, .di], stored := filledBytes s n } s (repeatLoop (stosOnce .byte) neverStops n s) := by
  induction n generalizing s with
  | zero => exact ⟨fun k hk => absurd hk (Nat.not_lt_zero k), OnlyChanges.refl _ s⟩
  | succ n ih =>
    obtain ⟨hread, hdi, -, honly⟩ := stosOnce_spec .byte s
    obtain ⟨u, hu⟩ : ∃ u, u = (stosOnce .byte s).decCx := ⟨_, rfl⟩
    have hone : OnlyChanges { regs := [.cx, .di], stored := [phys (s.seg .es) (s.reg .di)] } s u :=
      hu ▸ honly.andThen (onlyChanges_setReg _ .cx _) (by simp [Touched.le, storedBytes]) (by simp [Touched.le])
    have hdiu : u.reg .di = s.reg .di + 1#16 := by
      rw [hu, reg_decCx_ne _ (by decide), hdi]
      simp [strideOf, hdf]
    have hesu : u.seg .es = s.seg .es := hone.segs .es List.not_mem_nil
    have halu : u.half .al = s.half .al := hone.halves .al List.not_mem_nil (by simp [Reg8.parent])
    have hfirst : u.memRead8 (phys (s.seg .es) (s.reg .di)) = s.half .al := by rw [hu]; exact hread
    obtain ⟨hfill, hrest⟩ := ih u ((hone.flag List.not_mem_nil).trans hdf) (by omega)
    rw [repeatLoop_succ, ← hu, if_neg (by simp [neverStops])]
    refine ⟨fun k hk => ?_, hone.andThen hrest ⟨fun _ h => h, nofun, nofun, nofun, fun a ha => ?_⟩
      ⟨fun _ h => h, nofun, nofun, nofun, fun a ha => (mem_filledBytes_succ hdiu hesu n a).mpr (.inr ha)⟩⟩
    · cases k with
      | zero =>
        rw [BitVec.add_zero, hrest.mem _ (not_mem_filledBytes hdiu hesu (by omega)), hfirst]
      | succ k =>
        have := hfill k (by omega)
        rwa [hesu, hdiu, halu, BitVec.add_assoc, BitVec.add_comm 1#16, ← BitVec.ofNat_add] at this
    · exact (mem_filledBytes_succ hdiu hesu n a).mpr (.inl (List.mem_singleton.mp ha))

/-- Settles O39. -/
theorem repeatedMovesRunToZero : Obligations.RepeatedMovesRunToZero := by
  intro s r w hr pick far ends
  refine ⟨repeated_ends hr (iterates_movs w) (strides_movs w) (by cases w <;> rfl),
    repeated_ends hr (iterates_stos w) (strides_stos w) (by cases w <;> rfl),
    repeated_ends hr (iterates_lods w) (strides_lods w) (by cases w <;> rfl), fun hx => ⟨?_, ?_⟩,
    fun hdf => ⟨_, stringMeaning_some hr _ _, repeatLoop_fills _ s hdf (s.reg .cx).isLt.le⟩⟩
  · exact repeated_ends hr (iterates_ins w) (strides_ins w) (by cases w <;> exact ifExt186_present hx _)
  · exact repeated_ends hr (iterates_outs w) (strides_outs w) (by cases w <;> exact ifExt186_present hx _)

/-! ## One iteration at a time -/

/-- The state after one iteration with `rep` as in `s`, written as the obligation writes it. -/
theorem decCx_of_once {once : State → State} (hi : Iterates once) {s o : State} {r : Rep} (hr : s.rep = some r)
    (ho : once { s with rep := none } = o) :
    ({ o with rep := some r, regs := { o.regs with cx := s.reg .cx - 1#16 } } : State) = (once s).decCx := by
  have hrep : (once s).rep = some r := (congrArg State.rep (hi.rep s s.rep)).trans hr
  rw [← ho, hi.rep, State.decCx, hi.cx, ← hrep]
  rfl

/-- A repeated string instruction, one iteration unfolded (44_string R360). -/
theorem stringMeaning_unfold {once : State → State} (hi : Iterates once) (stop : State → Bool) {s : State} {r : Rep}
    (hr : s.rep = some r) (hcx : s.reg .cx ≠ 0#16) :
    stringMeaning once stop s
      = if stop (once s).decCx = true then .next (once s).decCx else stringMeaning once stop (once s).decCx := by
  have hrep : (once s).decCx.rep = some r := (congrArg State.rep (hi.rep s s.rep)).trans hr
  obtain ⟨n, hn⟩ : ∃ n, (s.reg .cx).toNat = n + 1 :=
    Nat.exists_eq_add_one_of_ne_zero fun h => hcx (BitVec.eq_of_toNat_eq h)
  have hdec : ((once s).decCx.reg .cx).toNat = n := by
    have := (s.reg .cx).isLt
    rw [reg_decCx, hi.cx]
    simp only [BitVec.toNat_sub, BitVec.toNat_ofNat]
    omega
  rw [stringMeaning_some hr, stringMeaning_some hrep, hdec, hn, repeatLoop_succ]
  exact apply_ite ..

/-- `i` is a string instruction with this iteration and stop test, on `s` and on every machine with the same EXT186. -/
def IsString (i : Instr) (once : State → State) (stop : State → Bool) (s : State) : Prop :=
  Iterates once ∧ ∀ t : State, t.ext186 = s.ext186 → exec i t = stringMeaning once stop t

theorem isString_move {i : Instr} {s : State} (h : i ∈ [Instr.movsb, .movsw, .stosb, .stosw, .lodsb, .lodsw] ∨
    (s.ext186 = .present ∧ i ∈ [Instr.insb, .insw, .outsb, .outsw])) : ∃ once, IsString i once neverStops s := by
  simp only [List.mem_cons, List.not_mem_nil, or_false] at h
  rcases h with (rfl | rfl | rfl | rfl | rfl | rfl) | ⟨hx, rfl | rfl | rfl | rfl⟩
  · exact ⟨_, iterates_movs .byte, fun _ _ => rfl⟩
  · exact ⟨_, iterates_movs .word, fun _ _ => rfl⟩
  · exact ⟨_, iterates_stos .byte, fun _ _ => rfl⟩
  · exact ⟨_, iterates_stos .word, fun _ _ => rfl⟩
  · exact ⟨_, iterates_lods .byte, fun _ _ => rfl⟩
  · exact ⟨_, iterates_lods .word, fun _ _ => rfl⟩
  · exact ⟨_, iterates_ins .byte, fun _ ht => ifExt186_present (ht.trans hx) _⟩
  · exact ⟨_, iterates_ins .word, fun _ ht => ifExt186_present (ht.trans hx) _⟩
  · exact ⟨_, iterates_outs .byte, fun _ ht => ifExt186_present (ht.trans hx) _⟩
  · exact ⟨_, iterates_outs .word, fun _ ht => ifExt186_present (ht.trans hx) _⟩

theorem isString_compare {i : Instr} (s : State) (h : i ∈ [Instr.cmpsb, .cmpsw, .scasb, .scasw]) :
    ∃ once, IsString i once stopsOnZF s := by
  simp only [List.mem_cons, List.not_mem_nil, or_false] at h
  rcases h with rfl | rfl | rfl | rfl
  · exact ⟨_, iterates_cmps .byte, fun _ _ => rfl⟩
  · exact ⟨_, iterates_cmps .word, fun _ _ => rfl⟩
  · exact ⟨_, iterates_scas .byte, fun _ _ => rfl⟩
  · exact ⟨_, iterates_scas .word, fun _ _ => rfl⟩

section
variable {i : Instr} {once : State → State} {stop : State → Bool} {s : State} {r : Rep} (h : IsString i once stop s) (hr : s.rep = some r)
include h hr

theorem IsString.exec_zero (hcx : s.reg .cx = 0#16) : exec i s = .next s := by
  obtain ⟨-, hexec⟩ := h
  rw [hexec s rfl, stringMeaning_some hr, hcx]
  rfl

/-- One iteration unfolded, in the words of the obligation. -/
theorem IsString.exec_unfold (hcx : s.reg .cx ≠ 0#16) {o : State} (ho : exec i { s with rep := none } = .next o) :
    let u : State := { o with rep := some r, regs := { o.regs with cx := s.reg .cx - 1#16 } }
    exec i s = if stop u = true then .next u else exec i u := by
  obtain ⟨hi, hexec⟩ := h
  have ho' : once { s with rep := none } = o :=
    Host.Outcome.next.inj ((stringMeaning_none rfl once stop).symm.trans ((hexec { s with rep := none } rfl).symm.trans ho))
  have hext : (once s).decCx.ext186 = s.ext186 := hi.ext186 s
  intro u
  have hu : u = (once s).decCx := decCx_of_once hi hr ho'
  rw [hu, hexec s rfl, hexec _ hext, stringMeaning_unfold hi stop hr hcx]

end

/-- The ZF test of CMPS and SCAS (44_string R360). -/
theorem stopsOnZF_iff {u : State} {r : Rep} (h : u.rep = some r) :
    stopsOnZF u = true ↔ (r = .repe ∧ u.flag .zf = false) ∨ (r = .repne ∧ u.flag .zf = true) := by
  rw [stopsOnZF, h]
  cases r <;> simp

/-- Settles O40. -/
theorem repeatUnfolds : Obligations.RepeatUnfolds := by
  intro s r i hr unconditional compares
  refine ⟨fun hcx h => ?_, fun o hcx ho => ⟨fun h => ?_, fun h => ?_⟩⟩
  · rcases h with h | h
    · obtain ⟨once, hs⟩ := isString_move h
      exact hs.exec_zero hr hcx
    · obtain ⟨once, hs⟩ := isString_compare s h
      exact hs.exec_zero hr hcx
  · obtain ⟨once, hs⟩ := isString_move h
    exact (hs.exec_unfold hr hcx ho).trans (if_neg (by simp [neverStops]))
  · obtain ⟨once, hs⟩ := isString_compare s h
    exact (hs.exec_unfold hr hcx ho).trans (if_congr (stopsOnZF_iff rfl) rfl rfl)

end Sys2Proof.Machine
end

/-! # The FAT12 translator (48_fat12_translator) -/

section

namespace Sys2Proof.Machine

/-! ## The cache (R523-R525) -/

section
variable (f : FatState) (n : Nat)

/-- A read caches its sector and nothing else. -/
theorem cache_readSector (m : Nat) :
    (f.readSector n).2.cache.get m = if m = n then some (f.view n) else f.cache.get m := by
  rw [FatState.view_eq, FatState.readSector]
  cases h : f.cache.get n with
  | none => exact SectorMap.get_put ..
  | some b =>
    by_cases hm : m = n
    · rw [if_pos hm, hm, h]
      rfl
    · rw [if_neg hm]

/-- A read leaves the store, the dirty set and the failing sectors alone. -/
theorem readSector_rest : (f.readSector n).2.store = f.store ∧ (f.readSector n).2.dirty = f.dirty ∧
    (f.readSector n).2.failsGet = f.failsGet ∧ (f.readSector n).2.failsPut = f.failsPut := by
  rw [FatState.readSector]
  cases f.cache.get n <;> exact ⟨rfl, rfl, rfl, rfl⟩

/-- What the store yields, by membership in the failing sectors. -/
theorem stored_eq : f.stored n = if n ∈ f.failsGet then List.replicate 512 0#8
    else match f.store.get n with
      | some v => if v.length = 512 then v else List.replicate 512 0#8
      | none => List.replicate 512 0#8 := by
  by_cases h : n ∈ f.failsGet
  · rw [FatState.stored_of_fails h, if_pos h]
    rfl
  · rw [FatState.stored, if_neg (by simpa using h), if_neg h]
    rfl

end

/-- Settles O56: the lemmas about `readSector`, `writeSector` and `flush`, put together. -/
theorem sectorCache : Obligations.SectorCache := by
  intro f n b hwf hn hb read written zeros stored
  have hview : f.view n = (f.cache.get n).getD stored := (f.view_eq n).trans (congrArg _ (stored_eq f n))
  have hquiet : Quiet f read.2 := quiet_readSector f hn
  obtain ⟨hstore, hdirty, hget, hput⟩ := readSector_rest f n
  refine ⟨hview, (cache_readSector f n n).trans (if_pos rfl), fun m hm => (cache_readSector f n m).trans (if_neg hm), hstore, hdirty,
    SectorMap.get_put_same .., fun m hm => SectorMap.get_put_ne _ hm b, ?_, rfl, fun m => mem_insertIndex f.dirty, rfl, rfl,
    fun m hm hf => ?_, fun m hm => ?_, ?_, hquiet.wf hwf, FatState.wf_writeSector hwf hn hb, FatState.wf_flush hwf⟩
  · exact (FatState.view_writeSector f n n b).trans (if_pos rfl)
  · rw [FatState.store_flush hwf, if_pos ⟨hm, hf⟩]
  · rw [FatState.store_flush hwf, if_neg fun h => hm.elim (fun hd => hd h.1) fun hp => h.2 hp]
  · simp only [List.forall_mem_cons]
    exact ⟨⟨hget, hput⟩, ⟨rfl, rfl⟩, ⟨rfl, rfl⟩, List.forall_mem_nil _⟩

/-! ## Chains (R550-R554) -/

/-- A list of different data clusters is no longer than there are clusters. -/
theorem length_of_clusters {cs : List Nat} (hd : cs.Nodup) (hv : ∀ c ∈ cs, 2 ≤ c ∧ c < 2849) : cs.length ≤ 2847 := by
  have hsub : cs ⊆ List.range' 2 2847 := fun c hc => by
    obtain ⟨hlo, hhi⟩ := hv c hc
    exact List.mem_range'_1.mpr ⟨hlo, hhi⟩
  exact (List.subperm_of_subset hd hsub).length_le.trans_eq List.length_range'

theorem chain_of_ne_zero (f : FatState) {c : Nat} (h : c ≠ 0) : f.chain c = f.walkFrom 2849 c [] := if_neg h

/-- A whole chain follows the FAT from its first cluster to an end-of-chain entry, and conversely. -/
theorem chain_whole_iff (f : FatState) {first : Nat} (h0 : first ≠ 0) (cs : List Nat) : (f.chain first).1 = .whole cs ↔
    cs.head? = some first ∧ cs.Nodup ∧ (∀ c ∈ cs, 2 ≤ c ∧ c < 2849) ∧
      (∀ k a b, cs[k]? = some a → cs[k + 1]? = some b → (f.fatGet a).1.toNat = b) ∧
      (∀ a, cs.getLast? = some a → 0xFF8 ≤ (f.fatGet a).1.toNat) := by
  simp only [FatState.fatGet_entry]
  constructor
  · intro h
    obtain ⟨-, hvalid⟩ := quiet_chain f first
    rw [h] at hvalid
    rw [chain_of_ne_zero f h0] at h
    obtain ⟨rest, rfl, hnodup, hnext, hlast⟩ := walkFrom_whole h
    exact ⟨rfl, hnodup List.nodup_nil, hvalid, hnext, hlast⟩
  · rintro ⟨hhead, hnodup, hvalid, hnext, hlast⟩
    obtain ⟨rest, rfl⟩ := List.head?_eq_some_iff.mp hhead
    have hlen := length_of_clusters hnodup hvalid
    rw [chain_of_ne_zero f h0]
    exact walkFrom_of_joined (pre := []) (by rw [List.length_cons] at hlen; omega) hvalid hnodup hlen hnext hlast

/-- A chain that is not whole is reported as not-found. -/
theorem broken_notFound {f : FatState} {first : Nat} (h : ∀ cs, (f.chain first).1 ≠ .whole cs) (k : Nat) :
    (f.physSector first k).1 = .error .notFound ∧ (f.freeChain first).1 = .error .notFound ∧
      ∀ c : Word, c.toNat = first → (f.subdirectory c).1 = .error .notFound := by
  rcases hc : f.chain first with ⟨cs | cs, g⟩
  · exact absurd (congrArg Prod.fst hc) (h cs)
  · refine ⟨?_, ?_, fun c hfirst => ?_⟩
    · rw [FatState.physSector_eq, hc]
    · rw [FatState.freeChain_eq, hc]
      rfl
    · rw [FatState.subdirectory_of_broken (hfirst ▸ hc)]

/-- Settles O59. -/
theorem chainsFollowTheFat : Obligations.ChainsFollowTheFat := by
  refine fun f => ⟨rfl, fun first => ⟨fun cs h0 => chain_whole_iff f h0 cs, fun cs k h => ⟨?_, ?_⟩, fun k h => broken_notFound h k⟩⟩
  · rw [FatState.physSector_eq, h]
    rfl
  · rw [FatState.freeChain_eq, h]
    rfl

/-! ## The mutating operations end with a flush (R571, R572) -/

theorem endsFlushed_mkdir (f : FatState) (path : List (List Byte)) (name : List Byte) (now : Stamp) :
    EndsFlushed f (f.mkdir path name now).2 := by
  unfold FatState.mkdir
  obtain ⟨q, hq⟩ := quiet_directory f path
  rcases hdir : f.directory path with ⟨r, g⟩
  rw [hdir] at q hq
  rcases r with e | d
  · exact ⟨g, q.keeps, rfl⟩
  obtain ⟨q', -⟩ := quiet_findEntry g (hq d rfl) name
  dsimp only
  rcases hfind : g.findEntry d name with ⟨_ | e, g1⟩
  all_goals rw [hfind] at q'
  · obtain ⟨k, hcs⟩ := keeps_buildChain g1 1
    dsimp only
    rcases hbuild : g1.buildChain 1 with ⟨_ | cs, g2⟩
    all_goals rw [hbuild] at k hcs
    · exact ⟨g2, (q.keeps.trans q'.keeps).trans k, rfl⟩
    · have hhead : cs.headD 0 < 2849 := by
        cases cs with
        | nil => decide
        | cons c _ => exact (hcs _ rfl c List.mem_cons_self).2
      have k1 : Keeps g2 (g2.writeSector (clusterToSector (cs.headD 0)) (dotSector (BitVec.ofNat 16 (cs.headD 0)) d.cluster now)) := by
        refine keeps_writeSector g2 ?_ ?_ (length_dotSector ..) <;>
          simp only [clusterToSector, Config.dataStart] <;> omega
      dsimp only
      generalize g2.writeSector (clusterToSector (cs.headD 0)) _ = g3 at k1 ⊢
      obtain ⟨qs, hslot⟩ := quiet_freeSlot d.slots g3 (hq d rfl)
      have k3 : Keeps f (FatState.freeSlot d.slots g3).2 := (((q.keeps.trans q'.keeps).trans k).trans k1).trans qs.keeps
      rcases hfree : FatState.freeSlot d.slots g3 with ⟨_ | p, g4⟩
      all_goals rw [hfree] at k3 hslot
      · exact ⟨_, k3.trans (keeps_freeAll g4 cs (hcs cs rfl)), rfl⟩
      · exact ⟨_, k3.trans (keeps_patchSlot g4 (hslot p rfl) (o := 0) (by rw [DirEntry.length_bytes _ (length_packName name)])), rfl⟩
  · exact ⟨g1, q.keeps.trans q'.keeps, rfl⟩

theorem endsFlushed_renameEntry (f : FatState) (path : List (List Byte)) (old new : List Byte) :
    EndsFlushed f (f.renameEntry path old new).2 := by
  unfold FatState.renameEntry
  obtain ⟨q, hq⟩ := quiet_directory f path
  rcases hdir : f.directory path with ⟨r, g⟩
  rw [hdir] at q hq
  rcases r with e | d
  · exact ⟨g, q.keeps, rfl⟩
  obtain ⟨q1, hslot⟩ := quiet_findEntry g (hq d rfl) old
  dsimp only
  rcases hold : g.findEntry d old with ⟨_ | ⟨p, e⟩, g1⟩
  all_goals rw [hold] at q1 hslot
  · exact ⟨g1, q.keeps.trans q1.keeps, rfl⟩
  · obtain ⟨q2, -⟩ := quiet_findEntry g1 (hq d rfl) new
    dsimp only
    rcases hnew : g1.findEntry d new with ⟨_ | e', g2⟩
    all_goals rw [hnew] at q2
    · exact ⟨_, ((q.keeps.trans q1.keeps).trans q2.keeps).trans
        (keeps_patchSlot g2 (hslot _ rfl) (o := 0) (by rw [length_packName]; decide)), rfl⟩
    · exact ⟨g2, (q.keeps.trans q1.keeps).trans q2.keeps, rfl⟩

/-- The state `format` flushes: both FATs hold the fresh sector and zeros after it. -/
theorem keeps_formatted (f : FatState) (boot : Sector) (hboot : boot.length = 512) :
    Keeps f (((f.wipe.writeSector 0 boot).writeSector 1 freshFatSector).writeSector 10 freshFatSector) := by
  have hfresh : freshFatSector.length = 512 := by rw [freshFatSector, List.length_append, List.length_replicate]; rfl
  refine ⟨fun h => ?_, fun h _ k hk => ?_, fun h _ => ?_⟩
  · obtain ⟨-, hwf, -⟩ := FatState.wipe_spec f h
    exact FatState.wf_writeSector (FatState.wf_writeSector (FatState.wf_writeSector hwf (by decide) hboot) (by decide) hfresh)
      (by decide) hfresh
  · obtain ⟨hview, -, -⟩ := FatState.wipe_spec f h
    rw [FatState.fatByte_view, FatState.fatByte_view, FatState.fatView, FatState.fatView]
    simp only [FatState.view_writeSector, hview]
    have : k / 512 < 9 := by omega
    by_cases h0 : k / 512 = 0
    · simp [h0]
    · rw [if_neg (by omega), if_neg (by omega), if_neg (by omega), if_neg (by omega), if_neg (by omega), if_neg (by omega)]
  · obtain ⟨-, -, hagrees⟩ := FatState.wipe_spec f h
    exact FatState.agrees_writeSector _ _ (FatState.agrees_writeSector _ _ (FatState.agrees_writeSector _ _ hagrees))

theorem endsFlushed_format (f : FatState) (oem : List Byte) (serial : BitVec 32) (label : List Byte) :
    EndsFlushed f (f.format oem serial label) := ⟨_, keeps_formatted f _ (length_bootSector oem serial label), rfl⟩

theorem endsFlushed_serve (f : FatState) {q : FatRequest} (h : q.isMutating = true) : EndsFlushed f (f.serve q) := by
  cases q with
  | format oem serial label => exact endsFlushed_format f oem serial label
  | writeFile path name data now =>
    have := endsFlushed_writeFile f path name data now
    rwa [← FatResult.tell_snd _ fun _ => .done] at this
  | mkdir path name now =>
    have := endsFlushed_mkdir f path name now
    rwa [← FatResult.tell_snd _ fun _ => .done] at this
  | deleteEntry path name =>
    have := endsFlushed_deleteEntry f path name
    rwa [← FatResult.tell_snd _ .truth] at this
  | renameEntry path old new =>
    have := endsFlushed_renameEntry f path old new
    rwa [← FatResult.tell_snd _ fun _ => .done] at this
  | _ => cases h

/-- Settles O60: each mutating operation is a flush after steps that keep the invariants. -/
theorem mutationsFlushAndKeepTheFatsIdentical : Obligations.MutationsFlushAndKeepTheFatsIdentical := by
  intro f q hq hwf
  obtain ⟨g, hkeeps, hg⟩ := endsFlushed_serve f hq
  have hend : Keeps f (f.serve q) := hg ▸ hkeeps.trans (keeps_flush g)
  exact ⟨hend.wf hwf, hg ▸ rfl, hend.fats hwf, hend.agrees hwf⟩

end Sys2Proof.Machine
end

/-! # The COM launch state (70_reset_and_hazards R665-R667) -/

section

namespace Sys2Proof.Machine

/-! ## Loading bytes -/

theorem addr_add_succ (a : Addr) (k : Nat) : a + 1#20 + BitVec.ofNat 20 k = a + BitVec.ofNat 20 (k + 1) := by
  rw [BitVec.add_assoc, BitVec.add_comm 1#20, BitVec.ofNat_add]

/-- A byte outside the loaded range is as before. -/
theorem memRead8_load_ne (bs : List Byte) (s : State) {a c : Addr} (h : ∀ k < bs.length, c ≠ a + BitVec.ofNat 20 k) :
    (s.load a bs).memRead8 c = s.memRead8 c := by
  induction bs generalizing s a with
  | nil => rfl
  | cons b bs ih =>
    have h0 : c ≠ a := by simpa using h 0 (Nat.succ_pos _)
    rw [State.load, ih (s.memWrite8 a b) fun k hk => addr_add_succ a k ▸ h (k + 1) (Nat.succ_lt_succ hk),
      State.memRead8_memWrite8_ne s h0]

/-- A loaded byte stands where it was loaded. -/
theorem memRead8_load (bs : List Byte) (s : State) (a : Addr) (hlen : bs.length ≤ 2 ^ 20) {k : Nat} {b : Byte}
    (hk : bs[k]? = some b) : (s.load a bs).memRead8 (a + BitVec.ofNat 20 k) = b := by
  induction bs generalizing s a k with
  | nil => simp at hk
  | cons c bs ih =>
    rw [List.length_cons] at hlen
    cases k with
    | zero =>
      obtain rfl : c = b := by simpa using hk
      rw [BitVec.add_zero, State.load, memRead8_load_ne, State.memRead8_memWrite8_same]
      intro k hlt heq
      rw [addr_add_succ, left_eq_add] at heq
      have hzero : (BitVec.ofNat 20 (k + 1)).toNat = 0 := congrArg BitVec.toNat heq
      rw [BitVec.toNat_ofNat] at hzero
      omega
    | succ k =>
      rw [← addr_add_succ]
      exact ih _ _ (by omega) (by simpa using hk)

theorem phys_add (seg : Word) {o k : Nat} (h : o + k < 65536) :
    phys seg (BitVec.ofNat 16 (o + k)) = phys seg (BitVec.ofNat 16 o) + BitVec.ofNat 20 k := by
  apply BitVec.eq_of_toNat_eq
  rw [phys_eq_ofNat, phys_eq_ofNat]
  simp only [BitVec.toNat_add, BitVec.toNat_ofNat]
  omega

/-! ## Blocks of bytes at rising offsets of a segment -/

/-- Blocks of bytes, each loaded at its offset. -/
def State.loadBlocks (s : State) (seg : Word) : List (Nat × List Byte) → State
  | [] => s
  | p :: ps => (s.loadAt seg (BitVec.ofNat 16 p.1) p.2).loadBlocks seg ps

/-- The blocks stand one after the other inside the segment. -/
def Rising (ps : List (Nat × List Byte)) : Prop :=
  ps.Pairwise (fun p q => p.1 + p.2.length ≤ q.1) ∧ ∀ p ∈ ps, p.1 + p.2.length ≤ 65536

section
variable {seg : Word} {ps : List (Nat × List Byte)}

theorem memRead8_loadBlocks_below (s : State) {x : Nat} (hps : ∀ p ∈ ps, x < p.1 ∧ p.1 + p.2.length ≤ 65536) :
    (s.loadBlocks seg ps).memRead8 (phys seg (BitVec.ofNat 16 x)) = s.memRead8 (phys seg (BitVec.ofNat 16 x)) := by
  induction ps generalizing s with
  | nil => rfl
  | cons p ps ih =>
    obtain ⟨hp, hrest⟩ := List.forall_mem_cons.mp hps
    rw [State.loadBlocks, ih _ hrest, State.loadAt, memRead8_load_ne]
    intro k hk heq
    rw [← phys_add seg (by omega)] at heq
    have := congrArg BitVec.toNat (phys_injective heq)
    simp only [BitVec.toNat_ofNat] at this
    omega

/-- Every byte of every block stands in memory. -/
theorem memRead8_loadBlocks (s : State) (h : Rising ps) {o k : Nat} {bs : List Byte} (hmem : (o, bs) ∈ ps) {b : Byte}
    (hk : bs[k]? = some b) : (s.loadBlocks seg ps).memRead8 (phys seg (BitVec.ofNat 16 (o + k))) = b := by
  induction ps generalizing s with
  | nil => cases hmem
  | cons p ps ih =>
    obtain ⟨hpair, hfit⟩ := h
    obtain ⟨hhead, htail⟩ := List.pairwise_cons.mp hpair
    obtain ⟨hp, hrest⟩ := List.forall_mem_cons.mp hfit
    rcases List.mem_cons.mp hmem with rfl | hin
    · obtain ⟨hlt, -⟩ := List.getElem?_eq_some_iff.mp hk
      dsimp only at hp hhead
      rw [State.loadBlocks, memRead8_loadBlocks_below _ fun q hq => ⟨by have := hhead q hq; omega, hrest q hq⟩,
        phys_add seg (by omega)]
      exact memRead8_load bs s _ (by omega) hk
    · exact ih _ ⟨htail, hrest⟩ hin

/-- A word loaded as a block. -/
theorem readMem_loadBlocks (s : State) (h : Rising ps) {o : Nat} {v : Word} (hmem : (o, bytes16 v) ∈ ps) :
    (s.loadBlocks seg ps).readMem .word seg (BitVec.ofNat 16 o) = v := by
  have hfit : o + 2 ≤ 65536 := h.2 _ hmem
  have hlow := memRead8_loadBlocks (seg := seg) s h hmem (k := 0) rfl
  have hhigh := memRead8_loadBlocks (seg := seg) s h hmem (k := 1) rfl
  rw [phys_add seg (by omega)] at hhigh
  calc (s.loadBlocks seg ps).readMem .word seg (BitVec.ofNat 16 o)
      = (s.loadBlocks seg ps).memRead8 (phys seg (BitVec.ofNat 16 o) + BitVec.ofNat 20 1)
        ++ (s.loadBlocks seg ps).memRead8 (phys seg (BitVec.ofNat 16 (o + 0))) := rfl
    _ = v := by rw [hlow, hhigh, word_of_halves]

end

/-! ## The image of a COM program -/

/-- The blocks of R666 and R667 in the order of their offsets: the PSP, the image, the zero word. -/
def comBlocks (top env : Word) (tail image : List Byte) : List (Nat × List Byte) :=
  [(0x00, [0xCD#8, 0x20#8]), (0x02, bytes16 top), (0x05, [0xCD#8, 0x21#8, 0xCB#8]), (0x18, pspHandles), (0x2C, bytes16 env),
    (0x80, [BitVec.ofNat 8 tail.length]), (0x81, tail ++ [0x0D#8]), (0x100, image), (0xFFFE, bytes16 0#16)]

theorem launchCom_eq (s : State) (psp top env : Word) (tail image : List Byte) :
    s.launchCom psp top env tail image
      = (s.loadBlocks psp (comBlocks top env tail image)).start psp 0x0100#16 psp 0xFFFE#16 psp psp := rfl

theorem rising_comBlocks (top env : Word) {tail image : List Byte} (ht : tail.length ≤ 126) (hi : image.length ≤ 0xFEFE) :
    Rising (comBlocks top env tail image) := by
  have hh : pspHandles.length = 20 := rfl
  constructor
  · simp [comBlocks, bytes16, hh]
    omega
  · simp [comBlocks, bytes16, hh]
    omega

/-- The handle table of the PSP (R667). -/
theorem pspHandles_get {k : Nat} (hk : k < 20) : pspHandles[k]? = some (if k < 5 then BitVec.ofNat 8 k else 0xFF#8) := by
  interval_cases k <;> rfl

/-- Settles O54: the registers by `start`, every byte by its block. -/
theorem comLaunchState : Obligations.ComLaunchState := by
  intro s psp top env tail image ht hi t byteAt
  have hrise := rising_comBlocks top env ht hi
  have hmem : t.mem = (s.loadBlocks psp (comBlocks top env tail image)).mem :=
    (congrArg State.mem (launchCom_eq s psp top env tail image)).trans rfl
  have hbyte (i : Nat) {o k : Nat} {bs : List Byte} {b : Byte} (hblock : (comBlocks top env tail image)[i]? = some (o, bs))
      (hk : bs[k]? = some b) : byteAt (o + k) = b :=
    (State.memRead8_congr hmem _).trans (memRead8_loadBlocks s hrise (List.mem_of_getElem? hblock) hk)
  have hword (i : Nat) {o : Nat} {v : Word} (hblock : (comBlocks top env tail image)[i]? = some (o, bytes16 v)) :
      t.readMem .word psp (BitVec.ofNat 16 o) = v :=
    (State.readMem_congr_mem hmem ..).trans (readMem_loadBlocks s hrise (List.mem_of_getElem? hblock))
  refine ⟨rfl, fun r hr => ?_, rfl, fun r hr => ?_, rfl, rfl, rfl, rfl, rfl, hbyte 0 (o := 0) (k := 0) rfl rfl,
    hbyte 0 (o := 0) (k := 1) rfl rfl, hword 1 (o := 2) rfl, hbyte 2 (o := 5) (k := 0) rfl rfl,
    hbyte 2 (o := 5) (k := 1) rfl rfl, hbyte 2 (o := 5) (k := 2) rfl rfl,
    fun k hk => hbyte 3 rfl ((pspHandles_get (by omega)).trans (by rw [if_pos hk])),
    fun k h5 hk => hbyte 3 rfl ((pspHandles_get hk).trans (by rw [if_neg h5.not_gt])), hword 4 (o := 0x2C) rfl, ?_,
    fun k b hk => hbyte 6 rfl ?_, hbyte 6 rfl List.getElem?_concat_length, fun k b hk => hbyte 7 rfl hk, hword 8 (o := 0xFFFE) rfl⟩
  · cases r with
    | sp => exact absurd rfl hr
    | _ => rfl
  · cases r with
    | fs | gs => simp at hr
    | _ => rfl
  · have hlen : byteAt 0x80 = BitVec.ofNat 8 tail.length := hbyte 5 (o := 0x80) (k := 0) rfl rfl
    rw [hlen, BitVec.toNat_ofNat]
    omega
  · obtain ⟨hlt, -⟩ := List.getElem?_eq_some_iff.mp hk
    rw [List.getElem?_append_left hlt, hk]

end Sys2Proof.Machine
end
